-- ==== Sys2Proof/Word.lean ====
section
/-! DEFINITION. The words of the Pernola EQ32: memory words, bytes, samples and coefficients
(00_scope sections 5.1 and 5.3, R1, R2). -/

namespace Sys2Proof

/-- A word of shared memory or of the register window: 32 bits (00_scope 5.1, 5.6). -/
abbrev Word := BitVec 32

/-- The smallest addressable unit of shared memory (00_scope 5.1). -/
abbrev Byte := BitVec 8

/-- A sample: a signed 16-bit integer (R1). Its value is `BitVec.toInt`. -/
abbrev Sample := BitVec 16

/-- A coefficient: a signed 24-bit integer, gain `c / 2^20` (R2). Its value is `BitVec.toInt`. -/
abbrev Coef := BitVec 24

end Sys2Proof
end

