-- ==== Sys2Proof/Syntax.lean ====
section
/-! DEFINITION. The commands of the EQ32: one constructor per row of spec/opcode_table.json. -/

namespace Sys2Proof

/-- One write of the host into shared memory: a run of bytes from an address upward. -/
structure HostWrite where
  addr  : Word
  bytes : List Byte
deriving DecidableEq, Repr

/-- What the bus brings to one access of the part (log 1): the host's writes that are taken before
the access (R100, R101, R157, R171, R172), and whether the access meets a bus error (R103, R150,
R160). -/
structure BusSlot where
  host : List HostWrite
  err  : Bool
deriving DecidableEq, Repr

/-- One slot for each access of the part, in the order of the accesses. An access past the end meets
no host write and no error; slots past the last access give their host writes at the event's end. -/
abbrev Bus := List BusSlot

/-- The levels of LSYNC sampled at one bit clock: at the clock before, and at this one (R106). -/
structure LSync where
  before : Bool
  now    : Bool
deriving DecidableEq, Repr

/-- A bit clock at which LSYNC changes: how many bit clocks after the sync that the frame position
counts from, and the levels. -/
structure SyncAt where
  clocks : Nat
  lsync  : LSync
deriving DecidableEq, Repr

/-- LSYNC's change at the place of a frame arrival, with the bus script of the frame's work. -/
structure Arrival where
  lsync : LSync
  bus   : Bus
deriving DecidableEq, Repr

/-- The levels of LRX sampled in the sixteen bit clocks of a timeslot, the first to arrive first
(R106). -/
abbrev Lrx := Vector Bool 16

/-- The commands and events of the part. Operands: a register write carries the word written; a
line event carries what the port sees; a command during which the part works as bus master carries
its bus script. -/
inductive Instr where
  /-- RESET_N asserted (R39). -/
  | hardwareReset
  /-- Host write of TABLE_BASE (R162). -/
  | tableBaseWrite (v : Word)
  /-- Host write of LINE_FORMAT (R107). -/
  | lineFormatWrite (v : Word)
  /-- PART_CONTROL write with ENABLE 1 and SOFT_RESET 0 (R163, R117); `v` gives the other bits. -/
  | enable (v : Word)
  /-- PART_CONTROL write with ENABLE 0 (R163, R117); `v` gives the other bits. -/
  | disable (v : Word)
  /-- PART_CONTROL write with SOFT_RESET 1 (R163, R164); `v` gives the other bits. -/
  | softReset (v : Word)
  /-- PART_CONTROL write with ENABLE 1, SOFT_RESET 0 and LINE_RESTART 1 (R163, R116); `v` gives the
  other bits. -/
  | lineRestart (v : Word) (bus : Bus)
  /-- PART_CONTROL write without action that sets ATTN_THRESHOLD and leaves ENABLE and ATTN_MODE as
  they stand (R169). -/
  | setAttnThreshold (t : BitVec 3)
  /-- PART_CONTROL write without action that sets ATTN_MODE and ATTN_THRESHOLD and leaves ENABLE as
  it stands (R169). -/
  | setAttnMode (pulse : Bool) (t : BitVec 3)
  /-- Read of ATTN_CLAIM (R167). -/
  | claim
  /-- Read of ATTN_PEEK (R167). -/
  | peek
  /-- Write of ATTN_CLAIM (R168). -/
  | sourceCompletion (v : Word)
  /-- Write of PART_STATUS, of ATTN_PEEK or of an offset the window does not decode (R161). -/
  | ignoredRegisterWrite (offset v : Word)
  /-- A change of LSYNC in HUNT, so many bit clocks after the last counted sync (R106, R108). -/
  | syncInHunt (sync : SyncAt) (bus : Bus)
  /-- A frame length passes in HUNT with no sync at its end (R108). -/
  | huntFrameMissed
  /-- A change of LSYNC one frame length after the last accepted sync or missing frame (R106, R110,
  R111). -/
  | frameArrival (arrival : Arrival)
  /-- A change of LSYNC at another bit clock, so many after the last accepted sync or missing frame
  (R106, R110). -/
  | syncIgnored (sync : SyncAt)
  /-- A frame length passes while LOCKED with no sync at its end (R110). -/
  | missingFrame
  /-- The sixteenth bit of a timeslot is sampled (R106, R113). -/
  | sampleDelivery (slot : BitVec 5) (lrx : Lrx)
  /-- The stall timer expires (R114, R115). -/
  | stall (bus : Bus)
  /-- A maintenance visit (R136). -/
  | maintenanceVisit (bus : Bus)
  /-- The 1 µs pulse of the ATTN pin expires (R170). -/
  | attnPulseEnd
deriving DecidableEq, Repr

end Sys2Proof
end

