-- ==== Sys2Proof/Decode.lean ====
section
/-! DEFINITION. Commands spelt by bits. The part has no instruction words: spec/opcode_table.json
gives none of its 22 rows any bits (its "fields" are empty), so no word spells a command. -/

namespace Sys2Proof

/-- The command that `nbits` bits `w` spell: none, for every row of the table is without bits. -/
def decodeTableWord (_nbits _w : Nat) : Option Instr := none

end Sys2Proof
end

