-- ==== Sys2Proof/Machine/State.lean ====
section
/-! DEFINITION. The state of the EQ32, whole, as plain data, and its value after hardware reset.
Each field's docstring names the rule of spec/ that gives it. -/

namespace Sys2Proof.Machine

/-! ## Line port (06, R105) -/

/-- Port state (R105). -/
inductive PortState where
  | off | hunt | locked
deriving DecidableEq, Repr

/-- The two slot counts of a frame (R106, R107). -/
inductive SlotCount where
  | n24 | n32
deriving DecidableEq, Repr

/-- A line format (R105): slot count, sync polarity, bit offset. -/
structure Format where
  slots    : SlotCount
  polarity : Bool
  offset   : BitVec 2
deriving DecidableEq, Repr

/-- The format after hardware reset: 32 slots, polarity 0, offset 0 (R105). -/
def Format.reset : Format := ⟨.n32, false, 0#2⟩

/-- The line port's own state (R105). Its per-channel buffers stand in `LineBuf`. -/
structure Port where
  /-- Port state. -/
  state      : PortState
  /-- The format the LINE_FORMAT register holds (R107). -/
  pendingFmt : Format
  /-- The format the port frames by (R107). -/
  activeFmt  : Format
  /-- Consecutive in-place syncs seen in HUNT, 0 to 8 (R108). -/
  syncRun    : Nat
  /-- Bit clocks since the last accepted or counted sync, as of the last line event. -/
  framePos   : Nat
  /-- Frame count, 0 to 39. -/
  frameCount : Nat
  /-- The stall timer is armed (R114). -/
  stallArmed : Bool
  /-- The sample taken for each timeslot of the frame being shifted out on LTX (R111, R112), or
  `none` while no frame is exchanged and LTX is driven low (R106, R108, R110). -/
  frameOut   : Option (List Sample)
deriving DecidableEq, Repr

def Port.reset : Port :=
  { state := .off, pendingFmt := .reset, activeFmt := .reset, syncRun := 0, framePos := 0,
    frameCount := 0, stallArmed := false, frameOut := none }

/-- The line buffers of one channel (R105, R112, R113). -/
structure LineBuf where
  /-- Play buffer: the 40 transmit samples of the block in progress. -/
  play    : List Sample
  /-- Position 0 to 39 of the next sample to send. -/
  playPos : Nat
  /-- Capture buffer: the received samples of the block in progress, in time order. -/
  capture : List Sample
  /-- The channel has a block in progress. -/
  inBlock : Bool
deriving DecidableEq, Repr

def LineBuf.reset : LineBuf :=
  { play := List.replicate 40 0#16, playPos := 0, capture := [], inBlock := false }

/-! ## Channel context: arithmetic (01, R6) -/

/-- Lengths, coefficients, cursor index, bulk delay and far taps in use (R6). -/
structure Filters where
  ln : Nat
  lf : Nat
  le : Nat
  /-- Cursor index in use (R28). -/
  cursorTap : Nat
  /-- Near coefficients. -/
  hn : List Coef
  /-- Far coefficients. -/
  hf : List Coef
  /-- Equalizer coefficients. -/
  g  : List Coef
  /-- Bulk delay D; 0 while the far canceller is off. -/
  delay : Nat
  /-- Far taps in use, Lf_eff; 0 while the far canceller is off. -/
  lfEff : Nat
deriving DecidableEq, Repr

def Filters.reset : Filters :=
  { ln := 0, lf := 0, le := 0, cursorTap := 0, hn := [], hf := [], g := [], delay := 0, lfEff := 0 }

/-- One entry of the output store (R6): the 40 equalizer outputs of a block and its overload flag. -/
structure OutBlock where
  z        : List Sample
  overload : Bool
deriving DecidableEq, Repr

def OutBlock.reset : OutBlock := { z := List.replicate 40 0#16, overload := false }

/-- The histories of a channel context (R6). `near` and `resid` are held newest first: position `i`
is the sample `i + 1` places before the first sample of the block in progress. -/
structure Hist where
  /-- Near history, 63 transmit samples. -/
  near     : List Sample
  /-- Residual store, 143 residuals. -/
  resid    : List Sample
  /-- Output store, newer entry. -/
  outNew   : OutBlock
  /-- Output store, older entry. -/
  outOld   : OutBlock
  /-- Last received sample. -/
  lastRecv : Sample
  /-- Stuck run, 0 to 200. -/
  stuckRun : Nat
deriving DecidableEq, Repr

def Hist.reset : Hist :=
  { near := List.replicate 63 0#16, resid := List.replicate 143 0#16, outNew := .reset,
    outOld := .reset, lastRecv := 0#16, stuckRun := 0 }

/-! ## Channel context: delay search (03, R57) -/

/-- The result of a channel's last ended search (R66, R72). IN_PROGRESS is no stored result: it is
what is reported while SWEEPING. -/
inductive SearchResult where
  | notRun | found | cutShort | rejected | cutRejected | poolShort
deriving DecidableEq, Repr

/-- Search state of a channel (R57). -/
structure Search where
  /-- Search status: SWEEPING, or IDLE. -/
  sweeping    : Bool
  /-- Effective upper delay Dmax_eff. -/
  dmaxEff     : Nat
  /-- Sweep length N. -/
  sweepLen    : Nat
  /-- Next search block j. -/
  nextBlock   : Nat
  bestLag     : Nat
  bestScore   : Nat
  scoreSum    : Nat
  /-- Lags evaluated. -/
  lagsEval    : Nat
  lastResult  : SearchResult
  lastBestLag : Nat
deriving DecidableEq, Repr

def Search.reset : Search :=
  { sweeping := false, dmaxEff := 0, sweepLen := 0, nextBlock := 0, bestLag := 0, bestScore := 0,
    scoreSum := 0, lagsEval := 0, lastResult := .notRun, lastBestLag := 0 }

/-! ## Channel context: chain walker (05, R87) -/

/-- Cursor mode (R87). -/
inductive CursorMode where
  | atRecord | watching
deriving DecidableEq, Repr

/-- Save outcomes, in the codes' order of R85. -/
inductive SaveOutcome where
  | none | saved | notSaved | pinned | busy | storeFull
deriving DecidableEq, Repr

/-- The in-flight record and its attributes (R87). The layout follows from the two flags (R83). -/
structure InFlight where
  addr        : Word
  refPresent  : Bool
  residWanted : Bool
  notify      : Bool
  /-- DIRECTIVE_REJECTED, decided at take (R50). -/
  rejected    : Bool
  /-- Save outcome of a SAVE_NOW, decided at take (R54). -/
  save        : SaveOutcome
deriving DecidableEq, Repr

/-- The chain walker's items for one line channel (R87). -/
structure Walker where
  cursor        : Word
  mode          : CursorMode
  inflight      : Option InFlight
  /-- Gap count, 0 to 65535. -/
  gapCount      : Nat
  /-- Taken run, 0 to 65535. -/
  takenRun      : Nat
  /-- Starvation reported. -/
  starvReported : Bool
deriving DecidableEq, Repr

def Walker.reset : Walker :=
  { cursor := 0#32, mode := .atRecord, inflight := none, gapCount := 0, takenRun := 0,
    starvReported := false }

/-! ## Channel context: lifecycle (02, R27, R28) -/

/-- Channel states (R27). -/
inductive ChanState where
  | closed | training | tracking | held | fault
deriving DecidableEq, Repr

/-- The two states a HELD channel can resume (R27). -/
inductive RunState where
  | training | tracking
deriving DecidableEq, Repr

/-- Outcomes of the lookup at open (R33, R122). -/
inductive LookupOutcome where
  | notUsed | hit | mismatch | busy | miss
deriving DecidableEq, Repr

/-- One phase entry of a training program (R40). -/
structure Phase where
  search    : Bool
  nearAdapt : Bool
  farAdapt  : Bool
  eqAdapt   : Bool
  warm      : Bool
  nearShift : Nat
  farShift  : Nat
  eqShift   : Nat
  duration  : Nat
  /-- Target T. -/
  target    : Nat
  /-- Run K. -/
  runK      : Nat
deriving DecidableEq, Repr

/-- An entry with every field clear; it stands for no phase of a program. -/
def Phase.blank : Phase :=
  { search := false, nearAdapt := false, farAdapt := false, eqAdapt := false, warm := false,
    nearShift := 0, farShift := 0, eqShift := 0, duration := 0, target := 0, runK := 0 }

/-- The context of one line channel. -/
structure Channel where
  state         : ChanState
  /-- Resume state; `none` outside HELD (R27). -/
  resume        : Option RunState
  /-- Hold reason DIRECTIVE. -/
  holdDirective : Bool
  /-- Hold reason LINE. -/
  holdLine      : Bool
  timeslot      : Option Nat
  /-- Program copy (R40). -/
  program       : List Phase
  progLen       : Nat
  phaseIndex    : Nat
  /-- Phase block count. -/
  blockCount    : Nat
  /-- Early-exit run. -/
  earlyRun      : Nat
  /-- Divergence run. -/
  divRun        : Nat
  /-- Divergence count. -/
  divCount      : Nat
  trackNear     : Nat
  trackFar      : Nat
  trackEq       : Nat
  /-- Transmit-energy floor Tf. -/
  tf            : Nat
  /-- Received-energy floor Rf. -/
  rf            : Nat
  /-- Acceptance ratio A. -/
  ratio         : Nat
  dmin          : Nat
  dmax          : Nat
  /-- Policy flag: use profile. -/
  useProfile    : Bool
  /-- Policy flag: save profile. -/
  saveProfile   : Bool
  /-- Policy flag: divergence guard. -/
  guard         : Bool
  routeTag      : Word
  /-- Profile outcome at open, as the status area shows it (R122, R158). -/
  profileOutcome : LookupOutcome
  /-- Last save outcome, as the status area shows it (R125, R158). -/
  lastSave      : SaveOutcome
  /-- The model's own: a rule has ordered a status write in the event in progress (log 16). -/
  statusDue     : Bool
  filt          : Filters
  hist          : Hist
  /-- Segment list, newest history first (R73). -/
  segs          : List Nat
  /-- Pool history by age: position 0 is the newest sample (R75). -/
  poolHist      : List Sample
  search        : Search
  walk          : Walker
  line          : LineBuf
deriving DecidableEq, Repr

/-- A channel context after hardware reset (R7, R28, R57, R73, R87, R105). -/
def Channel.reset : Channel :=
  { state := .closed, resume := none, holdDirective := false, holdLine := false, timeslot := none,
    program := [], progLen := 0, phaseIndex := 0, blockCount := 0, earlyRun := 0, divRun := 0,
    divCount := 0, trackNear := 0, trackFar := 0, trackEq := 0, tf := 0, rf := 0, ratio := 0,
    dmin := 0, dmax := 0, useProfile := false, saveProfile := false, guard := false,
    routeTag := 0#32, profileOutcome := .notUsed, lastSave := .none, statusDue := false,
    filt := .reset, hist := .reset, segs := [], poolHist := [], search := .reset, walk := .reset,
    line := .reset }

/-! ## Route profile store (07, R119, R121) -/

/-- Entry states (R119). -/
inductive EntryState where
  | free | valid | importing | exporting
deriving DecidableEq, Repr

/-- A route profile entry (R119). -/
structure Entry where
  state  : EntryState
  tag    : Word
  pinned : Bool
  ln     : Nat
  lf     : Nat
  le     : Nat
  cursor : Nat
  delay  : Nat
  /-- Near, then far, then equalizer coefficients. -/
  coefs  : List Coef
deriving DecidableEq, Repr

def Entry.reset : Entry :=
  { state := .free, tag := 0#32, pinned := false, ln := 0, lf := 0, le := 0, cursor := 0,
    delay := 0, coefs := [] }

/-- The store: 48 entries and their recency order, most recent first (R119, R121). -/
structure Store where
  entries : Vector Entry 48
  recency : List (Fin 48)
deriving DecidableEq, Repr

def Store.reset : Store := { entries := Vector.replicate 48 .reset, recency := [] }

/-! ## Maintenance unit (08, R137) -/

/-- Chain states (R137). -/
inductive ChainState where
  | idle | walking | waiting | faulted
deriving DecidableEq, Repr

/-- The two directives that can stay in flight (R137). -/
inductive TransferKind where
  | importImage | exportImage
deriving DecidableEq, Repr

/-- The store record in flight and the in-flight directive (R137). -/
structure InFlightStore where
  addr   : Word
  kind   : TransferKind
  tag    : Word
  buffer : Word
  notify : Bool
  /-- The pinned flag of an import's header, which R130 applies at the import's end (log 29). -/
  pinned : Bool
deriving DecidableEq, Repr

/-- The maintenance unit's state (R137). -/
structure Maint where
  chain    : ChainState
  cursor   : Word
  mode     : CursorMode
  inflight : Option InFlightStore
  /-- Transfer position. -/
  position : Nat
  /-- Image length. -/
  imageLen : Nat
  /-- Target entry. -/
  target   : Option (Fin 48)
  /-- Running CRC. -/
  crc      : BitVec 16
deriving DecidableEq, Repr

def Maint.reset : Maint :=
  { chain := .idle, cursor := 0#32, mode := .atRecord, inflight := none, position := 0,
    imageLen := 0, target := none, crc := 0xFFFF#16 }

/-! ## Attention unit (10, R165) -/

/-- The causes (R161). -/
inductive Cause where
  | blockDone | state | diverged | starved | farResult | poolShort | profile | stuck | fault
  | requestDone | storeDone | storeFault | lineLocked | lineLost | tableFault
deriving DecidableEq, Repr

/-- One source (R165). Bit `i` of the cause set is bit `8 + i` of ATTN_CLAIM (R161). -/
structure Source where
  causes    : BitVec 16
  inService : Bool
  priority  : BitVec 3
deriving DecidableEq, Repr

/-- The attention unit (R165): the 34 sources, ATTN_MODE, ATTN_THRESHOLD and the pin. -/
structure Attn where
  sources   : Vector Source 34
  /-- ATTN_MODE: pulse, or level. -/
  pulse     : Bool
  threshold : BitVec 3
  /-- The ATTN pin is asserted (R170). -/
  pin       : Bool
deriving DecidableEq, Repr

/-- After hardware reset: no cause, none in service, priority 0 for sources 0 to 32 and the fixed
priority 7 for source 33 (R165); level mode, threshold 0 (R161); pin deasserted (R170). -/
def Attn.reset : Attn :=
  { sources := (Vector.replicate 34 ⟨0#16, false, 0#3⟩).set 33 ⟨0#16, false, 7#3⟩,
    pulse := false, threshold := 0#3, pin := false }

/-! ## The whole state -/

/-- Shared memory: (address, byte) pairs, addresses strictly rising, no byte equal to what an
unlisted address reads as (log 2). -/
abbrev Memory := List Host.Cell

/-- The state of the part, of the shared memory it masters, and of the model's queue. -/
structure State where
  /-- ENABLE (R161). -/
  enabled   : Bool
  /-- Bits 8 to 31 of TABLE_BASE (R161, R162). -/
  tableBase : BitVec 24
  /-- The line port (R105). -/
  port      : Port
  /-- The 32 channel contexts (R6, R28, R57, R87). -/
  chans     : Vector Channel 32
  /-- The history pool's free list, head first (R73). -/
  pool      : List Nat
  /-- The route profile store (R119). -/
  store     : Store
  /-- The maintenance unit (R137). -/
  maint     : Maint
  /-- The attention unit (R165). -/
  attn      : Attn
  /-- The value the register slave port returned at the last read (R167); the model's own. -/
  readData  : Word
  /-- Shared memory (00_scope 5.1), outside the part. -/
  mem       : Memory
  /-- What remains of the bus script of the command in progress; the model's own (log 1). -/
  bus       : Bus
  /-- The counter the free values are applied to; the model's own (log 9). -/
  freeNext  : Nat
  /-- The commands that are waiting, first in, first out; the model's own. -/
  pending   : List Instr
deriving DecidableEq, Repr

/-- The part after hardware reset (R7, R28, R39, R57, R73, R87, R105, R119, R137, R161, R165), with
memory listing nothing and no command waiting. -/
def State.reset : State :=
  { enabled := false, tableBase := 0#24, port := .reset, chans := Vector.replicate 32 .reset,
    pool := List.range 1024, store := .reset, maint := .reset, attn := .reset, readData := 0#32,
    mem := [], bus := [], freeNext := 0, pending := [] }

/-- The reasons a command can stop the machine. There are none: no rule of the manual stops the
part. What the manual calls a fault (FAULT of a channel, FAULTED of the store chain, TABLE_FAULT) is
state. Nothing raises a `Fault`; safe. -/
inductive Fault : Type
deriving DecidableEq, Repr

/-- The reasons a command can be refused. -/
inductive Refusal where
  /-- Raised by an arm of `exec` whose command has no meaning yet; safe. No arm raises it now. -/
  | notModelled (mnemonic : String)
deriving DecidableEq, Repr

end Sys2Proof.Machine
end

