-- ==== Sys2Proof/Machine/Operands.lean ====
section
/-! DEFINITION. The layouts the host and the part share: fields of words, line records (R83 to R86),
descriptors and requests (R153 to R158), store records (R140), lists (R144), profile images (R145)
and their CRC (R149), and the numeric codes of states and outcomes. -/

namespace Sys2Proof.Machine

/-! ## Fields of words -/

/-- The `len` bits of `w` from bit `lo` upward, as a number. -/
def field (w : Word) (lo len : Nat) : Nat := (w.extractLsb' lo len).toNat

/-- Bit `i` of `w`. -/
def flag (w : Word) (i : Nat) : Bool := w.getLsbD i

/-- A word from its four bytes, the one at the lowest address first (00_scope 5.1). -/
def wordOfBytes (b0 b1 b2 b3 : Byte) : Word := (b3 ++ b2) ++ (b1 ++ b0)

/-- Byte `i` of a word, byte 0 at the lowest address (00_scope 5.1). -/
def byteOf (w : Word) (i : Nat) : Byte := w.extractLsb' (8 * i) 8

/-- A word from four byte fields, the lowest first. -/
def pack4 (b0 b1 b2 b3 : Nat) : Word :=
  wordOfBytes (BitVec.ofNat 8 b0) (BitVec.ofNat 8 b1) (BitVec.ofNat 8 b2) (BitVec.ofNat 8 b3)

/-- A word from two half-word fields, the lower first. -/
def pack2 (h0 h1 : Nat) : Word := BitVec.ofNat 16 h1 ++ BitVec.ofNat 16 h0

/-- One where the flag is set. -/
def bitNat (b : Bool) : Nat := if b then 1 else 0

/-- Samples two to a word, the older at the lower address (00_scope 5.1, R83). -/
def packSamples : List Sample → List Word
  | [] => []
  | [x] => [0#16 ++ x]
  | x :: y :: rest => (y ++ x) :: packSamples rest

/-- The samples that words hold, oldest first. -/
def unpackSamples : List Word → List Sample
  | [] => []
  | w :: rest => w.extractLsb' 0 16 :: w.extractLsb' 16 16 :: unpackSamples rest

/-- A non-zero link or address is misaligned when it is no multiple of 4 (R88). -/
def aligned (a : Word) : Bool := a.extractLsb' 0 2 == 0#2

/-! ## Codes -/

/-- The number of timeslots of a frame. -/
def SlotCount.toNat : SlotCount → Nat
  | .n24 => 24
  | .n32 => 32

/-- A frame's length in bit clocks: slot count times 16, plus 4 (R106). -/
def frameLength (f : Format) : Nat := f.slots.toNat * 16 + 4

/-- State codes (R27). -/
def ChanState.code : ChanState → Nat
  | .closed => 0
  | .training => 1
  | .tracking => 2
  | .held => 3
  | .fault => 4

/-- The state a resume state names. -/
def RunState.toState : RunState → ChanState
  | .training => .training
  | .tracking => .tracking

/-- Resume state codes; 0 when not HELD (R158). -/
def resumeCode : Option RunState → Nat
  | none => 0
  | some .training => 1
  | some .tracking => 2

/-- Profile outcome codes (R122). -/
def LookupOutcome.code : LookupOutcome → Nat
  | .notUsed => 0
  | .hit => 1
  | .mismatch => 2
  | .busy => 3
  | .miss => 4

/-- Save outcome codes (R85). -/
def SaveOutcome.code : SaveOutcome → Nat
  | .none => 0
  | .saved => 1
  | .notSaved => 2
  | .pinned => 3
  | .busy => 4
  | .storeFull => 5

/-- Search result codes (R72); IN_PROGRESS, code 1, is reported while SWEEPING. -/
def SearchResult.code : SearchResult → Nat
  | .notRun => 0
  | .found => 2
  | .cutShort => 3
  | .rejected => 4
  | .cutRejected => 5
  | .poolShort => 6

/-- Reference outcomes (R22). -/
inductive RefOutcome where
  | noReference | used | notAdapting | held | gap | overload | stuck
deriving DecidableEq, Repr

/-- Reference outcome codes (R85). -/
def RefOutcome.code : RefOutcome → Nat
  | .noReference => 0
  | .used => 1
  | .notAdapting => 2
  | .held => 3
  | .gap => 4
  | .overload => 5
  | .stuck => 6

/-- Chain state codes (R137). -/
def ChainState.code : ChainState → Nat
  | .idle => 0
  | .walking => 1
  | .waiting => 2
  | .faulted => 3

/-- Port state codes (R161). -/
def PortState.code : PortState → Nat
  | .off => 0
  | .hunt => 1
  | .locked => 2

/-- Entry state codes of a list (R144). -/
def EntryState.code : EntryState → Nat
  | .free => 0
  | .valid => 1
  | .importing => 2
  | .exporting => 3

/-! ## Dispositions (R86) -/

def dispPosted : Word := 1#32
def dispTaken : Word := 2#32
def dispDone : Word := 3#32
def dispRefused : Word := 4#32
def dispClosed : Word := 5#32
def dispLineLost : Word := 6#32
def dispAbandoned : Word := 7#32

/-! ## Line records (R83, R84) -/

/-- The control word's fields (R84). -/
structure Control where
  declLen     : Nat
  refPresent  : Bool
  residWanted : Bool
  notify      : Bool
  dirCode     : Nat
  dirArg      : Nat
deriving DecidableEq, Repr

/-- The control word decoded (R84). -/
def decodeControl (w : Word) : Control :=
  { declLen := field w 0 8, refPresent := flag w 8, residWanted := flag w 9, notify := flag w 10,
    dirCode := field w 16 8, dirArg := field w 24 8 }

/-- The length in words of a well-formed record with these flags (R83). -/
def recordLength (refPresent residWanted : Bool) : Nat :=
  52 + 20 * bitNat refPresent + 20 * bitNat residWanted

/-- Offset of the reference samples, when the record has them (R83). -/
def refOffset : Word := 96#32

/-- Offset of the equalizer outputs (R83). -/
def outputOffset (refPresent : Bool) : Word := if refPresent then 176#32 else 96#32

/-- Offset of the residuals, when the record has them (R83). -/
def residOffset (refPresent : Bool) : Word := outputOffset refPresent + 80#32

/-- Offset of the metrics block, the record's last 32 bytes (R83, R85). -/
def metricsOffset (refPresent residWanted : Bool) : Word :=
  if residWanted then residOffset refPresent + 80#32 else outputOffset refPresent + 80#32

/-- The values of a metrics block (R85). -/
structure Metrics where
  ex        : Nat
  er        : Nat
  eu        : Nat
  ee        : Nat
  clip      : Nat
  outcome   : RefOutcome
  state     : ChanState
  phase     : Nat
  overload  : Bool
  stuck     : Bool
  held      : Bool
  searching : Bool
  rejected  : Bool
  nearAdapted : Bool
  farAdapted  : Bool
  eqAdapted   : Bool
  save      : SaveOutcome
  searchCode : Nat
  gap       : Nat
  delay     : Nat
  bestLag   : Nat
  lfEff     : Nat
deriving DecidableEq, Repr

/-- The flags half-word of a metrics block (R85). -/
def Metrics.flags (m : Metrics) : Nat :=
  bitNat m.overload + 2 * bitNat m.stuck + 4 * bitNat m.held + 8 * bitNat m.searching
    + 16 * bitNat m.rejected + 32 * bitNat m.nearAdapted + 64 * bitNat m.farAdapted
    + 128 * bitNat m.eqAdapted

/-- The eight words of a metrics block (R85). -/
def Metrics.words (m : Metrics) : List Word :=
  [BitVec.ofNat 32 m.ex, BitVec.ofNat 32 m.er, BitVec.ofNat 32 m.eu, BitVec.ofNat 32 m.ee,
   pack4 m.clip m.outcome.code m.state.code m.phase,
   pack4 m.flags 0 m.save.code m.searchCode,
   pack2 m.gap m.delay,
   pack2 m.bestLag m.lfEff]

/-! ## Descriptors (R152 to R158) -/

/-- The table base: TABLE_BASE with its low 8 bits 0 (R152). -/
def tableAddr (base : BitVec 24) : Word := base ++ 0#8

/-- The address of descriptor `n` (R152). -/
def descAddr (base : BitVec 24) (n : Nat) : Word := tableAddr base + BitVec.ofNat 32 (256 * n)

/-- The configuration words of an OPEN, as the host wrote them (R153). -/
structure OpenReq where
  firstRecord : Word
  tag         : Word
  timeslot    : Nat
  ln          : Nat
  lf          : Nat
  le          : Nat
  cursor      : Nat
  priority    : BitVec 3
  useProfile  : Bool
  saveProfile : Bool
  guard       : Bool
  tf          : Nat
  rf          : Nat
  dmin        : Nat
  dmax        : Nat
  ratio       : Nat
  trackNear   : Nat
  trackFar    : Nat
  trackEq     : Nat
  progLen     : Nat
deriving DecidableEq, Repr

/-- Words 8 to 40 of a descriptor decoded (R153). -/
def decodeOpen (ws : List Word) : OpenReq :=
  let w := fun i => ws.getD i 0#32
  { firstRecord := w 0, tag := w 1,
    timeslot := field (w 2) 0 8, ln := field (w 2) 8 8, lf := field (w 2) 16 8,
    le := field (w 2) 24 8,
    cursor := field (w 3) 0 8, priority := (w 3).extractLsb' 8 3,
    useProfile := flag (w 3) 16, saveProfile := flag (w 3) 17, guard := flag (w 3) 18,
    tf := (w 4).toNat, rf := (w 5).toNat,
    dmin := field (w 6) 0 16, dmax := field (w 6) 16 16,
    ratio := field (w 7) 0 8, trackNear := field (w 7) 8 8, trackFar := field (w 7) 16 8,
    trackEq := field (w 7) 24 8,
    progLen := field (w 8) 0 8 }

/-- One phase entry decoded from its two words, before clamping (R154). -/
def decodePhase (w0 w1 : Word) : Phase :=
  { search := flag w0 0, nearAdapt := flag w0 1, farAdapt := flag w0 2, eqAdapt := flag w0 3,
    warm := flag w0 4,
    nearShift := field w0 8 8, farShift := field w0 16 8, eqShift := field w0 24 8,
    duration := field w1 0 12, target := field w1 16 4, runK := field w1 24 4 }

/-- Phase entries decoded from their words, two to an entry (R154). -/
def decodePhases : List Word → List Phase
  | w0 :: w1 :: rest => decodePhase w0 w1 :: decodePhases rest
  | _ => []

/-- A step shift clamped (R32): 0 and 8 to 40 kept, 1 to 7 become 8, above 40 become 40. -/
def clampShift (s : Nat) : Nat := if s = 0 then 0 else if s < 8 then 8 else if 40 < s then 40 else s

/-- A duration or run clamped (R32): 0 becomes 1. -/
def clampOne (n : Nat) : Nat := if n = 0 then 1 else n

/-- The acceptance ratio clamped into 2 to 64 (R32). -/
def clampRatio (a : Nat) : Nat := if a < 2 then 2 else if 64 < a then 64 else a

/-- A delay bound clamped into 64 to 4992 (R32). -/
def clampDelay (d : Nat) : Nat := if d < 64 then 64 else if 4992 < d then 4992 else d

/-- Dmax clamped, then raised to Dmin when below it (R32). -/
def clampDmax (dmin dmax : Nat) : Nat :=
  if clampDelay dmax < clampDelay dmin then clampDelay dmin else clampDelay dmax

/-- A phase entry clamped as it is copied (R32). -/
def clampPhase (p : Phase) : Phase :=
  { p with nearShift := clampShift p.nearShift, farShift := clampShift p.farShift,
           eqShift := clampShift p.eqShift, duration := clampOne p.duration,
           runK := clampOne p.runK }

/-- `n` is a positive multiple of 8 up to `top` (R30, 00_scope 5.2). -/
def onGrid (n top : Nat) : Bool := n % 8 == 0 && 8 ≤ n && n ≤ top

/-- The lengths an OPEN and an image header may have (R30 condition 3, R146). -/
def lengthsOk (ln lf le : Nat) : Bool :=
  onGrid ln 64 && (lf == 0 || onGrid lf 128) && onGrid le 64

/-- A response: its code and its reason (R156). -/
structure Response where
  code   : Nat
  reason : Nat
deriving DecidableEq, Repr

def respOpened (outcome : LookupOutcome) : Response := ⟨1, outcome.code⟩
def respClosed : Response := ⟨2, 0⟩
def respNotClosed : Response := ⟨3, 0⟩
def respNotOpen : Response := ⟨4, 0⟩
def respSlot : Response := ⟨5, 0⟩
/-- The reason is the condition of R30 that refused, 3 or 4. -/
def respLengths (condition : Nat) : Response := ⟨6, condition⟩
/-- Reason 1: program length not 1 to 8. Reason 2: a search phase with Lf 0. -/
def respProgram (reason : Nat) : Response := ⟨7, reason⟩
def respAddress : Response := ⟨8, 0⟩
def respBadRequest (found : Nat) : Response := ⟨9, found⟩

/-- The response word (R156). -/
def Response.word (r : Response) : Word := pack4 r.code r.reason 0 0

/-- The checks of an OPEN in the order of R30; `none` where it passes. `closed` says that the channel
is CLOSED, `slots` is the active slot count, `slotTaken` says that the timeslot is that of another
running channel, `phases` are the first program-length entries. -/
def openRefusal (closed : Bool) (slots : Nat) (slotTaken : Bool) (r : OpenReq)
    (phases : List Phase) : Option Response :=
  if !closed then some respNotClosed
  else if slots ≤ r.timeslot || slotTaken then some respSlot
  else if !lengthsOk r.ln r.lf r.le then some (respLengths 3)
  else if r.le ≤ r.cursor then some (respLengths 4)
  else if r.progLen == 0 || 8 < r.progLen then some (respProgram 1)
  else if r.lf == 0 && phases.any Phase.search then some (respProgram 2)
  else if r.firstRecord == 0#32 || !aligned r.firstRecord then some respAddress
  else none

/-- The dynamic words 128 to 151 of a channel's status area (R158). -/
def statusWords (c : Channel) : List Word :=
  [pack4 c.state.code (bitNat c.holdDirective + 2 * bitNat c.holdLine) (resumeCode c.resume)
     c.phaseIndex,
   pack4 (bitNat (c.filt.lfEff != 0)) c.filt.lfEff (c.filt.delay % 256) (c.filt.delay / 256),
   pack2 c.segs.length c.divCount,
   pack4 c.profileOutcome.code c.lastSave.code c.filt.cursorTap 0,
   pack2 c.dmin c.dmax,
   pack4 c.ratio c.trackNear c.trackFar c.trackEq]

/-- The two words of an effective phase entry, in the layout of R154 with undecoded bits 0 (R158). -/
def phaseWords (p : Phase) : List Word :=
  [pack4 (bitNat p.search + 2 * bitNat p.nearAdapt + 4 * bitNat p.farAdapt + 8 * bitNat p.eqAdapt
      + 16 * bitNat p.warm) p.nearShift p.farShift p.eqShift,
   pack4 (p.duration % 256) (p.duration / 256) p.target p.runK]

/-- The effective program, words 152 to 215 of a status area: eight entries, 0 at and beyond the
program length (R158). -/
def effectiveProgram (program : List Phase) : List Word :=
  (program.flatMap phaseWords ++ List.replicate 16 0#32).take 16

/-! ## Store records and lists (R140, R144) -/

/-- Result codes of a store record (R140). -/
inductive StoreResult where
  | ok | notFound | pinned | busy | storeFull | crcError | formatError | badDirective | abandoned
deriving DecidableEq, Repr

/-- The result codes' values (R140). -/
def StoreResult.code : StoreResult → Nat
  | .ok => 0
  | .notFound => 1
  | .pinned => 2
  | .busy => 3
  | .storeFull => 4
  | .crcError => 5
  | .formatError => 6
  | .badDirective => 7
  | .abandoned => 8

/-- The in-flight directive's code as descriptor 32 shows it (R137, R158). -/
def directiveCode : Option InFlightStore → Nat
  | none => 0
  | some f => match f.kind with
    | .importImage => 5
    | .exportImage => 6

/-- The two words of one LIST description (R144); `rank` is the entry's recency rank. -/
def listWords (e : Entry) (rank : Nat) : List Word :=
  [e.tag,
   pack4 (e.state.code + 128 * bitNat e.pinned) rank (e.ln / 8 + 16 * (e.le / 8)) (e.lf / 8)]

/-! ## Profile images (R145, R149) -/

/-- The header of an image (R145). -/
structure Header where
  format  : Nat
  count   : Nat
  tag     : Word
  ln      : Nat
  lf      : Nat
  le      : Nat
  cursor  : Nat
  delay   : Nat
  pinned  : Bool
deriving DecidableEq, Repr

/-- Words 0 to 3 of an image decoded (R145). -/
def decodeHeader (ws : List Word) : Header :=
  let w := fun i => ws.getD i 0#32
  { format := field (w 0) 0 16, count := field (w 0) 16 16, tag := w 1,
    ln := field (w 2) 0 8, lf := field (w 2) 8 8, le := field (w 2) 16 8,
    cursor := field (w 2) 24 8, delay := field (w 3) 0 16, pinned := flag (w 3) 16 }

/-- The header checks of an IMPORT (R146). -/
def headerOk (h : Header) : Bool :=
  h.format == 1 && lengthsOk h.ln h.lf h.le && h.count == 4 + h.ln + h.lf + h.le + 1
    && (h.delay == 0 || (64 ≤ h.delay && h.delay ≤ 4992)) && h.cursor < h.le && h.tag != 0#32

/-- The length in words of an entry's image (R145). -/
def imageLength (e : Entry) : Nat := 4 + (e.ln + e.lf + e.le) + 1

/-- The words of an entry's image up to its CRC word: header, then coefficients sign-extended
(R145, R148). -/
def imageBody (e : Entry) : List Word :=
  [pack2 1 (imageLength e), e.tag, pack4 e.ln e.lf e.le e.cursor,
   pack2 e.delay (bitNat e.pinned)] ++ e.coefs.map (BitVec.signExtend 32)

/-- One shift of the running CRC (R149). -/
def crcShift (crc : BitVec 16) : BitVec 16 :=
  if crc.getLsbD 15 then (crc <<< 1) ^^^ 0x1021#16 else crc <<< 1

/-- One byte into the running CRC (R149). -/
def crcByte (crc : BitVec 16) (b : Byte) : BitVec 16 :=
  let c := crc ^^^ (b ++ 0#8)
  crcShift (crcShift (crcShift (crcShift (crcShift (crcShift (crcShift (crcShift c)))))))

/-- One word into the running CRC, its lowest byte first (R149). -/
def crcWord (crc : BitVec 16) (w : Word) : BitVec 16 :=
  crcByte (crcByte (crcByte (crcByte crc (byteOf w 0)) (byteOf w 1)) (byteOf w 2)) (byteOf w 3)

/-- Words into the running CRC, in order (R149). -/
def crcWords (crc : BitVec 16) (ws : List Word) : BitVec 16 := ws.foldl crcWord crc

end Sys2Proof.Machine
end

