-- ==== Sys2Proof/Machine/Flags.lean ====
section
/-! DEFINITION. The attention unit: causes, the claimable set, claim and completion, and the ATTN pin
(R161, R165 to R170). -/

namespace Sys2Proof.Machine

/-- The bit of a cause in a cause set; it stands 8 bits higher in ATTN_CLAIM (R161). -/
def causeIndex : Cause → Nat
  | .blockDone => 0
  | .state => 1
  | .diverged => 2
  | .starved => 3
  | .farResult => 4
  | .poolShort => 5
  | .profile => 6
  | .stuck => 7
  | .fault => 8
  | .requestDone => 9
  | .storeDone => 10
  | .storeFault => 11
  | .lineLocked => 12
  | .lineLost => 13
  | .tableFault => 14

/-- A cause as a cause set of one. -/
def causeBit (c : Cause) : BitVec 16 := 1#16 <<< causeIndex c

/-- The source of a line channel. -/
def chanSource (n : Fin 32) : Fin 34 := ⟨n.val, by omega⟩

/-- The maintenance source. -/
def maintSource : Fin 34 := 32

/-- The part source. -/
def partSource : Fin 34 := 33

/-- A source is claimable: causes waiting, priority above the threshold, not in service (R165). -/
def claimable (a : Attn) (i : Fin 34) : Bool :=
  a.sources[i].causes != 0#16 && a.threshold < a.sources[i].priority && !a.sources[i].inService

/-- Some source is claimable. -/
def anyClaimable (a : Attn) : Bool := (List.finRange 34).any (claimable a)

/-- Some source is claimable after that was not before: a gain of the claimable set (R170). -/
def gains (old new : Attn) : Bool :=
  (List.finRange 34).any fun i => claimable new i && !claimable old i

/-- The pin after an event that leaves the mode as it was and takes the unit from `old` to `new`:
level mode follows the claimable set, pulse mode asserts at a gain (R170). -/
def settlePin (old new : Attn) : Attn :=
  if new.pulse then { new with pin := old.pin || gains old new }
  else { new with pin := anyClaimable new }

/-- Source `i` changed by `f`, with the pin settled. -/
def updateSource (i : Fin 34) (f : Source → Source) (a : Attn) : Attn :=
  settlePin a { a with sources := a.sources.set i (f a.sources[i]) }

/-- A raise (R166): no effect at priority 0, otherwise the cause joins the set. -/
def attnRaise (i : Fin 34) (c : Cause) (a : Attn) : Attn :=
  if a.sources[i].priority = 0#3 then a
  else updateSource i (fun src => { src with causes := src.causes ||| causeBit c }) a

/-- The priority an accepted OPEN copies; 0 also empties the cause set (R165). -/
def attnSetPriority (i : Fin 34) (p : BitVec 3) (a : Attn) : Attn :=
  updateSource i
    (fun src => { src with priority := p, causes := if p = 0#3 then 0#16 else src.causes }) a

/-- Of the sources listed, the claimable one of highest priority, the first listed on a tie. -/
def pickFrom (a : Attn) : List (Fin 34) → Option (Fin 34)
  | [] => none
  | i :: rest =>
    match pickFrom a rest with
    | none => if claimable a i then some i else none
    | some b =>
      if claimable a i && !(a.sources[i].priority < a.sources[b].priority) then some i else some b

/-- The source a claim selects: highest priority, lowest number on a tie (R167). -/
def claimPick (a : Attn) : Option (Fin 34) := pickFrom a (List.finRange 34)

/-- The value a claim or a peek returns (R167): source and causes, or 63. -/
def claimValue (a : Attn) : Word :=
  match claimPick a with
  | none => 63#32
  | some i => (0#8 ++ a.sources[i].causes) ++ BitVec.ofNat 8 i.val

/-- The claim's effect: the selected source's causes are emptied and it enters service (R167). -/
def attnClaim (a : Attn) : Attn :=
  match claimPick a with
  | none => a
  | some i => updateSource i (fun src => { src with causes := 0#16, inService := true }) a

/-- A completion of source number `i`: ignored unless that source is in service (R168). -/
def attnComplete (i : Nat) (a : Attn) : Attn :=
  if h : i < 34 then
    if a.sources[i].inService then
      updateSource ⟨i, h⟩ (fun src => { src with inService := false }) a
    else a
  else a

/-- ATTN_THRESHOLD and ATTN_MODE from a PART_CONTROL write (R169). A write that leaves the mode
settles the pin by R170. Pulse to level: the pin follows the claimable set. Level to pulse: the pin
is deasserted; where the same write's threshold gains a source, whether it is then pulsed is open
and `free` decides (log 9). -/
def attnControl (pulse : Bool) (t : BitVec 3) (free : Bool) (a : Attn) : Attn :=
  let b := { a with pulse := pulse, threshold := t }
  if pulse && !a.pulse then { b with pin := gains a b && free }
  else settlePin a b

/-- The attention unit's part of a soft reset (R164). -/
def attnSoftReset (a : Attn) : Attn :=
  { a with sources := a.sources.map fun src => { src with causes := 0#16, inService := false },
           pin := false }

/-- The end of the pin's pulse in pulse mode (R170). -/
def attnPulseEnds (a : Attn) : Attn := if a.pulse then { a with pin := false } else a

end Sys2Proof.Machine
end

