-- ==== Sys2Proof/Machine/Ops.lean ====
section
/-! DEFINITION. The operations every command is built from: shared memory, bus accesses, channel
updates, raises, the history pool's grants and releases, hold reasons, status writes and entry to
FAULT. -/

namespace Sys2Proof.Machine

/-! ## Shared memory -/

/-- What an address that memory does not list reads as (log 2). -/
def unlistedByte : Byte := 0#8

/-- The byte at an address. -/
def memRead : Memory → Nat → Byte
  | [], _ => unlistedByte
  | (k, v) :: m, a => if a = k then v else memRead m a

/-- One byte stored, keeping the canonical form. -/
def memWrite : Memory → Nat → Byte → Memory
  | [], a, b => if b = unlistedByte then [] else [(a, b)]
  | (k, v) :: m, a, b =>
    if a < k then (if b = unlistedByte then (k, v) :: m else (a, b) :: (k, v) :: m)
    else if a = k then (if b = unlistedByte then m else (a, b) :: m)
    else (k, v) :: memWrite m a b

/-- The canonical form: addresses strictly rising and inside 32 bits, no byte listed that an unlisted
address would read as. -/
abbrev Memory.wf (m : Memory) : Prop :=
  m.Pairwise (fun x y => x.1 < y.1) ∧ ∀ x ∈ m, x.1 < 2 ^ 32 ∧ x.2 ≠ unlistedByte

/-- Bytes stored from an address upward; addresses wrap at 32 bits (log 3). -/
def memWriteBytes : List Byte → Word → Memory → Memory
  | [], _, m => m
  | b :: rest, a, m => memWriteBytes rest (a + 1#32) (memWrite m a.toNat b)

/-- The word at an address, little-endian (00_scope 5.1). -/
def memWord (m : Memory) (a : Word) : Word :=
  wordOfBytes (memRead m a.toNat) (memRead m (a + 1#32).toNat) (memRead m (a + 2#32).toNat)
    (memRead m (a + 3#32).toNat)

/-- A word stored, little-endian (00_scope 5.1). -/
def memSetWord (m : Memory) (a v : Word) : Memory :=
  memWriteBytes [byteOf v 0, byteOf v 1, byteOf v 2, byteOf v 3] a m

/-- A half-word stored, little-endian. -/
def memSetHalf (m : Memory) (a : Word) (v : BitVec 16) : Memory :=
  memWriteBytes [v.extractLsb' 0 8, v.extractLsb' 8 8] a m

/-! ## Bus accesses (log 1) -/

/-- The host writes of one slot, in order. -/
def applyHost (ws : List HostWrite) (m : Memory) : Memory :=
  ws.foldl (fun m w => memWriteBytes w.bytes w.addr m) m

/-- The next slot of the bus script: its host writes reach memory; answers whether the access that
follows meets a bus error. -/
def busSlot (s : State) : Bool × State :=
  match s.bus with
  | [] => (false, s)
  | b :: rest => (b.err, { s with mem := applyHost b.host s.mem, bus := rest })

/-- A command's work under its bus script; host writes of slots left over come after the last
access. -/
def onBus (bus : Bus) (f : State → State) (s : State) : State :=
  let t := f { s with bus := bus }
  { t with mem := t.bus.foldl (fun m b => applyHost b.host m) t.mem, bus := [] }

/-- A word read; `none` on a bus error. -/
def readWord (a : Word) (s : State) : Option Word × State :=
  let (err, s) := busSlot s
  if err then (none, s) else (some (memWord s.mem a), s)

/-- A word written; answers whether the write was made. A write that meets a bus error is not made
(R103, R150, R160). -/
def writeWord (a v : Word) (s : State) : Bool × State :=
  let (err, s) := busSlot s
  if err then (false, s) else (true, { s with mem := memSetWord s.mem a v })

/-- A half-word written, as `writeWord`. -/
def writeHalf (a : Word) (v : BitVec 16) (s : State) : Bool × State :=
  let (err, s) := busSlot s
  if err then (false, s) else (true, { s with mem := memSetHalf s.mem a v })

/-- `n` consecutive words read in ascending order, stopping at a bus error. -/
def readWords : Nat → Word → State → Option (List Word) × State
  | 0, _, s => (some [], s)
  | n + 1, a, s =>
    match readWord a s with
    | (none, s) => (none, s)
    | (some w, s) =>
      match readWords n (a + 4#32) s with
      | (none, s) => (none, s)
      | (some ws, s) => (some (w :: ws), s)

/-- Consecutive words written in ascending order, stopping at a bus error; answers whether all were
made. -/
def writeWords : List Word → Word → State → Bool × State
  | [], _, s => (true, s)
  | w :: ws, a, s =>
    match writeWord a w s with
    | (false, s) => (false, s)
    | (true, s) => writeWords ws (a + 4#32) s

/-! ## Channels and sources -/

/-- The context of channel `n`. -/
def State.chan (s : State) (n : Fin 32) : Channel := s.chans[n]

/-- Channel `n` changed by `f`. -/
def State.modChan (n : Fin 32) (f : Channel → Channel) (s : State) : State :=
  { s with chans := s.chans.set n (f s.chans[n]) }

/-- A channel in TRAINING, TRACKING or HELD is running (R27). -/
def running (c : Channel) : Bool :=
  match c.state with
  | .training => true
  | .tracking => true
  | .held => true
  | .closed => false
  | .fault => false

/-- The channels 0 to 31 in index order. -/
def allChans : List (Fin 32) := List.finRange 32

/-- A cause raised on a source (R166). -/
def raise (i : Fin 34) (c : Cause) (s : State) : State := { s with attn := attnRaise i c s.attn }

/-- A cause raised when the condition holds. -/
def raiseIf (b : Bool) (i : Fin 34) (c : Cause) (s : State) : State := if b then raise i c s else s

/-! ## The history pool (R76, R78, R79) -/

/-- The number of segments needed to reach lag `l` before a block: ceil((l + 40) / 32) (R76). -/
def segsFor (l : Nat) : Nat := (l + 40 + 31) / 32

/-- Granted segments join the oldest end of a channel's list and read as zero (R77, R78). -/
def addSegs (taken : List Nat) (c : Channel) : Channel :=
  { c with segs := c.segs ++ taken,
           poolHist := c.poolHist ++ List.replicate (32 * taken.length) 0#16 }

/-- A grant request of channel `n` for `g` segments (R78): the pool grants what it has from the head
of the free list. -/
def grant (n : Fin 32) (g : Nat) (s : State) : State :=
  { s.modChan n (addSegs (s.pool.take g)) with pool := s.pool.drop g }

/-- The newest `keep` segments of a channel, with the history they carry (R75, R79). -/
def keepSegs (keep : Nat) (c : Channel) : Channel :=
  { c with segs := c.segs.take keep, poolHist := c.poolHist.take (32 * keep) }

/-- Channel `n` keeps its newest `keep` segments and releases the rest, oldest first, to the tail of
the free list (R79). -/
def shrink (n : Fin 32) (keep : Nat) (s : State) : State :=
  { s.modChan n (keepSegs keep) with pool := s.pool ++ ((s.chan n).segs.drop keep).reverse }

/-- Channel `n` releases its whole holding (R79). -/
def releaseAll (n : Fin 32) (s : State) : State := shrink n 0 s

/-- The holding of channel `n` brought to `t` segments, as far as the pool can (R59, R67). -/
def bringHolding (n : Fin 32) (t : Nat) (s : State) : State :=
  let h := (s.chan n).segs.length
  if t < h then shrink n t s
  else if h < t then grant n (t - h) s
  else s

/-! ## Reset forms (R8) -/

/-- Near reset form. -/
def nearReset (f : Filters) : Filters := { f with hn := List.replicate f.ln 0#24 }

/-- Far-off form. -/
def farOff (f : Filters) : Filters :=
  { f with hf := List.replicate f.lf 0#24, delay := 0, lfEff := 0 }

/-- Equalizer reset form: the cursor tap 1048576, every other tap 0. -/
def eqReset (f : Filters) : Filters :=
  { f with g := (List.range f.le).map fun j => if j = f.cursorTap then 1048576#24 else 0#24 }

/-! ## Line buffers (R105, R112, R113) -/

/-- The block in progress ends early, if there is one: the capture is discarded and the play buffer
filled with zeros (R105, R112). That the play position becomes 0 is the model's choice but at a soft
reset, where R105 gives it (DESIGN CHOICE, log 35). -/
def endBlock (c : Channel) : Channel :=
  { c with line := { play := List.replicate 40 0#16, playPos := 0, capture := [], inBlock := false } }

/-! ## Status writes (R158, R159) -/

/-- A table fault (R160). -/
def tableFault (s : State) : State := raise partSource .tableFault s

/-- The address of descriptor `n`. -/
def State.desc (s : State) (n : Nat) : Word := descAddr s.tableBase n

/-- Words written into descriptor `n` from an offset upward; a bus error is a table fault. While the
table base is 0 nothing is written (R152). Answers whether all writes were made. -/
def writeDesc (n : Nat) (offset : Word) (ws : List Word) (s : State) : Bool × State :=
  if s.tableBase = 0#24 then (true, s)
  else
    match writeWords ws (s.desc n + offset) s with
    | (true, s) => (true, s)
    | (false, s) => (false, tableFault s)

/-- The status write of a line channel: the dynamic words, whole (R159). -/
def statusWrite (n : Fin 32) (s : State) : Bool × State :=
  let (ok, s) := writeDesc n 128#32 (statusWords (s.chan n)) s
  (ok, s.modChan n fun c => { c with statusDue := false })

/-- The status write at the end of an event that took channel `n` from `before`: made when a field
of the dynamic words changed (R159) or a rule ordered it (log 16). -/
def statusEvent (n : Fin 32) (before : Channel) (s : State) : State :=
  if (s.chan n).statusDue || statusWords before != statusWords (s.chan n) then (statusWrite n s).2
  else s

/-! ## Hold reasons (R47, R48) -/

/-- The two hold reasons. -/
inductive HoldReason where
  | directive | line
deriving DecidableEq, Repr

/-- A hold reason joins the set. -/
def setHold (r : HoldReason) (b : Bool) (c : Channel) : Channel :=
  match r with
  | .directive => { c with holdDirective := b }
  | .line => { c with holdLine := b }

/-- A hold reason added to a channel (R47): TRAINING and TRACKING enter HELD. -/
def addHoldChan (r : HoldReason) (c : Channel) : Channel :=
  match c.state with
  | .training => { setHold r true c with state := .held, resume := some .training }
  | .tracking => { setHold r true c with state := .held, resume := some .tracking }
  | .held => setHold r true c
  | .closed => c
  | .fault => c

/-- HELD left for the resume state (R48). -/
def leaveHeld (c : Channel) : Channel :=
  { c with state := match c.resume with
                    | some rs => rs.toState
                    | none => .training,
           resume := none }

/-- A hold reason removed from a channel (R48): HELD is left when the set becomes empty. -/
def removeHoldChan (r : HoldReason) (c : Channel) : Channel :=
  if c.state = .held then
    if (setHold r false c).holdDirective || (setHold r false c).holdLine then setHold r false c
    else leaveHeld (setHold r false c)
  else c

/-- A change of channel `n`'s hold reasons, STATE raised when the state changes (R29, R47, R48). -/
def changeHold (n : Fin 32) (f : Channel → Channel) (s : State) : State :=
  let old := (s.chan n).state
  let s := s.modChan n f
  raiseIf (decide ((s.chan n).state ≠ old)) (chanSource n) .state s

/-! ## Entry to FAULT (R38) -/

/-- The channel's part of an entry to FAULT and of a CLOSE: search ended without a result, hold
reasons and timeslot gone, far canceller off (log 11), block in progress ended, record forgotten. -/
def leaveRunning (final : ChanState) (c : Channel) : Channel :=
  endBlock { c with state := final, resume := none, holdDirective := false, holdLine := false,
                    timeslot := none, search := { c.search with sweeping := false },
                    filt := { c.filt with delay := 0, lfEff := 0 },
                    walk := { c.walk with inflight := none } }

/-- The effects of an entry to FAULT but for its status write (R38, R103). -/
def faultEffects (n : Fin 32) (s : State) : State :=
  raise (chanSource n) .fault ((releaseAll n s).modChan n (leaveRunning .fault))

/-- Entry of channel `n` to FAULT (R38). -/
def enterFault (n : Fin 32) (s : State) : State := (statusWrite n (faultEffects n s)).2

end Sys2Proof.Machine
end

