-- ==== Sys2Proof/Machine/Profiles.lean ====
section
/-! DEFINITION. The route profile store: lookups, saves, pins, drops, lists, import and export
targets, and the recency order (07, R119 to R135). -/

namespace Sys2Proof.Machine

/-- The entry `i`. -/
def entryAt (st : Store) (i : Fin 48) : Entry := st.entries[i]

/-- Entry `i` replaced. -/
def setEntry (i : Fin 48) (e : Entry) (st : Store) : Store :=
  { st with entries := st.entries.set i e }

/-- The entry that carries a tag; a FREE entry never matches (R120). -/
def findTag (st : Store) (tag : Word) : Option (Fin 48) :=
  (List.finRange 48).find? fun i => (entryAt st i).state != .free && (entryAt st i).tag == tag

/-- The lowest-numbered FREE entry (R123, R129). -/
def findFree (st : Store) : Option (Fin 48) :=
  (List.finRange 48).find? fun i => (entryAt st i).state == .free

/-- The least recent VALID unpinned entry, which eviction takes (R121). -/
def findVictim (st : Store) : Option (Fin 48) :=
  st.recency.reverse.find? fun i => (entryAt st i).state == .valid && !(entryAt st i).pinned

/-- The recency order without an entry (R121). -/
def withoutEntry (i : Fin 48) (order : List (Fin 48)) : List (Fin 48) := order.filter (· != i)

/-- The entry moves to, or enters at, the most recent end (R121). -/
def touch (i : Fin 48) (st : Store) : Store :=
  { st with recency := i :: withoutEntry i st.recency }

/-- The number of entries in use (R135). -/
def entriesInUse (st : Store) : Nat :=
  ((List.finRange 48).filter fun i => (entryAt st i).state != .free).length

/-- An entry becomes FREE, its tag 0, and leaves the order (R127, R130, R132). -/
def freeEntry (i : Fin 48) (st : Store) : Store :=
  { setEntry i { entryAt st i with state := .free, tag := 0#32 } st
    with recency := withoutEntry i st.recency }

/-! ## Lookup (R122) -/

/-- The lookup's outcome and, on a HIT, the entry (R122). -/
def lookup (st : Store) (tag : Word) (ln lf le : Nat) : LookupOutcome × Option (Fin 48) :=
  match findTag st tag with
  | none => (.miss, none)
  | some i =>
    let e := entryAt st i
    if e.state = .importing then (.busy, none)
    else if e.ln = ln ∧ e.lf = lf ∧ e.le = le then (.hit, some i)
    else (.mismatch, none)

/-! ## Saves (R123, R124) -/

/-- The entry a save or an import claim writes, or why there is none (R123, R129): the same six rows
decide both. -/
def selectTarget (st : Store) (tag : Word) : Except SaveOutcome (Fin 48) :=
  match findTag st tag with
  | some i =>
    if (entryAt st i).pinned then .error .pinned
    else if (entryAt st i).state = .valid then .ok i
    else .error .busy
  | none =>
    match findFree st with
    | some i => .ok i
    | none =>
      match findVictim st with
      | some i => .ok i
      | none => .error .storeFull

/-- The entry a save writes (R124). -/
def savedEntry (tag : Word) (f : Filters) : Entry :=
  { state := .valid, tag := tag, pinned := false, ln := f.ln, lf := f.lf, le := f.le,
    cursor := f.cursorTap, delay := f.delay, coefs := f.hn ++ f.hf ++ f.g }

/-- A save request (R123, R124): its outcome and the store after it. -/
def saveProfileTo (st : Store) (tag : Word) (f : Filters) : SaveOutcome × Store :=
  match selectTarget st tag with
  | .error o => (o, st)
  | .ok i => (.saved, touch i (setEntry i (savedEntry tag f) st))

/-! ## Pins and drops (R126, R127) -/

/-- PIN and UNPIN (R126): the result and the store after it. -/
def pinEntry (st : Store) (tag : Word) (pinned : Bool) : StoreResult × Store :=
  match findTag st tag with
  | none => (.notFound, st)
  | some i =>
    if (entryAt st i).state = .importing then (.busy, st)
    else (.ok, setEntry i { entryAt st i with pinned := pinned } st)

/-- DROP (R127): the result and the store after it. -/
def dropEntry (st : Store) (tag : Word) : StoreResult × Store :=
  match findTag st tag with
  | none => (.notFound, st)
  | some i =>
    if (entryAt st i).pinned then (.pinned, st)
    else if (entryAt st i).state = .valid then (.ok, freeEntry i st)
    else (.busy, st)

/-! ## Lists (R128) -/

/-- The recency rank of an entry: its position in the order (R121). -/
def rankOf (st : Store) (i : Fin 48) : Nat := st.recency.idxOf i

/-- The words LIST writes: one description per entry that is not FREE, in ascending entry number
(R128, R144). -/
def listing (st : Store) : List Word :=
  ((List.finRange 48).filter fun i => (entryAt st i).state != .free).flatMap fun i =>
    listWords (entryAt st i) (rankOf st i)

/-! ## Imports and exports (R129 to R132) -/

/-- The result a refused import claim gives (R129). -/
def claimResult : SaveOutcome → StoreResult
  | .pinned => .pinned
  | .busy => .busy
  | .storeFull => .storeFull
  | .none => .ok
  | .saved => .ok
  | .notSaved => .ok

/-- The entry an import claim leaves in its target (R129). -/
def claimedEntry (h : Header) : Entry :=
  { state := .importing, tag := h.tag, pinned := false, ln := h.ln, lf := h.lf, le := h.le,
    cursor := h.cursor, delay := if h.lf = 0 then 0 else h.delay, coefs := [] }

/-- The target claimed (R129): an entry that was FREE enters at the least recent end, another keeps
its place (R121). -/
def claimTarget (i : Fin 48) (h : Header) (st : Store) : Store :=
  let wasFree := (entryAt st i).state == .free
  let st := setEntry i (claimedEntry h) st
  if wasFree then { st with recency := withoutEntry i st.recency ++ [i] } else st

/-- Coefficients of an import's words join the target (R147). -/
def fillEntry (i : Fin 48) (ws : List Word) (st : Store) : Store :=
  setEntry i { entryAt st i with coefs := (entryAt st i).coefs ++ ws.map (BitVec.setWidth 24) } st

/-- The end of an import (R130): VALID and most recent when the CRC matched, FREE when not. -/
def finishImport (i : Fin 48) (matched pinned : Bool) (st : Store) : Store :=
  if matched then
    touch i (setEntry i { entryAt st i with state := .valid, pinned := pinned } st)
  else freeEntry i st

/-- An entry put into a state, its other fields unchanged (R131). -/
def setEntryState (i : Fin 48) (x : EntryState) (st : Store) : Store :=
  setEntry i { entryAt st i with state := x } st

/-- A transfer ended early (R132): IMPORTING becomes FREE, EXPORTING returns to VALID. -/
def abandonEntry (i : Fin 48) (st : Store) : Store :=
  match (entryAt st i).state with
  | .importing => freeEntry i st
  | .exporting => setEntryState i .valid st
  | .valid => st
  | .free => st

/-- The transfer's target entry, if there is one, ended early (R132). -/
def abandonTarget (target : Option (Fin 48)) (st : Store) : Store :=
  match target with
  | some i => abandonEntry i st
  | none => st

end Sys2Proof.Machine
end

