-- ==== Sys2Proof/Machine/Arith.lean ====
section
/-! DEFINITION. The signal path arithmetic of a block close (01, R1 to R26), on one channel context. -/

namespace Sys2Proof.Machine

/-! ## Numbers (R1 to R5) -/

/-- sat16: a value clamped to -32768 … 32767 (R1). -/
def sat16 (v : Int) : Sample :=
  if v < -32768 then BitVec.ofInt 16 (-32768)
  else if 32767 < v then BitVec.ofInt 16 32767
  else BitVec.ofInt 16 v

/-- sat24: a value clamped to -8388608 … 8388607 (R2). -/
def sat24 (v : Int) : Coef :=
  if v < -8388608 then BitVec.ofInt 24 (-8388608)
  else if 8388607 < v then BitVec.ofInt 24 8388607
  else BitVec.ofInt 24 v

/-- floor((v + 2^(s-1)) / 2^s): division by 2^s rounding half toward plus infinity (R4). -/
def roundShift (s : Nat) (v : Int) : Int := (v + ((2 ^ (s - 1) : Nat) : Int)) / ((2 ^ s : Nat) : Int)

/-- An accumulator of coefficient-times-sample products turned into a sample (R4). -/
def toSample (acc : Int) : Sample := sat16 (roundShift 20 acc)

/-- The exact sum of `f 0` to `f (m - 1)` (R3). -/
def sumTo : Nat → (Nat → Int) → Int
  | 0, _ => 0
  | m + 1, f => sumTo m f + f m

/-- The value of sample `i` of a list; positions past the end read as 0 (R12, R15). -/
def sampleVal (xs : List Sample) (i : Nat) : Int := (xs.getD i 0#16).toInt

/-- The value of coefficient `j`. -/
def coefVal (cs : List Coef) (j : Nat) : Int := (cs.getD j 0#24).toInt

/-- The sample `j` places before sample `n` of a block: in the block when `j ≤ n`, else in the
history, which is held newest first (R12, R15). -/
def lagged (block history : List Sample) (n j : Nat) : Int :=
  if j ≤ n then sampleVal block (n - j) else sampleVal history (j - n - 1)

/-- The transmit sample at lag `lag` before sample `n` of the block under close, in the pool history
that has the block entered: age 39 - n + lag (R75). -/
def pooled (poolHist : List Sample) (n lag : Nat) : Int := sampleVal poolHist (39 - n + lag)

/-- The exact sum of squares of samples (R5). -/
def energy (xs : List Sample) : Nat := (xs.map fun x => x.toInt.natAbs ^ 2).sum

/-- The reported energy: shifted right by 8 (R5). -/
def reported (e : Nat) : Nat := e / 256

/-! ## Outputs and measurements (R11 to R18) -/

/-- Forty samples of a buffer, in time order; a sample it does not hold reads as 0 (log 19). -/
def block40 (xs : List Sample) : List Sample := (List.range 40).map fun n => xs.getD n 0#16

/-- The pool history with the block's transmit samples entered at its newest end (R11, R75). -/
def enterPool (segments : Nat) (x poolHist : List Sample) : List Sample :=
  (x.reverse ++ poolHist).take (32 * segments)

/-- The accumulator of the echo estimate of sample `n` (R12). -/
def echoAcc (f : Filters) (x near poolHist : List Sample) (n : Nat) : Int :=
  sumTo f.ln (fun j => coefVal f.hn j * lagged x near n j)
    + sumTo f.lfEff (fun j => coefVal f.hf j * pooled poolHist n (f.delay + j))

/-- The residual of sample `n` (R13). -/
def residual (f : Filters) (x near poolHist r : List Sample) (n : Nat) : Sample :=
  sat16 (sampleVal r n - (toSample (echoAcc f x near poolHist n)).toInt)

/-- The equalizer output of sample `n` (R15). -/
def eqOutput (f : Filters) (u resid : List Sample) (n : Nat) : Sample :=
  toSample (sumTo f.le fun j => coefVal f.g j * lagged u resid n j)

/-- A received sample at a limit (R17). -/
def atLimit (r : Sample) : Bool := r.toInt == -32768 || r.toInt == 32767

/-- The stuck run after a close (R18). -/
def nextStuckRun (run : Nat) (r : List Sample) (last : Sample) : Nat :=
  if r.all (· == last) then (if run < 200 then run + 1 else 200) else 0

/-- What stages 1 to 3 of a close form (R9). -/
structure Measured where
  x        : List Sample
  r        : List Sample
  poolHist : List Sample
  u        : List Sample
  z        : List Sample
  ex       : Nat
  er       : Nat
  eu       : Nat
  clip     : Nat
  overload : Bool
  stuckRun : Nat
deriving DecidableEq, Repr

/-- Stages 1 to 3 of the close of a channel's block (R9, R11 to R18). -/
def measure (c : Channel) : Measured :=
  let x := block40 c.line.play
  let r := block40 c.line.capture
  let p := enterPool c.segs.length x c.poolHist
  let u := (List.range 40).map (residual c.filt x c.hist.near p r)
  { x := x, r := r, poolHist := p, u := u,
    z := (List.range 40).map (eqOutput c.filt u c.hist.resid),
    ex := energy x, er := energy r, eu := energy u,
    clip := (r.filter atLimit).length, overload := r.any atLimit,
    stuckRun := nextStuckRun c.hist.stuckRun r c.hist.lastRecv }

/-- The stuck gate is closed while the run is 200 (R6, R18). -/
def stuckClosed (run : Nat) : Bool := run == 200

/-! ## Step shifts and gates (R19, R20, R22) -/

/-- The phase entry at the channel's phase index. -/
def currentPhase (c : Channel) : Phase := c.program.getD c.phaseIndex .blank

/-- The applicable step shift from the channel's state: the phase's when its flag is set, the track
shift in TRACKING, 0 otherwise (R19). -/
def shiftFor (st : ChanState) (adapt : Bool) (phaseShift trackShift : Nat) : Nat :=
  match st with
  | .training => if adapt then phaseShift else 0
  | .tracking => trackShift
  | .held => 0
  | .closed => 0
  | .fault => 0

/-- The near filter's applicable step shift (R19). -/
def nearShiftOf (c : Channel) : Nat :=
  shiftFor c.state (currentPhase c).nearAdapt (currentPhase c).nearShift c.trackNear

/-- The far filter's applicable step shift; 0 whenever the far canceller is off (R19). -/
def farShiftOf (c : Channel) : Nat :=
  if c.filt.lfEff = 0 then 0
  else shiftFor c.state (currentPhase c).farAdapt (currentPhase c).farShift c.trackFar

/-- The equalizer's applicable step shift (R19). -/
def eqShiftOf (c : Channel) : Nat :=
  shiftFor c.state (currentPhase c).eqAdapt (currentPhase c).eqShift c.trackEq

/-- The conditions the near and far filters share (R20): state, transmit energy, overload, stuck. -/
def echoGate (c : Channel) (m : Measured) : Bool :=
  (c.state == .training || c.state == .tracking) && c.tf ≤ reported m.ex && !m.overload
    && !stuckClosed m.stuckRun

/-- The near filter's update is applied at this close (R20). -/
def nearAdapts (c : Channel) (m : Measured) : Bool := nearShiftOf c != 0 && echoGate c m

/-- The far filter's update is applied at this close (R20). -/
def farAdapts (c : Channel) (m : Measured) : Bool := farShiftOf c != 0 && echoGate c m

/-- The reference outcome of the record of the block: the first row of R22 that holds. -/
def refOutcome (c : Channel) (m : Measured) (refPresent : Bool) : RefOutcome :=
  if !refPresent then .noReference
  else if c.state = .held then .held
  else if c.walk.takenRun < 3 then .gap
  else if c.hist.outOld.overload then .overload
  else if stuckClosed m.stuckRun then .stuck
  else if eqShiftOf c = 0 then .notAdapting
  else .used

/-! ## Updates (R21, R23, R24) -/

/-- A coefficient updated from its gradient (R21, R23): sat24(old + floor((grad + 2^(s-1)) / 2^s)). -/
def updateCoef (old : Coef) (s : Nat) (grad : Int) : Coef := sat24 (old.toInt + roundShift s grad)

/-- The gradient of near tap `j` (R21). -/
def nearGrad (m : Measured) (near : List Sample) (j : Nat) : Int :=
  sumTo 40 fun n => sampleVal m.u n * lagged m.x near n j

/-- The gradient of far tap `j` (R21). -/
def farGrad (m : Measured) (delay j : Nat) : Int :=
  sumTo 40 fun n => sampleVal m.u n * pooled m.poolHist n (delay + j)

/-- The equalizer errors from the reference and the stored outputs of block k - 2 (R23). -/
def eqErrors (ref stored : List Sample) : List Sample :=
  (List.range 40).map fun i => sat16 (sampleVal ref i - sampleVal stored i)

/-- The gradient of equalizer tap `j`: the residual `j` samples before the `i`-th sample of block
k - 2 stands at age 79 - i + j of the residual store (R23). -/
def eqGrad (eps resid : List Sample) (j : Nat) : Int :=
  sumTo 40 fun i => sampleVal eps i * sampleVal resid (79 - i + j)

/-- The filters after stage 6, all updates formed from the filters as they stood (R24). `eps` holds
the equalizer errors when the reference outcome is USED. -/
def adapt (c : Channel) (m : Measured) (eps : Option (List Sample)) : Filters :=
  let f := c.filt
  { f with
    hn := if nearAdapts c m then
        (List.range f.ln).map fun j =>
          updateCoef (f.hn.getD j 0#24) (nearShiftOf c) (nearGrad m c.hist.near j)
      else f.hn
    hf := if farAdapts c m then
        (List.range f.lf).map fun j =>
          if j < f.lfEff then updateCoef (f.hf.getD j 0#24) (farShiftOf c) (farGrad m f.delay j)
          else f.hf.getD j 0#24
      else f.hf
    g := match eps with
      | some e =>
        (List.range f.le).map fun j =>
          updateCoef (f.g.getD j 0#24) (eqShiftOf c) (eqGrad e c.hist.resid j)
      | none => f.g }

/-- The histories after stage 7 (R25). -/
def advanceHist (h : Hist) (m : Measured) : Hist :=
  { near := (m.x.reverse ++ h.near).take 63
    resid := (m.u.reverse ++ h.resid).take 143
    outNew := { z := m.z, overload := m.overload }
    outOld := h.outNew
    lastRecv := m.r.getD 39 0#16
    stuckRun := m.stuckRun }

/-- Stages 6 and 7 of a close on the channel context (R24, R25). -/
def applyClose (m : Measured) (eps : Option (List Sample)) (c : Channel) : Channel :=
  { c with filt := adapt c m eps, hist := advanceHist c.hist m, poolHist := m.poolHist }

end Sys2Proof.Machine
end

