-- ==== Sys2Proof/Machine/Search.lean ====
section
/-! DEFINITION. The delay search unit: start, sweep, end, placement and abandonment of a far-delay
search (03, R57 to R72). -/

namespace Sys2Proof.Machine

/-- The search target: segs(Dmax + 15) (R59). -/
def searchTarget (c : Channel) : Nat := segsFor (c.dmax + 15)

/-- The effective upper delay of a holding of `k` segments: min(Dmax, 32k - 55) (R60). Where 32k - 55 is
negative, for a `k` of 0 or 1, the range is empty, and that the value kept is then cut at 0 is the
model's choice (DESIGN CHOICE, log 25). -/
def effectiveDmax (c : Channel) (k : Nat) : Nat := min c.dmax (32 * k - 55)

/-- The sweep length of a range that is not empty: ceil((Dmax_eff - Dmin + 1) / 16) (R60). -/
def sweepLength (dmin dmaxEff : Nat) : Nat := (dmaxEff - dmin + 1 + 15) / 16

/-- The search state as a search starts (R58, R60). -/
def startedSearch (c : Channel) (dmaxEff : Nat) : Search :=
  { c.search with sweeping := true, dmaxEff := dmaxEff, sweepLen := sweepLength c.dmin dmaxEff,
                  nextBlock := 0, bestLag := 0, bestScore := 0, scoreSum := 0, lagsEval := 0 }

/-- The search state of a search that ends at its start for an empty range (R60, R70). -/
def emptySearch (c : Channel) (dmaxEff : Nat) : Search :=
  { c.search with sweeping := false, dmaxEff := dmaxEff, sweepLen := 0, nextBlock := 0,
                  bestLag := 0, bestScore := 0, scoreSum := 0, lagsEval := 0,
                  lastResult := .poolShort, lastBestLag := 0 }

/-- A search start (R58 to R60, R70): far-off form, holding brought to the target, range fixed; a
short grant raises POOL_SHORT, and an empty range ends the search at once. -/
def startSearch (n : Fin 32) (s : State) : State :=
  let s := s.modChan n fun c => { c with filt := farOff c.filt, statusDue := true }
  let s := bringHolding n (searchTarget (s.chan n)) s
  let c := s.chan n
  let k := c.segs.length
  let top := effectiveDmax c k
  let s := raiseIf (k < searchTarget c) (chanSource n) .poolShort s
  if c.dmin ≤ top then s.modChan n fun c => { c with search := startedSearch c top }
  else
    raise (chanSource n) .farResult
      ((releaseAll n s).modChan n fun c => { c with search := emptySearch c top })

/-- The score of lag `l` at a search block (R62). -/
def lagScore (u poolHist : List Sample) (l : Nat) : Nat :=
  (sumTo 40 fun i => sampleVal u i * pooled poolHist i l).natAbs

/-- One lag evaluated (R62). -/
def evalLag (u poolHist : List Sample) (q : Search) (l : Nat) : Search :=
  let score := lagScore u poolHist l
  let better := q.lagsEval == 0 || q.bestScore < score
  { q with bestLag := if better then l else q.bestLag
           bestScore := if better then score else q.bestScore
           scoreSum := q.scoreSum + score
           lagsEval := q.lagsEval + 1 }

/-- The lags of window `j`, those above Dmax_eff skipped (R61). -/
def windowLags (dmin dmaxEff j : Nat) : List Nat :=
  ((List.range 16).map fun i => dmin + 16 * j + i).filter fun l => l ≤ dmaxEff

/-- A search block: window j scored against the block's residuals and the pool history, and j
advanced (R61, R62). -/
def searchBlock (u : List Sample) (c : Channel) : Channel :=
  let q := (windowLags c.dmin c.search.dmaxEff c.search.nextBlock).foldl
    (evalLag u c.poolHist) c.search
  { c with search := { q with nextBlock := c.search.nextBlock + 1 } }

/-- The sweep has evaluated its last window (R63). -/
def sweepComplete (q : Search) : Bool := q.sweepLen ≤ q.nextBlock

/-- The acceptance test of an ended search (R66). -/
def accepted (ratio : Nat) (q : Search) : Bool :=
  q.bestScore != 0 && ratio * q.scoreSum ≤ q.bestScore * q.lagsEval

/-- The result of an ended search (R66). -/
def endResult (complete acc : Bool) : SearchResult :=
  match complete, acc with
  | true, true => .found
  | false, true => .cutShort
  | true, false => .rejected
  | false, false => .cutRejected

/-- The bulk delay of an accepted best lag: max(Dmin, B - 8) (R67). -/
def placedDelay (dmin best : Nat) : Nat := max dmin (best - 8)

/-- The far taps a holding of `h` segments lets a window at `d` have: the largest multiple of 8 not
above min(Lf, 32h - 40 - D + 1) (R68). -/
def narrowedTaps (lf h d : Nat) : Nat := min lf (32 * h + 1 - (40 + d)) / 8 * 8

/-- The far canceller on with a delay and a number of taps. -/
def farOn (d taps : Nat) (f : Filters) : Filters := { f with delay := d, lfEff := taps }

/-- Placement of an accepted best lag (R67, R68). -/
def placeWindow (n : Fin 32) (s : State) : State :=
  let c := s.chan n
  let d := placedDelay c.dmin c.search.bestLag
  let p := segsFor (d + c.filt.lf - 1)
  let s := bringHolding n p s
  let h := (s.chan n).segs.length
  if p ≤ h then s.modChan n fun c => { c with filt := farOn d c.filt.lf c.filt }
  else
    let s := raise (chanSource n) .poolShort s
    let taps := narrowedTaps c.filt.lf h d
    if 8 ≤ taps then s.modChan n fun c => { c with filt := farOn d taps c.filt }
    else (releaseAll n s).modChan n fun c => { c with filt := farOff c.filt }

/-- The end of a search at a counted close, complete or cut short (R65 to R70). -/
def endSearch (n : Fin 32) (s : State) : State :=
  let c := s.chan n
  let q := c.search
  let acc := accepted c.ratio q
  let s := if acc then placeWindow n s
    else (releaseAll n s).modChan n fun c => { c with filt := farOff c.filt }
  let s := s.modChan n fun c =>
    { c with statusDue := true,
             search := { c.search with sweeping := false,
                                       lastResult := endResult (sweepComplete q) acc,
                                       lastBestLag := q.bestLag } }
  raise (chanSource n) .farResult s

/-- A search abandoned (R71): IDLE without a result, every segment released, far canceller off. -/
def abandonSearch (n : Fin 32) (s : State) : State :=
  if (s.chan n).search.sweeping then
    (releaseAll n s).modChan n fun c =>
      { c with filt := farOff c.filt, statusDue := true,
               search := { c.search with sweeping := false } }
  else s

/-- The search result a record reports (R72): IN_PROGRESS while SWEEPING. -/
def searchCode (q : Search) : Nat := if q.sweeping then 1 else q.lastResult.code

/-- The search best lag a record reports (R72). -/
def reportedLag (q : Search) : Nat := if q.sweeping then q.bestLag else q.lastBestLag

end Sys2Proof.Machine
end

