-- ==== Sys2Proof/Machine/Program.lean ====
section
/-! DEFINITION. The training program, the divergence guard, saves and the directives of line records
(02, R40 to R56). -/

namespace Sys2Proof.Machine

/-! ## Phases (R41 to R45) -/

/-- The entry of phase `p` (R45). -/
def enterPhase (n : Fin 32) (p : Nat) (s : State) : State :=
  let s := s.modChan n fun c => { c with phaseIndex := p, blockCount := 0, earlyRun := 0 }
  if (currentPhase (s.chan n)).search then startSearch n s else s

/-- The early-exit run after a counted close (R42). -/
def nextEarlyRun (c : Channel) (er eu : Nat) : Nat :=
  let p := currentPhase c
  if p.target ≠ 0 ∧ eu * 2 ^ p.target ≤ er ∧ c.rf ≤ reported er then c.earlyRun + 1 else 0

/-- The phase ends at this counted close (R43). The search flag with no search sweeping says that the
phase's search had ended at its start. -/
def phaseEnds (c : Channel) : Bool :=
  let p := currentPhase c
  c.blockCount == p.duration || c.earlyRun == p.runK
    || (p.search && (!c.search.sweeping || sweepComplete c.search))

/-- The next phase entered, or the program finished and TRACKING entered with STATE (R44). -/
def nextPhase (n : Fin 32) (s : State) : State :=
  let c := s.chan n
  if c.phaseIndex + 1 < c.progLen then enterPhase n (c.phaseIndex + 1) s
  else
    raise (chanSource n) .state
      (s.modChan n fun c => { c with state := .tracking, blockCount := 0, earlyRun := 0 })

/-- The program advanced at a counted close (R41 to R44, R65). -/
def advanceProgram (n : Fin 32) (er eu : Nat) (s : State) : State :=
  let s := s.modChan n fun c =>
    { c with blockCount := c.blockCount + 1, earlyRun := nextEarlyRun c er eu }
  if phaseEnds (s.chan n) then
    let s := if (s.chan n).search.sweeping then endSearch n s else s
    nextPhase n s
  else s

/-! ## Restarts (R53, R56) -/

/-- What RESTART and a divergence restart share: near and equalizer reset forms, any search ended
without a result, far-off form, every segment released, phase index and divergence run 0. -/
def untrain (n : Fin 32) (s : State) : State :=
  (releaseAll n s).modChan n fun c =>
    { c with filt := farOff (eqReset (nearReset c.filt)),
             search := { c.search with sweeping := false },
             phaseIndex := 0, divRun := 0, statusDue := true }

/-- TRACKING left for TRAINING, raising STATE; in HELD the resume state becomes TRAINING; TRAINING
stays (R52, R53, R56). -/
def backToTraining (n : Fin 32) (s : State) : State :=
  match (s.chan n).state with
  | .tracking => raise (chanSource n) .state (s.modChan n fun c => { c with state := .training })
  | .held => s.modChan n fun c => { c with resume := some .training }
  | .training => s
  | .closed => s
  | .fault => s

/-- A count increased by one up to 65535, where it stays (R56, R90, R92). -/
def countUp (k : Nat) : Nat := if k < 65535 then k + 1 else 65535

/-- A divergence restart (R56). -/
def divergenceRestart (n : Fin 32) (s : State) : State :=
  let s := enterPhase n 0 (untrain n s)
  let s := s.modChan n fun c => { c with divCount := countUp c.divCount }
  raise (chanSource n) .diverged (backToTraining n s)

/-- A block is divergent (R55). -/
def divergent (c : Channel) (er eu : Nat) : Bool := 2 * er < eu && c.rf ≤ reported er

/-- The divergence guard, then the program advance, after the updates of a close (R41, R55). -/
def guardAndProgram (n : Fin 32) (er eu : Nat) (s : State) : State :=
  let c := s.chan n
  match c.state with
  | .training =>
    let run := if c.guard && divergent c er eu then c.divRun + 1 else 0
    if c.guard && 8 ≤ run then divergenceRestart n s
    else advanceProgram n er eu (s.modChan n fun c => { c with divRun := run })
  | .tracking =>
    let run := if c.guard && divergent c er eu then c.divRun + 1 else 0
    if c.guard && 8 ≤ run then divergenceRestart n s
    else s.modChan n fun c => { c with divRun := run }
  | .held => s
  | .closed => s
  | .fault => s

/-! ## Saves (R36, R54, R125) -/

/-- The state, or the resume state of a HELD channel, is TRACKING (R36, R54). -/
def tracks (c : Channel) : Bool :=
  c.state == .tracking || (c.state == .held && c.resume == some .tracking)

/-- A save requested by channel `n` (R123 to R125): the last save outcome is set, a status write is
due, and a refused save raises PROFILE. Answers the outcome. -/
def requestSave (n : Fin 32) (s : State) : SaveOutcome × State :=
  let c := s.chan n
  let (o, st) := saveProfileTo s.store c.routeTag c.filt
  let s := { s with store := st }.modChan n fun c => { c with lastSave := o, statusDue := true }
  (o, raiseIf (o != .saved) (chanSource n) .profile s)

/-! ## Directives (R50 to R54) -/

/-- The directive of a taken record decided: whether it is rejected, and its save outcome. -/
structure DirectiveReport where
  rejected : Bool
  save     : SaveOutcome
deriving DecidableEq, Repr

/-- RETRAIN to phase `p` (R52). -/
def retrain (n : Fin 32) (p : Nat) (s : State) : State :=
  enterPhase n p (backToTraining n (abandonSearch n s))

/-- RESTART (R53). -/
def restart (n : Fin 32) (s : State) : State := backToTraining n (enterPhase n 0 (untrain n s))

/-- SAVE_NOW (R54). -/
def saveNow (n : Fin 32) (s : State) : SaveOutcome × State :=
  let c := s.chan n
  if c.routeTag ≠ 0#32 ∧ tracks c then requestSave n s else (.notSaved, s)

/-- A directive applied or rejected (R50 to R54). -/
def applyDirective (n : Fin 32) (code arg : Nat) (s : State) : DirectiveReport × State :=
  match code with
  | 0 => (⟨false, .none⟩, s)
  | 1 => (⟨false, .none⟩, changeHold n (addHoldChan .directive) s)
  | 2 => (⟨false, .none⟩, changeHold n (removeHoldChan .directive) s)
  | 3 => if arg < (s.chan n).progLen then (⟨false, .none⟩, retrain n arg s) else (⟨true, .none⟩, s)
  | 4 => (⟨false, .none⟩, restart n s)
  | 5 => let (o, s) := saveNow n s; (⟨false, o⟩, s)
  | _ => (⟨true, .none⟩, s)

end Sys2Proof.Machine
end

