-- ==== Sys2Proof/Machine/Walker.lean ====
section
/-! DEFINITION. The chain walker on line records: links, completions, takes, and the close of a block
with the record that carries it (05, R83 to R104; R9, R10, R26; R173). -/

namespace Sys2Proof.Machine

/-! ## Links (R88) -/

/-- Where a link word leads: watch on, move on, or misaligned (R88). -/
inductive LinkStep where
  | watch | moveTo (a : Word) | misaligned
deriving DecidableEq, Repr

/-- A link word read (R88). -/
def linkStep (v : Word) : LinkStep :=
  if v = 0#32 then .watch else if aligned v then .moveTo v else .misaligned

/-- The link of the record at `a` read for channel `n`, and the cursor set from it (R88). A bus error
or a misaligned link moves the channel to FAULT (R38, R103); answers whether the walk goes on. -/
def followLink (n : Fin 32) (a : Word) (s : State) : Bool × State :=
  match readWord (a + 4#32) s with
  | (none, s) => (false, enterFault n s)
  | (some v, s) =>
    match linkStep v with
    | .watch => (true, s.modChan n fun c =>
        { c with walk := { c.walk with cursor := a, mode := .watching } })
    | .moveTo b => (true, s.modChan n fun c =>
        { c with walk := { c.walk with cursor := b, mode := .atRecord } })
    | .misaligned => (false, enterFault n s)

/-! ## Completions (R94 to R97) -/

/-- The record in flight is forgotten: it is completed (R94, R96, R97). -/
def clearInflight (c : Channel) : Channel := { c with walk := { c.walk with inflight := none } }

/-- BLOCK_DONE when the completed record has NOTIFY set (R95). -/
def notifyDone (n : Fin 32) (notify : Bool) (s : State) : State :=
  raiseIf notify (chanSource n) .blockDone s

/-- The result words of a record in the order they are written, with the offset of the first
(R94 steps 1 to 3): outputs, residuals when wanted, metrics. They are consecutive (R83). -/
def resultWords (f : InFlight) (z u : List Sample) (m : Metrics) : List Word :=
  packSamples z ++ (if f.residWanted then packSamples u else []) ++ m.words

/-- The completion of a record with DONE (R94). -/
def completeDone (n : Fin 32) (f : InFlight) (z u : List Sample) (m : Metrics) (s : State) :
    State :=
  match writeWords (resultWords f z u m) (f.addr + outputOffset f.refPresent) s with
  | (false, s) => enterFault n s
  | (true, s) =>
    let s := s.modChan n fun c => { c with walk := { c.walk with gapCount := 0 } }
    match writeWord f.addr dispDone s with
    | (false, s) => enterFault n s
    | (true, s) =>
      let (_, s) := followLink n f.addr (s.modChan n clearInflight)
      notifyDone n f.notify s

/-- The gap word and an early completion code written (R96, R97): the gap count in the low half, 0 in
the high half, and the gap count set to 0. Answers whether both writes were made. -/
def writeEarlyCode (n : Fin 32) (f : InFlight) (code : Word) (s : State) : Bool × State :=
  match writeWord (f.addr + metricsOffset f.refPresent f.residWanted + 24#32)
      (pack2 (s.chan n).walk.gapCount 0) s with
  | (false, s) => (false, s)
  | (true, s) =>
    let s := s.modChan n fun c => { c with walk := { c.walk with gapCount := 0 } }
    match writeWord f.addr code s with
    | (false, s) => (false, s)
    | (true, s) => (true, s.modChan n clearInflight)

/-- The completion of a record in flight with LINE_LOST (R97). `readLink` is false for a channel that
the restart moves to FAULT for its timeslot. A bus error moves the channel to FAULT. -/
def completeLineLost (n : Fin 32) (f : InFlight) (readLink : Bool) (s : State) : State :=
  match writeEarlyCode n f dispLineLost s with
  | (false, s) => enterFault n s
  | (true, s) =>
    let s := if readLink then (followLink n f.addr s).2 else s
    notifyDone n f.notify s

/-! ## Takes (R89 to R92, R173) -/

/-- A starved boundary (R90): zeros played, gap count up, taken run 0, STARVED once per gap. -/
def starve (n : Fin 32) (s : State) : State :=
  let reported := (s.chan n).walk.starvReported
  let s := s.modChan n fun c =>
    { c with line := { c.line with play := List.replicate 40 0#16 },
             walk := { c.walk with gapCount := countUp c.walk.gapCount, takenRun := 0,
                                   starvReported := true } }
  raiseIf (!reported) (chanSource n) .starved s

/-- The block that begins at a boundary (R105, R111): capture emptied, play position 0. -/
def beginBlock (c : Channel) : Channel :=
  { c with line := { c.line with playPos := 0, capture := [], inBlock := true } }

/-- A starved boundary and the block that begins at it. -/
def starveAndBegin (n : Fin 32) (s : State) : State := (starve n s).modChan n beginBlock

/-- The address is the in-flight record of another line channel (R173). -/
def heldByOther (s : State) (n : Fin 32) (a : Word) : Bool :=
  allChans.any fun k => k != n && ((s.chan k).walk.inflight.map InFlight.addr) == some a

/-- The refusal of a record whose declared length does not match its flags (R91). -/
def refuseRecord (n : Fin 32) (a : Word) (k : Control) (s : State) : State :=
  match writeWord a dispRefused s with
  | (false, s) => enterFault n s
  | (true, s) =>
    match followLink n a s with
    | (false, s) => notifyDone n k.notify s
    | (true, s) => starveAndBegin n (notifyDone n k.notify s)

/-- The in-flight attributes of a record as it is taken, before its directive is decided (R92). -/
def takenRecord (a : Word) (k : Control) : InFlight :=
  { addr := a, refPresent := k.refPresent, residWanted := k.residWanted, notify := k.notify,
    rejected := false, save := .none }

/-- What a take sets in the channel (R92 steps 2 to 4). -/
def loadTaken (a : Word) (k : Control) (x : List Sample) (c : Channel) : Channel :=
  { c with line := { c.line with play := x },
           walk := { c.walk with inflight := some (takenRecord a k),
                                 takenRun := countUp c.walk.takenRun, starvReported := false } }

/-- The report of a record's directive kept among its in-flight attributes (R92 step 5). -/
def keepReport (d : DirectiveReport) (c : Channel) : Channel :=
  { c with walk := { c.walk with inflight := c.walk.inflight.map fun f =>
      { f with rejected := d.rejected, save := d.save } } }

/-- A record taken (R92), its block begun, and its directive applied with the status write that the
directive brings (R159). -/
def takeRecord (n : Fin 32) (a : Word) (k : Control) (s : State) : State :=
  match writeWord a dispTaken s with
  | (false, s) => enterFault n s
  | (true, s) =>
    match readWords 20 (a + 16#32) s with
    | (none, s) => enterFault n s
    | (some ws, s) =>
      let s := (s.modChan n (loadTaken a k (unpackSamples ws))).modChan n beginBlock
      let before := s.chan n
      let (d, s) := applyDirective n k.dirCode k.dirArg s
      statusEvent n before (s.modChan n (keepReport d))

/-- The record at the cursor looked at (R89 step 2, R173). -/
def lookAtRecord (n : Fin 32) (s : State) : State :=
  let a := (s.chan n).walk.cursor
  match readWord a s with
  | (none, s) => enterFault n s
  | (some disp, s) =>
    if disp ≠ dispPosted || heldByOther s n a then starveAndBegin n s
    else
      match readWord (a + 8#32) s with
      | (none, s) => enterFault n s
      | (some w, s) =>
        let k := decodeControl w
        if k.declLen = recordLength k.refPresent k.residWanted then takeRecord n a k s
        else refuseRecord n a k s

/-- The take of a boundary (R89): the link of a watched record first, then the record at the cursor.
A misaligned link or a bus error has moved the channel to FAULT, and no block begins. -/
def take (n : Fin 32) (s : State) : State :=
  match (s.chan n).walk.mode with
  | .atRecord => lookAtRecord n s
  | .watching =>
    match followLink n (s.chan n).walk.cursor s with
    | (false, s) => s
    | (true, s) =>
      match (s.chan n).walk.mode with
      | .watching => starveAndBegin n s
      | .atRecord => lookAtRecord n s

/-! ## The close of a block (R9, R10, R26, R93, R94) -/

/-- The metrics of the record of a block as its close leaves the channel (R85). `before` is the
channel as it stood at the close, `c` the channel after it. -/
def metricsOf (f : InFlight) (before c : Channel) (m : Measured) (outcome : RefOutcome)
    (eps : Option (List Sample)) : Metrics :=
  { ex := reported m.ex, er := reported m.er, eu := reported m.eu,
    ee := reported (energy (eps.getD [])), clip := m.clip, outcome := outcome,
    state := c.state, phase := c.phaseIndex, overload := m.overload,
    stuck := stuckClosed m.stuckRun, held := before.state == .held, searching := c.search.sweeping,
    rejected := f.rejected, nearAdapted := nearAdapts before m, farAdapted := farAdapts before m,
    eqAdapted := eps.isSome, save := f.save, searchCode := searchCode c.search,
    gap := c.walk.gapCount, delay := c.filt.delay, bestLag := reportedLag c.search,
    lfEff := c.filt.lfEff }

/-- The delay search's part of a close (R26 item 3, R61): a search block in TRAINING while
searching. -/
def searchAtClose (u : List Sample) (c : Channel) : Channel :=
  if c.state = .training ∧ c.search.sweeping then searchBlock u c else c

/-- Stages 6 to 8 of a close (R9, R26): updates and histories, the search block, the divergence guard
and the program, the status write, and the record's completion with DONE. A completion that fails
makes its own status write, after a table fault of the first too (DESIGN CHOICE, log 36). -/
def finishClose (n : Fin 32) (before : Channel) (m : Measured) (outcome : RefOutcome)
    (eps : Option (List Sample)) (s : State) : State :=
  let s := s.modChan n fun c => searchAtClose m.u (applyClose m eps c)
  let s := guardAndProgram n m.er m.eu s
  let s := statusEvent n before s
  match before.walk.inflight with
  | none => s
  | some f => completeDone n f m.z m.u (metricsOf f before (s.chan n) m outcome eps) s

/-- The close of the block in progress of channel `n` (R9): measurement, STUCK at the run's step from
199 to 200 (R18), the reference read when the outcome is USED (R93), then the later stages. -/
def closeBlock (n : Fin 32) (s : State) : State :=
  let before := s.chan n
  let m := measure before
  let s := raiseIf (before.hist.stuckRun == 199 && m.stuckRun == 200) (chanSource n) .stuck s
  match before.walk.inflight with
  | none => finishClose n before m .noReference none s
  | some f =>
    match refOutcome before m f.refPresent with
    | .used =>
      match readWords 20 (f.addr + refOffset) s with
      | (none, s) =>
        enterFault n (s.modChan n fun c => { c with hist := { c.hist with stuckRun := m.stuckRun } })
      | (some ws, s) =>
        finishClose n before m .used (some (eqErrors (unpackSamples ws) before.hist.outOld.z)) s
    | o => finishClose n before m o none s

/-- The boundary of channel `n` (R111 step 2): for a running channel the close of the block in progress
(R10), then the take when the channel is still running. A channel that is CLOSED or in FAULT has no
boundary work (R10, R27). -/
def boundary (n : Fin 32) (s : State) : State :=
  if running (s.chan n) then
    let s := if (s.chan n).line.inBlock then
        (closeBlock n s).modChan n fun c => { c with line := { c.line with inBlock := false } }
      else s
    if running (s.chan n) then take n s else s
  else s

end Sys2Proof.Machine
end

