-- ==== Sys2Proof/Machine/Visits.lean ====
section
/-! DEFINITION. Descriptor requests of the line channels: OPEN, CLOSE and their answers
(02, R30 to R37; 05, R96; 09, R152 to R160). -/

namespace Sys2Proof.Machine

/-! ## Answers (R155, R160) -/

/-- The answer to a served request of descriptor `n`: response, NONE, REQUEST_DONE (R155). A bus error
ends it as a table fault (R160). NONE is 0 in bits 0 to 7 (R153); that its write makes bits 8 to 31 of the
word 0 too is the model's choice (DESIGN CHOICE, log 37). -/
def answer (n : Fin 33) (src : Fin 34) (r : Response) (s : State) : State :=
  match writeDesc n.val 4#32 [r.word] s with
  | (false, s) => s
  | (true, s) =>
    match writeDesc n.val 0#32 [0#32] s with
    | (false, s) => s
    | (true, s) => raise src .requestDone s

/-- The answer after a status write: nothing more when the status write failed (R160). -/
def answerAfter (n : Fin 33) (src : Fin 34) (r : Response) (written : Bool × State) : State :=
  if written.1 then answer n src r written.2 else written.2

/-- Descriptor number of a line channel. -/
def chanDesc (n : Fin 32) : Fin 33 := ⟨n.val, by omega⟩

/-! ## OPEN (R30 to R35) -/

/-- Another running channel has the timeslot (R30 condition 2, R31). -/
def slotTaken (s : State) (n : Fin 32) (slot : Nat) : Bool :=
  allChans.any fun k => k != n && running (s.chan k) && (s.chan k).timeslot == some slot

/-- The words of an OPEN read (R153 to R155): 8 to 40, then the entries of the program when its length
is 1 to 8 (log 13). `none` on a bus error. -/
def readOpen (n : Fin 32) (s : State) : Option (OpenReq × List Phase) × State :=
  match readWords 9 (s.desc n.val + 8#32) s with
  | (none, s) => (none, s)
  | (some ws, s) =>
    let r := decodeOpen ws
    if r.progLen == 0 || 8 < r.progLen then (some (r, []), s)
    else
      match readWords (2 * r.progLen) (s.desc n.val + 44#32) s with
      | (none, s) => (none, s)
      | (some ps, s) => (some (r, decodePhases ps), s)

/-- The configuration copied, clamped (R32), and the context set for a cold start (R33, R34, R57,
R87): reset forms of the coefficients, histories and counts zeroed, cursor at the first record. R57
leaves Dmax_eff and N to the search's start; that they are 0 until one starts is the model's choice
(DESIGN CHOICE, log 25), and so is the play position, 0 (DESIGN CHOICE, log 35). -/
def openedChan (r : OpenReq) (phases : List Phase) (c : Channel) : Channel :=
  let f : Filters := { ln := r.ln, lf := r.lf, le := r.le, cursorTap := r.cursor, hn := [], hf := [],
                       g := [], delay := 0, lfEff := 0 }
  { c with
    resume := none, holdDirective := false, holdLine := false, timeslot := some r.timeslot
    program := phases.map clampPhase, progLen := r.progLen
    phaseIndex := 0, blockCount := 0, earlyRun := 0, divRun := 0, divCount := 0
    trackNear := clampShift r.trackNear, trackFar := clampShift r.trackFar
    trackEq := clampShift r.trackEq, tf := r.tf, rf := r.rf
    ratio := clampRatio r.ratio, dmin := clampDelay r.dmin, dmax := clampDmax r.dmin r.dmax
    useProfile := r.useProfile, saveProfile := r.saveProfile, guard := r.guard, routeTag := r.tag
    profileOutcome := .notUsed, lastSave := .none
    filt := eqReset (farOff (nearReset f)), hist := .reset, search := .reset
    walk := { Walker.reset with cursor := r.firstRecord }
    line := .reset }

/-- The profile of an entry loaded (R33): near, far and equalizer coefficients, cursor index and D.
With D 0 the far canceller is off and its taps take the far-off form (log 12). -/
def loadEntry (e : Entry) (f : Filters) : Filters :=
  let g := { f with hn := e.coefs.take e.ln, hf := (e.coefs.drop e.ln).take e.lf,
                    g := (e.coefs.drop (e.ln + e.lf)).take e.le, cursorTap := e.cursor,
                    delay := e.delay, lfEff := e.lf }
  if e.delay = 0 then farOff g else g

/-- The pool request of a loaded D (R33): the full count, or every granted segment returned, the
far-off form and POOL_SHORT. -/
def requestForProfile (n : Fin 32) (s : State) : State :=
  let c := s.chan n
  if c.filt.delay = 0 then s
  else
    let t := segsFor (c.filt.delay + c.filt.lf - 1)
    let s := bringHolding n t s
    if t ≤ (s.chan n).segs.length then s
    else
      raise (chanSource n) .poolShort
        ((releaseAll n s).modChan n fun c => { c with filt := farOff c.filt })

/-- The lookup of an OPEN and what it loads (R33, R122). -/
def consultStore (n : Fin 32) (s : State) : State :=
  let c := s.chan n
  if c.routeTag ≠ 0#32 ∧ c.useProfile then
    match lookup s.store c.routeTag c.filt.ln c.filt.lf c.filt.le with
    | (o, none) => s.modChan n fun c => { c with profileOutcome := o }
    | (o, some i) =>
      let e := entryAt s.store i
      requestForProfile n
        ({ s with store := touch i s.store }.modChan n fun c =>
          { c with profileOutcome := o, filt := loadEntry e c.filt })
  else s

/-- Where the OPEN starts (R34): the phase index, and whether the start is in TRACKING. -/
def startPosition (c : Channel) : Nat × RunState :=
  if c.profileOutcome = .hit then
    match c.program.findIdx? Phase.warm with
    | some p => (p, .training)
    | none => (c.progLen - 1, .tracking)
  else (0, .training)

/-- The channel put into its starting state (R34): running when the port is LOCKED, else HELD with
LINE. -/
def startState (locked : Bool) (rs : RunState) (c : Channel) : Channel :=
  if locked then { c with state := rs.toState, resume := none, holdLine := false }
  else { c with state := .held, resume := some rs, holdLine := true }

/-- The start of an opened channel (R34, R35): its state, its phase index, and the phase's entry with
its search when the start is in TRAINING. -/
def startChannel (n : Fin 32) (s : State) : State :=
  let (p, rs) := startPosition (s.chan n)
  let s := s.modChan n fun c =>
    { startState (s.port.state == .locked) rs c with phaseIndex := p }
  match rs with
  | .training => enterPhase n p s
  | .tracking => s

/-- A source's priority copied at an accepted OPEN (R32, R165). -/
def copyPriority (i : Fin 34) (p : BitVec 3) (s : State) : State :=
  { s with attn := attnSetPriority i p s.attn }

/-- An OPEN that passed its checks (R32 to R35): its effects on the part. -/
def acceptOpen (n : Fin 32) (r : OpenReq) (phases : List Phase) (s : State) : State :=
  startChannel n (consultStore n
    ((copyPriority (chanSource n) r.priority s).modChan n (openedChan r phases)))

/-- The status write of an accepted OPEN: dynamic words, then the effective program (R159). -/
def openStatus (n : Fin 32) (s : State) : Bool × State :=
  match statusWrite n s with
  | (false, s) => (false, s)
  | (true, s) => writeDesc n.val 152#32 (effectiveProgram (s.chan n).program) s

/-- An OPEN served for a line channel (R30 to R35, R155, R160). -/
def serveOpen (n : Fin 32) (s : State) : State :=
  match readOpen n s with
  | (none, s) => tableFault s
  | (some (r, phases), s) =>
    match openRefusal ((s.chan n).state == .closed) s.port.activeFmt.slots.toNat
        (slotTaken s n r.timeslot) r phases with
    | some resp => answer (chanDesc n) (chanSource n) resp s
    | none =>
      let s := acceptOpen n r phases s
      answerAfter (chanDesc n) (chanSource n) (respOpened (s.chan n).profileOutcome)
        (openStatus n s)

/-! ## CLOSE (R36, R37, R96) -/

/-- The in-flight record of a channel being closed completed with CLOSED (R96); answers whether no bus
error was met. -/
def completeClosed (n : Fin 32) (s : State) : Bool × State :=
  match (s.chan n).walk.inflight with
  | none => (true, s)
  | some f =>
    match writeEarlyCode n f dispClosed s with
    | (false, s) => (false, s)
    | (true, s) => (true, notifyDone n f.notify s)

/-- The save of a CLOSE, when its conditions hold (R36 step 2). -/
def saveAtClose (n : Fin 32) (s : State) : State :=
  let c := s.chan n
  if c.saveProfile ∧ c.routeTag ≠ 0#32 ∧ tracks c then (requestSave n s).2 else s

/-- Steps 3 and 4 of a CLOSE (R36): search ended, segments returned, CLOSED, timeslot released. -/
def closeChan (n : Fin 32) (s : State) : State :=
  (releaseAll n s).modChan n (leaveRunning .closed)

/-- A CLOSE served for a line channel (R36, R37, R96). -/
def serveClose (n : Fin 32) (s : State) : State :=
  match (s.chan n).state with
  | .closed => answer (chanDesc n) (chanSource n) respNotOpen s
  | .fault =>
    answerAfter (chanDesc n) (chanSource n) respClosed
      (statusWrite n (s.modChan n (leaveRunning .closed)))
  | .training | .tracking | .held =>
    match completeClosed n s with
    | (true, s) =>
      answerAfter (chanDesc n) (chanSource n) respClosed
        (statusWrite n (closeChan n (saveAtClose n s)))
    | (false, s) =>
      answerAfter (chanDesc n) (chanSource n) respClosed
        (statusWrite n ((faultEffects n s).modChan n (leaveRunning .closed)))

/-! ## A descriptor at a visit (R155) -/

/-- Descriptor `n` of a line channel served at a visit (R155, R160). -/
def serveChannel (s : State) (n : Fin 32) : State :=
  match readWord (s.desc n.val) s with
  | (none, s) => tableFault s
  | (some w, s) =>
    match field w 0 8 with
    | 0 => s
    | 1 => serveOpen n s
    | 2 => serveClose n s
    | code => answer (chanDesc n) (chanSource n) (respBadRequest code) s

end Sys2Proof.Machine
end

