-- ==== Sys2Proof/Machine/Chain.lean ====
section
/-! DEFINITION. The maintenance source: its OPEN and CLOSE, the store chain, the store directives, image
transfers, chain faults, and the maintenance visit (08, R136 to R151). -/

namespace Sys2Proof.Machine

/-! ## Status and faults (R150, R151, R158) -/

/-- Descriptor 32. -/
def maintDesc : Fin 33 := 32

/-- The status area of descriptor 32 (R151, R158): bytes 128 to 133, as a word and a half-word
(log 15), whatever the serving of descriptor 32 met at the same visit (DESIGN CHOICE, log 36). Answers
whether both writes were made. -/
def maintStatus (s : State) : Bool × State :=
  let m := s.maint
  match writeDesc 32 128#32
      [pack4 m.chain.code (directiveCode m.inflight) (m.position % 256) (m.position / 256)] s with
  | (false, s) => (false, s)
  | (true, s) =>
    if s.tableBase = 0#24 then (true, s)
    else
      match writeHalf (s.desc 32 + 132#32) (BitVec.ofNat 16 m.imageLen) s with
      | (true, s) => (true, s)
      | (false, s) => (false, tableFault s)

/-- The in-flight items cleared (R139, R142, R150). -/
def clearTransfer (m : Maint) : Maint :=
  { m with inflight := none, position := 0, imageLen := 0, target := none, crc := 0xFFFF#16 }

/-- A chain fault (R150): the target dealt with, the record forgotten, FAULTED, STORE_FAULT. -/
def chainFault (s : State) : State :=
  let s := { s with store := abandonTarget s.maint.target s.store,
                    maint := { clearTransfer s.maint with chain := .faulted } }
  (maintStatus (raise maintSource .storeFault s)).2

/-! ## OPEN and CLOSE of descriptor 32 (R138, R139) -/

/-- An OPEN of descriptor 32 (R138): words 8 and 20 are read (log 14). -/
def maintOpen (s : State) : State :=
  match readWord (s.desc 32 + 8#32) s with
  | (none, s) => tableFault s
  | (some first, s) =>
    match readWord (s.desc 32 + 20#32) s with
    | (none, s) => tableFault s
    | (some w, s) =>
      if s.maint.chain ≠ .idle then answer maintDesc maintSource respNotClosed s
      else if first = 0#32 ∨ ¬ aligned first then answer maintDesc maintSource respAddress s
      else
        let s := copyPriority maintSource (w.extractLsb' 8 3) s
        let s := { s with maint := { s.maint with cursor := first, mode := .atRecord,
                                                  chain := .walking } }
        answerAfter maintDesc maintSource (respOpened .notUsed) (maintStatus s)

/-- The record in flight abandoned (R139 step 1): result ABANDONED, the transfer position as its count,
disposition ABANDONED. Answers whether the writes were made. -/
def abandonRecord (f : InFlightStore) (s : State) : Bool × State :=
  match writeWords [BitVec.ofNat 32 StoreResult.abandoned.code, BitVec.ofNat 32 s.maint.position]
      (f.addr + 20#32) s with
  | (false, s) => (false, s)
  | (true, s) => writeWord f.addr dispAbandoned s

/-- The abandonment of the record in flight, if any, and its cause (R139 step 1; log 18). -/
def abandonInFlight (s : State) : State :=
  match s.maint.inflight with
  | none => s
  | some f =>
    match abandonRecord f s with
    | (true, s) => raise maintSource .storeDone s
    | (false, s) => raise maintSource .storeFault s

/-- A CLOSE of descriptor 32 (R139). -/
def maintClose (s : State) : State :=
  if s.maint.chain = .idle then answer maintDesc maintSource respNotOpen s
  else
    let s := abandonInFlight s
    let s := { s with store := abandonTarget s.maint.target s.store,
                      maint := { clearTransfer s.maint with chain := .idle } }
    answerAfter maintDesc maintSource respClosed (maintStatus s)

/-- Descriptor 32 served at a visit (R155, R160). -/
def serveMaint (s : State) : State :=
  match readWord (s.desc 32) s with
  | (none, s) => tableFault s
  | (some w, s) =>
    match field w 0 8 with
    | 0 => s
    | 1 => maintOpen s
    | 2 => maintClose s
    | code => answer maintDesc maintSource (respBadRequest code) s

/-! ## Completion of a directive (R142) -/

/-- A store record completed (R142): result and count, DONE, the items cleared, the link followed,
STORE_DONE when NOTIFY is set or the result is not OK; then the event's status write. -/
def completeStore (addr : Word) (notify : Bool) (result : StoreResult) (count : Nat) (s : State) :
    State :=
  let tell := raiseIf (notify || result != .ok) maintSource .storeDone
  match writeWords [BitVec.ofNat 32 result.code, BitVec.ofNat 32 count] (addr + 20#32) s with
  | (false, s) => chainFault s
  | (true, s) =>
    match writeWord addr dispDone s with
    | (false, s) => chainFault s
    | (true, s) =>
      let s := { s with maint := clearTransfer s.maint }
      match readWord (addr + 4#32) s with
      | (none, s) => tell (chainFault s)
      | (some v, s) =>
        match linkStep v with
        | .watch =>
          (maintStatus (tell
            { s with maint := { s.maint with cursor := addr, mode := .watching } })).2
        | .moveTo b =>
          (maintStatus (tell
            { s with maint := { s.maint with cursor := b, mode := .atRecord } })).2
        | .misaligned => tell (chainFault s)

/-! ## Transfers (R145 to R148) -/

/-- The image position at which this visit's transfer stops: 64 words a visit, counted over the whole
image (R145, R147). -/
def visitLimit (position imageLen : Nat) : Nat := min imageLen ((position / 64 + 1) * 64)

/-- One visit of an import (R147): the words up to the visit's limit read; coefficient words enter the
entry and the CRC; at the CRC word the import ends. -/
def importVisit (f : InFlightStore) (i : Fin 48) (s : State) : State :=
  let pos := s.maint.position
  let len := s.maint.imageLen
  let stop := visitLimit pos len
  match readWords (stop - pos) (f.buffer + BitVec.ofNat 32 (4 * pos)) s with
  | (none, s) => chainFault s
  | (some ws, s) =>
    let coefs := ws.take (len - 1 - pos)
    let crc := crcWords s.maint.crc coefs
    let s := { s with store := fillEntry i coefs s.store,
                      maint := { s.maint with crc := crc, position := stop } }
    if stop < len then (maintStatus s).2
    else
      let matched := (ws.getD (len - 1 - pos) 0#32).extractLsb' 0 16 == crc
      let s := { s with store := finishImport i matched f.pinned s.store }
      completeStore f.addr f.notify (if matched then .ok else .crcError) len s

/-- One visit of an export (R148): the image words up to the visit's limit written; at the last the
CRC word, and the entry returns to VALID. -/
def exportVisit (f : InFlightStore) (i : Fin 48) (s : State) : State :=
  let pos := s.maint.position
  let len := s.maint.imageLen
  let stop := visitLimit pos len
  let body := ((imageBody (entryAt s.store i)).take (len - 1)).take stop |>.drop pos
  let crc := crcWords s.maint.crc body
  let ws := if stop < len then body else body ++ [0#16 ++ crc]
  match writeWords ws (f.buffer + BitVec.ofNat 32 (4 * pos)) s with
  | (false, s) => chainFault s
  | (true, s) =>
    let s := { s with maint := { s.maint with crc := crc, position := stop } }
    if stop < len then (maintStatus s).2
    else
      completeStore f.addr f.notify .ok len
        { s with store := setEntryState i .valid s.store }

/-- A visit of the transfer in flight (R141, R147, R148). -/
def transferVisit (f : InFlightStore) (s : State) : State :=
  match s.maint.target with
  | none => s
  | some i =>
    match f.kind with
    | .importImage => importVisit f i s
    | .exportImage => exportVisit f i s

/-- IMPORT taken (R146): header read and checked, target claimed, transfer begun at this visit. -/
def startImport (addr buffer tag : Word) (notify : Bool) (s : State) : State :=
  match readWords 4 buffer s with
  | (none, s) => chainFault s
  | (some ws, s) =>
    let h := decodeHeader ws
    if !headerOk h then completeStore addr notify .formatError 4 s
    else
      match selectTarget s.store h.tag with
      | .error o => completeStore addr notify (claimResult o) 4 s
      | .ok i =>
        let f : InFlightStore := { addr := addr, kind := .importImage, tag := tag,
                                   buffer := buffer, notify := notify, pinned := h.pinned }
        importVisit f i
          { s with store := claimTarget i h s.store,
                   maint := { s.maint with inflight := some f, position := 4, imageLen := h.count,
                                           target := some i, crc := crcWords 0xFFFF#16 ws } }

/-- EXPORT taken (R131, R148): the entry becomes EXPORTING and the transfer begins at this visit. -/
def startExport (addr buffer tag : Word) (notify : Bool) (s : State) : State :=
  match findTag s.store tag with
  | none => completeStore addr notify .notFound 0 s
  | some i =>
    let e := entryAt s.store i
    if e.state ≠ .valid then completeStore addr notify .busy 0 s
    else
      let f : InFlightStore := { addr := addr, kind := .exportImage, tag := tag,
                                 buffer := buffer, notify := notify, pinned := e.pinned }
      exportVisit f i
        { s with store := setEntryState i .exporting s.store,
                 maint := { s.maint with inflight := some f, position := 0,
                                         imageLen := imageLength e, target := some i,
                                         crc := 0xFFFF#16 } }

/-- LIST taken (R144). -/
def performList (addr buffer : Word) (notify : Bool) (s : State) : State :=
  match writeWords (listing s.store) buffer s with
  | (false, s) => chainFault s
  | (true, s) => completeStore addr notify .ok (entriesInUse s.store) s

/-- The directive is BAD_DIRECTIVE (R142 step 3): an unknown code, or a buffer that is 0 or misaligned
where one is used. -/
def badDirective (code : Nat) (buffer : Word) : Bool :=
  code == 0 || 6 < code || (4 ≤ code && (buffer == 0#32 || !aligned buffer))

/-- A directive performed (R142 to R148). -/
def performDirective (addr : Word) (code : Nat) (notify : Bool) (tag buffer : Word) (s : State) :
    State :=
  if badDirective code buffer then completeStore addr notify .badDirective 0 s
  else
    match code with
    | 1 =>
      let (r, st) := pinEntry s.store tag true
      completeStore addr notify r 0 { s with store := st }
    | 2 =>
      let (r, st) := pinEntry s.store tag false
      completeStore addr notify r 0 { s with store := st }
    | 3 =>
      let (r, st) := dropEntry s.store tag
      completeStore addr notify r 0 { s with store := st }
    | 4 => performList addr buffer notify s
    | 5 => startImport addr buffer tag notify s
    | _ => startExport addr buffer tag notify s

/-! ## The store step (R141, R142) -/

/-- A POSTED store record taken (R142): TAKEN, words 2 to 4 read, the directive performed. -/
def takeStore (addr : Word) (s : State) : State :=
  let s := { s with maint := { s.maint with chain := .walking } }
  match writeWord addr dispTaken s with
  | (false, s) => chainFault s
  | (true, s) =>
    match readWords 3 (addr + 8#32) s with
    | (none, s) => chainFault s
    | (some ws, s) =>
      let w := ws.getD 0 0#32
      performDirective addr (field w 0 8) (flag w 8) (ws.getD 1 0#32) (ws.getD 2 0#32) s

/-- No POSTED record was found (R141): the chain is WAITING, with a status write when it was not. -/
def waitStore (s : State) : State :=
  if s.maint.chain = .waiting then s
  else (maintStatus { s with maint := { s.maint with chain := .waiting } }).2

/-- The record at the chain cursor looked at (R141). -/
def lookAtStore (s : State) : State :=
  match readWord s.maint.cursor s with
  | (none, s) => chainFault s
  | (some disp, s) => if disp = dispPosted then takeStore s.maint.cursor s else waitStore s

/-- The store step looks for a record (R141), by the procedure of R89. -/
def findStore (s : State) : State :=
  match s.maint.mode with
  | .atRecord => lookAtStore s
  | .watching =>
    match readWord (s.maint.cursor + 4#32) s with
    | (none, s) => chainFault s
    | (some v, s) =>
      match linkStep v with
      | .watch => waitStore s
      | .moveTo b => lookAtStore { s with maint := { s.maint with cursor := b, mode := .atRecord } }
      | .misaligned => chainFault s

/-- The store step of a chain that is open and not faulted (R141): the transfer in flight, or a record
looked for. -/
def workStore (s : State) : State :=
  match s.maint.inflight with
  | some f => transferVisit f s
  | none => findStore s

/-- One store step (R141). -/
def storeStep (s : State) : State :=
  match s.maint.chain with
  | .idle => s
  | .faulted => s
  | .walking => workStore s
  | .waiting => workStore s

/-! ## The visit (R136, R152) -/

/-- A maintenance visit of an enabled part (R136): descriptors 0 to 31, descriptor 32, one store step.
While the table base is 0 the descriptors are skipped (R152). A table fault ends the accesses to its
descriptor for the serving of that descriptor; the store step's status write is an event of its own
(R160; DESIGN CHOICE, log 36). -/
def visit (s : State) : State :=
  storeStep (if s.tableBase = 0#24 then s else serveMaint (allChans.foldl serveChannel s))

/-- MAINTENANCE_VISIT (R136): no visit comes while the part is disabled (log 6). -/
def execMaintenanceVisit (bus : Bus) (s : State) : Host.Outcome State Fault Refusal :=
  .next (onBus bus (fun s => if s.enabled then visit s else s) s)

end Sys2Proof.Machine
end

