-- ==== Sys2Proof/Config.lean ====
section
/-! DEFINITION. What the manual leaves open and the model leaves free. -/

namespace Sys2Proof

/-- A free bit: the ATTN pin after a PART_CONTROL write that both selects pulse mode and makes a
source claimable. R163 and R169 name the two fields in different orders, and the two orders leave
the pin different (log 9). It is applied to the counter `State.freeNext`, so that each use is
fresh. It has no body: nothing can be proved about its value. -/
opaque Config.freeBit : Nat → Bool

/-- A free bit of the part: whether a lock of the line port sets the taken run of a channel in CLOSED
or FAULT to 0. R98 sets it at each lock for every line channel, and R109 says that such channels are
not touched by the lock; the spec sets neither rule aside, and neither does the model (log 20). It has
no body: nothing can be proved about its value. -/
opaque Config.lockReachesStopped : Bool

end Sys2Proof
end

