-- ==== Sys2Proof/Machine/Line.lean ====
section
/-! DEFINITION. The line port: syncs, lock, frames, sample delivery, missing frames, stall and the
line restart's effect, and the meanings of the line commands (06, R105 to R118). -/

namespace Sys2Proof.Machine

/-! ## Timeslots (R106, R112, R113) -/

/-- The channel whose block in progress owns timeslot `slot`. -/
def slotChannel (s : State) (slot : Nat) : Option (Fin 32) :=
  allChans.find? fun n =>
    running (s.chan n) && (s.chan n).line.inBlock && (s.chan n).timeslot == some slot

/-- The sample sent in a timeslot of a frame: x(p) of the block in progress that owns the slot, or 0
(R112). -/
def slotSample (s : State) (slot : Nat) : Sample :=
  match slotChannel s slot with
  | some n => (s.chan n).line.play.getD (s.chan n).line.playPos 0#16
  | none => 0#16

/-- The play position moves on by one for a block in progress (R112). -/
def advancePlay (c : Channel) : Channel :=
  if c.line.inBlock then { c with line := { c.line with playPos := (c.line.playPos + 1) % 40 } }
  else c

/-- A sync by the active format's polarity (R106): LSYNC changes from low to high when the polarity is
0, from high to low when it is 1. -/
def isSync (f : Format) (l : LSync) : Bool :=
  if f.polarity then l.before && !l.now else !l.before && l.now

/-- One bit clock of a timeslot (R106): the received bit enters the shift register behind those before
it. -/
def shiftIn (r : Sample) (b : Bool) : Sample := r.extractLsb' 0 15 ++ BitVec.ofBool b

/-- The sample a timeslot's sixteen bits make (R106): the most significant bit comes first. -/
def receivedSample (lrx : Lrx) : Sample := lrx.toList.foldl shiftIn 0#16

/-- The send of a frame arrival (R111 step 3, R112). -/
def sendFrame (s : State) : State :=
  let out := (List.range s.port.activeFmt.slots.toNat).map (slotSample s)
  { s with port := { s.port with frameOut := some out }, chans := s.chans.map advancePlay }

/-- The level LTX drives in bit clock `k` of the frame (R106): timeslot `t` occupies bit clocks
`b + 16t` to `b + 16t + 15`, most significant bit first, and the tail after the last is low. That the
bit clocks before timeslot 0 are low too is the model's choice (DESIGN CHOICE, log 34). -/
def ltxLevel (p : Port) (k : Nat) : Bool :=
  match p.frameOut with
  | none => false
  | some out =>
    let b := p.activeFmt.offset.toNat
    if k < b then false
    else
      match out[(k - b) / 16]? with
      | some x => x.getLsbD (15 - (k - b) % 16)
      | none => false

/-! ## Frames (R109 to R111) -/

/-- A frame served (R111): the boundary of channel `f` when `f` is 0 to 31, then the send. -/
def serveFrame (f : Nat) (s : State) : State :=
  sendFrame (if h : f < 32 then boundary ⟨f, h⟩ s else s)

/-- The frame count of the next arrival: from 39 it returns to 0 (R110). -/
def nextFrameCount (f : Nat) : Nat := if f < 39 then f + 1 else 0

/-- A frame arrival (R110): the sync accepted, the stall timer rearmed, the count advanced, the frame
served. -/
def acceptFrame (s : State) : State :=
  let f := nextFrameCount s.port.frameCount
  serveFrame f { s with port := { s.port with framePos := 0, stallArmed := true, frameCount := f } }

/-- The taken run of a running channel at a lock (R98, R109). -/
def zeroTakenRun (c : Channel) : Channel := { c with walk := { c.walk with takenRun := 0 } }

/-- A channel in CLOSED or FAULT at a lock: R109 does not touch it, and R98 sets its taken run to 0;
which of the two holds is free (DESIGN CHOICE, log 20). Nothing else of it changes. -/
def lockStopped (c : Channel) : Channel :=
  { c with walk := { c.walk with
      takenRun := if Config.lockReachesStopped then 0 else c.walk.takenRun } }

/-- What the lock does to a running channel but for its hold reason (R109 step 2): histories zeroed,
runs 0, buffers empty. -/
def lockChan (c : Channel) : Channel :=
  { zeroTakenRun c with hist := .reset, poolHist := List.replicate (32 * c.segs.length) 0#16,
                        divRun := 0,
                        line := { c.line with capture := [], play := List.replicate 40 0#16 } }

/-- The lock's step for one channel: for a running channel R109 step 2, for any other what R98 and R109
leave open (log 20). -/
def lockStep (s : State) (n : Fin 32) : State :=
  if running (s.chan n) then
    let before := s.chan n
    statusEvent n before (changeHold n (removeHoldChan .line) (s.modChan n lockChan))
  else s.modChan n lockStopped

/-- The lock (R109): port, channels in index order, LINE_LOCKED, then frame 0. -/
def lock (s : State) : State :=
  let s := { s with port := { s.port with state := .locked, frameCount := 0, framePos := 0,
                                          stallArmed := true } }
  let s := allChans.foldl lockStep s
  serveFrame 0 (raise partSource .lineLocked s)

/-- A sync in HUNT, `clocks` after the last counted sync (R108): the run starts, advances when the
sync is in place, or starts again; at 8 the port locks. -/
def huntSync (clocks : Nat) (s : State) : State :=
  let run := if s.port.syncRun = 0 then 1
    else if clocks = frameLength s.port.activeFmt then s.port.syncRun + 1
    else 1
  let s := { s with port := { s.port with syncRun := run, framePos := 0 } }
  if 8 ≤ run then lock s else s

/-- A sync, `clocks` bit clocks after the sync that the frame position counts from, by the port state
(log 5): not sampled in OFF (R106), a sync in HUNT (R108), in LOCKED a frame arrival in place and
ignored elsewhere (R110). -/
def syncSeen (clocks : Nat) (s : State) : State :=
  match s.port.state with
  | .off => s
  | .hunt => huntSync clocks s
  | .locked =>
    if clocks = frameLength s.port.activeFmt then acceptFrame s
    else { s with port := { s.port with framePos := clocks } }

/-- A bit clock at which LSYNC is seen, `clocks` after the sync that the frame position counts from: a
sync by the active polarity (R106), or nothing. -/
def lsyncSampled (clocks : Nat) (l : LSync) (s : State) : State :=
  if isSync s.port.activeFmt l then syncSeen clocks s else s

/-- A frame length passes with no sync at its end, by the port state (log 5): in HUNT the sync run
becomes 0 (R108); in LOCKED the frame that follows is a missing frame (log 26), the position kept as if
a sync had come, nothing exchanged (R110). -/
def frameMissed (s : State) : State :=
  match s.port.state with
  | .off => s
  | .hunt => { s with port := { s.port with syncRun := 0, framePos := frameLength s.port.activeFmt } }
  | .locked => { s with port := { s.port with framePos := 0, frameOut := none } }

/-- A received sample joins a capture buffer, which holds at most 40 (R113). -/
def captureSample (x : Sample) (c : Channel) : Channel :=
  { c with line := { c.line with capture := (c.line.capture ++ [x]).take 40 } }

/-- The bit clock at which the sixteenth bit of a timeslot is sampled (R106). -/
def slotEnd (f : Format) (slot : Nat) : Nat := f.offset.toNat + 16 * slot + 15

/-- A timeslot's sample delivered (R113): appended for the block in progress that owns the slot,
otherwise discarded; nothing is exchanged outside a frame (R108, R110). -/
def deliverSample (slot : Nat) (x : Sample) (s : State) : State :=
  match s.port.frameOut with
  | none => s
  | some _ =>
    if s.port.activeFmt.slots.toNat ≤ slot then s
    else
      let s := { s with port := { s.port with framePos := slotEnd s.port.activeFmt slot } }
      match slotChannel s slot with
      | some n => s.modChan n (captureSample x)
      | none => s

/-! ## Loss of the line (R115, R116) -/

/-- The channel's timeslot is at or above a new active slot count (R116). A stall brings none. -/
def slotOutside (slots : Option Nat) (c : Channel) : Bool :=
  match slots, c.timeslot with
  | some k, some t => decide (k ≤ t)
  | _, _ => false

/-- The record in flight of a channel, when there is one, completed with LINE_LOST (R97). -/
def dropRecord (n : Fin 32) (readLink : Bool) (s : State) : State :=
  match (s.chan n).walk.inflight with
  | some f => completeLineLost n f readLink s
  | none => s

/-- The line lost for one running channel (R115, R116): block ended, record completed LINE_LOST, LINE
added. `slots` is a restart's new active slot count: a channel whose timeslot is not below it is
moved to FAULT. -/
def loseLine (slots : Option Nat) (s : State) (n : Fin 32) : State :=
  let c := s.chan n
  if running c then
    let s := dropRecord n (!slotOutside slots c) (s.modChan n endBlock)
    if !running (s.chan n) then s
    else if slotOutside slots c then enterFault n s
    else statusEvent n c (changeHold n (addHoldChan .line) s)
  else s

/-- The port leaves its frames for HUNT (R115, R116): sync run and frame count 0, timer disarmed. -/
def toHunt (p : Port) : Port :=
  { p with state := .hunt, syncRun := 0, frameCount := 0, stallArmed := false, frameOut := none }

/-- The line lost (R115, R116): the port hunts, every running channel is taken in index order, then
LINE_LOST is raised on the part source. -/
def lineLost (slots : Option Nat) (s : State) : State :=
  raise partSource .lineLost
    (allChans.foldl (loseLine slots) { s with port := toHunt s.port })

/-- The stall (R115). -/
def stallPort (s : State) : State := lineLost none s

/-- The pending format latched (R107). -/
def latchFormat (p : Port) : Port := { p with activeFmt := p.pendingFmt }

/-- The line restart (R116): no effect in OFF; otherwise the pending format is latched and the line
is lost, channels outside the new format faulting. -/
def restartLine (s : State) : State :=
  let latched := { s with port := latchFormat s.port }
  match s.port.state with
  | .off => s
  | .hunt => lineLost (some latched.port.activeFmt.slots.toNat) latched
  | .locked => lineLost (some latched.port.activeFmt.slots.toNat) latched

/-! ## The meanings of the line commands -/

/-- SYNC_IN_HUNT (R108). -/
def execSyncInHunt (sync : SyncAt) (bus : Bus) (s : State) : Host.Outcome State Fault Refusal :=
  .next (onBus bus (lsyncSampled sync.clocks sync.lsync) s)

/-- HUNT_FRAME_MISSED (R108). -/
def execHuntFrameMissed (s : State) : Host.Outcome State Fault Refusal := .next (frameMissed s)

/-- FRAME_ARRIVAL (R110, R111): a sync in place, one frame length after the last. -/
def execFrameArrival (arrival : Arrival) (s : State) : Host.Outcome State Fault Refusal :=
  .next (onBus arrival.bus (lsyncSampled (frameLength s.port.activeFmt) arrival.lsync) s)

/-- SYNC_IGNORED (R110). -/
def execSyncIgnored (sync : SyncAt) (s : State) : Host.Outcome State Fault Refusal :=
  .next (onBus [] (lsyncSampled sync.clocks sync.lsync) s)

/-- MISSING_FRAME (R110). -/
def execMissingFrame (s : State) : Host.Outcome State Fault Refusal := .next (frameMissed s)

/-- SAMPLE_DELIVERY (R106, R113). -/
def execSampleDelivery (slot : BitVec 5) (lrx : Lrx) (s : State) :
    Host.Outcome State Fault Refusal :=
  .next (deliverSample slot.toNat (receivedSample lrx) s)

/-- STALL (R114, R115): a timer that is not armed does not expire (log 6). -/
def execStall (bus : Bus) (s : State) : Host.Outcome State Fault Refusal :=
  .next (onBus bus (fun s => if s.port.stallArmed then stallPort s else s) s)

end Sys2Proof.Machine
end

