-- ==== Sys2Proof/Machine/Registers.lean ====
section
/-! DEFINITION. The register window: its reads as views, its writes, the resets, and the meanings of the
register and attention commands (10, R161 to R170; R28, R39, R80, R104, R117, R134, R137). -/

namespace Sys2Proof.Machine

/-! ## Reads (R161) -/

/-- The value of a line format as LINE_FORMAT shows it (R107, R161). -/
def formatWord (f : Format) : Word :=
  BitVec.ofNat 32 (f.slots.toNat + 256 * bitNat f.polarity + 4096 * f.offset.toNat)

/-- PART_CONTROL as it reads: ENABLE, ATTN_MODE, ATTN_THRESHOLD; the action bits read 0 (R161, R163). -/
def controlWord (s : State) : Word :=
  BitVec.ofNat 32 (bitNat s.enabled + 16 * bitNat s.attn.pulse + 256 * s.attn.threshold.toNat)

/-- PART_STATUS (R161; R82, R118, R135). -/
def partStatus (s : State) : Word :=
  BitVec.ofNat 32 (bitNat s.enabled + 2 * s.port.state.code + 8 * s.maint.chain.code
    + 32 * bitNat (s.port.activeFmt.slots == .n32) + 256 * entriesInUse s.store
    + 65536 * s.pool.length)

/-- What a read at an offset of the window returns (R161). A read of ATTN_CLAIM also has the effect
that the command CLAIM gives. -/
def readRegister (offset : Word) (s : State) : Word :=
  if offset = 0x00#32 then tableAddr s.tableBase
  else if offset = 0x04#32 then controlWord s
  else if offset = 0x08#32 then formatWord s.port.pendingFmt
  else if offset = 0x0C#32 then partStatus s
  else if offset = 0x10#32 then claimValue s.attn
  else if offset = 0x14#32 then claimValue s.attn
  else 0#32

/-! ## Resets -/

/-- A channel's part of a soft reset (R28, R57, R87, R104, R105, R117). -/
def softResetChan (c : Channel) : Channel :=
  endBlock { c with state := .closed, resume := none, holdDirective := false, holdLine := false,
                    timeslot := none, search := { c.search with sweeping := false },
                    walk := { c.walk with inflight := none } }

/-- The line port's part of a soft reset (R105, R117). -/
def softResetPort (p : Port) : Port :=
  { p with state := .off, syncRun := 0, framePos := 0, frameCount := 0, stallArmed := false,
           frameOut := none }

/-- The profile store's part of a soft reset (R134). -/
def softResetStore (st : Store) : Store := (List.finRange 48).foldl (fun st i => abandonEntry i st) st

/-- Every holding released, channel 0 first (R80). -/
def releaseEvery (s : State) : State := allChans.foldl (fun s n => releaseAll n s) s

/-- A soft reset (R164 and the rules it gathers). -/
def softResetPart (s : State) : State :=
  let s := releaseEvery s
  { s with enabled := false, port := softResetPort s.port, chans := s.chans.map softResetChan,
           store := softResetStore s.store,
           maint := { clearTransfer s.maint with chain := .idle }, attn := attnSoftReset s.attn }

/-- A hardware reset: every block at its hardware-reset values (R39 and the tables it gathers). The
shared memory is not the part's; the queue and the counter of free values are the model's. -/
def hardwareResetPart (s : State) : State :=
  { State.reset with mem := s.mem, freeNext := s.freeNext, pending := s.pending }

/-! ## Writes (R162, R163) -/

/-- A write of TABLE_BASE (R162). -/
def tableBaseWrite (v : Word) (s : State) : State :=
  if s.enabled then s else { s with tableBase := v.extractLsb' 8 24 }

/-- A written line format (R107): a slot count of 28 or less becomes 24, any greater 32. -/
def decodeFormat (v : Word) : Format :=
  { slots := if field v 0 8 ≤ 28 then .n24 else .n32, polarity := flag v 8,
    offset := v.extractLsb' 12 2 }

/-- A write of LINE_FORMAT (R107, R162). -/
def lineFormatWrite (v : Word) (s : State) : State :=
  { s with port := { s.port with pendingFmt := decodeFormat v } }

/-- ENABLE from 0 to 1 (R117): the format latched, the port in HUNT. -/
def enablePart (s : State) : State :=
  { s with enabled := true,
           port := { latchFormat s.port with state := .hunt, syncRun := 0, frameCount := 0 } }

/-- The mode and threshold fields of a PART_CONTROL write taken (R163, R169). -/
def takeControlFields (pulse : Bool) (t : BitVec 3) (s : State) : State :=
  { s with attn := attnControl pulse t (Config.freeBit s.freeNext) s.attn,
           freeNext := s.freeNext + 1 }

/-- The action of a PART_CONTROL write, by ENABLE before it and the bits written (R163). -/
def controlAction (enable reset restart : Bool) (s : State) : State :=
  if reset then softResetPart s
  else if s.enabled then
    (if !enable then softResetPart s else if restart then restartLine s else s)
  else (if enable then enablePart s else s)

/-- A write of PART_CONTROL (R163): fields first, then the action. -/
def partControlWrite (v : Word) (s : State) : State :=
  controlAction (flag v 0) (flag v 1) (flag v 2)
    (takeControlFields (flag v 4) (v.extractLsb' 8 3) s)

/-- A completion (R168). -/
def completeSource (v : Word) (s : State) : State :=
  { s with attn := attnComplete (field v 0 6) s.attn }

/-- A write at an offset of the window (R161). -/
def registerWrite (offset v : Word) (s : State) : State :=
  if offset = 0x00#32 then tableBaseWrite v s
  else if offset = 0x04#32 then partControlWrite v s
  else if offset = 0x08#32 then lineFormatWrite v s
  else if offset = 0x10#32 then completeSource v s
  else s

/-- The word an ENABLE row writes: ENABLE 1, SOFT_RESET 0 (R163). -/
def enableWord (v : Word) : Word := (v &&& ~~~2#32) ||| 1#32

/-- The word a DISABLE row writes: ENABLE 0 (R163). -/
def disableWord (v : Word) : Word := v &&& ~~~1#32

/-- The word a SOFT_RESET row writes: SOFT_RESET 1 (R163). -/
def softResetWord (v : Word) : Word := v ||| 2#32

/-- The word a LINE_RESTART row writes: ENABLE 1, SOFT_RESET 0, LINE_RESTART 1 (R163). -/
def lineRestartWord (v : Word) : Word := (v &&& ~~~2#32) ||| 5#32

/-! ## The meanings of the register commands -/

/-- HARDWARE_RESET (R39). -/
def execHardwareReset (s : State) : Host.Outcome State Fault Refusal := .next (hardwareResetPart s)

/-- TABLE_BASE_WRITE (R162). -/
def execTableBaseWrite (v : Word) (s : State) : Host.Outcome State Fault Refusal :=
  .next (tableBaseWrite v s)

/-- LINE_FORMAT_WRITE (R107). -/
def execLineFormatWrite (v : Word) (s : State) : Host.Outcome State Fault Refusal :=
  .next (lineFormatWrite v s)

/-- ENABLE (R117, R163). -/
def execEnable (v : Word) (s : State) : Host.Outcome State Fault Refusal :=
  .next (onBus [] (partControlWrite (enableWord v)) s)

/-- DISABLE (R117, R163). -/
def execDisable (v : Word) (s : State) : Host.Outcome State Fault Refusal :=
  .next (onBus [] (partControlWrite (disableWord v)) s)

/-- SOFT_RESET (R163, R164). -/
def execSoftReset (v : Word) (s : State) : Host.Outcome State Fault Refusal :=
  .next (onBus [] (partControlWrite (softResetWord v)) s)

/-- LINE_RESTART (R116, R163). -/
def execLineRestart (v : Word) (bus : Bus) (s : State) : Host.Outcome State Fault Refusal :=
  .next (onBus bus (partControlWrite (lineRestartWord v)) s)

/-- SET_ATTN_THRESHOLD (R169): the mode, ENABLE and the action bits as they stand. -/
def execSetAttnThreshold (t : BitVec 3) (s : State) : Host.Outcome State Fault Refusal :=
  .next (takeControlFields s.attn.pulse t s)

/-- SET_ATTN_MODE (R169): ENABLE as it stands, no action. -/
def execSetAttnMode (pulse : Bool) (t : BitVec 3) (s : State) : Host.Outcome State Fault Refusal :=
  .next (takeControlFields pulse t s)

/-- CLAIM (R167): the value read, then the claim's effect. -/
def execClaim (s : State) : Host.Outcome State Fault Refusal :=
  .next { s with readData := claimValue s.attn, attn := attnClaim s.attn }

/-- PEEK (R167): the value a claim would return. -/
def execPeek (s : State) : Host.Outcome State Fault Refusal :=
  .next { s with readData := claimValue s.attn }

/-- SOURCE_COMPLETION (R168). -/
def execSourceCompletion (v : Word) (s : State) : Host.Outcome State Fault Refusal :=
  .next (completeSource v s)

/-- IGNORED_REGISTER_WRITE (R161): a write at an offset where the window takes none is ignored. At an
offset that does take writes, the write is that register's (log 8). -/
def execIgnoredRegisterWrite (offset v : Word) (s : State) : Host.Outcome State Fault Refusal :=
  .next (onBus [] (registerWrite offset v) s)

/-- ATTN_PULSE_END (R170). -/
def execAttnPulseEnd (s : State) : Host.Outcome State Fault Refusal :=
  .next { s with attn := attnPulseEnds s.attn }

end Sys2Proof.Machine
end

