-- ==== Sys2Proof/Machine/Dispatch.lean ====
section
/-! DEFINITION. One arm per command: the command's meaning. -/

namespace Sys2Proof.Machine

def exec (i : Instr) (s : State) : Host.Outcome State Fault Refusal :=
  match i with
  | .hardwareReset => Sys2Proof.Machine.execHardwareReset s
  | .tableBaseWrite v => Sys2Proof.Machine.execTableBaseWrite v s
  | .lineFormatWrite v => Sys2Proof.Machine.execLineFormatWrite v s
  | .enable v => Sys2Proof.Machine.execEnable v s
  | .disable v => Sys2Proof.Machine.execDisable v s
  | .softReset v => Sys2Proof.Machine.execSoftReset v s
  | .lineRestart v bus => Sys2Proof.Machine.execLineRestart v bus s
  | .setAttnThreshold t => Sys2Proof.Machine.execSetAttnThreshold t s
  | .setAttnMode pulse t => Sys2Proof.Machine.execSetAttnMode pulse t s
  | .claim => Sys2Proof.Machine.execClaim s
  | .peek => Sys2Proof.Machine.execPeek s
  | .sourceCompletion v => Sys2Proof.Machine.execSourceCompletion v s
  | .ignoredRegisterWrite offset v => Sys2Proof.Machine.execIgnoredRegisterWrite offset v s
  | .syncInHunt sync bus => Sys2Proof.Machine.execSyncInHunt sync bus s
  | .huntFrameMissed => Sys2Proof.Machine.execHuntFrameMissed s
  | .frameArrival arrival => Sys2Proof.Machine.execFrameArrival arrival s
  | .syncIgnored sync => Sys2Proof.Machine.execSyncIgnored sync s
  | .missingFrame => Sys2Proof.Machine.execMissingFrame s
  | .sampleDelivery slot lrx => Sys2Proof.Machine.execSampleDelivery slot lrx s
  | .stall bus => Sys2Proof.Machine.execStall bus s
  | .maintenanceVisit bus => Sys2Proof.Machine.execMaintenanceVisit bus s
  | .attnPulseEnd => Sys2Proof.Machine.execAttnPulseEnd s

end Sys2Proof.Machine
end

