-- ==== Sys2Proof/Safety.lean ====
section
/-! DEFINITION. What holds of a legal state of the part, in the terms the statements use: the laws that
the manual says the part keeps. A run is safe when every state of it is legal; no command of this
part stops it. At the end, the effects that several statements name, each said once. -/

namespace Sys2Proof.Machine

/-- The shared memory is in its canonical form. -/
abbrev MemLegal (s : State) : Prop := s.mem.wf

/-- The free list and the 32 segment lists together hold each of the 1024 segments exactly once
(R73). -/
def PoolLegal (s : State) : Prop :=
  ∀ x, s.pool.count x + ∑ n : Fin 32, (s.chan n).segs.count x = if x < 1024 then 1 else 0

/-- The pool history of every channel is 32 samples for each segment it holds (R75). -/
def HistoryLegal (s : State) : Prop :=
  ∀ n, (s.chan n).poolHist.length = 32 * (s.chan n).segs.length

/-- What channel `c` holds of the pool (R74): nothing in CLOSED and FAULT, and nothing while it runs with its
far canceller off and does not search; while it searches, at most the search target (R59); while its far
canceller is on, enough for its window (R68) and at most the placement target (R67). A running channel's
Dmin is at least 64 (R32), so a placed D is never the 0 of a far canceller that is off (R6, R67). -/
def HoldsLegally (c : Channel) : Prop :=
  (running c = false → c.segs = []) ∧
    (running c = true → 64 ≤ c.dmin ∧
      (c.search.sweeping = false → c.filt.delay = 0 → c.segs = []) ∧
      (c.search.sweeping = true → c.segs.length ≤ segsFor (c.dmax + 15)) ∧
      (c.filt.delay ≠ 0 → c.filt.delay + c.filt.lfEff + 39 ≤ 32 * c.segs.length ∧
        c.segs.length ≤ segsFor (c.filt.delay + c.filt.lf - 1)))

/-- Every channel holds of the pool what R74 lets it hold. -/
def HoldingLegal (s : State) : Prop := ∀ n, HoldsLegally (s.chan n)

/-- The attention unit's laws: in level mode the pin is asserted exactly while some source is
claimable (R170); the part source has priority 7, and a source of priority 0 carries no cause
(R165). -/
def AttnLegal (a : Attn) : Prop :=
  (a.pulse = false → a.pin = anyClaimable a) ∧ a.sources[partSource].priority = 7#3 ∧
    ∀ i : Fin 34, a.sources[i].priority = 0#3 → a.sources[i].causes = 0#16

/-- The law of one channel's lifecycle under a port that is LOCKED or not (R27): TRAINING and TRACKING
only while LOCKED; hold reasons exactly in HELD; a resume state exactly in HELD. -/
def ChanLegal (locked : Bool) (c : Channel) : Prop :=
  (c.state = .training ∨ c.state = .tracking → locked = true) ∧
    (c.state = .held ↔ (c.holdDirective = true ∨ c.holdLine = true)) ∧
    (c.state = .held ↔ c.resume.isSome = true)

/-- The lifecycle laws: the port is OFF exactly while the part is disabled (R117), the stall timer is
armed exactly in LOCKED (R105, R109), every channel of a disabled part is CLOSED (R28), and every
channel keeps the laws of R27. -/
def LifeLegal (s : State) : Prop :=
  (s.enabled = false ↔ s.port.state = .off) ∧
    (s.port.stallArmed = true ↔ s.port.state = .locked) ∧
    (s.enabled = false → ∀ n, (s.chan n).state = .closed) ∧
    ∀ n, ChanLegal (s.port.state == .locked) (s.chan n)

/-- The timeslot law (R31): no two running channels have the same timeslot, each running channel has
one, below the active slot count; and no channel runs while the part is disabled. -/
def SlotLegal (s : State) : Prop :=
  (s.enabled = false → ∀ n, running (s.chan n) = false) ∧
    (∀ n, running (s.chan n) = true →
      ∃ t, (s.chan n).timeslot = some t ∧ t < s.port.activeFmt.slots.toNat) ∧
    ∀ n k, n ≠ k → running (s.chan n) = true → running (s.chan k) = true →
      (s.chan n).timeslot ≠ (s.chan k).timeslot

/-- A record is in flight for one line channel at most (R173). -/
def InflightLegal (s : State) : Prop :=
  ∀ n k, n ≠ k → ∀ f g, (s.chan n).walk.inflight = some f → (s.chan k).walk.inflight = some g →
    f.addr ≠ g.addr

/-- An entry's transfer is running. -/
def inTransfer (e : Entry) : Bool := e.state == .importing || e.state == .exporting

/-- The entry is the target of the maintenance unit's directive in flight (R137). -/
def IsTarget (m : Maint) (i : Fin 48) : Prop := m.target = some i ∧ m.inflight.isSome = true

/-- The laws of a store whose entries in transfer are those of `target` (R120, R121): tags unique among
the entries in use; the recency order lists exactly the entries in use, each once. -/
def StoreKept (st : Store) (target : Fin 48 → Prop) : Prop :=
  (∀ i j, i ≠ j → (entryAt st i).state ≠ .free → (entryAt st j).state ≠ .free →
      (entryAt st i).tag ≠ (entryAt st j).tag) ∧
    (∀ i, inTransfer (entryAt st i) = true ↔ target i) ∧
    st.recency.Nodup ∧
    ∀ i, i ∈ st.recency ↔ (entryAt st i).state ≠ .free

/-- The store's laws (R120, R121): an entry is in transfer exactly while it is the target of the
directive in flight, so there is at most one. -/
def StoreLegal (s : State) : Prop := StoreKept s.store (IsTarget s.maint)

/-- The laws of the store chain (R138, R141, R152): an open chain stands on an enabled part with a channel
table, and a directive is in flight only in WALKING. -/
def ChainLegal (s : State) : Prop :=
  (s.maint.chain ≠ .idle → s.enabled = true ∧ s.tableBase ≠ 0#24) ∧
    (s.maint.inflight.isSome = true → s.maint.chain = .walking)

/-- A law that a step keeps, whatever command is at the front of the queue. -/
def KeptByStep (law : State → Prop) : Prop := ∀ s t, law s → step s = .next t → law t

/-- No access of a bus script meets a bus error. -/
def NoBusError (bus : Bus) : Prop := ∀ slot ∈ bus, slot.err = false

/-- Byte address `x` lies outside the `len` bytes from `a` upward. -/
def Outside (a : Word) (len x : Nat) : Prop := ∀ k < len, x ≠ (a + BitVec.ofNat 32 k).toNat

/-- The `la` bytes from `a` and the `lb` bytes from `b` have none in common. -/
def Apart (a : Word) (la : Nat) (b : Word) (lb : Nat) : Prop :=
  ∀ k < la, Outside b lb (a + BitVec.ofNat 32 k).toNat

/-- Shared memory after the host writes of a whole bus script. -/
def hostMemory (bus : Bus) (m : Memory) : Memory := bus.foldl (fun m b => applyHost b.host m) m

/-- LSYNC changes to its active level: low to high for polarity 0, high to low for polarity 1 (R106). -/
def ToActive (f : Format) (l : LSync) : Prop := l = ⟨f.polarity, !f.polarity⟩

/-- Every descriptor's request word holds NONE (R155). -/
def NoRequest (s : State) : Prop :=
  ∀ n : Fin 33, (memWord s.mem (s.desc n.val)).extractLsb' 0 8 = 0#8

/-- The first word of descriptor 32's status area (R158): chain state, directive in flight, transfer
position. -/
def maintWord (m : Maint) : Word :=
  BitVec.ofNat 16 m.position ++ (BitVec.ofNat 8 (directiveCode m.inflight) ++ BitVec.ofNat 8 m.chain.code)

/-- Descriptor 32's status area shows the maintenance unit (R158): chain state, directive in flight,
transfer position and image length in bytes 128 to 133. -/
def MaintShown (s : State) : Prop :=
  memWord s.mem (s.desc 32 + 128#32) = maintWord s.maint ∧
    (memWord s.mem (s.desc 32 + 132#32)).extractLsb' 0 16 = BitVec.ofNat 16 s.maint.imageLen

/-- The maintenance unit with nothing in flight (R139, R142, R150). -/
def Emptied (m : Maint) : Maint :=
  { m with inflight := none, position := 0, imageLen := 0, target := none, crc := 0xFFFF#16 }

/-- The store record at `a`, whose link is a multiple of 4, completed between `s` and `t` (R88, R142): DONE
with its result and count, nothing in flight, the cursor moved by the link, STORE_DONE by NOTIFY or a
result other than OK, the status area written. -/
def StoreCompleted (a : Word) (notify : Bool) (result count : Nat) (s t : State) : Prop :=
  memWord t.mem a = 3#32 ∧ memWord t.mem (a + 20#32) = BitVec.ofNat 32 result ∧
    memWord t.mem (a + 24#32) = BitVec.ofNat 32 count ∧ MaintShown t ∧
    t.maint = { Emptied s.maint with
      cursor := if memWord s.mem (a + 4#32) = 0#32 then a else memWord s.mem (a + 4#32),
      mode := if memWord s.mem (a + 4#32) = 0#32 then .watching else .atRecord } ∧
    t.attn = (if notify = true ∨ result ≠ 0 then attnRaise maintSource .storeDone s.attn else s.attn) ∧
    t.chans = s.chans ∧ t.pool = s.pool ∧ t.port = s.port

/-- Entry `i` carries the tag (R120). -/
def Carries (st : Store) (tag : Word) (i : Fin 48) : Prop :=
  (entryAt st i).state ≠ .free ∧ (entryAt st i).tag = tag

/-- Entry `i` is the one that an import claim of the tag takes (R129 rows 3 to 5). -/
def Claimable (st : Store) (tag : Word) (i : Fin 48) : Prop :=
  (Carries st tag i ∧ (entryAt st i).pinned = false ∧ (entryAt st i).state = .valid) ∨
    ((∀ j, ¬ Carries st tag j) ∧ (entryAt st i).state = .free ∧
      ∀ j < i, (entryAt st j).state ≠ .free) ∨
    ((∀ j, ¬ Carries st tag j) ∧ (∀ j, (entryAt st j).state ≠ .free) ∧
      (entryAt st i).pinned = false ∧ (entryAt st i).state = .valid ∧
      ∀ j, (entryAt st j).pinned = false → (entryAt st j).state = .valid →
        st.recency.idxOf j ≤ st.recency.idxOf i)

/-- The cause stands in the cause set of source `i`. -/
def HasCause (a : Attn) (i : Fin 34) (c : Cause) : Prop := a.sources[i].causes.getLsbD (causeIndex c) = true

/-- Source `i` is claimable by the words of R165: causes waiting, priority above the threshold, not in
service. -/
def Waits (a : Attn) (i : Fin 34) : Prop :=
  a.sources[i].causes ≠ 0#16 ∧ a.threshold < a.sources[i].priority ∧ a.sources[i].inService = false

/-- The channel has a block in progress in timeslot `k` (R112, R113). -/
def OwnsSlot (c : Channel) (k : Nat) : Prop :=
  running c = true ∧ c.line.inBlock = true ∧ c.timeslot = some k

/-- A block's line buffers when it begins or when there is none: nothing captured, zeros to play
(R105, R113). -/
def SilentLine (b : LineBuf) : Prop :=
  b.play = List.replicate 40 0#16 ∧ b.capture = []

/-- What a loss of the line leaves as it stands in a channel (R115): histories, coefficients, training
program position, search state, the three runs, the gap count and the segments. -/
def LineLossKeeps (c d : Channel) : Prop :=
  d.filt = c.filt ∧ d.hist = c.hist ∧ d.phaseIndex = c.phaseIndex ∧ d.blockCount = c.blockCount ∧
    d.earlyRun = c.earlyRun ∧ d.search = c.search ∧ d.divRun = c.divRun ∧ d.divCount = c.divCount ∧
    d.segs = c.segs ∧ d.poolHist = c.poolHist ∧ d.program = c.program ∧ d.timeslot = c.timeslot

/-- The resume state after a hold reason joins (R47). -/
def resumeOf (c : Channel) : Option RunState :=
  match c.state with
  | .training => some .training
  | .tracking => some .tracking
  | .held => c.resume
  | .closed => c.resume
  | .fault => c.resume

/-! ## Effects that several statements name -/

/-- A bus script whose access number `k`, counted from 0, meets a bus error; no host write comes. -/
def ErrorAt (k : Nat) : Bus := List.replicate k ⟨[], false⟩ ++ [⟨[], true⟩]

/-- The status area of line channel `n` shows the channel's dynamic words (R158, R159). -/
def StatusShown (n : Fin 32) (s : State) : Prop :=
  ∀ i < 6, memWord s.mem (s.desc n.val + 128#32 + BitVec.ofNat 32 (4 * i)) =
    (statusWords (s.chan n)).getD i 0#32

/-- A block's line buffers ended early: silent, nothing captured, no block in progress (R105). The play
position 0 is the model's choice (log 35). -/
def EndedLine : LineBuf :=
  { play := List.replicate 40 0#16, playPos := 0, capture := [], inBlock := false }

/-- A channel as its entry to FAULT leaves it (R38, R103): timeslot, segments, hold reasons, search and
record in flight gone, its block ended. D and Lf_eff 0 are the model's reading (log 11). -/
def Faulted (c : Channel) : Channel :=
  { c with state := .fault, resume := none, holdDirective := false, holdLine := false,
           timeslot := none, segs := [], poolHist := [], statusDue := false,
           search := { c.search with sweeping := false },
           filt := { c.filt with delay := 0, lfEff := 0 },
           walk := { c.walk with inflight := none }, line := EndedLine }

/-- Channel `n` enters FAULT between `s` and `t`, no access of its status write meeting an error (R38,
R79, R159): segments to the tail of the pool, the oldest first, FAULT raised, the status area written,
nothing else. -/
def FaultEntered (n : Fin 32) (s t : State) : Prop :=
  t = { s with mem := t.mem, chans := t.chans, pool := s.pool ++ (s.chan n).segs.reverse,
               attn := attnRaise (chanSource n) .fault s.attn } ∧
    t.chan n = Faulted (s.chan n) ∧ (∀ k, k ≠ n → t.chan k = s.chan k) ∧
    (s.tableBase ≠ 0#24 → StatusShown n t) ∧
    ∀ x, Outside (s.desc n.val + 128#32) 24 x → memRead t.mem x = memRead s.mem x

/-- A starved boundary of channel `n`, and the block that begins at it (R90). -/
def StarvedBoundary (n : Fin 32) (s t : State) : Prop :=
  t = { s with chans := t.chans, attn := t.attn } ∧ (∀ k, k ≠ n → t.chan k = s.chan k) ∧
    t.chan n = { s.chan n with
      line := { play := List.replicate 40 0#16, playPos := 0, capture := [], inBlock := true },
      walk := { (s.chan n).walk with
        gapCount := min 65535 ((s.chan n).walk.gapCount + 1), takenRun := 0,
        starvReported := true } } ∧
    t.attn = if (s.chan n).walk.starvReported then s.attn
      else attnRaise (chanSource n) .starved s.attn

/-- BLOCK_DONE raised on the source of channel `n` for a record with NOTIFY (R95). -/
def Notified (n : Fin 32) (f : InFlight) (a : Attn) : Attn :=
  if f.notify then attnRaise (chanSource n) .blockDone a else a

/-- The address of a record's gap word (R83, R85). -/
def gapWordAt (f : InFlight) : Word :=
  f.addr + (if f.refPresent then 176#32 else 96#32) + (if f.residWanted then 160#32 else 80#32) + 24#32

/-- The walker after a completion with DONE or LINE_LOST of the record `f`, whose link word is `link` and
no misaligned one (R88, R99). -/
def WalkedOn (f : InFlight) (link : Word) (w : Walker) : Walker :=
  { w with inflight := none, gapCount := 0, cursor := if link = 0#32 then f.addr else link,
           mode := if link = 0#32 then .watching else .atRecord }

/-- The timeslot of the channel is at or above a new slot count; a stall brings none (R116). -/
def OutsideFormat (slots : Option Nat) (c : Channel) : Prop :=
  ∃ k m, slots = some k ∧ c.timeslot = some m ∧ k ≤ m

/-- What a stall or a line restart does to channel `n` at its turn, no access meeting an error (R97, R115,
R116, R159). `slots` is a restart's new slot count. A channel not running stands. The record in flight of a
running one has LINE_LOST and the gap count. The channel is then HELD with LINE, with STATE raised when it was not
HELD and the status area written; or in FAULT, when its timeslot is outside the new format, or when the
link of its record is misaligned. -/
def LostTurn (slots : Option Nat) (n : Fin 32) (s t : State) : Prop :=
  (running (s.chan n) = false → t = s) ∧
    (running (s.chan n) = true →
      t = { s with mem := t.mem, chans := t.chans, pool := t.pool, attn := t.attn } ∧
      (∀ k, k ≠ n → t.chan k = s.chan k) ∧
      (∀ f, (s.chan n).walk.inflight = some f → Apart f.addr 368 (s.desc n.val + 128#32) 24 →
        memWord t.mem f.addr = 6#32 ∧
        ((s.chan n).walk.gapCount ≤ 65535 →
          (memWord t.mem (gapWordAt f)).toNat = (s.chan n).walk.gapCount)) ∧
      (∀ x, Outside (s.desc n.val + 128#32) 24 x →
        (∀ f, (s.chan n).walk.inflight = some f → Outside f.addr 4 x ∧ Outside (gapWordAt f) 4 x) →
        memRead t.mem x = memRead s.mem x) ∧
      (¬ OutsideFormat slots (s.chan n) →
        (∀ f, (s.chan n).walk.inflight = some f →
          (memWord s.mem (f.addr + 4#32)).toNat % 4 = 0) →
        t.pool = s.pool ∧
        t.chan n = { s.chan n with
          state := .held, resume := resumeOf (s.chan n), holdLine := true, statusDue := false,
          line := EndedLine,
          walk := match (s.chan n).walk.inflight with
            | none => (s.chan n).walk
            | some f => WalkedOn f (memWord s.mem (f.addr + 4#32)) (s.chan n).walk } ∧
        t.attn =
          (let done := match (s.chan n).walk.inflight with
            | none => s.attn
            | some f => Notified n f s.attn
          if (s.chan n).state = .held then done else attnRaise (chanSource n) .state done) ∧
        (s.tableBase ≠ 0#24 → ((s.chan n).state ≠ .held ∨ (s.chan n).holdLine = false) →
          StatusShown n t)) ∧
      (¬ OutsideFormat slots (s.chan n) → ∀ f, (s.chan n).walk.inflight = some f →
        (memWord s.mem (f.addr + 4#32)).toNat % 4 ≠ 0 →
        t.pool = s.pool ++ (s.chan n).segs.reverse ∧
        t.chan n = Faulted { s.chan n with walk := { (s.chan n).walk with gapCount := 0 } } ∧
        t.attn = Notified n f (attnRaise (chanSource n) .fault s.attn) ∧
        (s.tableBase ≠ 0#24 → StatusShown n t)) ∧
      (OutsideFormat slots (s.chan n) →
        t.pool = s.pool ++ (s.chan n).segs.reverse ∧
        t.chan n = Faulted { s.chan n with walk := { (s.chan n).walk with
          gapCount := match (s.chan n).walk.inflight with
            | none => (s.chan n).walk.gapCount
            | some _ => 0 } } ∧
        t.attn = attnRaise (chanSource n) .fault (match (s.chan n).walk.inflight with
          | none => s.attn
          | some f => Notified n f s.attn) ∧
        (s.tableBase ≠ 0#24 → StatusShown n t)))

/-- A running channel as a lock leaves it (R48, R109): zero histories, runs of 0, silent buffers, LINE gone;
out of HELD when no reason is left. Without a resume state, which no run reaches, HELD goes to TRAINING (log
33). -/
def Locked (c : Channel) : Channel :=
  { c with
    hist := { near := List.replicate 63 0#16, resid := List.replicate 143 0#16,
              outNew := ⟨List.replicate 40 0#16, false⟩, outOld := ⟨List.replicate 40 0#16, false⟩,
              lastRecv := 0#16, stuckRun := 0 }
    poolHist := List.replicate (32 * c.segs.length) 0#16, divRun := 0
    walk := { c.walk with takenRun := 0 }
    line := { c.line with play := List.replicate 40 0#16, capture := [] }
    statusDue := false
    holdLine := if c.state = .held then false else c.holdLine
    state := if c.state = .held ∧ c.holdDirective = false then
        (if c.resume = some .tracking then .tracking else .training)
      else c.state
    resume := if c.state = .held ∧ c.holdDirective = false then none else c.resume }

/-- What a lock does to channel `n` at its turn, no access meeting an error (R48, R109, R159): a running one
is as `Locked` says, STATE raised when it leaves HELD, and the status area shows a change. Of a channel not
running the taken run alone may change, to 0 (R98, R109; log 20). -/
def LockTurn (n : Fin 32) (s t : State) : Prop :=
  (∀ k, k ≠ n → t.chan k = s.chan k) ∧
    (running (s.chan n) = false → t = { s with chans := t.chans } ∧
      ∃ run, (run = 0 ∨ run = (s.chan n).walk.takenRun) ∧
        t.chan n = { s.chan n with walk := { (s.chan n).walk with takenRun := run } }) ∧
    (running (s.chan n) = true →
      t = { s with mem := t.mem, chans := t.chans, attn := t.attn } ∧
      t.chan n = Locked (s.chan n) ∧
      t.attn = (if (s.chan n).state = .held ∧ (s.chan n).holdDirective = false then
        attnRaise (chanSource n) .state s.attn else s.attn) ∧
      (s.tableBase ≠ 0#24 → (s.chan n).state = .held →
        ((s.chan n).holdDirective = false ∨ (s.chan n).holdLine = true) → StatusShown n t) ∧
      ∀ x, Outside (s.desc n.val + 128#32) 24 x → memRead t.mem x = memRead s.mem x)

/-- A chain fault between `s` and `t`, no access of its status write meeting an error, the table base not 0
(R132, R150): FAULTED with nothing in flight, the target ended, STORE_FAULT raised, the status area written,
nothing else; store steps then do nothing. -/
def ChainFaulted (s t : State) : Prop :=
  t = { s with mem := t.mem, store := abandonTarget s.maint.target s.store,
               maint := { Emptied s.maint with chain := .faulted },
               attn := attnRaise maintSource .storeFault s.attn } ∧
    MaintShown t ∧ storeStep t = t ∧
    ∀ x, Outside (s.desc 32 + 128#32) 6 x → memRead t.mem x = memRead s.mem x

/-- A status write of channel `n` that meets a bus error at its word `k`, `u` being the state that the event
leaves but for it (R159, R160): TABLE_FAULT on the part source, the words before `k` written, and every effect
and cause of the event stands. -/
def StatusFaulted (n : Fin 32) (k : Nat) (u t : State) : Prop :=
  t = { u with mem := t.mem, chans := t.chans, attn := attnRaise partSource .tableFault u.attn } ∧
    t.chan n = { u.chan n with statusDue := false } ∧ (∀ j, j ≠ n → t.chan j = u.chan j) ∧
    (∀ i < k, memWord t.mem (u.desc n.val + 128#32 + BitVec.ofNat 32 (4 * i)) =
      (statusWords (u.chan n)).getD i 0#32) ∧
    ∀ x, Outside (u.desc n.val + 128#32) (4 * k) x → memRead t.mem x = memRead u.mem x

/-- The answer to a request of descriptor `d` that meets a bus error at its write `j`, `u` being the state that
the request's effects leave (R155, R160). It writes the words `status` from byte 128 upward (none of a
request that changes nothing), then the response, then NONE. TABLE_FAULT on the part source and no
REQUEST_DONE; the writes before `j` stand and no other byte changes, so the request word stands too. -/
def AnswerFaulted (d : Nat) (status : List Word) (response : Word) (j : Nat) (u t : State) : Prop :=
  t = { u with mem := t.mem, attn := attnRaise partSource .tableFault u.attn } ∧
    (∀ i < min j status.length, memWord t.mem (u.desc d + 128#32 + BitVec.ofNat 32 (4 * i)) =
      status.getD i 0#32) ∧
    (status.length < j → memWord t.mem (u.desc d + 4#32) = response) ∧
    memWord t.mem (u.desc d) = memWord u.mem (u.desc d) ∧
    ∀ x, Outside (u.desc d + 128#32) (4 * min j status.length) x →
      (status.length < j → Outside (u.desc d + 4#32) 4 x) → memRead t.mem x = memRead u.mem x

/-- The same for a request of descriptor 32 that changes its status area, written as a word and a half-word
(R158, R160). That it takes two writes is the model's choice (log 15). -/
def MaintAnswerFaulted (response : Word) (j : Nat) (u t : State) : Prop :=
  t = { u with mem := t.mem, attn := attnRaise partSource .tableFault u.attn } ∧
    (0 < j → memWord t.mem (u.desc 32 + 128#32) = maintWord u.maint) ∧ (1 < j → MaintShown t) ∧
    (2 < j → memWord t.mem (u.desc 32 + 4#32) = response) ∧
    memWord t.mem (u.desc 32) = memWord u.mem (u.desc 32) ∧
    ∀ x, Outside (u.desc 32 + 128#32) (if j = 0 then 0 else if j = 1 then 4 else 6) x →
      (2 < j → Outside (u.desc 32 + 4#32) 4 x) → memRead t.mem x = memRead u.mem x

/-- A table fault before any write (R160): TABLE_FAULT on the part source, the script used up, nothing else. -/
def ReadFaulted (s t : State) : Prop :=
  t = { s with bus := [], attn := attnRaise partSource .tableFault s.attn }

/-- What an accepted OPEN gives its channel whether or not a profile is loaded (R32, R34): the clamped
configuration and effective program, zero histories and counts, an idle search, the walker at the first record,
a silent line, HELD with LINE alone when the port is not LOCKED. The play position 0 is the model's choice (log
35). -/
def Configured (r : OpenReq) (phases : List Phase) (locked : Prop) (d : Channel) : Prop :=
  let shift := fun k : Nat => if k = 0 then 0 else max 8 (min 40 k)
  d.holdDirective = false ∧ (d.holdLine = true ↔ ¬ locked) ∧
    d.timeslot = some r.timeslot ∧ d.routeTag = r.tag ∧ d.progLen = r.progLen ∧
    d.program = phases.map (fun p => { p with
      nearShift := shift p.nearShift, farShift := shift p.farShift, eqShift := shift p.eqShift,
      duration := max 1 p.duration, runK := max 1 p.runK }) ∧
    d.blockCount = 0 ∧ d.earlyRun = 0 ∧ d.divRun = 0 ∧ d.divCount = 0 ∧
    d.tf = r.tf ∧ d.rf = r.rf ∧ d.guard = r.guard ∧
    d.ratio = max 2 (min 64 r.ratio) ∧ d.dmin = max 64 (min 4992 r.dmin) ∧
    d.dmax = max d.dmin (max 64 (min 4992 r.dmax)) ∧
    d.useProfile = r.useProfile ∧ d.saveProfile = r.saveProfile ∧
    d.trackNear = shift r.trackNear ∧ d.trackFar = shift r.trackFar ∧ d.trackEq = shift r.trackEq ∧
    d.filt.ln = r.ln ∧ d.filt.lf = r.lf ∧ d.filt.le = r.le ∧
    d.hist = { near := List.replicate 63 0#16, resid := List.replicate 143 0#16,
               outNew := ⟨List.replicate 40 0#16, false⟩, outOld := ⟨List.replicate 40 0#16, false⟩,
               lastRecv := 0#16, stuckRun := 0 } ∧
    d.search.sweeping = false ∧ d.search.nextBlock = 0 ∧ d.search.bestLag = 0 ∧
    d.search.bestScore = 0 ∧ d.search.scoreSum = 0 ∧ d.search.lagsEval = 0 ∧
    d.search.lastResult = .notRun ∧ d.search.lastBestLag = 0 ∧ d.lastSave = .none ∧
    SilentLine d.line ∧ d.line.playPos = 0 ∧ d.line.inBlock = false ∧
    d.walk = { cursor := r.firstRecord, mode := .atRecord, inflight := none, gapCount := 0,
               takenRun := 0, starvReported := false }

/-- The priority that an accepted OPEN copies to source `i`, between `a` and `b` (R165, R170): in-service flag and
causes stand, but that priority 0 empties the causes; every other source stands. The pin of level mode follows
the claimable set; in pulse mode it is asserted when the source joins the set, else as it was. -/
def PriorityCopied (i : Fin 34) (priority : BitVec 3) (a b : Attn) : Prop :=
  b.pulse = a.pulse ∧ b.threshold = a.threshold ∧
    (∀ j : Fin 34, b.sources[j] = if j = i then
        { a.sources[i] with
          priority := priority
          causes := if priority = 0#3 then 0#16 else a.sources[i].causes }
      else a.sources[j]) ∧
    (a.pulse = false → (b.pin = true ↔ ∃ j, Waits b j)) ∧
    (a.pulse = true → (b.pin = true ↔ a.pin = true ∨ (Waits b i ∧ ¬ Waits a i)))

/-- What an accepted OPEN of channel `n` leaves of the rest of the part (R32, R33, R165): its source has the
priority, then POOL_SHORT is raised on it when the pool could not cover a loaded window (`short`); every other
channel, memory, port and maintenance unit stand. -/
def OpenLeaves (n : Fin 32) (priority : BitVec 3) (short : Prop) (s t : State) : Prop :=
  t = { s with chans := t.chans, pool := t.pool, store := t.store, attn := t.attn } ∧
    (∀ k, k ≠ n → t.chan k = s.chan k) ∧
    ∃ a, PriorityCopied (chanSource n) priority s.attn a ∧
      (short → t.attn = attnRaise (chanSource n) .poolShort a) ∧ (¬ short → t.attn = a)

/-- A store step that finds no POSTED record (R141): the chain is WAITING, the status area written when it was
not, and nothing else changes. -/
def StoreWaits (s t : State) : Prop :=
  t = { s with mem := t.mem, maint := { s.maint with chain := .waiting } } ∧
    (s.maint.chain = .waiting → t = s) ∧ (s.maint.chain ≠ .waiting → MaintShown t) ∧
    ∀ x, Outside (s.desc 32 + 128#32) 6 x → memRead t.mem x = memRead s.mem x

/-- A store record at `a` answered with a result and no other word written (R142, R144, R148). -/
def StoreAnswered (a : Word) (notify : Bool) (result count : Nat) (s t : State) : Prop :=
  StoreCompleted a notify result count s t ∧
    ∀ x, Outside a 4 x → Outside (a + 20#32) 8 x → Outside (s.desc 32 + 128#32) 6 x →
      memRead t.mem x = memRead s.mem x

end Sys2Proof.Machine
end

