-- ==== Sys2Proof/Certificates/Slice0/Obligations.lean ====
section
/-! DEFINITION. The statements for the provers. Each docstring names the rules it rests on; a clause that
states a choice of the model says so and names the log entry. -/

open Sys2Proof Sys2Proof.Machine

/-! ## The queue -/

/-- The model's own queue (00 section 5.4 gives the order of events; log 4): a step takes the command at
the front of the queue and is that command's meaning on the state with the queue's rest. -/
def Obligations.StepRunsFrontCommand : Prop :=
  ∀ (c : Instr) (rest : List Instr) (s : State), s.pending = c :: rest →
    step s = exec c { s with pending := rest }

/-- Every command, from every state, answers a next state; the queue behind it stands, and its bus script is
used up (log 1, log 4). -/
def Obligations.EveryCommandCompletes : Prop :=
  ∀ (c : Instr) (s : State), ∃ t, exec c s = .next t ∧ t.pending = s.pending ∧
    (s.bus = [] → t.bus = [])

/-- Which commands reach the registers (R161 to R163): ENABLE changes only at a hardware reset or a
PART_CONTROL write, TABLE_BASE and the pending format only at a hardware reset or a write of their own
register; no line event, visit, claim or timer does. A write at an offset by IGNORED_REGISTER_WRITE
changes none of them unless its offset is one that takes writes (log 8), and a write of PART_STATUS, of
ATTN_PEEK or at an offset the window does not decode changes nothing at all. -/
def Obligations.ConfigurationChangesOnlyByWrites : Prop :=
  (∀ (c : Instr) (s t : State), exec c s = .next t →
    ((∀ v, c ≠ .tableBaseWrite v) → c ≠ .hardwareReset → (∀ v, c ≠ .ignoredRegisterWrite 0x00#32 v) →
      t.tableBase = s.tableBase) ∧
    ((∀ v, c ≠ .lineFormatWrite v) → c ≠ .hardwareReset → (∀ v, c ≠ .ignoredRegisterWrite 0x08#32 v) →
      t.port.pendingFmt = s.port.pendingFmt) ∧
    ((∀ v, c ≠ .enable v) → (∀ v, c ≠ .disable v) → (∀ v, c ≠ .softReset v) →
      (∀ v bus, c ≠ .lineRestart v bus) → c ≠ .hardwareReset →
      (∀ v, c ≠ .ignoredRegisterWrite 0x04#32 v) → t.enabled = s.enabled)) ∧
  ∀ (offset v : Word) (s : State), s.bus = [] →
    offset ≠ 0x00#32 → offset ≠ 0x04#32 → offset ≠ 0x08#32 → offset ≠ 0x10#32 →
    exec (.ignoredRegisterWrite offset v) s = .next s

/-! ## Resets -/

/-- HARDWARE_RESET: every channel CLOSED with the values of R7, R28, R57, R87 and R105, the pool ascending
(R73), the store empty (R119, R134), the chain IDLE (R137), the attention unit as R165 says, and the
registers read as R161 says; the shared memory is not the part's (log 31). The lengths Ln, Lf and Le and the
two outcomes of the status area have no reset value in the manual: theirs are the model's choice (log 10),
and the status mark is the model's own (log 16). -/
def Obligations.HardwareResetValues : Prop :=
  ∀ s : State, ∃ t, exec .hardwareReset s = .next t ∧ t.mem = s.mem ∧ t.pending = s.pending ∧
    t.enabled = false ∧ t.tableBase = 0#24 ∧
    t.port = { state := .off, pendingFmt := ⟨.n32, false, 0#2⟩, activeFmt := ⟨.n32, false, 0#2⟩,
               syncRun := 0, framePos := 0, frameCount := 0, stallArmed := false, frameOut := none } ∧
    (∀ n, t.chan n = {
      state := .closed, resume := none, holdDirective := false, holdLine := false, timeslot := none,
      program := [], progLen := 0, phaseIndex := 0, blockCount := 0, earlyRun := 0, divRun := 0,
      divCount := 0, trackNear := 0, trackFar := 0, trackEq := 0, tf := 0, rf := 0, ratio := 0, dmin := 0,
      dmax := 0, useProfile := false, saveProfile := false, guard := false, routeTag := 0#32,
      profileOutcome := .notUsed, lastSave := .none, statusDue := false,
      filt := { ln := 0, lf := 0, le := 0, cursorTap := 0, hn := [], hf := [], g := [], delay := 0,
                lfEff := 0 },
      hist := { near := List.replicate 63 0#16, resid := List.replicate 143 0#16,
                outNew := ⟨List.replicate 40 0#16, false⟩, outOld := ⟨List.replicate 40 0#16, false⟩,
                lastRecv := 0#16, stuckRun := 0 },
      segs := [], poolHist := [],
      search := { sweeping := false, dmaxEff := 0, sweepLen := 0, nextBlock := 0, bestLag := 0,
                  bestScore := 0, scoreSum := 0, lagsEval := 0, lastResult := .notRun, lastBestLag := 0 },
      walk := { cursor := 0#32, mode := .atRecord, inflight := none, gapCount := 0, takenRun := 0,
                starvReported := false },
      line := { play := List.replicate 40 0#16, playPos := 0, capture := [], inBlock := false } }) ∧
    t.pool = List.range 1024 ∧
    (∀ i, entryAt t.store i = { state := .free, tag := 0#32, pinned := false, ln := 0, lf := 0, le := 0,
                                cursor := 0, delay := 0, coefs := [] }) ∧
    t.store.recency = [] ∧
    t.maint = { chain := .idle, cursor := 0#32, mode := .atRecord, inflight := none, position := 0,
                imageLen := 0, target := none, crc := 0xFFFF#16 } ∧
    t.attn.pulse = false ∧ t.attn.threshold = 0#3 ∧ t.attn.pin = false ∧
    readRegister 0x00#32 t = 0#32 ∧ readRegister 0x04#32 t = 0#32 ∧ readRegister 0x08#32 t = 32#32 ∧
    readRegister 0x0C#32 t = 0x04000020#32 ∧
    ∀ i : Fin 34, t.attn.sources[i].causes = 0#16 ∧ t.attn.sources[i].inService = false ∧
      t.attn.sources[i].priority = if i = partSource then 7#3 else 0#3

/-- Every law below holds right after hardware reset (R39, R73, R74, R119, R165). -/
def Obligations.ResetIsLegal : Prop :=
  MemLegal State.reset ∧ PoolLegal State.reset ∧ HistoryLegal State.reset ∧
    HoldingLegal State.reset ∧ AttnLegal State.reset.attn ∧ LifeLegal State.reset ∧ SlotLegal State.reset ∧
    InflightLegal State.reset ∧ StoreLegal State.reset ∧ ChainLegal State.reset

/-- SOFT_RESET: after the fields of the write are taken as SET_ATTN_MODE takes them (R163, R169), every
channel is CLOSED and holds nothing, the port is OFF with both formats kept, the chain is IDLE, every cause
set is empty and the pin deasserted; TABLE_BASE, memory and the priorities stand; VALID profiles stand with
their pins, an IMPORTING entry becomes FREE, an EXPORTING one VALID, and the recency order keeps the rest in
order. Behind the segments that were free stand the released lists, channel 0 first, each oldest segment
first; of a legal pool all 1024 are then free (R28, R57, R104, R79, R80, R105, R117, R132, R134, R137,
R164). -/
def Obligations.SoftResetEffects : Prop :=
  (∀ (v : Word) (s : State), s.bus = [] → ∃ u t,
    exec (.setAttnMode (v.getLsbD 4) (v.extractLsb' 8 3)) s = .next u ∧ exec (.softReset v) s = .next t ∧
    t.enabled = false ∧ t.tableBase = s.tableBase ∧ t.mem = s.mem ∧ t.readData = s.readData ∧
    t.port = { s.port with state := .off, syncRun := 0, framePos := 0, frameCount := 0,
                           stallArmed := false, frameOut := none } ∧
    (∀ n, t.chan n = { s.chan n with
      state := .closed, resume := none, holdDirective := false, holdLine := false, timeslot := none,
      segs := [], poolHist := [], search := { (s.chan n).search with sweeping := false },
      walk := { (s.chan n).walk with inflight := none },
      line := { play := List.replicate 40 0#16, playPos := 0, capture := [], inBlock := false } }) ∧
    t.maint = { s.maint with chain := .idle, inflight := none, position := 0, imageLen := 0,
                             target := none, crc := 0xFFFF#16 } ∧
    (∀ i, ((entryAt s.store i).state = .valid ∨ (entryAt s.store i).state = .free →
        entryAt t.store i = entryAt s.store i) ∧
      ((entryAt s.store i).state = .exporting →
        entryAt t.store i = { entryAt s.store i with state := .valid }) ∧
      ((entryAt s.store i).state = .importing →
        entryAt t.store i = { entryAt s.store i with state := .free, tag := 0#32 })) ∧
    t.store.recency = (s.store.recency.filter fun i => (entryAt s.store i).state != .importing) ∧
    t.attn.pulse = u.attn.pulse ∧ t.attn.threshold = u.attn.threshold ∧ t.attn.pin = false ∧
    ∀ i : Fin 34, t.attn.sources[i].causes = 0#16 ∧ t.attn.sources[i].inService = false ∧
      t.attn.sources[i].priority = s.attn.sources[i].priority) ∧
  ∀ (v : Word) (s : State), ∃ t, exec (.softReset v) s = .next t ∧
    t.pool = s.pool ++ (List.finRange 32).flatMap (fun n => (s.chan n).segs.reverse) ∧
    (∀ n, (t.chan n).segs = []) ∧ (PoolLegal s → t.pool.length = 1024)

/-! ## Register writes -/

/-- TABLE_BASE_WRITE and LINE_FORMAT_WRITE (R162, with R107, R152 and R161). A write of TABLE_BASE is ignored
while ENABLE is 1; else bits 8 to 31 are set and bits 0 to 7 discarded; a read returns the value with bits
0 to 7 as 0, and descriptor `n` stands at that value plus 256 n. A write of LINE_FORMAT sets the pending
format in any port state (a slot count of 28 or less gives 24, more gives 32), and a read returns it; the
active format stands. Nothing else changes by either.
ENABLE and DISABLE (R117, R163). ENABLE on a disabled part: after the attention fields, ENABLE is 1, the
pending format is latched and the port hunts with sync run 0 and frame count 0, nothing else changes, and
LINE_RESTART has no effect in such a write. On an enabled part with LINE_RESTART 0: the attention fields
alone, so nothing is latched and the hunt is not restarted; with LINE_RESTART 1 it is the line restart.
DISABLE on an enabled part is the soft reset; on a disabled part, with SOFT_RESET 0, it sets the attention
fields alone. -/
def Obligations.ConfigurationAndEnableWrites : Prop :=
  (∀ (v : Word) (s : State),
    (∃ t, exec (.tableBaseWrite v) s = .next t ∧
      t = { s with tableBase := t.tableBase } ∧
      (s.enabled = true → t = s) ∧
      (s.enabled = false → readRegister 0x00#32 t = v &&& 0xFFFFFF00#32) ∧
      ∀ n : Fin 33, t.desc n.val = readRegister 0x00#32 t + BitVec.ofNat 32 (256 * n.val)) ∧
    ∃ t, exec (.lineFormatWrite v) s = .next t ∧
      t = { s with port := { s.port with pendingFmt := t.port.pendingFmt } } ∧
      t.port.pendingFmt.slots.toNat = (if (v.extractLsb' 0 8).toNat ≤ 28 then 24 else 32) ∧
      t.port.pendingFmt.polarity = v.getLsbD 8 ∧ t.port.pendingFmt.offset = v.extractLsb' 12 2 ∧
      (readRegister 0x08#32 t).extractLsb' 0 8 =
        (if (v.extractLsb' 0 8).toNat ≤ 28 then 24#8 else 32#8) ∧
      (readRegister 0x08#32 t).getLsbD 8 = v.getLsbD 8 ∧
      (readRegister 0x08#32 t).extractLsb' 12 2 = v.extractLsb' 12 2) ∧
  ∀ (v : Word) (s : State), s.bus = [] →
    ∃ u, exec (.setAttnMode (v.getLsbD 4) (v.extractLsb' 8 3)) s = .next u ∧ u.port = s.port ∧
      (s.enabled = false →
        exec (.enable v) s = .next { u with
          enabled := true,
          port := { s.port with state := .hunt, activeFmt := s.port.pendingFmt, syncRun := 0,
                                frameCount := 0 } } ∧
        exec (.lineRestart v []) s = exec (.enable v) s) ∧
      (s.enabled = true → v.getLsbD 2 = false → exec (.enable v) s = .next u) ∧
      (s.enabled = true → v.getLsbD 2 = true →
        ∃ t, exec (.lineRestart v []) s = .next t ∧ exec (.enable v) s = .next t) ∧
      (s.enabled = true → ∃ t, exec (.softReset v) s = .next t ∧ exec (.disable v) s = .next t ∧
        t.enabled = false) ∧
      (s.enabled = false → v.getLsbD 1 = false → exec (.disable v) s = .next u ∧ u.enabled = false)

/-! ## Attention -/

/-- SET_ATTN_MODE and SET_ATTN_THRESHOLD (R169, R170): the threshold applies at once to every source, cause
sets and service flags stand, and the pin follows. Level mode: asserted exactly while some source is
claimable. Pulse mode kept: asserted by a gain, else as it was. Level to pulse: deasserted when the write
gains no source; with a gain the pin is left open (log 9). Nothing else of the part changes. ATTN_PULSE_END
in pulse mode deasserts the pin at the end of the pulse; in level mode, where no pulse runs, nothing changes
(log 6). -/
def Obligations.ThresholdAndModeWrite : Prop :=
  (∀ (pulse : Bool) (t : BitVec 3) (s : State), ∃ u,
    exec (.setAttnMode pulse t) s = .next u ∧
    u = { s with attn := u.attn, freeNext := u.freeNext } ∧
    u.attn.pulse = pulse ∧ u.attn.threshold = t ∧ u.attn.sources = s.attn.sources ∧
    (pulse = false → (u.attn.pin = true ↔ ∃ i, Waits u.attn i)) ∧
    (pulse = true → s.attn.pulse = true →
      (u.attn.pin = true ↔ s.attn.pin = true ∨ ∃ i, Waits u.attn i ∧ ¬ Waits s.attn i)) ∧
    (pulse = true → s.attn.pulse = false → (∀ i, Waits u.attn i → Waits s.attn i) →
      u.attn.pin = false) ∧
    ∃ w, exec (.setAttnThreshold t) s = .next w ∧ w.attn.pulse = s.attn.pulse ∧
      (pulse = s.attn.pulse → w = u)) ∧
  ∀ s : State, ∃ t, exec .attnPulseEnd s = .next t ∧
    t = { s with attn := { s.attn with pin := t.attn.pin } } ∧
    (s.attn.pulse = true → t.attn.pin = false) ∧ (s.attn.pulse = false → t = s)

/-- CLAIM and PEEK (R165, R167): with no claimable source both return 63 and change nothing; else the claim
selects the claimable source of highest priority, the lowest number on a tie, returns its number in bits
0 to 5 and its causes from bit 8, empties its set and marks it in service; a peek returns the same and
changes nothing. The level-mode pin follows; a claim gives no pulse.
SOURCE_COMPLETION (R168): a source in service leaves service with its causes as they stand; a write that
names a source not in service, or a number from 34 to 63, is ignored; bits above 5 are ignored. In level
mode the pin follows the claimable set; in pulse mode it is asserted when the source joins the set. -/
def Obligations.ClaimAndCompletion : Prop :=
  (∀ s : State, ∃ t, exec .claim s = .next t ∧
    exec .peek s = .next { s with readData := t.readData } ∧
    t = { s with attn := t.attn, readData := t.readData } ∧
    ((∀ i, ¬ Waits s.attn i) → t.readData = 63#32 ∧ t.attn = s.attn) ∧
    ((∃ i, Waits s.attn i) → ∃ i, Waits s.attn i ∧
      (∀ j, Waits s.attn j → s.attn.sources[j].priority < s.attn.sources[i].priority ∨
        (s.attn.sources[j].priority = s.attn.sources[i].priority ∧ i ≤ j)) ∧
      (t.readData.extractLsb' 0 6).toNat = i.val ∧
      t.readData.extractLsb' 8 16 = s.attn.sources[i].causes ∧
      t.attn.pulse = s.attn.pulse ∧ t.attn.threshold = s.attn.threshold ∧
      (∀ j : Fin 34, t.attn.sources[j] =
        if j = i then { s.attn.sources[i] with causes := 0#16, inService := true }
        else s.attn.sources[j]) ∧
      (s.attn.pulse = false → (t.attn.pin = true ↔ ∃ j, Waits t.attn j)) ∧
      (s.attn.pulse = true → t.attn.pin = s.attn.pin))) ∧
  ∀ (v : Word) (s : State), ∃ t, exec (.sourceCompletion v) s = .next t ∧
    t = { s with attn := t.attn } ∧
    ((∀ i : Fin 34, i.val = (v.extractLsb' 0 6).toNat → s.attn.sources[i].inService = false) →
      t = s) ∧
    ∀ i : Fin 34, i.val = (v.extractLsb' 0 6).toNat → s.attn.sources[i].inService = true →
      t.attn.pulse = s.attn.pulse ∧ t.attn.threshold = s.attn.threshold ∧
      (∀ j : Fin 34, t.attn.sources[j] =
        if j = i then { s.attn.sources[i] with inService := false } else s.attn.sources[j]) ∧
      (s.attn.pulse = false → (t.attn.pin = true ↔ ∃ j, Waits t.attn j)) ∧
      (s.attn.pulse = true → (t.attn.pin = true ↔ s.attn.pin = true ∨ Waits t.attn i))

/-- A raise (R165, R166, R170): without effect on a source of priority 0; else the cause joins the set, in
service or not, and stays there once; a source not in service and above the threshold is then claimable;
the pin of level mode follows the claimable set, and a pulse comes only when the raise
makes the source claimable. -/
def Obligations.RaiseJoinsCauseSet : Prop :=
  ∀ (i : Fin 34) (c : Cause) (a : Attn),
    (a.sources[i].priority = 0#3 → attnRaise i c a = a) ∧
    (a.sources[i].priority ≠ 0#3 →
      (∀ j : Fin 34, (attnRaise i c a).sources[j] =
        if j = i then { a.sources[i] with causes := a.sources[i].causes ||| causeBit c }
        else a.sources[j]) ∧
      HasCause (attnRaise i c a) i c ∧ attnRaise i c (attnRaise i c a) = attnRaise i c a ∧
      (a.sources[i].inService = false → a.threshold < a.sources[i].priority →
        Waits (attnRaise i c a) i) ∧
      (a.pulse = false → ((attnRaise i c a).pin = true ↔ ∃ j, Waits (attnRaise i c a) j)) ∧
      (a.pulse = true → ((attnRaise i c a).pin = true ↔
        a.pin = true ∨ (Waits (attnRaise i c a) i ∧ ¬ Waits a i))))

/-! ## The line port -/

/-- SYNC_IN_HUNT below the lock (R106, R108): from run 0 the run becomes 1; a sync one frame length after the
last counted one raises it by one; any other makes it 1; the position restarts. No sample is exchanged and
nothing else changes but memory by the host's own writes of the bus script (log 1).
HUNT_FRAME_MISSED, MISSING_FRAME and SYNC_IGNORED (R106, R108, R110; log 5, log 27). A frame length
without its sync: in HUNT the run becomes 0; in LOCKED the position goes on as if a sync had come, the frame
count stands and no sample is exchanged, the silent frame being the one after the absent sync (the model's
reading, log 26); in OFF nothing happens. A sync of a LOCKED port at another bit clock is neither accepted
nor counted. A change of LSYNC that is not to its active level is no sync, in any port state and at any
bit clock; in OFF the port does not sample LSYNC, whatever its change: nothing but the host's own writes
happens. No channel is reached and nothing else changes. -/
def Obligations.HuntSyncsAndMissedFrames : Prop :=
  (∀ (clocks : Nat) (l : LSync) (bus : Bus) (s : State), s.bus = [] → s.port.state = .hunt →
    ToActive s.port.activeFmt l →
    (s.port.syncRun < 7 ∨ clocks ≠ s.port.activeFmt.slots.toNat * 16 + 4) →
      exec (.syncInHunt ⟨clocks, l⟩ bus) s = .next { s with
        mem := hostMemory bus s.mem,
        port := { s.port with
          framePos := 0,
          syncRun := if s.port.syncRun = 0 then 1
            else if clocks = s.port.activeFmt.slots.toNat * 16 + 4 then s.port.syncRun + 1 else 1 } }) ∧
  (∀ s : State, ∃ t, exec .huntFrameMissed s = .next t ∧ exec .missingFrame s = .next t ∧
    (s.port.state = .off → t = s) ∧
    (s.port.state = .hunt → t = { s with port := { s.port with
      syncRun := 0, framePos := s.port.activeFmt.slots.toNat * 16 + 4 } }) ∧
    (s.port.state = .locked → t = { s with port := { s.port with
      framePos := 0, frameOut := none } })) ∧
  (∀ (clocks : Nat) (l : LSync) (s : State), s.bus = [] → s.port.state = .locked →
    ToActive s.port.activeFmt l → clocks ≠ s.port.activeFmt.slots.toNat * 16 + 4 →
    exec (.syncIgnored ⟨clocks, l⟩) s = .next { s with port := { s.port with framePos := clocks } }) ∧
  ∀ (clocks : Nat) (l : LSync) (bus : Bus) (s : State), s.bus = [] →
    (¬ ToActive s.port.activeFmt l ∨ s.port.state = .off) →
    exec (.syncInHunt ⟨clocks, l⟩ bus) s = .next { s with mem := hostMemory bus s.mem } ∧
    exec (.frameArrival ⟨l, bus⟩) s = .next { s with mem := hostMemory bus s.mem } ∧
    exec (.syncIgnored ⟨clocks, l⟩) s = .next s

/-- SYNC_IN_HUNT at the eighth spaced sync (R48, R109, R159). With any bus script: the port is LOCKED with
frame count 0 and the stall timer armed; every running channel but channel 0, whose boundary follows, has
zero histories, runs of 0, silent buffers and no hold reason LINE, and is out of HELD when LINE was its
last; its coefficients, program position, search, gap count and cursor stand; STATE stands on the source of
one that leaves HELD, if it is heard. Of a channel in CLOSED or FAULT the taken run alone may change, to 0:
R98 and R109 differ there, and the model leaves it open (log 20). A HELD channel without a resume state,
which no run reaches, goes to TRAINING (log 33). LINE_LOCKED stands on the part source. With an empty bus
script (no bus error, no host write): the channels are taken in index order, channel 0 among them, each as
`LockTurn` says, status writes included; then LINE_LOCKED is raised, and frame 0 has channel 0's boundary
and the send. -/
def Obligations.EighthSyncLocks : Prop :=
  (∀ (l : LSync) (bus : Bus) (s : State), s.port.state = .hunt → s.port.syncRun = 7 →
    ToActive s.port.activeFmt l → ∃ t,
    exec (.syncInHunt ⟨s.port.activeFmt.slots.toNat * 16 + 4, l⟩ bus) s = .next t ∧
    t.port.state = .locked ∧ t.port.frameCount = 0 ∧ t.port.framePos = 0 ∧
    t.port.stallArmed = true ∧ t.port.activeFmt = s.port.activeFmt ∧ t.enabled = s.enabled ∧
    (AttnLegal s.attn → HasCause t.attn partSource .lineLocked) ∧
    ∀ n : Fin 32, n.val ≠ 0 →
      (running (s.chan n) = false → (s.chan n).line.inBlock = false →
        ∃ run, (run = 0 ∨ run = (s.chan n).walk.takenRun) ∧
          t.chan n = { s.chan n with walk := { (s.chan n).walk with takenRun := run } }) ∧
      (running (s.chan n) = true →
        (t.chan n).hist = { near := List.replicate 63 0#16, resid := List.replicate 143 0#16,
                            outNew := ⟨List.replicate 40 0#16, false⟩,
                            outOld := ⟨List.replicate 40 0#16, false⟩, lastRecv := 0#16,
                            stuckRun := 0 } ∧
        (t.chan n).poolHist = List.replicate (32 * (s.chan n).segs.length) 0#16 ∧
        (t.chan n).segs = (s.chan n).segs ∧ (t.chan n).divRun = 0 ∧
        (t.chan n).walk = { (s.chan n).walk with takenRun := 0 } ∧ SilentLine (t.chan n).line ∧
        (t.chan n).filt = (s.chan n).filt ∧ (t.chan n).search = (s.chan n).search ∧
        (t.chan n).phaseIndex = (s.chan n).phaseIndex ∧
        (t.chan n).blockCount = (s.chan n).blockCount ∧
        (t.chan n).holdDirective = (s.chan n).holdDirective ∧
        (t.chan n).state = (if (s.chan n).state = .held ∧ (s.chan n).holdDirective = false then
            (if (s.chan n).resume = some .tracking then .tracking else .training)
          else (s.chan n).state) ∧
        ((s.chan n).state = .held → (t.chan n).holdLine = false) ∧
        ((s.chan n).state = .held → (s.chan n).holdDirective = false →
          s.attn.sources[chanSource n].priority ≠ 0#3 → HasCause t.attn (chanSource n) .state))) ∧
  ∀ (l : LSync) (s : State), s.bus = [] → MemLegal s → s.port.state = .hunt → s.port.syncRun = 7 →
    ToActive s.port.activeFmt l → ∃ u : Nat → State,
      u 0 = { s with port := { s.port with
        state := .locked, syncRun := 8, frameCount := 0, framePos := 0, stallArmed := true } } ∧
      (∀ n : Fin 32, LockTurn n (u n.val) (u (n.val + 1))) ∧
      exec (.syncInHunt ⟨s.port.activeFmt.slots.toNat * 16 + 4, l⟩ []) s = .next (sendFrame (boundary 0
        { u 32 with attn := attnRaise partSource .lineLocked (u 32).attn }))

/-- FRAME_ARRIVAL (R106, R110 to R112): the sync is accepted, the stall timer rearmed, and the frame count
goes up by one and from 39 to 0. Only the channel whose number is the new count has a boundary: every other
channel keeps its whole context, but that a block in progress moves one play position on (log 21). The
arrival is that boundary, if there is one, on the accepted state, then the send, which moves each block in
progress, that channel's too, one play position on and changes no channel else; for each slot below the
slot count the sample sent is the owning block's at its play position, or 0 where no block in progress owns
the slot. LTX carries timeslot `k` in bit clocks `b + 16 k` to `b + 16 k + 15`, most significant bit
first, and is low in the tail; that it is low in the bit clocks before timeslot 0 too is the model's choice
(log 34). -/
def Obligations.FrameArrivalServesAndSends : Prop :=
  (∀ (l : LSync) (bus : Bus) (s : State), s.port.state = .locked → ToActive s.port.activeFmt l → ∃ t,
    exec (.frameArrival ⟨l, bus⟩) s = .next t ∧
    t.port = { s.port with
      framePos := 0, stallArmed := true,
      frameCount := if s.port.frameCount < 39 then s.port.frameCount + 1 else 0,
      frameOut := t.port.frameOut } ∧
    t.enabled = s.enabled ∧ t.tableBase = s.tableBase ∧ t.maint = s.maint ∧
    ∀ n : Fin 32, n.val ≠ t.port.frameCount →
      ((s.chan n).line.inBlock = false → t.chan n = s.chan n) ∧
      ((s.chan n).line.inBlock = true → t.chan n = { s.chan n with line :=
        { (s.chan n).line with playPos := ((s.chan n).line.playPos + 1) % 40 } })) ∧
  ∀ (l : LSync) (s : State), s.bus = [] → s.port.state = .locked → ToActive s.port.activeFmt l → ∃ u t,
    exec (.frameArrival ⟨l, []⟩) s = .next t ∧
    u = (if h : (if s.port.frameCount < 39 then s.port.frameCount + 1 else 0) < 32 then
        boundary ⟨if s.port.frameCount < 39 then s.port.frameCount + 1 else 0, h⟩
          { s with port := { s.port with
            framePos := 0, stallArmed := true,
            frameCount := if s.port.frameCount < 39 then s.port.frameCount + 1 else 0 } }
      else { s with port := { s.port with
        framePos := 0, stallArmed := true, frameCount := s.port.frameCount + 1 } }) ∧
    t = { u with port := { u.port with frameOut := t.port.frameOut }, chans := t.chans,
                 bus := [] } ∧
    (∀ n, ((u.chan n).line.inBlock = false → t.chan n = u.chan n) ∧
      ((u.chan n).line.inBlock = true → t.chan n = { u.chan n with line :=
        { (u.chan n).line with playPos := ((u.chan n).line.playPos + 1) % 40 } })) ∧
    (SlotLegal u → ∃ out, t.port.frameOut = some out ∧ out.length = u.port.activeFmt.slots.toNat ∧
      ∀ k < u.port.activeFmt.slots.toNat,
        (∀ n, OwnsSlot (u.chan n) k →
          out[k]? = some ((u.chan n).line.play.getD (u.chan n).line.playPos 0#16)) ∧
        ((∀ n, ¬ OwnsSlot (u.chan n) k) → out[k]? = some 0#16) ∧
        ∀ i x, i < 16 → out[k]? = some x →
          ltxLevel t.port (t.port.activeFmt.offset.toNat + 16 * k + i) = x.getLsbD (15 - i)) ∧
    (∀ k, k < t.port.activeFmt.offset.toNat ∨
        t.port.activeFmt.offset.toNat + 16 * t.port.activeFmt.slots.toNat ≤ k →
      ltxLevel t.port k = false)

/-- SAMPLE_DELIVERY (R113, R106): the sixteen levels of LRX make the sample, the first to arrive its most
significant bit. Outside a frame, or for a slot at or above the slot count, nothing happens;
else the position stands at the slot's sixteenth bit, and the sample joins the capture buffer of the
channel whose block in progress owns the slot, and is discarded when none does. -/
def Obligations.SamplesReachTheirOwner : Prop :=
  ∀ (slot : BitVec 5) (lrx : Lrx) (s : State), SlotLegal s → ∃ t x,
    exec (.sampleDelivery slot lrx) s = .next t ∧
    (∀ i : Fin 16, x.getLsbD (15 - i.val) = lrx[i]) ∧
    ((s.port.frameOut = none ∨ s.port.activeFmt.slots.toNat ≤ slot.toNat) → t = s) ∧
    (s.port.frameOut ≠ none → slot.toNat < s.port.activeFmt.slots.toNat →
      t = { s with
        port := { s.port with framePos := s.port.activeFmt.offset.toNat + 16 * slot.toNat + 15 },
        chans := t.chans } ∧
      ∀ n, (¬ OwnsSlot (s.chan n) slot.toNat → t.chan n = s.chan n) ∧
        (OwnsSlot (s.chan n) slot.toNat → (s.chan n).line.capture.length < 40 →
          t.chan n = { s.chan n with line :=
            { (s.chan n).line with capture := (s.chan n).line.capture ++ [x] } }))

/-- STALL (R97, R114, R115, R159). With any bus script and the timer armed: the port hunts with run 0, count
0 and the timer disarmed; every running channel ends its block and its record in flight, and stands HELD
with LINE and the resume state R47 gives, what R115 lists as it was, or, only with a record in flight, in
FAULT; LINE_LOST stands on the part source; a channel in CLOSED or FAULT is not reached. With an empty bus
script (no bus error, no host write): the channels are taken in index order, each as `LostTurn` says: in
FAULT only by a misaligned link of its record, else HELD, its record LINE_LOST, the causes STATE, FAULT and
BLOCK_DONE and the status writes included; then LINE_LOST is raised. A bus error of a record's completion is
the statement EarlyCompletions. A timer that is not armed does not expire (log 6). -/
def Obligations.StallHoldsRunningChannels : Prop :=
  (∀ (bus : Bus) (s : State), ∃ t, exec (.stall bus) s = .next t ∧
    (s.port.stallArmed = false → t.port = s.port ∧ t.chans = s.chans ∧ t.attn = s.attn) ∧
    (s.port.stallArmed = true →
      t.port = { s.port with state := .hunt, syncRun := 0, frameCount := 0, stallArmed := false,
                             frameOut := none } ∧
      (AttnLegal s.attn → HasCause t.attn partSource .lineLost) ∧
      ∀ n, (running (s.chan n) = false → t.chan n = s.chan n) ∧
        (running (s.chan n) = true →
          SilentLine (t.chan n).line ∧ (t.chan n).line.inBlock = false ∧
          (t.chan n).walk.inflight = none ∧
          ((t.chan n).state = .held ∨ ((t.chan n).state = .fault ∧
            (s.chan n).walk.inflight ≠ none)) ∧
          ((t.chan n).state = .held →
            (t.chan n).holdLine = true ∧ (t.chan n).holdDirective = (s.chan n).holdDirective ∧
            (t.chan n).resume = resumeOf (s.chan n) ∧ LineLossKeeps (s.chan n) (t.chan n) ∧
            (t.chan n).walk.takenRun = (s.chan n).walk.takenRun ∧
            ((s.chan n).walk.inflight = none → (t.chan n).walk = (s.chan n).walk))))) ∧
  ∀ s : State, s.bus = [] → MemLegal s → s.port.stallArmed = true → ∃ u : Nat → State,
    u 0 = { s with port := { s.port with
      state := .hunt, syncRun := 0, frameCount := 0, stallArmed := false, frameOut := none } } ∧
    (∀ n : Fin 32, LostTurn none n (u n.val) (u (n.val + 1))) ∧
    exec (.stall []) s = .next { u 32 with attn := attnRaise partSource .lineLost (u 32).attn }

/-- LINE_RESTART of an enabled part (R97, R116, R159). With any bus script: the pending format is latched,
the port hunts from run 0, and every running channel ends its block and its record; a channel whose timeslot
is at or above the new slot count is in FAULT with its timeslot and segments released; any other is HELD
with LINE as at a stall, or, only with a record in flight, in FAULT; LINE_LOST stands on the part source.
With an empty bus script (no bus error, no host write): after the attention fields of the word, the channels
are taken in index order, each as `LostTurn` says for the new slot count: in FAULT only outside the format
or by a misaligned link of its record, its record LINE_LOST, causes and status writes included; then
LINE_LOST is raised. A bus error of a record's completion is the statement EarlyCompletions. -/
def Obligations.LineRestartHoldsOrFaults : Prop :=
  (∀ (v : Word) (bus : Bus) (s : State), s.enabled = true → s.port.state ≠ .off →
    ∃ t, exec (.lineRestart v bus) s = .next t ∧ t.enabled = true ∧
      t.port = { s.port with state := .hunt, activeFmt := s.port.pendingFmt, syncRun := 0,
                             frameCount := 0, stallArmed := false, frameOut := none } ∧
      (AttnLegal s.attn → HasCause t.attn partSource .lineLost) ∧
      ∀ n, (running (s.chan n) = false → t.chan n = s.chan n) ∧
        (running (s.chan n) = true →
          SilentLine (t.chan n).line ∧ (t.chan n).line.inBlock = false ∧
          (t.chan n).walk.inflight = none ∧
          (∀ k, (s.chan n).timeslot = some k → s.port.pendingFmt.slots.toNat ≤ k →
            (t.chan n).state = .fault ∧ (t.chan n).timeslot = none ∧ (t.chan n).segs = []) ∧
          (∀ k, (s.chan n).timeslot = some k → k < s.port.pendingFmt.slots.toNat →
            ((t.chan n).state = .held ∧ (t.chan n).holdLine = true ∧
              (t.chan n).holdDirective = (s.chan n).holdDirective ∧
              (t.chan n).resume = resumeOf (s.chan n) ∧ LineLossKeeps (s.chan n) (t.chan n) ∧
              ((s.chan n).walk.inflight = none → (t.chan n).walk = (s.chan n).walk)) ∨
            ((t.chan n).state = .fault ∧ (s.chan n).walk.inflight ≠ none)))) ∧
  ∀ (v : Word) (s : State), s.bus = [] → MemLegal s → s.enabled = true → s.port.state ≠ .off →
    ∃ (w : State) (u : Nat → State),
      exec (.setAttnMode (v.getLsbD 4) (v.extractLsb' 8 3)) s = .next w ∧
      u 0 = { w with port := { s.port with
        state := .hunt, activeFmt := s.port.pendingFmt, syncRun := 0, frameCount := 0,
        stallArmed := false, frameOut := none } } ∧
      (∀ n : Fin 32, LostTurn (some s.port.pendingFmt.slots.toNat) n (u n.val) (u (n.val + 1))) ∧
      exec (.lineRestart v []) s =
        .next { u 32 with attn := attnRaise partSource .lineLost (u 32).attn }

/-! ## Line records -/

/-- A take that finds no POSTED record (R89, R90, R173): the record at the cursor is not POSTED, or is another
channel's record in flight. Zeros are played, the gap count rises up to 65535, the taken run is 0, STARVED
is raised once a gap, the starved block begins, and memory stands.
A take from a watched record (R88, R89): a link of 0 keeps watching and starves the boundary in the same way;
a non-zero multiple of 4 moves the cursor, and the record there is looked at, at the same take; any other
link moves the channel to FAULT. -/
def Obligations.TakeWithoutRecordStarves : Prop :=
  (∀ (n : Fin 32) (s : State), s.bus = [] → (s.chan n).walk.mode = .atRecord →
    (memWord s.mem (s.chan n).walk.cursor ≠ 1#32 ∨
      ∃ k f, k ≠ n ∧ (s.chan k).walk.inflight = some f ∧ f.addr = (s.chan n).walk.cursor) →
    StarvedBoundary n s (take n s)) ∧
  ∀ (n : Fin 32) (s : State) (link : Word), s.bus = [] → (s.chan n).walk.mode = .watching →
    link = memWord s.mem ((s.chan n).walk.cursor + 4#32) →
    (link = 0#32 → StarvedBoundary n s (take n s)) ∧
    (link ≠ 0#32 → link.toNat % 4 = 0 → take n s = take n (s.modChan n fun c =>
      { c with walk := { c.walk with cursor := link, mode := .atRecord } })) ∧
    (link.toNat % 4 ≠ 0 → MemLegal s → FaultEntered n s (take n s))

/-- A record taken (R50, R54, R84, R85, R92, R159): TAKEN stands in its first word, its 40 samples are in
the play buffer and its block begins; address, layout and NOTIFY are the in-flight attributes; the taken run
rises up to 65535 and starvation is no longer reported; the gap count stands. The directive of the control
word, with its argument, then acts on that state; whether it is rejected, and its save outcome, join the
in-flight attributes; a status area that it changes is written at the take. Without a directive nothing more
happens, no cause is raised and no other byte changes. A bus error at a word of that status write is a table
fault, and the take stands (R160). `statusDue` is the mark of a due status write, which SAVE_NOW and RESTART
set (log 16). -/
def Obligations.TakeLoadsRecord : Prop :=
  ∀ (n : Fin 32) (s v u w t : State) (a ctl : Word) (code arg : Nat) (report : DirectiveReport),
    MemLegal s → (s.chan n).statusDue = false → (s.chan n).walk.mode = .atRecord →
    (s.chan n).walk.cursor = a → memWord s.mem a = 1#32 →
    (∀ k f, k ≠ n → (s.chan k).walk.inflight = some f → f.addr ≠ a) →
    ctl = memWord s.mem (a + 8#32) → code = (ctl.extractLsb' 16 8).toNat →
    arg = (ctl.extractLsb' 24 8).toNat →
    (ctl.extractLsb' 0 8).toNat =
      52 + (if ctl.getLsbD 8 then 20 else 0) + (if ctl.getLsbD 9 then 20 else 0) →
    v = { s with
      bus := []
      mem := memSetWord s.mem a 2#32
      chans := s.chans.set n { s.chan n with
        walk := { (s.chan n).walk with
          inflight := some { addr := a, refPresent := ctl.getLsbD 8, residWanted := ctl.getLsbD 9,
                             notify := ctl.getLsbD 10, rejected := false, save := .none }
          takenRun := min 65535 ((s.chan n).walk.takenRun + 1), starvReported := false }
        line := { play := unpackSamples ((List.range 20).map fun i =>
                    memWord s.mem (a + 16#32 + BitVec.ofNat 32 (4 * i)))
                  playPos := 0, capture := [], inBlock := true } } } →
    (report, u) = applyDirective n code arg v →
    w = u.modChan n (fun c => { c with walk := { c.walk with
      inflight := some { addr := a, refPresent := ctl.getLsbD 8, residWanted := ctl.getLsbD 9,
                         notify := ctl.getLsbD 10, rejected := report.rejected, save := report.save } } }) →
    t = take n s →
    memWord v.mem a = 2#32 ∧ (∀ x, Outside a 4 x → memRead v.mem x = memRead s.mem x) ∧
    (v.chan n).line.play.length = 40 ∧
    (∀ i < 20,
      (v.chan n).line.play.getD (2 * i) 0#16 =
        (memWord s.mem (a + 16#32 + BitVec.ofNat 32 (4 * i))).extractLsb' 0 16 ∧
      (v.chan n).line.play.getD (2 * i + 1) 0#16 =
        (memWord s.mem (a + 16#32 + BitVec.ofNat 32 (4 * i))).extractLsb' 16 16) ∧
    (s.bus = [] →
      (code = 0 → t = v) ∧
      t = { w with mem := t.mem, chans := t.chans } ∧ (∀ k, k ≠ n → t.chan k = s.chan k) ∧
      t.chan n = { w.chan n with statusDue := false } ∧
      (s.tableBase ≠ 0#24 → statusWords (w.chan n) ≠ statusWords (s.chan n) → StatusShown n t) ∧
      (statusWords (w.chan n) = statusWords (s.chan n) → (w.chan n).statusDue = false → t = w) ∧
      ∀ x, Outside (s.desc n.val + 128#32) 24 x → memRead t.mem x = memRead v.mem x) ∧
    ∀ k < 6, s.bus = ErrorAt (23 + k) → s.tableBase ≠ 0#24 →
      statusWords (w.chan n) ≠ statusWords (s.chan n) → StatusFaulted n k w t

/-- A record whose declared length is not that of its flags (R91): REFUSED stands in its first word and no
other byte changes; the link moves the cursor by R88; BLOCK_DONE is raised by NOTIFY and STARVED at the first
starved boundary of a gap; the boundary is starved, and no record is in flight that was not before. At a
misaligned link the record is REFUSED all the same, the channel enters FAULT (R38: timeslot and segments
released, its status area written and no other byte), no block begins, and BLOCK_DONE is still raised by
NOTIFY (R95). -/
def Obligations.MismatchedRecordRefused : Prop :=
  ∀ (n : Fin 32) (s : State) (a ctl link : Word), s.bus = [] → MemLegal s →
    (s.chan n).walk.mode = .atRecord → (s.chan n).walk.cursor = a → memWord s.mem a = 1#32 →
    (∀ k f, k ≠ n → (s.chan k).walk.inflight = some f → f.addr ≠ a) →
    ctl = memWord s.mem (a + 8#32) → link = memWord s.mem (a + 4#32) →
    (ctl.extractLsb' 0 8).toNat ≠
      52 + (if ctl.getLsbD 8 then 20 else 0) + (if ctl.getLsbD 9 then 20 else 0) →
    (link.toNat % 4 ≠ 0 → ∃ v w, v = { s with mem := v.mem } ∧ memWord v.mem a = 4#32 ∧
      (∀ x, Outside a 4 x → memRead v.mem x = memRead s.mem x) ∧ FaultEntered n v w ∧
      take n s = { w with attn := if ctl.getLsbD 10 then attnRaise (chanSource n) .blockDone w.attn
        else w.attn } ∧
      (Apart a 4 (s.desc n.val + 128#32) 24 → memWord (take n s).mem a = 4#32)) ∧
    (link.toNat % 4 = 0 →
      memWord (take n s).mem a = 4#32 ∧
      (∀ x, Outside a 4 x → memRead (take n s).mem x = memRead s.mem x) ∧
      ((take n s).chan n).walk = { (s.chan n).walk with
        cursor := if link = 0#32 then a else link,
        mode := if link = 0#32 then .watching else .atRecord,
        gapCount := min 65535 ((s.chan n).walk.gapCount + 1), takenRun := 0,
        starvReported := true } ∧
      ((take n s).chan n).line =
        { play := List.replicate 40 0#16, playPos := 0, capture := [], inBlock := true } ∧
      ((take n s).chan n).state = (s.chan n).state ∧
      ∃ a', a' = (if ctl.getLsbD 10 then attnRaise (chanSource n) .blockDone s.attn else s.attn) ∧
        ((s.chan n).walk.starvReported = true → (take n s).attn = a') ∧
        ((s.chan n).walk.starvReported = false →
          (take n s).attn = attnRaise (chanSource n) .starved a'))

/-- A record completed with DONE (R83, R85, R88, R94, R95, R99): outputs, residuals when wanted and the metrics
stand where its layout has them, the first word is DONE, every byte outside the first word and the result
area stands; the gap count is 0, no record is in flight, the cursor follows the link, and BLOCK_DONE is
raised exactly by NOTIFY. A bus error (R103): at result word `k` the words before it stand, DONE is not
written and the gap count is kept; at the write of DONE all results stand and the gap count is 0; at the link
read, or when the link is misaligned, the record is DONE, and BLOCK_DONE is still raised by NOTIFY. The
channel enters FAULT each time. That the words of one area are written in ascending order, so that those
before word `k` are the ones that stand, is the model's reading (log 28). -/
def Obligations.CompletionWritesResults : Prop :=
  (∀ (n : Fin 32) (f : InFlight) (z u : List Sample) (m : Metrics) (s : State) (link : Word),
    s.bus = [] → MemLegal s → z.length = 40 → u.length = 40 →
    link = memWord s.mem (f.addr + 4#32) → link.toNat % 4 = 0 →
    ∃ t out, completeDone n f z u m s = t ∧
      out = f.addr + (if f.refPresent then 176#32 else 96#32) ∧
      memWord t.mem f.addr = 3#32 ∧
      (∀ i < 20, memWord t.mem (out + BitVec.ofNat 32 (4 * i)) =
        z.getD (2 * i + 1) 0#16 ++ z.getD (2 * i) 0#16) ∧
      (f.residWanted = true → ∀ i < 20, memWord t.mem (out + 80#32 + BitVec.ofNat 32 (4 * i)) =
        u.getD (2 * i + 1) 0#16 ++ u.getD (2 * i) 0#16) ∧
      (∀ i < 8, memWord t.mem
        (out + (if f.residWanted then 160#32 else 80#32) + BitVec.ofNat 32 (4 * i)) =
          m.words.getD i 0#32) ∧
      (∀ x, Outside f.addr 4 x → Outside out (if f.residWanted then 192 else 112) x →
        memRead t.mem x = memRead s.mem x) ∧
      t = { s with mem := t.mem, chans := t.chans,
                   attn := if f.notify then attnRaise (chanSource n) .blockDone s.attn
                     else s.attn } ∧
      (∀ k, k ≠ n → t.chan k = s.chan k) ∧
      t.chan n = { s.chan n with walk := { (s.chan n).walk with
        inflight := none, gapCount := 0, cursor := if link = 0#32 then f.addr else link,
        mode := if link = 0#32 then .watching else .atRecord } }) ∧
  ∀ (n : Fin 32) (f : InFlight) (z u : List Sample) (m : Metrics) (s t : State) (k : Nat) (out : Word)
    (ws : List Word), MemLegal s → z.length = 40 → u.length = 40 → t = completeDone n f z u m s →
    out = f.addr + (if f.refPresent then 176#32 else 96#32) →
    ws = packSamples z ++ (if f.residWanted then packSamples u else []) ++ m.words →
    (k < ws.length → s.bus = ErrorAt k → ∃ v, v = { s with bus := [], mem := v.mem } ∧
      (∀ i < k, memWord v.mem (out + BitVec.ofNat 32 (4 * i)) = ws.getD i 0#32) ∧
      (∀ x, Outside out (4 * k) x → memRead v.mem x = memRead s.mem x) ∧ FaultEntered n v t) ∧
    (s.bus = ErrorAt ws.length → ∃ v, v = { s with bus := [], mem := v.mem, chans := v.chans } ∧
      (∀ j, j ≠ n → v.chan j = s.chan j) ∧
      v.chan n = { s.chan n with walk := { (s.chan n).walk with gapCount := 0 } } ∧
      (∀ i < ws.length, memWord v.mem (out + BitVec.ofNat 32 (4 * i)) = ws.getD i 0#32) ∧
      (∀ x, Outside out (4 * ws.length) x → memRead v.mem x = memRead s.mem x) ∧ FaultEntered n v t) ∧
    (s.bus = ErrorAt (ws.length + 1) ∨
        (s.bus = [] ∧ (memWord s.mem (f.addr + 4#32)).toNat % 4 ≠ 0) →
      ∃ v w, v = { s with bus := [], mem := v.mem, chans := v.chans } ∧
        (∀ j, j ≠ n → v.chan j = s.chan j) ∧
        v.chan n = { s.chan n with walk := { (s.chan n).walk with inflight := none, gapCount := 0 } } ∧
        memWord v.mem f.addr = 3#32 ∧
        (∀ i < ws.length, memWord v.mem (out + BitVec.ofNat 32 (4 * i)) = ws.getD i 0#32) ∧
        (∀ x, Outside f.addr 4 x → Outside out (4 * ws.length) x →
          memRead v.mem x = memRead s.mem x) ∧
        FaultEntered n v w ∧ t = { w with attn := Notified n f w.attn })

/-- Host writes between the part's accesses (R100, R101, R157, R171, R172; log 1: one slot of the script an
access). A read finds the word, and a write meets the memory, as the slot's host writes leave it; an access with a bus
error has no effect but those. So the host writes of the first access come before a running channel's whole
boundary, or the serving of a descriptor; those of a later slot are not yet seen: a record POSTED, or linked,
after the read of its disposition or its link costs the boundary. Writes between the disposition read and transmit sample
`k - 2` of a take (its TAKEN write at `k` = 1): the control word read rules, the TAKEN write replaces what the host
wrote, and the samples not yet read are the new ones. A completion's writes replace the host's, so a POSTED
before the code is lost, and one behind it stands; its link read sees every write before it. (That samples and
results go in ascending order is the model's reading, log 28.) Each word of an OPEN is the old or the new one by
its own read. A request that the host writes before the NONE write is lost, and the response is the first
request's; that NONE is a word of 0 is the model's choice (log 37). -/
def Obligations.HostWritesMeetAccesses : Prop :=
  (∀ (a v : Word) (s u : State) (slot : BusSlot) (rest : Bus), s.bus = slot :: rest →
    u = { s with bus := rest, mem := hostMemory [slot] s.mem } →
    readWord a s = (if slot.err then none else some (memWord u.mem a), u) ∧
    writeWord a v s = (!slot.err, if slot.err then u else { u with mem := memSetWord u.mem a v }) ∧
    ∀ h, writeHalf a h s = (!slot.err, if slot.err then u else { u with mem := memSetHalf u.mem a h })) ∧
  (∀ (n : Fin 32) (s : State) (slot : BusSlot) (rest : Bus), s.bus = slot :: rest →
    ∃ u, u = { s with bus := ⟨[], slot.err⟩ :: rest, mem := hostMemory [slot] s.mem } ∧
    take n s = take n u ∧ (running (s.chan n) = true → boundary n s = boundary n u) ∧
    serveChannel s n = serveChannel u n ∧ serveMaint s = serveMaint u ∧
    (rest = [] → slot.err = false → ∃ v, v = { u with bus := [] } ∧
      take n u = take n v ∧ (running (s.chan n) = true → boundary n u = boundary n v) ∧
      serveChannel u n = serveChannel v n ∧ serveMaint u = serveMaint v)) ∧
  (∀ (n : Fin 32) (s u : State) (a link : Word) (rest : Bus), s.bus = ⟨[], false⟩ :: rest →
    u = { s with bus := rest } → a = (s.chan n).walk.cursor → link = memWord s.mem (a + 4#32) →
    ((s.chan n).walk.mode = .atRecord → memWord s.mem a ≠ 1#32 → StarvedBoundary n u (take n s)) ∧
    ((s.chan n).walk.mode = .watching → link = 0#32 → StarvedBoundary n u (take n s)) ∧
    ((s.chan n).walk.mode = .watching → link ≠ 0#32 → link.toNat % 4 = 0 →
      take n s = take n (u.modChan n fun c =>
        { c with walk := { c.walk with cursor := link, mode := .atRecord } }))) ∧
  (∀ (n : Fin 32) (s : State) (a ctl : Word) (slot : BusSlot) (k : Nat), MemLegal s →
    s.bus = List.replicate (k + 1) ⟨[], false⟩ ++ [slot] → slot.err = false → k ≤ 21 →
    (s.chan n).statusDue = false → (s.chan n).walk.mode = .atRecord → (s.chan n).walk.cursor = a →
    memWord s.mem a = 1#32 → (∀ j f, j ≠ n → (s.chan j).walk.inflight = some f → f.addr ≠ a) →
    ctl = (if k = 0 then memWord (hostMemory [slot] s.mem) (a + 8#32) else memWord s.mem (a + 8#32)) →
    (ctl.extractLsb' 0 8).toNat =
      52 + (if ctl.getLsbD 8 then 20 else 0) + (if ctl.getLsbD 9 then 20 else 0) →
    ctl.extractLsb' 16 8 = 0#8 →
    take n s = { s with
      bus := []
      mem := if k ≤ 1 then memSetWord (hostMemory [slot] s.mem) a 2#32
        else hostMemory [slot] (memSetWord s.mem a 2#32)
      chans := s.chans.set n { s.chan n with
        walk := { (s.chan n).walk with
          inflight := some { addr := a, refPresent := ctl.getLsbD 8, residWanted := ctl.getLsbD 9,
                             notify := ctl.getLsbD 10, rejected := false, save := .none }
          takenRun := min 65535 ((s.chan n).walk.takenRun + 1), starvReported := false }
        line := { play := unpackSamples ((List.range 20).map fun i =>
                    memWord (if i + 2 < k then s.mem else hostMemory [slot] s.mem)
                      (a + 16#32 + BitVec.ofNat 32 (4 * i)))
                  playPos := 0, capture := [], inBlock := true } } }) ∧
  (∀ (n : Fin 32) (f : InFlight) (z u : List Sample) (m : Metrics) (s t : State) (slot : BusSlot) (j len : Nat)
    (ws : List Word) (link out : Word), MemLegal s → z.length = 40 → u.length = 40 →
    s.bus = List.replicate j ⟨[], false⟩ ++ [slot] → slot.err = false →
    t = completeDone n f z u m s → out = f.addr + (if f.refPresent then 176#32 else 96#32) →
    ws = packSamples z ++ (if f.residWanted then packSamples u else []) ++ m.words → len = ws.length →
    j ≤ len + 2 → link = memWord (if j ≤ len + 1 then hostMemory [slot] s.mem else s.mem) (f.addr + 4#32) →
    link.toNat % 4 = 0 →
    t = { s with bus := if j ≤ len + 1 then [] else [slot], mem := t.mem, chans := t.chans,
                 attn := Notified n f s.attn } ∧
    (∀ k, k ≠ n → t.chan k = s.chan k) ∧
    t.chan n = { s.chan n with walk := WalkedOn f link (s.chan n).walk } ∧
    memWord t.mem f.addr =
      (if j = len + 1 then memWord (hostMemory [slot] (memSetWord s.mem f.addr 3#32)) f.addr else 3#32) ∧
    (∀ i < len, (j ≤ i ∨ j = len + 2) → memWord t.mem (out + BitVec.ofNat 32 (4 * i)) = ws.getD i 0#32) ∧
    ∀ x, Outside f.addr 4 x → Outside out (4 * len) x →
      memRead t.mem x = memRead (if j ≤ len + 1 then hostMemory [slot] s.mem else s.mem) x) ∧
  (∀ (n : Fin 32) (f : InFlight) (code : Word) (s : State) (slot : BusSlot) (j : Nat), MemLegal s → j ≤ 1 →
    s.bus = List.replicate j ⟨[], false⟩ ++ [slot] → slot.err = false →
    ∃ t, writeEarlyCode n f code s = (true, t) ∧ memWord t.mem f.addr = code) ∧
  (∀ (n : Fin 32) (s : State) (slot : BusSlot) (i reads : Nat) (w : Nat → Word) (r : OpenReq),
    s.bus = List.replicate i ⟨[], false⟩ ++ [slot] → slot.err = false →
    (∀ j, w j = memWord (if j < i then s.mem else hostMemory [slot] s.mem)
      (s.desc n.val + 8#32 + BitVec.ofNat 32 (4 * j))) →
    r = decodeOpen ((List.range 9).map w) →
    reads = 9 + (if 1 ≤ r.progLen ∧ r.progLen ≤ 8 then 2 * r.progLen else 0) → i < reads →
    readOpen n s = (some (r, decodePhases ((List.range (reads - 9)).map fun j => w (9 + j))),
      { s with bus := [], mem := hostMemory [slot] s.mem })) ∧
  ∀ (n : Fin 32) (s : State) (x y z : BusSlot) (code : Nat) (m1 m2 m3 : Memory), s.tableBase ≠ 0#24 →
    s.bus = [x, y, z] → x.err = false → y.err = false → z.err = false →
    m1 = hostMemory [x] s.mem → code = ((memWord m1 (s.desc n.val)).extractLsb' 0 8).toNat →
    (3 ≤ code ∨ code = 2 ∧ (s.chan n).state = .closed) →
    m2 = memSetWord (hostMemory [y] m1) (s.desc n.val + 4#32)
      (if code = 2 then 4#32 else BitVec.ofNat 32 (9 + 256 * code)) →
    m3 = memSetWord (hostMemory [z] m2) (s.desc n.val) 0#32 →
    serveChannel s n = { s with
      bus := [], mem := m3, attn := attnRaise (chanSource n) .requestDone s.attn } ∧
    (MemLegal s → memWord m3 (s.desc n.val) = 0#32)

/-- A record completed with LINE_LOST or with CLOSED (R96, R97, R99): the gap word carries the gap count and 0,
the first word is the code, no other byte changes, the gap count is 0 and no record is in flight, and
BLOCK_DONE is raised exactly by NOTIFY. The link moves the cursor when it is read at a LINE_LOST; at a
CLOSED it is not read. A CLOSE with no record in flight completes nothing.
A bus error (R103): at the gap word nothing is written; at the code the gap word stands and the gap count
is 0; at the link read of a LINE_LOST, or when that link is misaligned, the record is LINE_LOST, and
BLOCK_DONE is still raised by NOTIFY. At a LINE_LOST the channel enters FAULT; a CLOSED completion answers
that it was not made, and the CLOSE goes on (CloseEndsRecordAndSaves). -/
def Obligations.EarlyCompletions : Prop :=
  (∀ (n : Fin 32) (f : InFlight) (readLink : Bool) (s : State) (link : Word),
    s.bus = [] → MemLegal s → link = memWord s.mem (f.addr + 4#32) → link.toNat % 4 = 0 →
    (s.chan n).walk.gapCount ≤ 65535 →
    ∃ t gapAt, completeLineLost n f readLink s = t ∧
      gapAt = f.addr + (if f.refPresent then 176#32 else 96#32) +
        (if f.residWanted then 160#32 else 80#32) + 24#32 ∧
      memWord t.mem f.addr = 6#32 ∧
      (memWord t.mem gapAt).toNat = (s.chan n).walk.gapCount ∧
      (∀ x, Outside f.addr 4 x → Outside gapAt 4 x → memRead t.mem x = memRead s.mem x) ∧
      t.attn = (if f.notify then attnRaise (chanSource n) .blockDone s.attn else s.attn) ∧
      (∀ k, k ≠ n → t.chan k = s.chan k) ∧
      t.chan n = { s.chan n with walk := { (s.chan n).walk with
        inflight := none, gapCount := 0,
        cursor := if readLink then (if link = 0#32 then f.addr else link) else (s.chan n).walk.cursor,
        mode := if readLink then (if link = 0#32 then .watching else .atRecord)
          else (s.chan n).walk.mode } }) ∧
  (∀ (n : Fin 32) (s : State), s.bus = [] → MemLegal s → (s.chan n).walk.gapCount ≤ 65535 →
    ((s.chan n).walk.inflight = none → completeClosed n s = (true, s)) ∧
    ∀ f, (s.chan n).walk.inflight = some f → ∃ t gapAt, completeClosed n s = (true, t) ∧
      gapAt = f.addr + (if f.refPresent then 176#32 else 96#32) +
        (if f.residWanted then 160#32 else 80#32) + 24#32 ∧
      memWord t.mem f.addr = 5#32 ∧ (memWord t.mem gapAt).toNat = (s.chan n).walk.gapCount ∧
      (∀ x, Outside f.addr 4 x → Outside gapAt 4 x → memRead t.mem x = memRead s.mem x) ∧
      t = { s with mem := t.mem, chans := t.chans,
                   attn := if f.notify then attnRaise (chanSource n) .blockDone s.attn else s.attn } ∧
      (∀ k, k ≠ n → t.chan k = s.chan k) ∧
      t.chan n = { s.chan n with walk := { (s.chan n).walk with inflight := none, gapCount := 0 } }) ∧
  ∀ (n : Fin 32) (f : InFlight) (readLink : Bool) (s t : State) (codeMissed : State → Prop),
    MemLegal s → (s.chan n).walk.gapCount ≤ 65535 → t = completeLineLost n f readLink s →
    (∀ v, codeMissed v ↔ v = { s with bus := [], mem := v.mem, chans := v.chans } ∧
      (∀ j, j ≠ n → v.chan j = s.chan j) ∧
      v.chan n = { s.chan n with walk := { (s.chan n).walk with gapCount := 0 } } ∧
      (memWord v.mem (gapWordAt f)).toNat = (s.chan n).walk.gapCount ∧
      ∀ x, Outside (gapWordAt f) 4 x → memRead v.mem x = memRead s.mem x) →
    (s.bus = ErrorAt 0 → FaultEntered n { s with bus := [] } t) ∧
    (s.bus = ErrorAt 1 → ∃ v, codeMissed v ∧ FaultEntered n v t) ∧
    (readLink = true → (s.bus = ErrorAt 2 ∨
        (s.bus = [] ∧ (memWord s.mem (f.addr + 4#32)).toNat % 4 ≠ 0)) →
      ∃ v w, v = { s with bus := [], mem := v.mem, chans := v.chans } ∧
        (∀ j, j ≠ n → v.chan j = s.chan j) ∧
        v.chan n = { s.chan n with walk := { (s.chan n).walk with inflight := none, gapCount := 0 } } ∧
        memWord v.mem f.addr = 6#32 ∧ (memWord v.mem (gapWordAt f)).toNat = (s.chan n).walk.gapCount ∧
        (∀ x, Outside f.addr 4 x → Outside (gapWordAt f) 4 x → memRead v.mem x = memRead s.mem x) ∧
        FaultEntered n v w ∧ t = { w with attn := Notified n f w.attn }) ∧
    ((s.chan n).walk.inflight = some f →
      (s.bus = ErrorAt 0 → completeClosed n s = (false, { s with bus := [] })) ∧
      (s.bus = ErrorAt 1 → ∃ v, completeClosed n s = (false, v) ∧ codeMissed v))

/-- A bus error at an access of a take, or at the reference read of a close (R38, R93, R103): the channel is
in FAULT with its timeslot and its segments released, its block ended and its record forgotten, FAULT is
raised on its source, and no byte of memory but those of its own status area and those written before the
error changes. Access by access: the link read of a watched record, the disposition read and the control
word read leave the record as it stood; so does the write of REFUSED or of TAKEN that meets the error; at
the link read after REFUSED the record is REFUSED, the boundary is not starved, and BLOCK_DONE is still
raised by NOTIFY; at a transmit sample the record is TAKEN, and its directive is not applied. At a reference
word the record stays TAKEN and no filter, program or guard moves; the stuck run of the close's stage 3
stands (R9, R18). -/
def Obligations.BusErrorAtTakeFaults : Prop :=
  (∀ (n : Fin 32) (s : State) (rest : Bus), s.bus = ⟨[], true⟩ :: rest → NoBusError rest →
    (∀ slot ∈ rest, slot.host = []) → MemLegal s →
    ∃ t, take n s = t ∧ (t.chan n).state = .fault ∧ (t.chan n).timeslot = none ∧
      (t.chan n).segs = [] ∧ (t.chan n).walk.inflight = none ∧ (t.chan n).line.inBlock = false ∧
      (t.chan n).holdDirective = false ∧ (t.chan n).holdLine = false ∧
      t.pool = s.pool ++ (s.chan n).segs.reverse ∧
      t.attn = attnRaise (chanSource n) .fault s.attn ∧
      (∀ k, k ≠ n → t.chan k = s.chan k) ∧
      ∀ x, Outside (s.desc n.val + 128#32) 24 x → memRead t.mem x = memRead s.mem x) ∧
  (∀ (n : Fin 32) (s t : State) (k : Nat) (a link ctl : Word) (posted fits : Prop), MemLegal s →
    s.bus = ErrorAt k → t = take n s → a = (s.chan n).walk.cursor →
    link = memWord s.mem (a + 4#32) → ctl = memWord s.mem (a + 8#32) →
    (posted ↔ memWord s.mem a = 1#32 ∧
      ∀ j f, j ≠ n → (s.chan j).walk.inflight = some f → f.addr ≠ a) →
    (fits ↔ (ctl.extractLsb' 0 8).toNat =
      52 + (if ctl.getLsbD 8 then 20 else 0) + (if ctl.getLsbD 9 then 20 else 0)) →
    (k = 0 → FaultEntered n { s with bus := [] } t) ∧
    ((s.chan n).walk.mode = .watching → 0 < k → link ≠ 0#32 → link.toNat % 4 = 0 →
      t = take n ({ s with bus := ErrorAt (k - 1) }.modChan n fun c =>
        { c with walk := { c.walk with cursor := link, mode := .atRecord } })) ∧
    ((s.chan n).walk.mode = .atRecord → posted →
      (k = 1 → FaultEntered n { s with bus := [] } t) ∧
      (k = 2 → FaultEntered n { s with bus := [] } t) ∧
      (k = 3 → ¬ fits → ∃ v w, v = { s with bus := [], mem := v.mem } ∧ memWord v.mem a = 4#32 ∧
        (∀ x, Outside a 4 x → memRead v.mem x = memRead s.mem x) ∧ FaultEntered n v w ∧
        t = { w with attn := if ctl.getLsbD 10 then attnRaise (chanSource n) .blockDone w.attn
                else w.attn }) ∧
      (3 ≤ k → k < 23 → fits → ∃ v, v = { s with bus := [], mem := v.mem } ∧ memWord v.mem a = 2#32 ∧
        (∀ x, Outside a 4 x → memRead v.mem x = memRead s.mem x) ∧ FaultEntered n v t))) ∧
  ∀ (n : Fin 32) (s : State) (c : Channel) (m : Measured) (f : InFlight) (k : Nat), MemLegal s →
    c = s.chan n → running c = true → c.line.inBlock = true → m = measure c →
    c.walk.inflight = some f → refOutcome c m f.refPresent = .used → k < 20 → s.bus = ErrorAt k →
    FaultEntered n ({ s with bus := [] }.modChan n fun c =>
      { c with hist := { c.hist with stuckRun := m.stuckRun } }) (boundary n s)

/-! ## Arithmetic -/

/-- Rounding and saturation (R4, with the ranges of R1 and R2): an accumulator becomes the floor of
`(acc + 2^19) / 2^20`, clamped to the sample range; a gradient becomes the floor of
`(grad + 2^(s-1)) / 2^s`, not clamped itself, and the sum with the old coefficient is clamped to the
coefficient range. Halves go to the greater integer. -/
def Obligations.RoundsHalfTowardPlusInfinity : Prop :=
  (∀ acc : Int, (toSample acc).toInt = max (-32768) (min 32767 ⌊((acc : ℚ) + 2 ^ 19) / 2 ^ 20⌋)) ∧
    (∀ (old : Coef) (s : Nat) (grad : Int), 8 ≤ s →
      (updateCoef old s grad).toInt =
        max (-8388608) (min 8388607 (old.toInt + ⌊((grad : ℚ) + 2 ^ (s - 1)) / 2 ^ s⌋))) ∧
    ∀ k : Int, toSample (k * 2 ^ 20 + 2 ^ 19) = toSample ((k + 1) * 2 ^ 20)

/-- The residual (R12, R13): the received sample less the echo estimate, clamped once; the estimate is the
rounded exact sum of the near terms and, over the far taps in use, of the far terms; a near term reads the
block back to its first sample and then the near history, a far term the pool history at the age R75 gives.
The difference lies in -65535 … 65535 before it is clamped.
The equalizer output (R15): the rounded exact sum of tap times residual, from the block back to its first
sample and then the residual store; with the equalizer in reset form it is the residual delayed by the
cursor index, unchanged. -/
def Obligations.ResidualAndEqualizerOutput : Prop :=
  (∀ (f : Filters) (x near pool r : List Sample) (n : Nat), n < 40 → ∃ e : Int,
    e = max (-32768) (min 32767 ⌊(((∑ j ∈ Finset.range f.ln,
          (f.hn.getD j 0#24).toInt *
            (if j ≤ n then (x.getD (n - j) 0#16).toInt else (near.getD (j - n - 1) 0#16).toInt))
        + ∑ j ∈ Finset.range f.lfEff,
          (f.hf.getD j 0#24).toInt * (pool.getD (39 - n + (f.delay + j)) 0#16).toInt : Int)
        + 2 ^ 19 : ℚ) / 2 ^ 20⌋) ∧
    -65535 ≤ (r.getD n 0#16).toInt - e ∧ (r.getD n 0#16).toInt - e ≤ 65535 ∧
    (residual f x near pool r n).toInt =
      max (-32768) (min 32767 ((r.getD n 0#16).toInt - e))) ∧
  (∀ (f : Filters) (u resid : List Sample) (n : Nat),
    (eqOutput f u resid n).toInt = max (-32768) (min 32767 ⌊((∑ j ∈ Finset.range f.le,
      (f.g.getD j 0#24).toInt *
        (if j ≤ n then (u.getD (n - j) 0#16).toInt else (resid.getD (j - n - 1) 0#16).toInt) : Int)
      + 2 ^ 19 : ℚ) / 2 ^ 20⌋)) ∧
    ∀ (f : Filters) (u resid : List Sample) (n : Nat), f.cursorTap < f.le →
      eqOutput (eqReset f) u resid n =
        if f.cursorTap ≤ n then u.getD (n - f.cursorTap) 0#16
        else resid.getD (f.cursorTap - n - 1) 0#16

/-- What a close measures and reports (R5, R14, R16, R17, R20, R23, R85): the block's samples are those of
the play and capture buffers, its residuals and outputs those of R13 and R15; the energies are exact sums of
squares of at most 40 times 2^30; the clip count is that of the received samples at a limit, and the block
is overloaded when there is one. A record reports each energy shifted right by 8; the errors' energy is 0
without an equalizer update and else that of the clamped differences. The record reports the outcome, the
channel as the close leaves it (state, phase, search and far canceller, gap count; the search result by the
codes of R72, IN_PROGRESS while sweeping), whether it was HELD at the close, the stuck gate, the filters
that adapted, and its own directive's report (R18, R26, R27, R72). Of a capture buffer with fewer than 40
samples, which no line brings, the missing ones read 0: the model's choice (log 19). -/
def Obligations.MeasuresAndReportsBlock : Prop :=
  ∀ (c before after : Channel) (f : InFlight) (m : Measured) (o : RefOutcome)
    (ref stored : List Sample), m = measure c →
    (∀ n < 40, m.x.getD n 0#16 = c.line.play.getD n 0#16 ∧
      m.r.getD n 0#16 = c.line.capture.getD n 0#16 ∧
      m.u.getD n 0#16 = residual c.filt m.x c.hist.near m.poolHist m.r n ∧
      m.z.getD n 0#16 = eqOutput c.filt m.u c.hist.resid n) ∧
    m.u.length = 40 ∧ m.z.length = 40 ∧
    (m.ex : Int) = ∑ n ∈ Finset.range 40, (c.line.play.getD n 0#16).toInt ^ 2 ∧
    (m.er : Int) = ∑ n ∈ Finset.range 40, (c.line.capture.getD n 0#16).toInt ^ 2 ∧
    (m.eu : Int) = ∑ n ∈ Finset.range 40, (m.u.getD n 0#16).toInt ^ 2 ∧
    m.ex ≤ 40 * 2 ^ 30 ∧ m.er ≤ 40 * 2 ^ 30 ∧ m.eu ≤ 40 * 2 ^ 30 ∧
    m.clip = ((Finset.range 40).filter fun n => (c.line.capture.getD n 0#16).toInt = -32768 ∨
      (c.line.capture.getD n 0#16).toInt = 32767).card ∧
    (m.overload = true ↔ 0 < m.clip) ∧
    (∀ eps, (metricsOf f before after m o eps).ex = m.ex / 256 ∧
      (metricsOf f before after m o eps).er = m.er / 256 ∧
      (metricsOf f before after m o eps).eu = m.eu / 256 ∧
      (metricsOf f before after m o eps).clip = m.clip ∧
      (metricsOf f before after m o eps).overload = m.overload) ∧
    (∀ eps rep, rep = metricsOf f before after m o eps →
      rep.outcome = o ∧ rep.state = after.state ∧ rep.phase = after.phaseIndex ∧
      (rep.stuck = true ↔ m.stuckRun = 200) ∧ (rep.held = true ↔ before.state = .held) ∧
      rep.searching = after.search.sweeping ∧ rep.rejected = f.rejected ∧ rep.save = f.save ∧
      (rep.nearAdapted = true ↔ (before.state = .training ∨ before.state = .tracking) ∧
        nearShiftOf before ≠ 0 ∧ before.tf ≤ m.ex / 256 ∧ m.overload = false ∧ m.stuckRun ≠ 200) ∧
      (rep.farAdapted = true ↔ (before.state = .training ∨ before.state = .tracking) ∧
        farShiftOf before ≠ 0 ∧ before.tf ≤ m.ex / 256 ∧ m.overload = false ∧ m.stuckRun ≠ 200) ∧
      (rep.eqAdapted = true ↔ ∃ e, eps = some e) ∧
      rep.gap = after.walk.gapCount ∧ rep.delay = after.filt.delay ∧ rep.lfEff = after.filt.lfEff ∧
      rep.bestLag = (if after.search.sweeping then after.search.bestLag
        else after.search.lastBestLag) ∧
      rep.searchCode = (if after.search.sweeping then 1 else match after.search.lastResult with
        | .notRun => 0
        | .found => 2
        | .cutShort => 3
        | .rejected => 4
        | .cutRejected => 5
        | .poolShort => 6)) ∧
    (metricsOf f before after m o none).ee = 0 ∧
    (metricsOf f before after m o (some (eqErrors ref stored))).ee =
      (∑ i ∈ Finset.range 40, (max (-32768) (min 32767
        ((ref.getD i 0#16).toInt - (stored.getD i 0#16).toInt))) ^ 2).toNat / 256

/-- The updates of a close (R19 to R21, R23, R24). The applicable step shift is in TRAINING the phase's when
its flag is set, in TRACKING the track shift, else 0, and the far filter's is 0 while the far canceller is
off. An echo filter adapts exactly when the channel is in TRAINING or TRACKING, its shift is not 0, the
reported Ex is at least Tf, the block is not overloaded and the stuck gate is open; then each tap moves by
its rounded gradient and taps beyond those in use stand; else the filter stands. The equalizer moves exactly
when errors are given. -/
def Obligations.UpdatesFollowGates : Prop :=
  ∀ (c : Channel) (m : Measured) (eps : Option (List Sample)),
    let open_ := (c.state = .training ∨ c.state = .tracking) ∧ c.tf ≤ m.ex / 256 ∧
      m.overload = false ∧ m.stuckRun ≠ 200
    let p := c.program.getD c.phaseIndex Phase.blank
    (c.state = .training → nearShiftOf c = (if p.nearAdapt then p.nearShift else 0) ∧
      eqShiftOf c = (if p.eqAdapt then p.eqShift else 0) ∧
      (c.filt.lfEff ≠ 0 → farShiftOf c = if p.farAdapt then p.farShift else 0)) ∧
    (c.state = .tracking → nearShiftOf c = c.trackNear ∧ eqShiftOf c = c.trackEq ∧
      (c.filt.lfEff ≠ 0 → farShiftOf c = c.trackFar)) ∧
    (c.state ≠ .training → c.state ≠ .tracking →
      nearShiftOf c = 0 ∧ farShiftOf c = 0 ∧ eqShiftOf c = 0) ∧
    (c.filt.lfEff = 0 → farShiftOf c = 0) ∧
    (open_ ∧ nearShiftOf c ≠ 0 → ∀ j < c.filt.ln,
      (adapt c m eps).hn.getD j 0#24 = updateCoef (c.filt.hn.getD j 0#24) (nearShiftOf c)
        (∑ n ∈ Finset.range 40, (m.u.getD n 0#16).toInt *
          (if j ≤ n then (m.x.getD (n - j) 0#16).toInt
            else (c.hist.near.getD (j - n - 1) 0#16).toInt))) ∧
    (¬ (open_ ∧ nearShiftOf c ≠ 0) → (adapt c m eps).hn = c.filt.hn) ∧
    (open_ ∧ farShiftOf c ≠ 0 → ∀ j < c.filt.lf, (adapt c m eps).hf.getD j 0#24 =
      if j < c.filt.lfEff then
        updateCoef (c.filt.hf.getD j 0#24) (farShiftOf c)
          (∑ n ∈ Finset.range 40, (m.u.getD n 0#16).toInt *
            (m.poolHist.getD (39 - n + (c.filt.delay + j)) 0#16).toInt)
      else c.filt.hf.getD j 0#24) ∧
    (¬ (open_ ∧ farShiftOf c ≠ 0) → (adapt c m eps).hf = c.filt.hf) ∧
    (∀ e, eps = some e → ∀ j < c.filt.le,
      (adapt c m eps).g.getD j 0#24 = updateCoef (c.filt.g.getD j 0#24) (eqShiftOf c)
        (∑ i ∈ Finset.range 40, (e.getD i 0#16).toInt *
          (c.hist.resid.getD (79 - i + j) 0#16).toInt)) ∧
    (eps = none → (adapt c m eps).g = c.filt.g) ∧
    adapt c m eps = { c.filt with hn := (adapt c m eps).hn, hf := (adapt c m eps).hf,
                                  g := (adapt c m eps).g }

/-- The reference outcome (R22): the first row of its table that holds, reported in the record's metrics. -/
def Obligations.ReferenceOutcomeFirstRow : Prop :=
  ∀ (c : Channel) (m : Measured) (refPresent : Bool),
    (refOutcome c m refPresent = .noReference ↔ refPresent = false) ∧
    (refOutcome c m refPresent = .held ↔ refPresent = true ∧ c.state = .held) ∧
    (refOutcome c m refPresent = .gap ↔
      refPresent = true ∧ c.state ≠ .held ∧ c.walk.takenRun < 3) ∧
    (refOutcome c m refPresent = .overload ↔
      refPresent = true ∧ c.state ≠ .held ∧ 3 ≤ c.walk.takenRun ∧ c.hist.outOld.overload = true) ∧
    (refOutcome c m refPresent = .stuck ↔
      refPresent = true ∧ c.state ≠ .held ∧ 3 ≤ c.walk.takenRun ∧ c.hist.outOld.overload = false ∧
        m.stuckRun = 200) ∧
    (refOutcome c m refPresent = .notAdapting ↔
      refPresent = true ∧ c.state ≠ .held ∧ 3 ≤ c.walk.takenRun ∧ c.hist.outOld.overload = false ∧
        m.stuckRun ≠ 200 ∧ eqShiftOf c = 0) ∧
    (refOutcome c m refPresent = .used ↔
      refPresent = true ∧ c.state ≠ .held ∧ 3 ≤ c.walk.takenRun ∧ c.hist.outOld.overload = false ∧
        m.stuckRun ≠ 200 ∧ eqShiftOf c ≠ 0) ∧
    ∀ f after eps, (metricsOf f c after m (refOutcome c m refPresent) eps).outcome =
      refOutcome c m refPresent

/-- The histories after a close (R11, R17, R18, R25, R75): each holds the newest samples of the block ahead of
what it held; the pool history keeps 32 samples a segment; the newer output entry becomes the older; the
stuck run goes up by one, to at most 200, when all 40 received samples equal the last received sample of
the block before, else it is 0. Of a capture buffer with fewer than 40 samples, which no line brings, the
missing ones read 0: the model's choice (log 19). -/
def Obligations.CloseAdvancesHistories : Prop :=
  ∀ (c : Channel) (eps : Option (List Sample)),
    c.hist.near.length = 63 → c.hist.resid.length = 143 → c.poolHist.length = 32 * c.segs.length →
    ∃ d m, d = applyClose m eps c ∧ m = measure c ∧
      (∀ i < 40, d.hist.near.getD i 0#16 = c.line.play.getD (39 - i) 0#16 ∧
        d.hist.resid.getD i 0#16 = m.u.getD (39 - i) 0#16) ∧
      (∀ i, i + 40 < 63 → d.hist.near.getD (i + 40) 0#16 = c.hist.near.getD i 0#16) ∧
      (∀ i, i + 40 < 143 → d.hist.resid.getD (i + 40) 0#16 = c.hist.resid.getD i 0#16) ∧
      d.hist.near.length = 63 ∧ d.hist.resid.length = 143 ∧
      (c.segs ≠ [] → ∀ i < min 40 (32 * c.segs.length),
        d.poolHist.getD i 0#16 = c.line.play.getD (39 - i) 0#16) ∧
      (∀ i, i + 40 < 32 * c.segs.length →
        d.poolHist.getD (i + 40) 0#16 = c.poolHist.getD i 0#16) ∧
      d.poolHist.length = 32 * c.segs.length ∧
      d.hist.outOld = c.hist.outNew ∧ d.hist.outNew.z = m.z ∧
      (d.hist.outNew.overload = true ↔
        ∃ i < 40, (c.line.capture.getD i 0#16).toInt = -32768 ∨
          (c.line.capture.getD i 0#16).toInt = 32767) ∧
      d.hist.lastRecv = c.line.capture.getD 39 0#16 ∧
      (c.hist.stuckRun ≤ 200 → d.hist.stuckRun =
        if ∀ i < 40, c.line.capture.getD i 0#16 = c.hist.lastRecv then
          min 200 (c.hist.stuckRun + 1) else 0)

/-- A boundary (R9, R10, R24 to R27, R49, R93, R94, R159). A channel that is not running does nothing. A running
one without a block in progress closes nothing and takes. A block in progress is closed: its filters adapt
and its histories advance from the context as it stood (the equalizer from the record's reference when the
outcome is USED), the search block follows, STUCK is raised when the stuck run goes from 199 to 200, then the
guard and the program; a changed status area is written, the record in flight is completed with DONE
from the measured block and its metrics, and a channel that still runs takes. A held channel's starved
block moves no filter, program, search or divergence run. A bus error at a word of the close's status write
(`fault`) is a table fault: TABLE_FAULT is raised on the part source, the close's effects and causes stand,
and the record is completed and the take made as always (R160); that the take may then write the
status area is the model's choice (log 36). -/
def Obligations.BoundaryClosesThenTakes : Prop :=
  (∀ (n : Fin 32) (s : State) (c : Channel) (m : Measured), c = s.chan n → m = measure c →
    (running c = false → boundary n s = s) ∧
    (running c = true → c.line.inBlock = false → boundary n s = take n s) ∧
    (c.state = .held → c.line.inBlock = true → c.walk.inflight = none → c.statusDue = false →
      ∃ u, boundary n s = take n u ∧ (∀ k, k ≠ n → u.chan k = s.chan k) ∧
        u.chan n = { c with
          hist := { near := (m.x.reverse ++ c.hist.near).take 63,
                    resid := (m.u.reverse ++ c.hist.resid).take 143,
                    outNew := ⟨m.z, m.overload⟩, outOld := c.hist.outNew,
                    lastRecv := m.r.getD 39 0#16, stuckRun := m.stuckRun },
          poolHist := m.poolHist, line := { c.line with inBlock := false } } ∧
        u = { s with chans := u.chans, attn :=
          if c.hist.stuckRun = 199 ∧ m.stuckRun = 200 then attnRaise (chanSource n) .stuck s.attn
          else s.attn })) ∧
  ∀ (n : Fin 32) (s v : State) (c : Channel) (m : Measured) (o : RefOutcome) (ref : List Sample)
    (eps : Option (List Sample)) (fault : Option Nat), c = s.chan n → running c = true →
    c.line.inBlock = true → c.statusDue = false → MemLegal s → m = measure c →
    (fault = none → s.bus = []) →
    (∀ k, fault = some k → s.bus = ErrorAt ((if o = .used then 20 else 0) + k) ∧ k < 6 ∧
      s.tableBase ≠ 0#24 ∧ statusWords (v.chan n) ≠ statusWords c) →
    (c.walk.inflight = none → o = .noReference) →
    (∀ f, c.walk.inflight = some f → o = refOutcome c m f.refPresent ∧
      ref = unpackSamples ((List.range 20).map fun i =>
        memWord s.mem (f.addr + 96#32 + BitVec.ofNat 32 (4 * i)))) →
    eps = (if o = .used then some (eqErrors ref c.hist.outOld.z) else none) →
    v = guardAndProgram n m.er m.eu { { s with bus := [] }.modChan n (fun _ => searchAtClose m.u { c with
        filt := adapt c m eps,
        hist := { near := (m.x.reverse ++ c.hist.near).take 63,
                  resid := (m.u.reverse ++ c.hist.resid).take 143,
                  outNew := ⟨m.z, m.overload⟩, outOld := c.hist.outNew,
                  lastRecv := m.r.getD 39 0#16, stuckRun := m.stuckRun },
        poolHist := m.poolHist }) with
      attn := if c.hist.stuckRun = 199 ∧ m.stuckRun = 200 then attnRaise (chanSource n) .stuck s.attn
        else s.attn } →
    ∃ w, w = { v with mem := w.mem, chans := w.chans, attn := w.attn } ∧
      w.chan n = { v.chan n with statusDue := false } ∧ (∀ k, k ≠ n → w.chan k = s.chan k) ∧
      (∀ x, Outside (s.desc n.val + 128#32) 24 x → memRead w.mem x = memRead s.mem x) ∧
      (∀ k, fault = some k → StatusFaulted n k v w) ∧
      (fault = none → w.attn = v.attn) ∧
      (fault = none → s.tableBase ≠ 0#24 → statusWords (v.chan n) ≠ statusWords c → ∀ i < 6,
        memWord w.mem (s.desc n.val + 128#32 + BitVec.ofNat 32 (4 * i)) =
          (statusWords (v.chan n)).getD i 0#32) ∧
      ∃ y, (c.walk.inflight = none → y = w) ∧
        (∀ f, c.walk.inflight = some f →
          y = completeDone n f m.z m.u (metricsOf f c (w.chan n) m o eps) w) ∧
        boundary n s =
          (if running (y.chan n) then
            take n (y.modChan n fun c => { c with line := { c.line with inBlock := false } })
          else y.modChan n fun c => { c with line := { c.line with inBlock := false } })

/-! ## Training programs, the guard and directives -/

/-- A counted close that does not restart (R41 to R45, R55): the block count goes up by one; the early-exit
run goes up when the target is met, else it is 0; the phase ends by its duration, by its run, or by its
search's end. A phase that goes on changes nothing else; the end of one without a sweep enters the next,
starting its search when it is a search phase (R45, R58), or, at the last, TRACKING with STATE raised and
the phase index kept; a sweep in progress is ended first. A close in TRACKING that does not restart moves the
divergence run alone: up by one when the guard is on and the block divergent, else 0 (R55). A close in HELD
counts no block and moves neither program nor divergence run, whatever record it carries (R49). -/
def Obligations.CountedCloseAdvancesProgram : Prop :=
  (∀ (n : Fin 32) (er eu : Nat) (s : State) (c : Channel), c = s.chan n →
    (c.state = .tracking →
      ¬ (c.guard = true ∧ 2 * er < eu ∧ c.rf ≤ er / 256 ∧ 7 ≤ c.divRun) →
      guardAndProgram n er eu s = s.modChan n fun _ => { c with
        divRun := if c.guard = true ∧ 2 * er < eu ∧ c.rf ≤ er / 256 then c.divRun + 1 else 0 }) ∧
    (c.state = .held → guardAndProgram n er eu s = s)) ∧
  ∀ (n : Fin 32) (er eu : Nat) (s : State) (c : Channel) (p : Phase) (d : Channel), c = s.chan n →
    c.state = .training → p = c.program.getD c.phaseIndex Phase.blank →
    ¬ (c.guard = true ∧ 2 * er < eu ∧ c.rf ≤ er / 256 ∧ 7 ≤ c.divRun) →
    d = { c with
      blockCount := c.blockCount + 1
      earlyRun := if p.target ≠ 0 ∧ eu * 2 ^ p.target ≤ er ∧ c.rf ≤ er / 256 then c.earlyRun + 1 else 0
      divRun := if c.guard = true ∧ 2 * er < eu ∧ c.rf ≤ er / 256 then c.divRun + 1 else 0 } →
    let ends := d.blockCount = p.duration ∨ d.earlyRun = p.runK ∨
      (p.search = true ∧ (c.search.sweeping = false ∨ c.search.sweepLen ≤ c.search.nextBlock))
    (¬ ends → guardAndProgram n er eu s = s.modChan n fun _ => d) ∧
    (ends → c.search.sweeping = false → c.phaseIndex + 1 < c.progLen → ∃ u,
      u = (s.modChan n fun _ =>
        { d with phaseIndex := c.phaseIndex + 1, blockCount := 0, earlyRun := 0 }) ∧
      guardAndProgram n er eu s =
        if (c.program.getD (c.phaseIndex + 1) Phase.blank).search = true then startSearch n u
        else u) ∧
    (ends → c.search.sweeping = false → c.progLen ≤ c.phaseIndex + 1 →
      guardAndProgram n er eu s = raise (chanSource n) .state (s.modChan n fun _ =>
        { d with state := .tracking, blockCount := 0, earlyRun := 0 })) ∧
    (ends → c.search.sweeping = true →
      guardAndProgram n er eu s = nextPhase n (endSearch n (s.modChan n fun _ => d)))

/-- A divergence restart (R8, R55, R56): the eighth divergent close in a row puts the near and equalizer
coefficients in their reset forms and the far canceller off, counts the restart up to 65535, and leaves
the channel in TRAINING at phase 0 with runs of 0; DIVERGED is raised, and STATE when it was TRACKING.
Every segment goes back to the pool, the oldest first; when phase 0 is a search phase its search then
starts with its own request (R45, R58). The histories stand. `sd` is the mark of a due status write. -/
def Obligations.EighthDivergentCloseRestarts : Prop :=
  ∀ (n : Fin 32) (er eu : Nat) (s t : State) (c : Channel), c = s.chan n →
    (c.state = .training ∨ c.state = .tracking) → c.guard = true → 2 * er < eu →
    c.rf ≤ er / 256 → 7 ≤ c.divRun → t = guardAndProgram n er eu s →
    (t.chan n).state = .training ∧ (t.chan n).phaseIndex = 0 ∧ (t.chan n).blockCount = 0 ∧
    (t.chan n).earlyRun = 0 ∧ (t.chan n).divRun = 0 ∧
    (t.chan n).divCount = min 65535 (c.divCount + 1) ∧ (t.chan n).hist = c.hist ∧
    (t.chan n).walk = c.walk ∧ (t.chan n).line = c.line ∧
    (t.chan n).filt.hn = List.replicate c.filt.ln 0#24 ∧
    (t.chan n).filt.hf = List.replicate c.filt.lf 0#24 ∧
    (∀ j < c.filt.le, (t.chan n).filt.g.getD j 0#24 =
      if j = c.filt.cursorTap then 1048576#24 else 0#24) ∧
    (t.chan n).filt.delay = 0 ∧ (t.chan n).filt.lfEff = 0 ∧
    (∀ k, k ≠ n → t.chan k = s.chan k) ∧ t.store = s.store ∧ t.mem = s.mem ∧
    (s.attn.sources[chanSource n].priority ≠ 0#3 → HasCause t.attn (chanSource n) .diverged ∧
      (c.state = .tracking → HasCause t.attn (chanSource n) .state)) ∧
    ((c.program.getD 0 Phase.blank).search = false →
      (t.chan n).segs = [] ∧ (t.chan n).search.sweeping = false ∧
      (t.chan n).search.lastResult = c.search.lastResult ∧ t.pool = s.pool ++ c.segs.reverse) ∧
    ∃ u v sd, u = { s with chans := u.chans, pool := s.pool ++ c.segs.reverse } ∧
      (∀ k, k ≠ n → u.chan k = s.chan k) ∧
      u.chan n = { c with
        phaseIndex := 0, blockCount := 0, earlyRun := 0, divRun := 0, segs := [], poolHist := [],
        statusDue := sd, filt := farOff (eqReset (nearReset c.filt)),
        search := { c.search with sweeping := false } } ∧
      v = (if (c.program.getD 0 Phase.blank).search = true then startSearch n u else u) ∧
      t = { v with chans := t.chans, attn := t.attn } ∧
      t.attn = attnRaise (chanSource n) .diverged
        (if c.state = .tracking then attnRaise (chanSource n) .state v.attn else v.attn) ∧
      t.chan n = { v.chan n with divCount := min 65535 (c.divCount + 1), state := .training }

/-- The directives of a taken record (R45, R47, R48, R50 to R54): none, FREEZE, THAW, RETRAIN while no search
sweeps, RETRAIN while one sweeps, which is abandoned without a result (R71), RESTART, SAVE_NOW; where the
phase entered is a search phase its search starts at the take (R58). A code beyond the table and a RETRAIN
beyond the program are rejected and change nothing. `sd` is the mark of a due status write. -/
def Obligations.DirectivesAct : Prop :=
  ∀ (n : Fin 32) (arg : Nat) (s : State) (c : Channel), c = s.chan n →
    (applyDirective n 0 arg s = (⟨false, .none⟩, s)) ∧
    (∀ code, 6 ≤ code → applyDirective n code arg s = (⟨true, .none⟩, s)) ∧
    (c.progLen ≤ arg → applyDirective n 3 arg s = (⟨true, .none⟩, s)) ∧
    (c.state = .training ∨ c.state = .tracking → applyDirective n 1 arg s = (⟨false, .none⟩,
      raise (chanSource n) .state (s.modChan n fun c =>
        { c with state := .held, resume := resumeOf c, holdDirective := true }))) ∧
    (c.state = .held → applyDirective n 1 arg s = (⟨false, .none⟩,
      s.modChan n fun c => { c with holdDirective := true })) ∧
    (∀ rs, c.state = .held → c.holdLine = false → c.resume = some rs →
      applyDirective n 2 arg s = (⟨false, .none⟩,
        raise (chanSource n) .state (s.modChan n fun c =>
          { c with state := rs.toState, resume := none, holdDirective := false }))) ∧
    (c.state = .held → c.holdLine = true → applyDirective n 2 arg s = (⟨false, .none⟩,
      s.modChan n fun c => { c with holdDirective := false })) ∧
    (c.state ≠ .held → ((applyDirective n 2 arg s).2.chan n = c ∧
      (applyDirective n 2 arg s).2.attn = s.attn)) ∧
    (arg < c.progLen → c.search.sweeping = false → ∃ u,
      applyDirective n 3 arg s = (⟨false, .none⟩,
        if (c.program.getD arg Phase.blank).search = true then startSearch n u else u) ∧
      u = { s with chans := u.chans, attn := u.attn } ∧ (∀ k, k ≠ n → u.chan k = s.chan k) ∧
      u.chan n = { c with
        phaseIndex := arg, blockCount := 0, earlyRun := 0,
        state := if c.state = .tracking then .training else c.state,
        resume := if c.state = .held then some .training else c.resume } ∧
      u.attn = if c.state = .tracking then attnRaise (chanSource n) .state s.attn else s.attn) ∧
    (arg < c.progLen → c.search.sweeping = true → ∃ u sd,
      applyDirective n 3 arg s = (⟨false, .none⟩,
        if (c.program.getD arg Phase.blank).search = true then startSearch n u else u) ∧
      u.chan n = { c with
        phaseIndex := arg, blockCount := 0, earlyRun := 0, segs := [], poolHist := [], statusDue := sd,
        filt := { c.filt with hf := List.replicate c.filt.lf 0#24, delay := 0, lfEff := 0 },
        search := { c.search with sweeping := false },
        state := if c.state = .tracking then .training else c.state,
        resume := if c.state = .held then some .training else c.resume } ∧
      (∀ k, k ≠ n → u.chan k = s.chan k) ∧ u.pool = s.pool ++ c.segs.reverse ∧
      u.attn = if c.state = .tracking then attnRaise (chanSource n) .state s.attn else s.attn) ∧
    (running c = true → ∃ u v t sd, applyDirective n 4 arg s = (⟨false, .none⟩, t) ∧
      u = { s with chans := u.chans, pool := s.pool ++ c.segs.reverse } ∧
      (∀ k, k ≠ n → u.chan k = s.chan k) ∧
      u.chan n = { c with
        phaseIndex := 0, blockCount := 0, earlyRun := 0, divRun := 0, segs := [], poolHist := [],
        statusDue := sd, filt := farOff (eqReset (nearReset c.filt)),
        search := { c.search with sweeping := false } } ∧
      v = (if (c.program.getD 0 Phase.blank).search = true then startSearch n u else u) ∧
      t = { v with chans := t.chans, attn := t.attn } ∧
      t.attn = (if c.state = .tracking then attnRaise (chanSource n) .state v.attn else v.attn) ∧
      (∀ k, k ≠ n → t.chan k = v.chan k) ∧
      t.chan n = { v.chan n with
        state := if c.state = .tracking then .training else c.state,
        resume := if c.state = .held then some .training else c.resume }) ∧
    (c.routeTag = 0#32 ∨ (c.state ≠ .tracking ∧ ¬ (c.state = .held ∧ c.resume = some .tracking)) →
      applyDirective n 5 arg s = (⟨false, .notSaved⟩, s)) ∧
    (c.routeTag ≠ 0#32 → (c.state = .tracking ∨ (c.state = .held ∧ c.resume = some .tracking)) →
      ∃ o t sd, applyDirective n 5 arg s = (⟨false, o⟩, t) ∧
        (o, t.store) = saveProfileTo s.store c.routeTag c.filt ∧
        t.chan n = { c with lastSave := o, statusDue := sd } ∧
        t.attn = if o = .saved then s.attn else attnRaise (chanSource n) .profile s.attn)

/-! ## The delay search -/

/-- A search start (R58 to R60, R70): the far canceller is off, the holding is brought to
`segs(Dmax + 15)` as far as the pool reaches, its newest segments kept; POOL_SHORT tells a shortfall. The
range runs to `min(Dmax, 32k - 55)`; an empty one ends the search at once with POOL_SHORT as its result,
nothing held and FAR_RESULT raised. -/
def Obligations.SearchStartFixesRange : Prop :=
  ∀ (n : Fin 32) (s t : State) (c d : Channel) (target k : Nat) (top : Int), c = s.chan n →
    64 ≤ c.dmin → target = (c.dmax + 15 + 40 + 31) / 32 →
    k = (if target ≤ c.segs.length then target
      else min target (c.segs.length + s.pool.length)) →
    top = min (c.dmax : Int) (32 * k - 55) → t = startSearch n s → d = t.chan n →
    d.filt = { c.filt with hf := List.replicate c.filt.lf 0#24, delay := 0, lfEff := 0 } ∧
    d.state = c.state ∧ d.phaseIndex = c.phaseIndex ∧ d.hist = c.hist ∧
    (∀ j, j ≠ n → t.chan j = s.chan j) ∧ t.mem = s.mem ∧ t.store = s.store ∧
    (c.dmin ≤ top → d.search.sweeping = true ∧ (d.search.dmaxEff : Int) = top ∧
      (d.search.sweepLen : Int) = (top - c.dmin) / 16 + 1 ∧ d.search.nextBlock = 0 ∧
      d.search.bestLag = 0 ∧ d.search.bestScore = 0 ∧ d.search.scoreSum = 0 ∧
      d.search.lagsEval = 0 ∧ d.search.lastResult = c.search.lastResult ∧ d.segs.length = k ∧
      d.segs.take (min k c.segs.length) = c.segs.take (min k c.segs.length) ∧
      t.attn = if k < target then attnRaise (chanSource n) .poolShort s.attn else s.attn) ∧
    (top < c.dmin → d.search.sweeping = false ∧ d.search.lastResult = .poolShort ∧
      d.search.lastBestLag = 0 ∧ d.segs = [] ∧
      t.attn = attnRaise (chanSource n) .farResult
        (if k < target then attnRaise (chanSource n) .poolShort s.attn else s.attn))

/-- The sweep (R60 to R64): a search block is a close in TRAINING while searching; it evaluates window j, in
ascending order of lag, against the block's residuals and the pool history, and j goes up by one; any other
close leaves the search as it stands. The windows 0 to N - 1 hold each lag of the range exactly once,
ascending and at most 16 a window. Over lags evaluated in any blocks, the score is the magnitude of the
correlation; the best lag is the first of those with the greatest score, the sum and the count are over all.
-/
def Obligations.SweepFindsFirstBestLag : Prop :=
  (∀ (u : List Sample) (c : Channel),
    (c.state = .training → c.search.sweeping = true →
      searchAtClose u c = { c with search :=
        { ((windowLags c.dmin c.search.dmaxEff c.search.nextBlock).foldl
            (fun q l => evalLag u c.poolHist q l) c.search) with
          nextBlock := c.search.nextBlock + 1 } }) ∧
    (¬ (c.state = .training ∧ c.search.sweeping = true) → searchAtClose u c = c)) ∧
  (∀ dmin top : Nat, dmin ≤ top →
    (∀ l, (dmin ≤ l ∧ l ≤ top) ↔ ∃ j < sweepLength dmin top, l ∈ windowLags dmin top j) ∧
    (∀ i j l, l ∈ windowLags dmin top i → l ∈ windowLags dmin top j → i = j) ∧
    ∀ j, (windowLags dmin top j).Pairwise (· < ·) ∧ (windowLags dmin top j).length ≤ 16) ∧
  (∀ (u pool : List Sample) (l : Nat), lagScore u pool l =
    (∑ n ∈ Finset.range 40, (u.getD n 0#16).toInt * (pool.getD (39 - n + l) 0#16).toInt).natAbs) ∧
  ∀ (es : List (List Sample × List Sample × Nat)) (q r : Search), q.lagsEval = 0 → q.scoreSum = 0 →
    es ≠ [] → r = es.foldl (fun q e => evalLag e.1 e.2.1 q e.2.2) q →
    r.lagsEval = es.length ∧ r.scoreSum = (es.map fun e => lagScore e.1 e.2.1 e.2.2).sum ∧
    r.nextBlock = q.nextBlock ∧
    ∃ (i : Nat) (e : List Sample × List Sample × Nat), es[i]? = some e ∧ r.bestLag = e.2.2 ∧ r.bestScore = lagScore e.1 e.2.1 e.2.2 ∧
      ∀ (j : Nat) (e' : List Sample × List Sample × Nat), es[j]? = some e' → lagScore e'.1 e'.2.1 e'.2.2 ≤ r.bestScore ∧
        (j < i → lagScore e'.1 e'.2.1 e'.2.2 < r.bestScore)

/-- A search's end (R66 to R70): accepted exactly when the best score is not 0 and at least A times the mean.
Accepted, the window stands at `max(Dmin, B - 8)`, whole when the pool reaches its segments, else the
widest multiple of 8 taps the holding has room for, or off below 8; not accepted, it is off and nothing is
held. The result, the last best lag and FAR_RESULT follow, and POOL_SHORT tells a narrowed window. -/
def Obligations.SearchEndPlacesWindow : Prop :=
  ∀ (n : Fin 32) (s t : State) (c d : Channel) (acc : Prop) (delay p k : Nat), c = s.chan n →
    (acc ↔ c.search.bestScore ≠ 0 ∧
      c.ratio * c.search.scoreSum ≤ c.search.bestScore * c.search.lagsEval) →
    delay = max c.dmin (c.search.bestLag - 8) → p = (delay + c.filt.lf - 1 + 40 + 31) / 32 →
    k = (if p ≤ c.segs.length then p else min p (c.segs.length + s.pool.length)) →
    0 < c.dmin → 8 ≤ c.filt.lf → t = endSearch n s → d = t.chan n →
    d.search.sweeping = false ∧ d.search.lastBestLag = c.search.bestLag ∧
    (acc → c.search.sweepLen ≤ c.search.nextBlock → d.search.lastResult = .found) ∧
    (acc → c.search.nextBlock < c.search.sweepLen → d.search.lastResult = .cutShort) ∧
    (¬ acc → c.search.sweepLen ≤ c.search.nextBlock → d.search.lastResult = .rejected) ∧
    (¬ acc → c.search.nextBlock < c.search.sweepLen → d.search.lastResult = .cutRejected) ∧
    (¬ acc → d.filt.delay = 0 ∧ d.filt.lfEff = 0 ∧ d.segs = [] ∧
      t.attn = attnRaise (chanSource n) .farResult s.attn) ∧
    (acc → k = p → d.filt.delay = delay ∧ d.filt.lfEff = c.filt.lf ∧ d.segs.length = p ∧
      delay + c.filt.lf + 39 ≤ 32 * p ∧ t.attn = attnRaise (chanSource n) .farResult s.attn) ∧
    (acc → k < p →
      t.attn = attnRaise (chanSource n) .farResult (attnRaise (chanSource n) .poolShort s.attn) ∧
      (delay + 8 + 39 ≤ 32 * k → d.filt.delay = delay ∧ 8 ≤ d.filt.lfEff ∧
        d.filt.lfEff % 8 = 0 ∧ d.filt.lfEff ≤ c.filt.lf ∧ delay + d.filt.lfEff + 39 ≤ 32 * k ∧
        (∀ m, m % 8 = 0 → m ≤ c.filt.lf → delay + m + 39 ≤ 32 * k → m ≤ d.filt.lfEff) ∧
        d.segs.length = k) ∧
      (32 * k < delay + 8 + 39 → d.filt.delay = 0 ∧ d.filt.lfEff = 0 ∧ d.segs = [])) ∧
    ∀ j, j ≠ n → t.chan j = s.chan j

/-- Grants and releases (R76 to R79): `segs` is the smallest holding that reaches a lag. A grant takes the
head of the free list, as far as it goes, to the oldest end of the list, reading as zero; a release gives
the oldest segments back, the oldest first, to the tail, and the kept history stands. -/
def Obligations.GrantsAndReleases : Prop :=
  (∀ l h : Nat, segsFor l ≤ h ↔ l + 40 ≤ 32 * h) ∧
  (∀ h : Nat, 2 ≤ h → segsFor (32 * h - 40) = h) ∧
  (∀ (n : Fin 32) (g : Nat) (s : State), ∃ got, got = s.pool.take g ∧
    got.length = min g s.pool.length ∧ s.pool = got ++ (grant n g s).pool ∧
    ((grant n g s).chan n).segs = (s.chan n).segs ++ got ∧
    ((grant n g s).chan n).poolHist =
      (s.chan n).poolHist ++ List.replicate (32 * min g s.pool.length) 0#16) ∧
  (∀ (n : Fin 32) (keep : Nat) (s : State), ∃ gone,
    (s.chan n).segs = ((shrink n keep s).chan n).segs ++ gone ∧
    ((shrink n keep s).chan n).segs.length = min keep (s.chan n).segs.length ∧
    (shrink n keep s).pool = s.pool ++ gone.reverse ∧
    ∀ i < 32 * keep, ((shrink n keep s).chan n).poolHist.getD i 0#16 =
      (s.chan n).poolHist.getD i 0#16) ∧
  ∀ (n : Fin 32) (want : Nat) (s : State),
    ((bringHolding n want s).chan n).segs.length =
      (if want ≤ (s.chan n).segs.length then want
        else min want ((s.chan n).segs.length + s.pool.length)) ∧
    ∀ j, j ≠ n → (bringHolding n want s).chan j = s.chan j

/-! ## Requests of the descriptors -/

/-- The checks of an OPEN (R30, R156): it passes exactly when all six conditions are met, and each refusal is
given exactly when its condition is the first that fails. -/
def Obligations.OpenChecksInOrder : Prop :=
  ∀ (closed taken : Bool) (slots : Nat) (r : OpenReq) (phases : List Phase),
    let slotOk := r.timeslot < slots ∧ taken = false
    let lengths := r.ln ∈ [8, 16, 24, 32, 40, 48, 56, 64] ∧
      r.lf ∈ [0, 8, 16, 24, 32, 40, 48, 56, 64, 72, 80, 88, 96, 104, 112, 120, 128] ∧
      r.le ∈ [8, 16, 24, 32, 40, 48, 56, 64]
    let count := 1 ≤ r.progLen ∧ r.progLen ≤ 8
    let search := r.lf = 0 → ∀ p ∈ phases, p.search = false
    let address := r.firstRecord ≠ 0#32 ∧ r.firstRecord.toNat % 4 = 0
    let out := openRefusal closed slots taken r phases
    (out = some ⟨3, 0⟩ ↔ closed = false) ∧
    (out = some ⟨5, 0⟩ ↔ closed = true ∧ ¬ slotOk) ∧
    (out = some ⟨6, 3⟩ ↔ closed = true ∧ slotOk ∧ ¬ lengths) ∧
    (out = some ⟨6, 4⟩ ↔ closed = true ∧ slotOk ∧ lengths ∧ r.le ≤ r.cursor) ∧
    (out = some ⟨7, 1⟩ ↔ closed = true ∧ slotOk ∧ lengths ∧ r.cursor < r.le ∧ ¬ count) ∧
    (out = some ⟨7, 2⟩ ↔ closed = true ∧ slotOk ∧ lengths ∧ r.cursor < r.le ∧ count ∧ ¬ search) ∧
    (out = some ⟨8, 0⟩ ↔
      closed = true ∧ slotOk ∧ lengths ∧ r.cursor < r.le ∧ count ∧ search ∧ ¬ address) ∧
    (out = none ↔ closed = true ∧ slotOk ∧ lengths ∧ r.cursor < r.le ∧ count ∧ search ∧ address)

/-- An accepted OPEN that starts cold (R32 to R35, R122): no tag or no use-profile flag (NOT_USED), or a
lookup that does not hit (MISS, BUSY or MISMATCH); the outcome is kept. The configuration is copied with its
clamps, the coefficients are in their reset forms, histories and counts are zero, the walker is at the first
record; the channel trains from phase 0, held with LINE unless the port is LOCKED; the source has the
priority, its causes and in-service flag stand, but that priority 0 empties its causes, and the pin follows
(R165, R170). Pool, store, memory and the other channels stand. When phase 0
is a search phase its search then starts at the OPEN (R35, R58). That the play position is then 0 is the
model's choice (log 35). -/
def Obligations.ColdOpenStartsTraining : Prop :=
  ∀ (n : Fin 32) (r : OpenReq) (phases : List Phase) (s : State) (o : LookupOutcome),
    ((r.tag = 0#32 ∨ r.useProfile = false) ∧ o = .notUsed ∨
      r.tag ≠ 0#32 ∧ r.useProfile = true ∧ lookup s.store r.tag r.ln r.lf r.le = (o, none)) →
    ∃ (t : State) (d : Channel), d = t.chan n ∧
    acceptOpen n r phases s =
      (if (phases.getD 0 Phase.blank).search = true then startSearch n t else t) ∧
    d.state = (if s.port.state = .locked then .training else .held) ∧
    d.resume = (if s.port.state = .locked then none else some .training) ∧
    Configured r phases (s.port.state = .locked) d ∧ d.phaseIndex = 0 ∧ d.profileOutcome = o ∧
    d.filt.hn = List.replicate r.ln 0#24 ∧ d.filt.hf = List.replicate r.lf 0#24 ∧
    (∀ j < r.le, d.filt.g.getD j 0#24 = if j = r.cursor then 1048576#24 else 0#24) ∧
    d.filt.delay = 0 ∧ d.filt.lfEff = 0 ∧ d.filt.cursorTap = r.cursor ∧
    d.segs = (s.chan n).segs ∧ d.poolHist = (s.chan n).poolHist ∧
    OpenLeaves n r.priority False s t ∧ t.pool = s.pool ∧ t.store = s.store ∧ t.mem = s.mem

/-- An accepted OPEN that hits a profile (R32 to R35, R122): the configuration is copied with its clamps,
with the effective program, zero histories and counts, the walker at the first record and the priority
copied, as at a cold OPEN; the other channels and sources, memory, port and maintenance unit stand. The
channel holds nothing before, as R74 has it of every CLOSED channel (PoolConserved). The
entry's near and equalizer coefficients and cursor are in use; with a stored D the pool is asked for its
segments, and the far canceller is on when it grants them all, else off with POOL_SHORT and nothing held.
The start is TRAINING at the lowest warm phase, or TRACKING at the last phase when none is warm, behind LINE
unless the port is LOCKED; the entry is the most recent. When the phase started at is a search phase its
search then starts at the OPEN, after the load (R35, R58). -/
def Obligations.HitOpenLoadsProfile : Prop :=
  ∀ (n : Fin 32) (r : OpenReq) (phases : List Phase) (s : State) (i : Fin 48)
    (e : Entry) (want : Nat), r.tag ≠ 0#32 → r.useProfile = true → (s.chan n).segs = [] →
    lookup s.store r.tag r.ln r.lf r.le = (.hit, some i) → e = entryAt s.store i →
    want = (e.delay + r.lf - 1 + 40 + 31) / 32 → r.progLen = phases.length →
    ∃ (t : State) (d : Channel), d = t.chan n ∧
    Configured r phases (s.port.state = .locked) d ∧
    OpenLeaves n r.priority (e.delay ≠ 0 ∧ s.pool.length < want) s t ∧
    ((s.chan n).poolHist = [] → d.poolHist = List.replicate (32 * d.segs.length) 0#16) ∧
    (s.port.state = .locked → d.resume = none) ∧
    d.profileOutcome = .hit ∧ d.filt.hn = e.coefs.take r.ln ∧
    d.filt.g = (e.coefs.drop (r.ln + r.lf)).take r.le ∧ d.filt.cursorTap = e.cursor ∧
    (e.delay = 0 → d.filt.delay = 0 ∧ d.filt.lfEff = 0 ∧ d.segs = [] ∧ t.pool = s.pool) ∧
    (e.delay ≠ 0 → want ≤ s.pool.length →
      d.filt.delay = e.delay ∧ d.filt.lfEff = r.lf ∧
      d.filt.hf = (e.coefs.drop r.ln).take r.lf ∧ d.segs = s.pool.take want ∧
      t.pool = s.pool.drop want) ∧
    (e.delay ≠ 0 → s.pool.length < want →
      d.filt.delay = 0 ∧ d.filt.lfEff = 0 ∧ d.filt.hf = List.replicate r.lf 0#24 ∧ d.segs = [] ∧
      t.pool = s.pool.reverse ∧
      (r.priority ≠ 0#3 → HasCause t.attn (chanSource n) .poolShort)) ∧
    t.store.recency = i :: s.store.recency.filter (· != i) ∧
    (∀ k, entryAt t.store k = entryAt s.store k) ∧
    (∀ p, (phases.getD p Phase.blank).warm = true →
      (∀ q < p, (phases.getD q Phase.blank).warm = false) → d.phaseIndex = p ∧
      acceptOpen n r phases s =
        (if (phases.getD p Phase.blank).search = true then startSearch n t else t) ∧
      (s.port.state = .locked → d.state = .training) ∧
      (s.port.state ≠ .locked → d.state = .held ∧ d.resume = some .training)) ∧
    ((∀ p ∈ phases, p.warm = false) → d.phaseIndex = r.progLen - 1 ∧ acceptOpen n r phases s = t ∧
      (s.port.state = .locked → d.state = .tracking) ∧
      (s.port.state ≠ .locked → d.state = .held ∧ d.resume = some .tracking))

/-- Requests answered at a visit (R36, R37, R155, R156): no request, an unknown code, an OPEN of a channel not
CLOSED, a CLOSE of one CLOSED, a CLOSE of one in FAULT, and a CLOSE of a running channel that has no record
in flight and saves nothing. The response stands in the descriptor, the request word is NONE, and
REQUEST_DONE is raised; where nothing changes no other byte does. That the NONE write makes the whole word 0
is the model's choice (log 37).
Table faults of these requests (R160), a bus error at access `k` of the serving: at the request word, and at a
configuration word of an OPEN, TABLE_FAULT is raised on the part source and nothing else happens; at a write
of the answer the request's effects stand, the writes before stand, the request word stays and no
REQUEST_DONE is raised. That a refused OPEN reads all its words first is the model's reading (log 13), and so
is that D and Lf_eff are 0 after the CLOSE of a channel in FAULT (R6, R159; log 11); its play position 0 is
the model's choice (log 35). The
faults of an OPEN and of a CLOSE of a running channel are in OpenServedAtVisit and CloseEndsRecordAndSaves. -/
def Obligations.RequestsAnswered : Prop :=
  (∀ (n : Fin 32) (s t : State) (c : Channel) (code : Nat), s.bus = [] → MemLegal s →
    s.tableBase ≠ 0#24 → c = s.chan n → t = serveChannel s n →
    code = ((memWord s.mem (s.desc n.val)).extractLsb' 0 8).toNat →
    (∀ k, k ≠ n → t.chan k = s.chan k) ∧ (code = 0 → t = s) ∧
    (code ≠ 0 → (code ≠ 1 ∨ c.state ≠ .closed) →
      (code ≠ 2 ∨ c.state = .closed ∨ c.state = .fault ∨ (c.walk.inflight = none ∧
        (c.saveProfile = false ∨ c.routeTag = 0#32 ∨ c.state = .training))) →
      memWord t.mem (s.desc n.val) = 0#32 ∧ t.attn = attnRaise (chanSource n) .requestDone s.attn ∧
      t.store = s.store ∧ t.port = s.port ∧
      (code = 2 → c.state ≠ .closed →
        memWord t.mem (s.desc n.val + 4#32) = 2#32 ∧
        (memWord t.mem (s.desc n.val + 128#32)).extractLsb' 0 8 = 0#8 ∧
        (t.chan n).state = .closed ∧ (t.chan n).timeslot = none ∧
        (t.chan n).holdDirective = false ∧ (t.chan n).holdLine = false ∧
        (t.chan n).walk.inflight = none ∧ (t.chan n).search.sweeping = false ∧
        (t.chan n).line.inBlock = false ∧
        (c.state ≠ .fault → (t.chan n).segs = [] ∧ t.pool = s.pool ++ c.segs.reverse)) ∧
      (code ≠ 2 ∨ c.state = .closed → t.chan n = c ∧ t.pool = s.pool ∧
        (code = 1 → memWord t.mem (s.desc n.val + 4#32) = 3#32) ∧
        (code = 2 → memWord t.mem (s.desc n.val + 4#32) = 4#32) ∧
        (3 ≤ code → memWord t.mem (s.desc n.val + 4#32) = BitVec.ofNat 32 (9 + 256 * code)) ∧
        ∀ x, Outside (s.desc n.val) 8 x → memRead t.mem x = memRead s.mem x))) ∧
  ∀ (n : Fin 32) (s u t : State) (c : Channel) (code k len reads : Nat), MemLegal s →
    s.tableBase ≠ 0#24 → c = s.chan n → s.bus = ErrorAt k → u = { s with bus := [] } →
    t = serveChannel s n → code = ((memWord s.mem (s.desc n.val)).extractLsb' 0 8).toNat →
    len = ((memWord s.mem (s.desc n.val + 40#32)).extractLsb' 0 8).toNat →
    reads = 9 + (if 1 ≤ len ∧ len ≤ 8 then 2 * len else 0) →
    (k = 0 → ReadFaulted s t) ∧
    (code = 1 → c.state ≠ .closed →
      (k ≤ reads → ReadFaulted s t) ∧
      (reads < k → k ≤ reads + 2 → AnswerFaulted n.val [] 3#32 (k - reads - 1) u t)) ∧
    (code = 2 → c.state = .closed → 0 < k → k ≤ 2 → AnswerFaulted n.val [] 4#32 (k - 1) u t) ∧
    (3 ≤ code → 0 < k → k ≤ 2 →
      AnswerFaulted n.val [] (BitVec.ofNat 32 (9 + 256 * code)) (k - 1) u t) ∧
    (code = 2 → c.state = .fault → 0 < k → k ≤ 8 → ∃ d, d = { c with
        state := .closed, resume := none, holdDirective := false, holdLine := false, timeslot := none,
        statusDue := false, search := { c.search with sweeping := false },
        filt := { c.filt with delay := 0, lfEff := 0 }, walk := { c.walk with inflight := none },
        line := EndedLine } ∧
      AnswerFaulted n.val (statusWords d) 2#32 (k - 1) (u.modChan n fun _ => d) t)

/-- An OPEN of a CLOSED channel served at a visit (R30, R153 to R156, R158, R159). The configuration is read
from its words and, with a program length of 1 to 8, the program from its entries. Refused, it is answered
with the response of its first failing condition, and nothing else changes but the request word and
REQUEST_DONE. Accepted, the part is as the OPEN leaves it, the status area shows it with the effective
program behind it, and the answer is OPENED with the profile outcome. Table faults (R160), a bus error at
access `k`: at the request word or a configuration word no state of the channel changes; at a status,
response or NONE write the OPEN's effects stand, the writes before stand, the request word stays and no
REQUEST_DONE is raised; TABLE_FAULT is raised on the part source. That a refused OPEN reads all its words
first is the model's reading (log 13), as is the ascending order of the effective program's words (log 28); that
NONE is a word of 0 is its choice (log 37). -/
def Obligations.OpenServedAtVisit : Prop :=
  ∀ (n : Fin 32) (s t : State) (w : Nat → Word) (r : OpenReq) (phases : List Phase) (taken : Bool),
    MemLegal s → s.tableBase ≠ 0#24 → (s.chan n).state = .closed →
    (memWord s.mem (s.desc n.val)).extractLsb' 0 8 = 1#8 →
    (∀ i, w i = memWord s.mem (s.desc n.val + 8#32 + BitVec.ofNat 32 (4 * i))) →
    r = { firstRecord := w 0, tag := w 1,
          timeslot := ((w 2).extractLsb' 0 8).toNat, ln := ((w 2).extractLsb' 8 8).toNat,
          lf := ((w 2).extractLsb' 16 8).toNat, le := ((w 2).extractLsb' 24 8).toNat,
          cursor := ((w 3).extractLsb' 0 8).toNat, priority := (w 3).extractLsb' 8 3,
          useProfile := (w 3).getLsbD 16, saveProfile := (w 3).getLsbD 17, guard := (w 3).getLsbD 18,
          tf := (w 4).toNat, rf := (w 5).toNat,
          dmin := ((w 6).extractLsb' 0 16).toNat, dmax := ((w 6).extractLsb' 16 16).toNat,
          ratio := ((w 7).extractLsb' 0 8).toNat, trackNear := ((w 7).extractLsb' 8 8).toNat,
          trackFar := ((w 7).extractLsb' 16 8).toNat, trackEq := ((w 7).extractLsb' 24 8).toNat,
          progLen := ((w 8).extractLsb' 0 8).toNat } →
    phases = (if 1 ≤ r.progLen ∧ r.progLen ≤ 8 then
      decodePhases ((List.range (2 * r.progLen)).map fun j => w (9 + j)) else []) →
    (taken = true ↔ ∃ k, k ≠ n ∧ running (s.chan k) = true ∧ (s.chan k).timeslot = some r.timeslot) →
    t = serveChannel s n →
    (s.bus = [] →
      memWord t.mem (s.desc n.val) = 0#32 ∧ (∀ k, k ≠ n → t.chan k = s.chan k) ∧ t.port = s.port ∧
      (∀ resp, openRefusal true s.port.activeFmt.slots.toNat taken r phases = some resp →
        memWord t.mem (s.desc n.val + 4#32) = BitVec.ofNat 32 (resp.code + 256 * resp.reason) ∧
        t = { s with mem := t.mem, attn := attnRaise (chanSource n) .requestDone s.attn } ∧
        ∀ x, Outside (s.desc n.val) 8 x → memRead t.mem x = memRead s.mem x) ∧
      (openRefusal true s.port.activeFmt.slots.toNat taken r phases = none →
        ∃ u, u = acceptOpen n r phases s ∧ t.chan n = { u.chan n with statusDue := false } ∧
        t.pool = u.pool ∧ t.store = u.store ∧ t.attn = attnRaise (chanSource n) .requestDone u.attn ∧
        memWord t.mem (s.desc n.val + 4#32) =
          BitVec.ofNat 32 (1 + 256 * (u.chan n).profileOutcome.code) ∧
        (∀ i < 6, memWord t.mem (s.desc n.val + 128#32 + BitVec.ofNat 32 (4 * i)) =
          (statusWords (t.chan n)).getD i 0#32) ∧
        (∀ i < 16, memWord t.mem (s.desc n.val + 152#32 + BitVec.ofNat 32 (4 * i)) =
          ((t.chan n).program.flatMap phaseWords).getD i 0#32) ∧
        ∀ x, Outside (s.desc n.val) 8 x → Outside (s.desc n.val + 128#32) 88 x →
          memRead t.mem x = memRead s.mem x)) ∧
    ∀ k reads, s.bus = ErrorAt k →
      reads = 9 + (if 1 ≤ r.progLen ∧ r.progLen ≤ 8 then 2 * r.progLen else 0) →
      (k ≤ reads → ReadFaulted s t) ∧
      (∀ resp, openRefusal true s.port.activeFmt.slots.toNat taken r phases = some resp →
        reads < k → k ≤ reads + 2 →
        AnswerFaulted n.val [] (BitVec.ofNat 32 (resp.code + 256 * resp.reason)) (k - reads - 1)
          { s with bus := [] } t) ∧
      (openRefusal true s.port.activeFmt.slots.toNat taken r phases = none →
        reads < k → k ≤ reads + 24 → ∃ u, u = acceptOpen n r phases { s with bus := [] } ∧
        AnswerFaulted n.val
          (statusWords (u.chan n) ++
            (List.range 16).map fun i => ((u.chan n).program.flatMap phaseWords).getD i 0#32)
          (BitVec.ofNat 32 (1 + 256 * (u.chan n).profileOutcome.code)) (k - reads - 1)
          (u.modChan n fun c => { c with statusDue := false }) t)

/-- A CLOSE of a running channel served at a visit (R36, R37, R96, R125, R159), whatever it has in flight and
whether it saves; its record lies clear of its descriptor. A record in flight is CLOSED with the gap count,
and BLOCK_DONE raised by NOTIFY. A channel that tracks, or is held out of TRACKING, with the save policy and a
route tag saves its profile; the outcome shows in the status area, and PROFILE is raised when it is not
SAVED. The channel is CLOSED with nothing held, its segments go back to the pool, the oldest first, and
the answer is CLOSED. That its D and Lf_eff are then 0 is the model's reading (log 11), and the play position 0
its choice (log 35), as is that the NONE write makes the whole word 0 (log 37). A bus
error at the gap word or the code of that completion (R37, R96, R103): FAULT is
raised, nothing is saved, and the CLOSE ends as CLOSED with its one status write (log 17).
Table faults (R160), a bus error at access `k` of the serving behind the completion's two writes, if any: at a
status, response or NONE write the CLOSE's effects and causes stand, the writes before stand, the request
word is as they left it and no REQUEST_DONE is raised; TABLE_FAULT is raised on the part source. -/
def Obligations.CloseEndsRecordAndSaves : Prop :=
  (∀ (n : Fin 32) (s t : State) (c : Channel) (saves : Prop), s.bus = [] → MemLegal s →
    s.tableBase ≠ 0#24 → c = s.chan n → running c = true → c.walk.gapCount ≤ 65535 →
    (memWord s.mem (s.desc n.val)).extractLsb' 0 8 = 2#8 →
    (saves ↔ c.saveProfile = true ∧ c.routeTag ≠ 0#32 ∧
      (c.state = .tracking ∨ c.state = .held ∧ c.resume = some .tracking)) →
    (∀ f, c.walk.inflight = some f → Apart f.addr 368 (s.desc n.val) 256) → t = serveChannel s n →
    ∃ o a' a'', (saves → (o, t.store) = saveProfileTo s.store c.routeTag c.filt) ∧
      (¬ saves → o = c.lastSave ∧ t.store = s.store ∧ a'' = a') ∧
      (c.walk.inflight = none → a' = s.attn) ∧
      (∀ f, c.walk.inflight = some f →
        a' = if f.notify then attnRaise (chanSource n) .blockDone s.attn else s.attn) ∧
      (saves → a'' = if o = .saved then a' else attnRaise (chanSource n) .profile a') ∧
      t.attn = attnRaise (chanSource n) .requestDone a'' ∧ t.port = s.port ∧ t.maint = s.maint ∧
      (∀ k, k ≠ n → t.chan k = s.chan k) ∧ t.pool = s.pool ++ c.segs.reverse ∧
      t.chan n = { c with
        state := .closed, resume := none, holdDirective := false, holdLine := false, timeslot := none,
        segs := [], poolHist := [], lastSave := o, statusDue := false,
        search := { c.search with sweeping := false }, filt := { c.filt with delay := 0, lfEff := 0 },
        walk := { c.walk with
          inflight := none, gapCount := if c.walk.inflight = none then c.walk.gapCount else 0 },
        line := { play := List.replicate 40 0#16, playPos := 0, capture := [], inBlock := false } } ∧
      memWord t.mem (s.desc n.val) = 0#32 ∧ memWord t.mem (s.desc n.val + 4#32) = 2#32 ∧
      (∀ i < 6, memWord t.mem (s.desc n.val + 128#32 + BitVec.ofNat 32 (4 * i)) =
        (statusWords (t.chan n)).getD i 0#32) ∧
      (c.walk.inflight = none → ∀ x, Outside (s.desc n.val) 8 x →
        Outside (s.desc n.val + 128#32) 24 x → memRead t.mem x = memRead s.mem x) ∧
      ∀ f gapAt, c.walk.inflight = some f →
        gapAt = f.addr + (if f.refPresent then 176#32 else 96#32) +
          (if f.residWanted then 160#32 else 80#32) + 24#32 →
        memWord t.mem f.addr = 5#32 ∧ (memWord t.mem gapAt).toNat = c.walk.gapCount ∧
        ∀ x, Outside (s.desc n.val) 8 x → Outside (s.desc n.val + 128#32) 24 x →
          Outside f.addr 4 x → Outside gapAt 4 x → memRead t.mem x = memRead s.mem x) ∧
  (∀ (n : Fin 32) (s t : State) (c : Channel) (f : InFlight) (k : Nat), MemLegal s →
    s.tableBase ≠ 0#24 → c = s.chan n → running c = true → c.walk.inflight = some f →
    (memWord s.mem (s.desc n.val)).extractLsb' 0 8 = 2#8 → (k = 0 ∨ k = 1) →
    s.bus = ErrorAt (k + 1) → t = serveChannel s n →
    t = { s with bus := [], mem := t.mem, chans := t.chans, pool := s.pool ++ c.segs.reverse,
                 attn := attnRaise (chanSource n) .requestDone
                   (attnRaise (chanSource n) .fault s.attn) } ∧
    (∀ j, j ≠ n → t.chan j = s.chan j) ∧
    t.chan n = { Faulted c with
      state := .closed,
      walk := { c.walk with
        inflight := none, gapCount := if k = 0 then c.walk.gapCount else 0 } } ∧
    StatusShown n t ∧ memWord t.mem (s.desc n.val) = 0#32 ∧ memWord t.mem (s.desc n.val + 4#32) = 2#32 ∧
    ∀ x, Outside (s.desc n.val) 8 x → Outside (s.desc n.val + 128#32) 24 x →
      (k = 1 → Outside (gapWordAt f) 4 x) → memRead t.mem x = memRead s.mem x) ∧
  ∀ (n : Fin 32) (s t : State) (c : Channel) (saves : Prop) (k done : Nat), MemLegal s →
    s.tableBase ≠ 0#24 → c = s.chan n → running c = true → c.walk.gapCount ≤ 65535 →
    (memWord s.mem (s.desc n.val)).extractLsb' 0 8 = 2#8 →
    (saves ↔ c.saveProfile = true ∧ c.routeTag ≠ 0#32 ∧
      (c.state = .tracking ∨ c.state = .held ∧ c.resume = some .tracking)) →
    done = (if c.walk.inflight = none then 0 else 2) → done < k → k ≤ done + 8 → s.bus = ErrorAt k →
    t = serveChannel s n →
    ∃ o a' u, (saves → (o, u.store) = saveProfileTo s.store c.routeTag c.filt) ∧
      (¬ saves → o = c.lastSave ∧ u.store = s.store ∧ u.attn = a') ∧
      (c.walk.inflight = none → a' = s.attn ∧ u.mem = s.mem) ∧
      (saves → u.attn = if o = .saved then a' else attnRaise (chanSource n) .profile a') ∧
      (∀ f, c.walk.inflight = some f → a' = Notified n f s.attn ∧ memWord u.mem f.addr = 5#32 ∧
        (memWord u.mem (gapWordAt f)).toNat = c.walk.gapCount ∧
        ∀ x, Outside f.addr 4 x → Outside (gapWordAt f) 4 x → memRead u.mem x = memRead s.mem x) ∧
      u = { s with bus := [], mem := u.mem, chans := u.chans, pool := s.pool ++ c.segs.reverse,
                   store := u.store, attn := u.attn } ∧
      (∀ j, j ≠ n → u.chan j = s.chan j) ∧
      u.chan n = { Faulted c with
        state := .closed, lastSave := o,
        walk := { c.walk with
          inflight := none, gapCount := if c.walk.inflight = none then c.walk.gapCount else 0 } } ∧
      AnswerFaulted n.val (statusWords (u.chan n)) 2#32 (k - done - 1) u t

/-! ## The profile store and the store chain -/

/-- Lookups and saves (R122 to R124), in a store that keeps its laws: the tag's entry, of which there is at
most one, decides; a save takes the tag's entry when it is VALID and unpinned, else, with no entry of the
tag, the lowest FREE one, else the VALID unpinned one nearest the least recent end; the entry saved is the
most recent, and a refused save changes nothing. -/
def Obligations.LookupsAndSavesSelect : Prop :=
  ∀ (st : Store) (target : Fin 48 → Prop) (tag : Word) (ln lf le : Nat) (f : Filters)
    (carries : Fin 48 → Prop), StoreKept st target →
    (∀ i, carries i ↔ (entryAt st i).state ≠ .free ∧ (entryAt st i).tag = tag) →
    ((∀ i, ¬ carries i) → lookup st tag ln lf le = (.miss, none)) ∧
    (∀ i, carries i →
      ((entryAt st i).state = .importing → lookup st tag ln lf le = (.busy, none)) ∧
      ((entryAt st i).state ≠ .importing →
        ((entryAt st i).ln = ln ∧ (entryAt st i).lf = lf ∧ (entryAt st i).le = le →
          lookup st tag ln lf le = (.hit, some i)) ∧
        (¬ ((entryAt st i).ln = ln ∧ (entryAt st i).lf = lf ∧ (entryAt st i).le = le) →
          lookup st tag ln lf le = (.mismatch, none))) ∧
      ((entryAt st i).pinned = true → saveProfileTo st tag f = (.pinned, st)) ∧
      ((entryAt st i).pinned = false → (entryAt st i).state ≠ .valid →
        saveProfileTo st tag f = (.busy, st))) ∧
    (∀ i, ((carries i ∧ (entryAt st i).pinned = false ∧ (entryAt st i).state = .valid) ∨
        ((∀ j, ¬ carries j) ∧ (entryAt st i).state = .free ∧
          ∀ j < i, (entryAt st j).state ≠ .free) ∨
        ((∀ j, ¬ carries j) ∧ (∀ j, (entryAt st j).state ≠ .free) ∧
          (entryAt st i).pinned = false ∧ (entryAt st i).state = .valid ∧
          ∀ j, (entryAt st j).pinned = false → (entryAt st j).state = .valid →
            st.recency.idxOf j ≤ st.recency.idxOf i)) → ∃ u,
      saveProfileTo st tag f = (.saved, u) ∧ u.recency = i :: st.recency.filter (· != i) ∧
      (∀ j, j ≠ i → entryAt u j = entryAt st j) ∧
      entryAt u i = { state := .valid, tag := tag, pinned := false, ln := f.ln, lf := f.lf,
                      le := f.le, cursor := f.cursorTap, delay := f.delay,
                      coefs := f.hn ++ f.hf ++ f.g }) ∧
    ((∀ j, ¬ carries j) → (∀ j, (entryAt st j).state ≠ .free) →
      (∀ j, (entryAt st j).state = .valid → (entryAt st j).pinned = true) →
      saveProfileTo st tag f = (.storeFull, st))

/-- MAINTENANCE_VISIT, its order (R136, R141, R152): on an enabled part the descriptors 0 to 31 in index order,
then descriptor 32, then one store step, each on what the one before left; no descriptor while the table
base is 0; with every request word NONE the store step alone; no store step's effect of an IDLE or FAULTED
chain. On a disabled part nothing (log 6). With any bus script the order is the same, so that the visit goes on
to the next descriptor after a table fault (R160; log 36); the script's slots left over are host writes.
The store step of a chain WALKING or WAITING (R141, R142). A transfer in flight goes on, its last visit
included. Else a record is looked for: a watched link of 0, and a record that is not POSTED, leave the chain
WAITING, with the status area written when it was not, and nothing else; a watched link that is a non-zero
multiple of 4 moves the cursor, and the record there is looked at in the same step; a POSTED record is marked
TAKEN, the chain is WALKING, and the directive of its words 2 to 4 is performed, or answered BAD_DIRECTIVE. -/
def Obligations.VisitServesInOrder : Prop :=
  (∀ s : State, s.bus = [] → ∃ t, exec (.maintenanceVisit []) s = .next t ∧
    (s.enabled = false → t = s) ∧
    (s.enabled = true → s.tableBase = 0#24 → t = storeStep s) ∧
    (s.enabled = true → s.tableBase ≠ 0#24 →
      t = storeStep (serveMaint ((List.finRange 32).foldl serveChannel s))) ∧
    (s.enabled = true → NoRequest s → t = storeStep s) ∧
    (s.enabled = true → NoRequest s → (s.maint.chain = .idle ∨ s.maint.chain = .faulted) → t = s)) ∧
  (∀ (bus : Bus) (s : State), s.enabled = true → s.tableBase ≠ 0#24 → ∃ u,
    u = storeStep (serveMaint ((List.finRange 32).foldl serveChannel { s with bus := bus })) ∧
    exec (.maintenanceVisit bus) s = .next { u with bus := [], mem := hostMemory u.bus u.mem }) ∧
  ∀ (s t : State) (a link word : Word), s.bus = [] → MemLegal s → s.tableBase ≠ 0#24 →
    (s.maint.chain = .walking ∨ s.maint.chain = .waiting) → a = s.maint.cursor →
    link = memWord s.mem (a + 4#32) → word = memWord s.mem (a + 8#32) → t = storeStep s →
    (∀ f i, s.maint.inflight = some f → s.maint.target = some i →
      (f.kind = .importImage → t = importVisit f i s) ∧
      (f.kind = .exportImage → t = exportVisit f i s)) ∧
    (s.maint.inflight = none → s.maint.mode = .watching →
      (link = 0#32 → StoreWaits s t) ∧
      (link ≠ 0#32 → link.toNat % 4 = 0 →
        t = storeStep { s with maint := { s.maint with cursor := link, mode := .atRecord } })) ∧
    (s.maint.inflight = none → s.maint.mode = .atRecord →
      (memWord s.mem a ≠ 1#32 → StoreWaits s t) ∧
      (memWord s.mem a = 1#32 → ∃ u,
        u = { s with mem := u.mem, maint := { s.maint with chain := .walking } } ∧
        memWord u.mem a = 2#32 ∧ (∀ x, Outside a 4 x → memRead u.mem x = memRead s.mem x) ∧
        t = performDirective a (word.extractLsb' 0 8).toNat (word.getLsbD 8)
          (memWord s.mem (a + 12#32)) (memWord s.mem (a + 16#32)) u))

/-- MAINTENANCE_VISIT that takes PIN, UNPIN or DROP (R126, R127, R140 to R143) from the record at the chain's
cursor, every request word NONE, the record clear of descriptor 32's status area: the record is DONE with
its result and a count of 0, the cursor follows the link, STORE_DONE is raised by NOTIFY or by a result other
than OK, the status area of descriptor 32 is written, and the store is as the directive says; channels,
pool and port stand. -/
def Obligations.VisitPerformsPinOrDrop : Prop :=
  ∀ (s : State) (a word tag link : Word) (code : Nat) (i : Fin 48), s.bus = [] → MemLegal s →
    s.enabled = true → s.tableBase ≠ 0#24 → NoRequest s → StoreLegal s →
    (s.maint.chain = .walking ∨ s.maint.chain = .waiting) → s.maint.inflight = none →
    s.maint.mode = .atRecord → s.maint.cursor = a → memWord s.mem a = 1#32 →
    Apart a 28 (s.desc 32 + 128#32) 6 →
    word = memWord s.mem (a + 8#32) → tag = memWord s.mem (a + 12#32) →
    link = memWord s.mem (a + 4#32) → link.toNat % 4 = 0 →
    code = (word.extractLsb' 0 8).toNat → (code = 1 ∨ code = 2 ∨ code = 3) → ∃ t result,
      exec (.maintenanceVisit []) s = .next t ∧
      StoreAnswered a (word.getLsbD 8) result 0 { s with maint := { s.maint with chain := .walking } } t ∧
      ((∀ j, ¬ Carries s.store tag j) → result = 1 ∧ t.store = s.store) ∧
      (Carries s.store tag i →
        (code ≠ 3 → result = 0 ∧ t.store.recency = s.store.recency ∧
          (∀ j, j ≠ i → entryAt t.store j = entryAt s.store j) ∧
          entryAt t.store i = { entryAt s.store i with pinned := decide (code = 1) }) ∧
        (code = 3 → (entryAt s.store i).pinned = true → result = 2 ∧ t.store = s.store) ∧
        (code = 3 → (entryAt s.store i).pinned = false →
          result = 0 ∧ (entryAt t.store i).state = .free ∧
          (entryAt t.store i).tag = 0#32 ∧ (∀ j, j ≠ i → entryAt t.store j = entryAt s.store j) ∧
          t.store.recency = s.store.recency.filter (· != i)))

/-- MAINTENANCE_VISIT of a transfer that goes on (R141, R145, R147 to R149, R158), every request word NONE: an
export writes the image words from its position to the visit's limit, and no other byte but descriptor
32's status area (a word that lies in that area is then overwritten by it); an import reads those words,
and the coefficients among them join its entry; the position stands at the limit, the CRC has taken the
words, and the status area shows the unit. Store, channels, pool, port and causes are otherwise as they
were. -/
def Obligations.TransferMoves64WordsAVisit : Prop :=
  ∀ (f : InFlightStore) (i : Fin 48) (s : State) (e : Entry) (pos stop : Nat), s.bus = [] →
    MemLegal s → s.enabled = true → s.tableBase ≠ 0#24 → NoRequest s → s.maint.chain = .walking →
    s.maint.inflight = some f → s.maint.target = some i → e = entryAt s.store i →
    pos = s.maint.position → stop = (pos / 64 + 1) * 64 → stop < s.maint.imageLen →
    s.maint.imageLen ≤ 261 → ∃ t, exec (.maintenanceVisit []) s = .next t ∧
      t.maint = { s.maint with position := stop, crc := t.maint.crc } ∧ MaintShown t ∧
      t.attn = s.attn ∧ t.chans = s.chans ∧ t.pool = s.pool ∧ t.port = s.port ∧
      (f.kind = .exportImage → s.maint.imageLen = 4 + (e.ln + e.lf + e.le) + 1 →
        e.coefs.length = e.ln + e.lf + e.le → t.store = s.store ∧
        t.maint.crc = crcWords s.maint.crc (((imageBody e).take stop).drop pos) ∧
        (∀ j, pos ≤ j → j < stop →
          Apart (f.buffer + BitVec.ofNat 32 (4 * j)) 4 (s.desc 32 + 128#32) 6 →
          memWord t.mem (f.buffer + BitVec.ofNat 32 (4 * j)) = (imageBody e).getD j 0#32) ∧
        ∀ x, Outside (f.buffer + BitVec.ofNat 32 (4 * pos)) (4 * (stop - pos)) x →
          Outside (s.desc 32 + 128#32) 6 x → memRead t.mem x = memRead s.mem x) ∧
      (f.kind = .importImage → ∃ ws, ws = (List.range (stop - pos)).map (fun j =>
          memWord s.mem (f.buffer + BitVec.ofNat 32 (4 * (pos + j)))) ∧
        t.maint.crc = crcWords s.maint.crc ws ∧
        entryAt t.store i = { e with coefs := e.coefs ++ ws.map (BitVec.setWidth 24) } ∧
        (∀ k, k ≠ i → entryAt t.store k = entryAt s.store k) ∧ t.store.recency = s.store.recency ∧
        ∀ x, Outside (s.desc 32 + 128#32) 6 x → memRead t.mem x = memRead s.mem x)

/-- OPEN and CLOSE of descriptor 32 (R138, R139, R155, R156, R158). An OPEN of an IDLE chain with a good first
record starts it there with the priority of its descriptor; of another chain it is NOT_CLOSED, with a bad
address ADDRESS. A CLOSE of an IDLE chain is NOT_OPEN; any other becomes IDLE with nothing in flight: the
record in flight (clear of descriptor 32) is ABANDONED with its position as its count and STORE_DONE raised,
and the target is ended (StoreChainFaults says how). That NONE is written as a word of 0 is the model's choice
(log 37).
A bus error at access `k` of the serving (R139, R160). At the request word, and at a word of an OPEN (all read
before its checks, log 14), TABLE_FAULT is raised on the part source and nothing else happens. At a write of
the answer the effects stand with the writes before, the request word stays, TABLE_FAULT and no REQUEST_DONE;
the status area takes two writes (log 15). At a write of the abandonment STORE_FAULT is raised, the record
stands as last written, and the CLOSE is completed and answered: the chain is IDLE, the target ended; that
STORE_DONE is not raised then is the model's reading (log 18). -/
def Obligations.StoreChainOpensAndCloses : Prop :=
  (∀ (s t : State) (first word : Word) (code : Nat), s.bus = [] → MemLegal s → s.tableBase ≠ 0#24 →
    code = ((memWord s.mem (s.desc 32)).extractLsb' 0 8).toNat →
    first = memWord s.mem (s.desc 32 + 8#32) → word = memWord s.mem (s.desc 32 + 20#32) →
    t = serveMaint s →
    let refused := fun r : Word => memWord t.mem (s.desc 32 + 4#32) = r ∧ t.maint = s.maint ∧
      t.store = s.store ∧ t.attn = attnRaise maintSource .requestDone s.attn ∧
      ∀ x, Outside (s.desc 32) 8 x → memRead t.mem x = memRead s.mem x
    t.chans = s.chans ∧ t.pool = s.pool ∧ t.port = s.port ∧ (code = 0 → t = s) ∧
    (code ≠ 0 → memWord t.mem (s.desc 32) = 0#32) ∧
    (code = 1 → s.maint.chain ≠ .idle → refused 3#32) ∧
    (code = 1 → s.maint.chain = .idle → (first = 0#32 ∨ first.toNat % 4 ≠ 0) → refused 8#32) ∧
    (code = 2 → s.maint.chain = .idle → refused 4#32) ∧
    (3 ≤ code → refused (BitVec.ofNat 32 (9 + 256 * code))) ∧
    (code = 1 → s.maint.chain = .idle → first ≠ 0#32 → first.toNat % 4 = 0 →
      t.maint = { s.maint with chain := .walking, cursor := first, mode := .atRecord } ∧
      t.store = s.store ∧ memWord t.mem (s.desc 32 + 4#32) = 1#32 ∧ MaintShown t ∧
      (∃ a, PriorityCopied maintSource (word.extractLsb' 8 3) s.attn a ∧
        t.attn = attnRaise maintSource .requestDone a) ∧
      ∀ x, Outside (s.desc 32) 8 x → Outside (s.desc 32 + 128#32) 6 x →
        memRead t.mem x = memRead s.mem x) ∧
    (code = 2 → s.maint.chain ≠ .idle →
      (∀ f, s.maint.inflight = some f → Apart f.addr 28 (s.desc 32) 256) →
      t.maint = { Emptied s.maint with chain := .idle } ∧ memWord t.mem (s.desc 32 + 4#32) = 2#32 ∧
      MaintShown t ∧ t.store = abandonTarget s.maint.target s.store ∧
      (s.maint.inflight = none → t.attn = attnRaise maintSource .requestDone s.attn ∧
        ∀ x, Outside (s.desc 32) 8 x → Outside (s.desc 32 + 128#32) 6 x →
          memRead t.mem x = memRead s.mem x) ∧
      ∀ f, s.maint.inflight = some f → memWord t.mem f.addr = 7#32 ∧
        memWord t.mem (f.addr + 20#32) = 8#32 ∧
        memWord t.mem (f.addr + 24#32) = BitVec.ofNat 32 s.maint.position ∧
        t.attn = attnRaise maintSource .requestDone (attnRaise maintSource .storeDone s.attn) ∧
        ∀ x, Outside f.addr 4 x → Outside (f.addr + 20#32) 8 x → Outside (s.desc 32) 8 x →
          Outside (s.desc 32 + 128#32) 6 x → memRead t.mem x = memRead s.mem x)) ∧
  ∀ (s u t : State) (first word : Word) (code k : Nat), s.bus = ErrorAt k → MemLegal s →
    s.tableBase ≠ 0#24 → u = { s with bus := [] } →
    code = ((memWord s.mem (s.desc 32)).extractLsb' 0 8).toNat →
    first = memWord s.mem (s.desc 32 + 8#32) → word = memWord s.mem (s.desc 32 + 20#32) →
    t = serveMaint s →
    (k = 0 → ReadFaulted s t) ∧ (code = 1 → k ≤ 2 → ReadFaulted s t) ∧
    (code = 1 → s.maint.chain ≠ .idle → 3 ≤ k → k ≤ 4 → AnswerFaulted 32 [] 3#32 (k - 3) u t) ∧
    (code = 1 → s.maint.chain = .idle → (first = 0#32 ∨ first.toNat % 4 ≠ 0) → 3 ≤ k → k ≤ 4 →
      AnswerFaulted 32 [] 8#32 (k - 3) u t) ∧
    (code = 1 → s.maint.chain = .idle → first ≠ 0#32 → first.toNat % 4 = 0 → 3 ≤ k → k ≤ 6 →
      MaintAnswerFaulted 1#32 (k - 3)
        { u with maint := { s.maint with chain := .walking, cursor := first, mode := .atRecord },
                 attn := attnSetPriority maintSource (word.extractLsb' 8 3) s.attn } t) ∧
    (3 ≤ code → 1 ≤ k → k ≤ 2 →
      AnswerFaulted 32 [] (BitVec.ofNat 32 (9 + 256 * code)) (k - 1) u t) ∧
    (code = 2 → s.maint.chain = .idle → 1 ≤ k → k ≤ 2 → AnswerFaulted 32 [] 4#32 (k - 1) u t) ∧
    (code = 2 → s.maint.chain ≠ .idle → ∀ v, v = { u with
        store := abandonTarget s.maint.target s.store, maint := { Emptied s.maint with chain := .idle } } →
      (s.maint.inflight = none → 1 ≤ k → k ≤ 4 → MaintAnswerFaulted 2#32 (k - 1) v t) ∧
      ∀ f, s.maint.inflight = some f →
        (1 ≤ k → k ≤ 3 → Apart f.addr 28 (s.desc 32) 256 →
          t = { v with
            mem := t.mem
            attn := attnRaise maintSource .requestDone (attnRaise maintSource .storeFault s.attn) } ∧
          memWord t.mem (s.desc 32) = 0#32 ∧ memWord t.mem (s.desc 32 + 4#32) = 2#32 ∧ MaintShown t ∧
          (2 ≤ k → memWord t.mem (f.addr + 20#32) = 8#32) ∧
          (k = 3 → memWord t.mem (f.addr + 24#32) = BitVec.ofNat 32 s.maint.position) ∧
          ∀ x, Outside (f.addr + 20#32) (4 * (k - 1)) x → Outside (s.desc 32) 8 x →
            Outside (s.desc 32 + 128#32) 6 x → memRead t.mem x = memRead s.mem x) ∧
        (4 ≤ k → k ≤ 7 → ∃ y, y = { v with
            mem := y.mem, attn := attnRaise maintSource .storeDone s.attn } ∧
          memWord y.mem f.addr = 7#32 ∧ memWord y.mem (f.addr + 20#32) = 8#32 ∧
          memWord y.mem (f.addr + 24#32) = BitVec.ofNat 32 s.maint.position ∧
          (∀ x, Outside f.addr 4 x → Outside (f.addr + 20#32) 8 x →
            memRead y.mem x = memRead s.mem x) ∧
          MaintAnswerFaulted 2#32 (k - 4) y t))

/-- The faults of the store chain (R132, R150): at any access of a store step that meets a bus error, and at
a misaligned link, the chain is FAULTED with nothing in flight and STORE_FAULT raised, an IMPORTING target
FREE and an EXPORTING one VALID, and store steps then do nothing. Memory holds what was written before:
nothing at the link, disposition or TAKEN access, nor at an import's words; TAKEN at a directive word; the
words before it at a LIST, result or image word. At a completion's link read, and at a misaligned link
there, the record is DONE with its result, and STORE_DONE is still raised by NOTIFY or a result other than
OK. That the two words of an entry of a LIST go in ascending order is the model's reading (log 28). -/
def Obligations.StoreChainFaults : Prop :=
  (∀ (s t : State) (k : Nat) (a link : Word), MemLegal s → s.tableBase ≠ 0#24 →
    (s.maint.chain = .walking ∨ s.maint.chain = .waiting) → s.maint.inflight = none →
    a = s.maint.cursor → link = memWord s.mem (a + 4#32) → t = storeStep s →
    (s.bus = [] → s.maint.mode = .watching → link.toNat % 4 ≠ 0 → ChainFaulted s t) ∧
    (s.bus = ErrorAt k →
      (k = 0 → ChainFaulted { s with bus := [] } t) ∧
      (s.maint.mode = .watching → 0 < k → link ≠ 0#32 → link.toNat % 4 = 0 →
        t = storeStep { s with bus := ErrorAt (k - 1),
                               maint := { s.maint with cursor := link, mode := .atRecord } }) ∧
      (s.maint.mode = .atRecord → memWord s.mem a = 1#32 →
        (k = 1 → ChainFaulted { s with bus := [] } t) ∧
        (2 ≤ k → k < 5 → ∃ v, v = { s with bus := [], mem := v.mem } ∧ memWord v.mem a = 2#32 ∧
          (∀ x, Outside a 4 x → memRead v.mem x = memRead s.mem x) ∧ ChainFaulted v t)))) ∧
  (∀ (s : State) (k : Nat) (a tag buffer : Word) (notify : Bool), MemLegal s → s.tableBase ≠ 0#24 →
    s.bus = ErrorAt k → buffer ≠ 0#32 → buffer.toNat % 4 = 0 →
    (k < (listing s.store).length → ∃ v, v = { s with bus := [], mem := v.mem } ∧
      (∀ i < k, memWord v.mem (buffer + BitVec.ofNat 32 (4 * i)) = (listing s.store).getD i 0#32) ∧
      (∀ x, Outside buffer (4 * k) x → memRead v.mem x = memRead s.mem x) ∧
      ChainFaulted v (performDirective a 4 notify tag buffer s)) ∧
    (k < 4 → ChainFaulted { s with bus := [] } (performDirective a 5 notify tag buffer s))) ∧
  (∀ (s : State) (f : InFlightStore) (i : Fin 48) (e : Entry) (k pos len stop : Nat), MemLegal s →
    s.tableBase ≠ 0#24 → s.bus = ErrorAt k → e = entryAt s.store i → pos = s.maint.position →
    len = s.maint.imageLen → stop = min len ((pos / 64 + 1) * 64) → pos < len → len ≤ 261 →
    k < stop - pos →
    ChainFaulted { s with bus := [] } (importVisit f i s) ∧
    (len = 4 + (e.ln + e.lf + e.le) + 1 → e.coefs.length = e.ln + e.lf + e.le →
      ∃ v, v = { s with bus := [], mem := v.mem } ∧
        (∀ j < k, pos + j < len - 1 →
          memWord v.mem (f.buffer + BitVec.ofNat 32 (4 * (pos + j))) = (imageBody e).getD (pos + j) 0#32) ∧
        (∀ x, Outside (f.buffer + BitVec.ofNat 32 (4 * pos)) (4 * k) x →
          memRead v.mem x = memRead s.mem x) ∧
        ChainFaulted v (exportVisit f i s))) ∧
  (∀ (s t : State) (k : Nat) (a : Word) (notify : Bool) (r : StoreResult) (count : Nat), MemLegal s →
    s.tableBase ≠ 0#24 → t = completeStore a notify r count s →
    (k < 3 → s.bus = ErrorAt k → ∃ v, v = { s with bus := [], mem := v.mem } ∧
      (0 < k → memWord v.mem (a + 20#32) = BitVec.ofNat 32 r.code) ∧
      (k = 2 → memWord v.mem (a + 24#32) = BitVec.ofNat 32 count) ∧
      (∀ x, Outside (a + 20#32) (4 * k) x → memRead v.mem x = memRead s.mem x) ∧ ChainFaulted v t) ∧
    (s.bus = ErrorAt 3 ∨ (s.bus = [] ∧ (memWord s.mem (a + 4#32)).toNat % 4 ≠ 0) →
      ∃ v w, v = { s with bus := [], mem := v.mem, maint := Emptied s.maint } ∧
        memWord v.mem a = 3#32 ∧ memWord v.mem (a + 20#32) = BitVec.ofNat 32 r.code ∧
        memWord v.mem (a + 24#32) = BitVec.ofNat 32 count ∧
        (∀ x, Outside a 4 x → Outside (a + 20#32) 8 x → memRead v.mem x = memRead s.mem x) ∧
        ChainFaulted v w ∧
        t = { w with attn := if notify = true ∨ r ≠ .ok then attnRaise maintSource .storeDone w.attn
                else w.attn })) ∧
  ∀ (st u : Store) (i : Fin 48), u = abandonTarget (some i) st →
    (∀ j, j ≠ i → entryAt u j = entryAt st j) ∧
    ((entryAt st i).state = .importing →
      entryAt u i = { entryAt st i with state := .free, tag := 0#32 } ∧
      u.recency = st.recency.filter (· != i)) ∧
    ((entryAt st i).state = .exporting →
      entryAt u i = { entryAt st i with state := .valid } ∧ u.recency = st.recency) ∧
    abandonTarget none st = st

/-- A bus error at a status write that answers no request (R38, R48, R115, R141, R142, R150, R151, R159,
R160): the event's effects and causes stand, TABLE_FAULT is raised on the part source, the words before the
error are written and no other byte; no channel moves to FAULT by it and the store chain is not changed.
Stated of a channel's status write at the end of an event, at an entry to FAULT, and at a lock; of a STALL
that holds the one running channel; and of descriptor 32's status area, of two writes (log 15): where the
step finds no record, at a completion, and at a chain fault. The status writes of a close and of a take are
in BoundaryClosesThenTakes and TakeLoadsRecord. -/
def Obligations.StatusWriteFaults : Prop :=
  (∀ (n : Fin 32) (before : Channel) (s u : State) (k : Nat), s.bus = ErrorAt k → k < 6 →
    s.tableBase ≠ 0#24 → MemLegal s → u = { s with bus := [] } →
    ((s.chan n).statusDue = true ∨ statusWords before ≠ statusWords (s.chan n) →
      StatusFaulted n k u (statusEvent n before s)) ∧
    (∃ v, v = { u with chans := v.chans, pool := s.pool ++ (s.chan n).segs.reverse,
                       attn := attnRaise (chanSource n) .fault s.attn } ∧
      v.chan n = Faulted (s.chan n) ∧ (∀ j, j ≠ n → v.chan j = s.chan j) ∧
      StatusFaulted n k v (enterFault n s)) ∧
    ((s.chan n).state = .held → ((s.chan n).holdDirective = false ∨ (s.chan n).holdLine = true) →
      ∃ v, v = { u with
          chans := v.chans
          attn := if (s.chan n).holdDirective = false then attnRaise (chanSource n) .state s.attn
            else s.attn } ∧
        v.chan n = Locked (s.chan n) ∧ (∀ j, j ≠ n → v.chan j = s.chan j) ∧
        StatusFaulted n k v (lockStep s n))) ∧
  (∀ (n : Fin 32) (s : State) (k : Nat), s.bus = [] → k < 6 → s.tableBase ≠ 0#24 → MemLegal s →
    s.port.stallArmed = true → running (s.chan n) = true → (s.chan n).state ≠ .held →
    (s.chan n).walk.inflight = none → (∀ j, j ≠ n → running (s.chan j) = false) → ∃ u t,
      u = { s with
        port := { s.port with
          state := .hunt, syncRun := 0, frameCount := 0, stallArmed := false, frameOut := none }
        chans := u.chans, attn := attnRaise (chanSource n) .state s.attn } ∧
      (∀ j, j ≠ n → u.chan j = s.chan j) ∧
      u.chan n = { s.chan n with
        state := .held, resume := resumeOf (s.chan n), holdLine := true, statusDue := false,
        line := EndedLine } ∧
      StatusFaulted n k u t ∧
      exec (.stall (ErrorAt k)) s = .next { t with attn := attnRaise partSource .lineLost t.attn }) ∧
  ∀ (s u : State) (j : Nat) (shown : State → State → Prop), MemLegal s → s.tableBase ≠ 0#24 → j < 2 →
    u = { s with bus := [] } →
    (∀ v t, shown v t ↔ (j = 1 → memWord t.mem (s.desc 32 + 128#32) = maintWord v.maint) ∧
      ∀ x, Outside (s.desc 32 + 128#32) (4 * j) x → memRead t.mem x = memRead v.mem x) →
    (∀ t, t = storeStep s → s.bus = ErrorAt (1 + j) → s.maint.chain = .walking →
      s.maint.inflight = none → s.maint.mode = .atRecord → memWord s.mem s.maint.cursor ≠ 1#32 →
      ∃ v, v = { u with maint := { s.maint with chain := .waiting } } ∧ shown v t ∧
        t = { v with mem := t.mem, attn := attnRaise partSource .tableFault s.attn }) ∧
    (∀ (t : State) (a link : Word) (notify : Bool) (r : StoreResult) (count : Nat),
      t = completeStore a notify r count s → s.bus = ErrorAt (4 + j) →
      link = memWord s.mem (a + 4#32) → link.toNat % 4 = 0 →
      ∃ v, v = { u with
          mem := v.mem
          maint := { Emptied s.maint with
            cursor := if link = 0#32 then a else link
            mode := if link = 0#32 then .watching else .atRecord }
          attn := if notify = true ∨ r ≠ .ok then attnRaise maintSource .storeDone s.attn
            else s.attn } ∧
        memWord v.mem a = 3#32 ∧ memWord v.mem (a + 20#32) = BitVec.ofNat 32 r.code ∧
        memWord v.mem (a + 24#32) = BitVec.ofNat 32 count ∧
        (∀ x, Outside a 4 x → Outside (a + 20#32) 8 x → memRead v.mem x = memRead s.mem x) ∧
        shown v t ∧ t = { v with mem := t.mem, attn := attnRaise partSource .tableFault v.attn }) ∧
    ∀ t, t = chainFault s → s.bus = ErrorAt j →
      ∃ v, v = { u with
          store := abandonTarget s.maint.target s.store
          maint := { Emptied s.maint with chain := .faulted }
          attn := attnRaise maintSource .storeFault s.attn } ∧
        shown v t ∧ t = { v with mem := t.mem, attn := attnRaise partSource .tableFault v.attn }

/-- LIST and the checks of a directive (R128, R142, R144), at the take of the record at `a`. With a buffer that
is a non-zero multiple of 4 a LIST writes two words for each entry in use, in ascending entry number: its
tag; its state, pinned flag, recency rank and lengths; the count of entries is its result count, and the
store stands. Record, list and descriptor 32's status area lie apart. A code that is not 1 to 6, and a
LIST, IMPORT or EXPORT whose buffer is 0 or no multiple of 4, is BAD_DIRECTIVE. -/
def Obligations.ListDescribesStore : Prop :=
  ∀ (s t : State) (a tag buffer : Word) (code d : Nat) (notify : Bool), s.bus = [] → MemLegal s →
    s.tableBase ≠ 0#24 → (memWord s.mem (a + 4#32)).toNat % 4 = 0 →
    Apart a 28 (s.desc 32 + 128#32) 6 → t = performDirective a code notify tag buffer s →
    d = (Finset.univ.filter fun i : Fin 48 => (entryAt s.store i).state ≠ .free).card →
    ((code = 0 ∨ 6 < code ∨ (4 ≤ code ∧ (buffer = 0#32 ∨ buffer.toNat % 4 ≠ 0))) →
      StoreAnswered a notify 7 0 s t ∧ t.store = s.store) ∧
    (code = 4 → buffer ≠ 0#32 → buffer.toNat % 4 = 0 → s.store.recency.length ≤ 48 →
      Apart buffer (8 * d) a 28 → Apart buffer (8 * d) (s.desc 32 + 128#32) 6 →
      StoreCompleted a notify 0 d s t ∧ t.store = s.store ∧
      (∀ x, Outside buffer (8 * d) x → Outside a 4 x → Outside (a + 20#32) 8 x →
        Outside (s.desc 32 + 128#32) 6 x → memRead t.mem x = memRead s.mem x) ∧
      ∀ (i : Fin 48) (e : Entry) (p : Nat) (w : Word), e = entryAt s.store i → e.state ≠ .free →
        e.ln ≤ 64 → e.lf ≤ 128 → e.le ≤ 64 →
        p = (Finset.univ.filter fun j : Fin 48 => j < i ∧ (entryAt s.store j).state ≠ .free).card →
        w = memWord t.mem (buffer + BitVec.ofNat 32 (8 * p) + 4#32) →
        memWord t.mem (buffer + BitVec.ofNat 32 (8 * p)) = e.tag ∧
        (w.extractLsb' 0 2 = match e.state with
          | .free => 0#2
          | .valid => 1#2
          | .importing => 2#2
          | .exporting => 3#2) ∧
        w.extractLsb' 2 5 = 0#5 ∧ w.getLsbD 7 = e.pinned ∧
        (w.extractLsb' 8 8).toNat = s.store.recency.idxOf i ∧
        (w.extractLsb' 16 4).toNat = e.ln / 8 ∧ (w.extractLsb' 20 4).toNat = e.le / 8 ∧
        (w.extractLsb' 24 8).toNat = e.lf / 8)

/-- IMPORT, its start and its end (R129, R130, R146, R147, R149), in a store that keeps its laws; record,
status area and buffer rest where they are. A header that fails a check is FORMAT_ERROR with a count of 4; a
claim is PINNED, BUSY or STORE_FULL with a count of 4 when the tag's entry or the full store refuses it, and
no entry changes; else the entry that R129 names is IMPORTING with the header's fields, the unit holds the
transfer at position 4 with the CRC of the header, and the transfer goes on at the same visit. At the visit
that reads the CRC word the coefficients have joined the entry; the CRC matching, it is VALID, pinned as its
header said and the most recent, and the result is OK; else it is FREE and the result CRC_ERROR; the count
is the image's length. -/
def Obligations.ImportStartsAndEnds : Prop :=
  (∀ (s t : State) (a tag buffer w0 w1 w2 w3 : Word) (notify : Bool) (target : Fin 48 → Prop)
    (ln lf le count cur dly : Nat) (good : Prop), s.bus = [] → MemLegal s → s.tableBase ≠ 0#24 →
    StoreKept s.store target → (memWord s.mem (a + 4#32)).toNat % 4 = 0 →
    Apart a 28 (s.desc 32 + 128#32) 6 → buffer ≠ 0#32 → buffer.toNat % 4 = 0 →
    w0 = memWord s.mem buffer → w1 = memWord s.mem (buffer + 4#32) →
    w2 = memWord s.mem (buffer + 8#32) → w3 = memWord s.mem (buffer + 12#32) →
    ln = (w2.extractLsb' 0 8).toNat → lf = (w2.extractLsb' 8 8).toNat →
    le = (w2.extractLsb' 16 8).toNat → cur = (w2.extractLsb' 24 8).toNat →
    count = (w0.extractLsb' 16 16).toNat → dly = (w3.extractLsb' 0 16).toNat →
    (good ↔ w0.extractLsb' 0 16 = 1#16 ∧ ln ∈ [8, 16, 24, 32, 40, 48, 56, 64] ∧
      le ∈ [8, 16, 24, 32, 40, 48, 56, 64] ∧
      lf ∈ [0, 8, 16, 24, 32, 40, 48, 56, 64, 72, 80, 88, 96, 104, 112, 120, 128] ∧
      count = 4 + ln + lf + le + 1 ∧ (dly = 0 ∨ 64 ≤ dly ∧ dly ≤ 4992) ∧ cur < le ∧ w1 ≠ 0#32) →
    t = performDirective a 5 notify tag buffer s →
    (¬ good → StoreAnswered a notify 6 4 s t ∧ t.store = s.store) ∧
    (good → ∀ i, Carries s.store w1 i → (entryAt s.store i).pinned = true →
      StoreAnswered a notify 2 4 s t ∧ t.store = s.store) ∧
    (good → ∀ i, Carries s.store w1 i → (entryAt s.store i).pinned = false →
      (entryAt s.store i).state ≠ .valid → StoreAnswered a notify 3 4 s t ∧ t.store = s.store) ∧
    (good → (∀ i, ¬ Carries s.store w1 i) → (∀ i, (entryAt s.store i).state ≠ .free) →
      (∀ i, (entryAt s.store i).state = .valid → (entryAt s.store i).pinned = true) →
      StoreAnswered a notify 4 4 s t ∧ t.store = s.store) ∧
    (good → ∀ i, Claimable s.store w1 i → ∃ u f, t = importVisit f i u ∧
      f = { addr := a, kind := .importImage, tag := tag, buffer := buffer, notify := notify,
            pinned := w3.getLsbD 16 } ∧
      u = { s with store := u.store, maint := u.maint } ∧
      u.maint = { s.maint with inflight := some f, position := 4, imageLen := count, target := some i,
                               crc := crcWords 0xFFFF#16 [w0, w1, w2, w3] } ∧
      entryAt u.store i = { state := .importing, tag := w1, pinned := false, ln := ln, lf := lf,
                            le := le, cursor := cur, delay := if lf = 0 then 0 else dly, coefs := [] } ∧
      (∀ j, j ≠ i → entryAt u.store j = entryAt s.store j) ∧
      u.store.recency = if (entryAt s.store i).state = .free then s.store.recency ++ [i]
        else s.store.recency)) ∧
  ∀ (f : InFlightStore) (i : Fin 48) (s t : State) (pos len : Nat) (ws : List Word) (last : Word),
    s.bus = [] → MemLegal s → s.tableBase ≠ 0#24 → (memWord s.mem (f.addr + 4#32)).toNat % 4 = 0 →
    Apart f.addr 28 (s.desc 32 + 128#32) 6 → pos = s.maint.position → len = s.maint.imageLen →
    pos < len → len ≤ (pos / 64 + 1) * 64 →
    ws = (List.range (len - 1 - pos)).map (fun j =>
      memWord s.mem (f.buffer + BitVec.ofNat 32 (4 * (pos + j)))) →
    last = memWord s.mem (f.buffer + BitVec.ofNat 32 (4 * (len - 1))) → t = importVisit f i s →
    (∀ j, j ≠ i → entryAt t.store j = entryAt s.store j) ∧
    (last.extractLsb' 0 16 = crcWords s.maint.crc ws →
      StoreAnswered f.addr f.notify 0 len s t ∧
      entryAt t.store i = { entryAt s.store i with
        state := .valid, pinned := f.pinned,
        coefs := (entryAt s.store i).coefs ++ ws.map (BitVec.setWidth 24) } ∧
      t.store.recency = i :: s.store.recency.filter (· != i)) ∧
    (last.extractLsb' 0 16 ≠ crcWords s.maint.crc ws →
      StoreAnswered f.addr f.notify 5 len s t ∧ (entryAt t.store i).state = .free ∧
      (entryAt t.store i).tag = 0#32 ∧ t.store.recency = s.store.recency.filter (· != i))

/-- EXPORT, its start and its end (R131, R145, R148, R149), in a store that keeps its laws. A tag that no entry
carries is NOT_FOUND, one of an IMPORTING entry BUSY, with a count of 0 and no word written; a VALID entry
becomes EXPORTING in its place of the recency order, the unit holds the transfer at position 0 with a fresh
CRC, and the writes begin at the same visit. At the visit that reaches the last word the remaining image
words and the CRC word stand in the buffer, no other byte but the record's and the status area's changes,
the entry is VALID again, and the result is OK with the image's length as its count. Record, buffer and
status area lie apart. -/
def Obligations.ExportStartsAndEnds : Prop :=
  (∀ (s t : State) (a tag buffer : Word) (notify : Bool) (target : Fin 48 → Prop), s.bus = [] →
    MemLegal s → s.tableBase ≠ 0#24 → StoreKept s.store target →
    (memWord s.mem (a + 4#32)).toNat % 4 = 0 → Apart a 28 (s.desc 32 + 128#32) 6 →
    buffer ≠ 0#32 → buffer.toNat % 4 = 0 → t = performDirective a 6 notify tag buffer s →
    ((∀ i, ¬ Carries s.store tag i) → StoreAnswered a notify 1 0 s t ∧ t.store = s.store) ∧
    (∀ i, Carries s.store tag i → (entryAt s.store i).state = .importing →
      StoreAnswered a notify 3 0 s t ∧ t.store = s.store) ∧
    ∀ i, Carries s.store tag i → (entryAt s.store i).state = .valid → ∃ u f, t = exportVisit f i u ∧
      f.addr = a ∧ f.kind = .exportImage ∧ f.tag = tag ∧ f.buffer = buffer ∧ f.notify = notify ∧
      u = { s with store := u.store, maint := u.maint } ∧
      u.maint = { s.maint with
        inflight := some f, position := 0, target := some i, crc := 0xFFFF#16,
        imageLen := 4 + ((entryAt s.store i).ln + (entryAt s.store i).lf + (entryAt s.store i).le) + 1 } ∧
      entryAt u.store i = { entryAt s.store i with state := .exporting } ∧
      (∀ j, j ≠ i → entryAt u.store j = entryAt s.store j) ∧ u.store.recency = s.store.recency) ∧
  ∀ (f : InFlightStore) (i : Fin 48) (s t : State) (e : Entry) (pos len : Nat) (at_ : Word),
    s.bus = [] → MemLegal s → s.tableBase ≠ 0#24 → (memWord s.mem (f.addr + 4#32)).toNat % 4 = 0 →
    e = entryAt s.store i → pos = s.maint.position → len = s.maint.imageLen →
    len = 4 + (e.ln + e.lf + e.le) + 1 → e.coefs.length = e.ln + e.lf + e.le → len ≤ 261 → pos < len →
    len ≤ (pos / 64 + 1) * 64 → at_ = f.buffer + BitVec.ofNat 32 (4 * pos) →
    Apart f.addr 28 (s.desc 32 + 128#32) 6 → Apart at_ (4 * (len - pos)) f.addr 28 →
    Apart at_ (4 * (len - pos)) (s.desc 32 + 128#32) 6 → t = exportVisit f i s →
    StoreCompleted f.addr f.notify 0 len s t ∧ entryAt t.store i = { e with state := .valid } ∧
    (∀ j, j ≠ i → entryAt t.store j = entryAt s.store j) ∧ t.store.recency = s.store.recency ∧
    (∀ j, pos ≤ j → j < len - 1 →
      memWord t.mem (f.buffer + BitVec.ofNat 32 (4 * j)) = (imageBody e).getD j 0#32) ∧
    memWord t.mem (f.buffer + BitVec.ofNat 32 (4 * (len - 1))) =
      0#16 ++ crcWords s.maint.crc ((imageBody e).drop pos) ∧
    ∀ x, Outside at_ (4 * (len - pos)) x → Outside f.addr 4 x → Outside (f.addr + 20#32) 8 x →
      Outside (s.desc 32 + 128#32) 6 x → memRead t.mem x = memRead s.mem x

/-! ## Layouts -/

/-- What the part writes, it reads back (R83, R145, R154, R158, 00 section 5.1): samples packed two to a word;
an effective phase entry; the header of a profile's image. PART_STATUS shows the fields of R161 (R82, R118,
R135). The words of a metrics block (R85) and of a channel's status area (R158) are, field by field, those of
their tables, with the codes of R27, R72 and R122. -/
def Obligations.WordLayouts : Prop :=
  (∀ xs : List Sample, xs.length % 2 = 0 → unpackSamples (packSamples xs) = xs) ∧
  (∀ p : Phase, p.nearShift < 256 → p.farShift < 256 → p.eqShift < 256 → p.duration < 4096 →
    p.target < 16 → p.runK < 16 → decodePhases (phaseWords p) = [p]) ∧
  (∀ e : Entry, e.ln ≤ 64 → e.lf ≤ 128 → e.le ≤ 64 → e.cursor < 256 → e.delay ≤ 4992 →
    decodeHeader ((imageBody e).take 4) =
      { format := 1, count := 4 + (e.ln + e.lf + e.le) + 1, tag := e.tag, ln := e.ln, lf := e.lf,
        le := e.le, cursor := e.cursor, delay := e.delay, pinned := e.pinned }) ∧
  (∀ (e : Entry) (j : Nat), j < e.coefs.length →
    ((imageBody e).getD (4 + j) 0#32).setWidth 24 = e.coefs.getD j 0#24 ∧
    ((imageBody e).getD (4 + j) 0#32).toInt = (e.coefs.getD j 0#24).toInt) ∧
  (∀ (s : State) (w : Word), w = readRegister 0x0C#32 s → s.pool.length ≤ 1024 →
    w.getLsbD 0 = s.enabled ∧ (w.extractLsb' 1 2).toNat = s.port.state.code ∧
    (w.extractLsb' 3 2).toNat = s.maint.chain.code ∧
    (w.getLsbD 5 = true ↔ s.port.activeFmt.slots = .n32) ∧
    (w.extractLsb' 8 6).toNat = (Finset.univ.filter fun i : Fin 48 =>
      (entryAt s.store i).state ≠ .free).card ∧
    (w.extractLsb' 16 11).toNat = s.pool.length) ∧
  (∀ (m : Metrics) (w : Nat → Word), (∀ i, w i = m.words.getD i 0#32) →
    m.ex < 2 ^ 32 → m.er < 2 ^ 32 → m.eu < 2 ^ 32 → m.ee < 2 ^ 32 → m.clip ≤ 40 → m.phase ≤ 7 →
    m.searchCode ≤ 6 → m.gap ≤ 65535 → m.delay ≤ 4992 → m.bestLag ≤ 4992 → m.lfEff ≤ 128 →
    m.words.length = 8 ∧ (w 0).toNat = m.ex ∧ (w 1).toNat = m.er ∧ (w 2).toNat = m.eu ∧
    (w 3).toNat = m.ee ∧ ((w 4).extractLsb' 0 8).toNat = m.clip ∧
    ((w 4).extractLsb' 8 8 = match m.outcome with
      | .noReference => 0#8
      | .used => 1#8
      | .notAdapting => 2#8
      | .held => 3#8
      | .gap => 4#8
      | .overload => 5#8
      | .stuck => 6#8) ∧
    ((w 4).extractLsb' 16 8 = match m.state with
      | .closed => 0#8
      | .training => 1#8
      | .tracking => 2#8
      | .held => 3#8
      | .fault => 4#8) ∧
    ((w 4).extractLsb' 24 8).toNat = m.phase ∧
    (w 5).getLsbD 0 = m.overload ∧ (w 5).getLsbD 1 = m.stuck ∧ (w 5).getLsbD 2 = m.held ∧
    (w 5).getLsbD 3 = m.searching ∧ (w 5).getLsbD 4 = m.rejected ∧ (w 5).getLsbD 5 = m.nearAdapted ∧
    (w 5).getLsbD 6 = m.farAdapted ∧ (w 5).getLsbD 7 = m.eqAdapted ∧ (w 5).extractLsb' 8 8 = 0#8 ∧
    ((w 5).extractLsb' 16 8 = match m.save with
      | .none => 0#8
      | .saved => 1#8
      | .notSaved => 2#8
      | .pinned => 3#8
      | .busy => 4#8
      | .storeFull => 5#8) ∧
    ((w 5).extractLsb' 24 8).toNat = m.searchCode ∧ ((w 6).extractLsb' 0 16).toNat = m.gap ∧
    ((w 6).extractLsb' 16 16).toNat = m.delay ∧ ((w 7).extractLsb' 0 16).toNat = m.bestLag ∧
    ((w 7).extractLsb' 16 8).toNat = m.lfEff ∧ (w 7).extractLsb' 24 8 = 0#8) ∧
  ∀ (c : Channel) (w : Nat → Word), (∀ i, w i = (statusWords c).getD i 0#32) →
    c.phaseIndex ≤ 7 → c.filt.lfEff ≤ 128 → c.filt.delay ≤ 4992 → c.segs.length ≤ 1024 →
    c.divCount ≤ 65535 → c.filt.cursorTap < 256 → c.dmin ≤ 4992 → c.dmax ≤ 4992 → c.ratio ≤ 64 →
    c.trackNear ≤ 40 → c.trackFar ≤ 40 → c.trackEq ≤ 40 →
    (statusWords c).length = 6 ∧
    ((w 0).extractLsb' 0 8 = match c.state with
      | .closed => 0#8
      | .training => 1#8
      | .tracking => 2#8
      | .held => 3#8
      | .fault => 4#8) ∧
    (w 0).getLsbD 8 = c.holdDirective ∧ (w 0).getLsbD 9 = c.holdLine ∧ (w 0).extractLsb' 10 6 = 0#6 ∧
    ((w 0).extractLsb' 16 8 = match c.resume with
      | none => 0#8
      | some .training => 1#8
      | some .tracking => 2#8) ∧
    ((w 0).extractLsb' 24 8).toNat = c.phaseIndex ∧
    ((w 1).extractLsb' 0 8 = if c.filt.lfEff = 0 then 0#8 else 1#8) ∧
    ((w 1).extractLsb' 8 8).toNat = c.filt.lfEff ∧ ((w 1).extractLsb' 16 16).toNat = c.filt.delay ∧
    ((w 2).extractLsb' 0 16).toNat = c.segs.length ∧ ((w 2).extractLsb' 16 16).toNat = c.divCount ∧
    ((w 3).extractLsb' 0 8 = match c.profileOutcome with
      | .notUsed => 0#8
      | .hit => 1#8
      | .mismatch => 2#8
      | .busy => 3#8
      | .miss => 4#8) ∧
    ((w 3).extractLsb' 8 8 = match c.lastSave with
      | .none => 0#8
      | .saved => 1#8
      | .notSaved => 2#8
      | .pinned => 3#8
      | .busy => 4#8
      | .storeFull => 5#8) ∧
    ((w 3).extractLsb' 16 8).toNat = c.filt.cursorTap ∧ (w 3).extractLsb' 24 8 = 0#8 ∧
    ((w 4).extractLsb' 0 16).toNat = c.dmin ∧ ((w 4).extractLsb' 16 16).toNat = c.dmax ∧
    ((w 5).extractLsb' 0 8).toNat = c.ratio ∧ ((w 5).extractLsb' 8 8).toNat = c.trackNear ∧
    ((w 5).extractLsb' 16 8).toNat = c.trackFar ∧ ((w 5).extractLsb' 24 8).toNat = c.trackEq

/-! ## Laws that every step keeps -/

/-- The shared memory's canonical form is kept by every step (00 section 5.1; log 2, log 3). -/
def Obligations.MemoryFormKept : Prop := KeptByStep MemLegal

/-- The free list and the 32 segment lists hold each of the 1024 segments exactly once, and every channel's pool
history is 32 samples a segment (R73, R75, R78, R79): kept by every step. So is what a channel may hold (R74): a
channel in CLOSED or FAULT, and a running one with its far canceller off that does not search, holds nothing; one
that searches at most the search target; one with its far canceller on enough for its window and at most the
placement target. With it goes that a running channel's Dmin is at least 64 (R32, R67). -/
def Obligations.PoolConserved : Prop :=
  KeptByStep PoolLegal ∧ KeptByStep HistoryLegal ∧ KeptByStep HoldingLegal

/-- The attention unit's laws are kept by every step (R165, R170): in level mode the pin is asserted exactly
while some source is claimable; source 33 has priority 7; a source of priority 0 carries no cause. -/
def Obligations.AttentionLawKept : Prop := KeptByStep fun s => AttnLegal s.attn

/-- The lifecycle laws are kept by every step (R27, R28, R105, R117): TRAINING and TRACKING only while the
port is LOCKED, hold reasons and a resume state exactly in HELD, every channel CLOSED and the port OFF while
the part is disabled, the stall timer armed exactly in LOCKED. -/
def Obligations.LifecycleLawKept : Prop := KeptByStep LifeLegal

/-- Two laws between channels are kept by every step: no two running channels have the same timeslot, and
each running channel's timeslot is below the active slot count (R31); no record is in flight for two line
channels (R173). -/
def Obligations.ChannelsShareNothing : Prop := KeptByStep SlotLegal ∧ KeptByStep InflightLegal

/-- The store's laws are kept by every step (R120, R121): tags unique among the entries in use, at most one
entry in transfer and exactly the target of the directive in flight, the recency order exactly the entries
in use, each once. And the store chain's: while it is not IDLE the part is enabled and the table base is not
0 (R138, R152), and a directive is in flight only in WALKING (R141, R142). -/
def Obligations.StoreLawKept : Prop := KeptByStep StoreLegal ∧ KeptByStep ChainLegal
end

