-- ==== Sys2Proof/Laws/Attention.lean ====
section
/-! SUPPORT. Laws of the attention unit: its operations keep `AttnLegal`, what a claim selects, and what an
accepted OPEN's priority leaves. -/

namespace Sys2Proof.Machine

theorem anyClaimable_pin (a : Attn) (b : Bool) : anyClaimable { a with pin := b } = anyClaimable a :=
  rfl

/-- A settled pin keeps the level-mode law (R170). -/
theorem settlePin_level (old new : Attn) (h : (settlePin old new).pulse = false) :
    (settlePin old new).pin = anyClaimable (settlePin old new) := by
  unfold settlePin at *
  split at h
  · rename_i hp; simp [hp] at h
  · rename_i hp; rw [if_neg hp]; rfl

@[simp] theorem settlePin_sources (old new : Attn) : (settlePin old new).sources = new.sources := by
  unfold settlePin; split <;> rfl

@[simp] theorem settlePin_pulse (old new : Attn) : (settlePin old new).pulse = new.pulse := by
  unfold settlePin; split <;> rfl

@[simp] theorem settlePin_threshold (old new : Attn) :
    (settlePin old new).threshold = new.threshold := by
  unfold settlePin; split <;> rfl

/-- The sources after one is changed. -/
theorem updateSource_source (i j : Fin 34) (f : Source → Source) (a : Attn) :
    (updateSource i f a).sources[j] = if j = i then f a.sources[i] else a.sources[j] := by
  unfold updateSource
  simp only [settlePin_sources]
  by_cases h : j = i
  · subst h; simp
  · have : i.val ≠ j.val := fun e => h (Fin.ext e.symm)
    simp [h, Vector.getElem_set_ne, this]

@[simp] theorem updateSource_pulse (i : Fin 34) (f : Source → Source) (a : Attn) :
    (updateSource i f a).pulse = a.pulse := by
  simp [updateSource]

@[simp] theorem updateSource_threshold (i : Fin 34) (f : Source → Source) (a : Attn) :
    (updateSource i f a).threshold = a.threshold := by
  simp [updateSource]

/-- A change of one source keeps the laws when it keeps the part source's priority and the emptiness of
a source of priority 0. -/
theorem updateSource_legal {i : Fin 34} {f : Source → Source} {a : Attn} (h : AttnLegal a)
    (hp : i = partSource → (f a.sources[i]).priority = 7#3)
    (hz : (f a.sources[i]).priority = 0#3 → (f a.sources[i]).causes = 0#16) :
    AttnLegal (updateSource i f a) := by
  refine ⟨settlePin_level _ _, ?_, fun j hj => ?_⟩
  · rw [updateSource_source]
    split
    · exact hp (by rename_i e; exact e.symm)
    · exact h.2.1
  · rw [updateSource_source] at hj ⊢
    split at hj
    · rename_i e; simp only [e, if_true]; exact hz hj
    · rename_i e; simp only [e, if_false]; exact h.2.2 j hj

/-- A raise keeps the attention laws (R165, R166, R170). -/
theorem attnRaise_legal {i : Fin 34} {c : Cause} {a : Attn} (h : AttnLegal a) :
    AttnLegal (attnRaise i c a) := by
  unfold attnRaise
  split
  · exact h
  · rename_i hz
    exact updateSource_legal h (fun e => by subst e; exact h.2.1) (fun e => absurd e hz)

/-- An accepted OPEN's priority keeps the attention laws (R165). -/
theorem attnSetPriority_legal {i : Fin 34} {p : BitVec 3} {a : Attn} (hi : i ≠ partSource)
    (h : AttnLegal a) : AttnLegal (attnSetPriority i p a) := by
  refine updateSource_legal h (fun e => absurd e hi) (fun e => ?_)
  simp only at e; simp [e]

/-- A claim keeps the attention laws (R167). -/
theorem attnClaim_legal {a : Attn} (h : AttnLegal a) : AttnLegal (attnClaim a) := by
  unfold attnClaim
  split
  · exact h
  · exact updateSource_legal h (fun e => by subst e; exact h.2.1) (fun _ => rfl)

/-- A completion keeps the attention laws (R168). -/
theorem attnComplete_legal {i : Nat} {a : Attn} (h : AttnLegal a) : AttnLegal (attnComplete i a) := by
  unfold attnComplete
  split
  · split
    · exact updateSource_legal h (fun e => by rw [e]; exact h.2.1) (fun e => h.2.2 _ e)
    · exact h
  · exact h

/-- A write of ATTN_MODE and ATTN_THRESHOLD keeps the attention laws (R169). -/
theorem attnControl_legal {p : Bool} {t : BitVec 3} {b : Bool} {a : Attn} (h : AttnLegal a) :
    AttnLegal (attnControl p t b a) := by
  unfold attnControl
  split
  · rename_i hp
    simp only [Bool.and_eq_true] at hp
    exact ⟨fun e => absurd (hp.1.symm.trans e) (by decide), h.2.1, h.2.2⟩
  · refine ⟨settlePin_level _ _, ?_, fun j => ?_⟩
    · rw [settlePin_sources]; exact h.2.1
    · rw [settlePin_sources]; exact h.2.2 j

/-- With no causes waiting, nothing is claimable (R164, R165). -/
theorem anyClaimable_empty {a : Attn} (h : ∀ i : Fin 34, a.sources[i].causes = 0#16) :
    anyClaimable a = false := by
  simp only [anyClaimable, List.any_eq_false]
  intro i _
  simp only [claimable, h i]; simp

/-- A soft reset keeps the attention laws (R164). -/
theorem attnSoftReset_legal {a : Attn} (h : AttnLegal a) : AttnLegal (attnSoftReset a) := by
  have hs : ∀ i : Fin 34, (attnSoftReset a).sources[i].causes = 0#16 := fun i => by
    simp [attnSoftReset]
  refine ⟨fun _ => (anyClaimable_empty hs).symm ▸ rfl, ?_, fun i _ => hs i⟩
  have := h.2.1
  simpa [attnSoftReset] using this

/-- The end of a pulse keeps the attention laws (R170). -/
theorem attnPulseEnds_legal {a : Attn} (h : AttnLegal a) : AttnLegal (attnPulseEnds a) := by
  unfold attnPulseEnds
  split
  · rename_i hp; exact ⟨fun e => absurd (hp.symm.trans e) (by decide), h.2.1, h.2.2⟩
  · exact h

/-- What a pick among listed sources is: none when none is claimable, otherwise a claimable source
that no claimable source of the list outranks, and that stands first among its equals (R167). -/
theorem pickFrom_spec (a : Attn) (l : List (Fin 34)) :
    match pickFrom a l with
    | none => ∀ i ∈ l, claimable a i = false
    | some b => b ∈ l ∧ claimable a b = true ∧
        ∀ i ∈ l, claimable a i = true → a.sources[i].priority ≤ a.sources[b].priority := by
  induction l with
  | nil => simp [pickFrom]
  | cons i l ih =>
    simp only [pickFrom]
    cases hb : pickFrom a l with
    | none =>
      rw [hb] at ih
      by_cases hi : claimable a i = true
      · simp only [hi, if_true]
        refine ⟨List.mem_cons_self .., trivial, fun j hj hc => ?_⟩
        rcases List.mem_cons.1 hj with rfl | hj
        · exact BitVec.le_refl _
        · exact absurd hc (by simp [ih j hj])
      · simp only [hi]
        intro j hj
        rcases List.mem_cons.1 hj with rfl | hj
        · simpa using hi
        · exact ih j hj
    | some b =>
      rw [hb] at ih
      obtain ⟨hm, hc, hmax⟩ := ih
      by_cases hi : claimable a i = true ∧ ¬ a.sources[i].priority < a.sources[b].priority
      · have : (claimable a i && !decide (a.sources[i].priority < a.sources[b].priority)) = true := by
          rw [hi.1, decide_eq_false hi.2]; rfl
        simp only [this, if_true]
        refine ⟨List.mem_cons_self .., hi.1, fun j hj hj' => ?_⟩
        rcases List.mem_cons.1 hj with rfl | hj
        · exact BitVec.le_refl _
        · exact BitVec.le_trans (hmax j hj hj') (BitVec.not_lt.1 hi.2)
      · have : (claimable a i && !decide (a.sources[i].priority < a.sources[b].priority)) = false := by
          by_cases hx : claimable a i = true
          · rw [decide_eq_true (not_and_not_right.1 hi hx)]; simp
          · simp [hx]
        simp only [this]
        refine ⟨List.mem_cons_of_mem _ hm, hc, fun j hj hj' => ?_⟩
        rcases List.mem_cons.1 hj with rfl | hj
        · exact BitVec.le_of_lt (not_and_not_right.1 hi hj')
        · exact hmax j hj hj'

theorem claimable_iff (a : Attn) (i : Fin 34) : claimable a i = true ↔ Waits a i := by
  simp [claimable, Waits, and_assoc]

theorem anyClaimable_iff (a : Attn) : anyClaimable a = true ↔ ∃ i, Waits a i := by
  simp [anyClaimable, claimable_iff]

/-- What a priority copied by an accepted OPEN leaves (R165, R170). -/
theorem attnSetPriority_copied (i : Fin 34) (p : BitVec 3) (a : Attn) :
    PriorityCopied i p a (attnSetPriority i p a) := by
  have hs : ∀ j : Fin 34, (attnSetPriority i p a).sources[j] = if j = i then
      { a.sources[i] with
        priority := p, causes := if p = 0#3 then 0#16 else a.sources[i].causes }
      else a.sources[j] := fun j => updateSource_source ..
  refine ⟨by simp [attnSetPriority], by simp [attnSetPriority], hs, fun h => ?_, fun h => ?_⟩
  · rw [show (attnSetPriority i p a).pin = anyClaimable (attnSetPriority i p a) from
      settlePin_level _ _ (by simpa [updateSource] using h)]
    exact anyClaimable_iff _
  · have hp : (attnSetPriority i p a).pin = (a.pin || gains a (attnSetPriority i p a)) := by
      simp only [attnSetPriority, updateSource, settlePin, h, if_true]
      rfl
    have same : ∀ j, j ≠ i → (Waits (attnSetPriority i p a) j ↔ Waits a j) := fun j hj => by
      simp only [Waits, hs j, if_neg hj]
      simp [attnSetPriority]
    rw [hp, Bool.or_eq_true]
    refine or_congr_right ?_
    simp only [gains, List.any_eq_true, List.mem_finRange, true_and, Bool.and_eq_true,
      Bool.not_eq_true', ← Bool.not_eq_true, claimable_iff]
    constructor
    · rintro ⟨j, hj, hn⟩
      by_cases e : j = i
      · subst e; exact ⟨hj, hn⟩
      · exact absurd ((same j e).1 hj) hn
    · exact fun ⟨h1, h2⟩ => ⟨i, h1, h2⟩

end Sys2Proof.Machine
end

