-- ==== Sys2Proof/Laws/State.lean ====
section
/-! SUPPORT. The fields of a state after each named update, and the channel contexts after a change of
one of them. -/

namespace Sys2Proof.Machine

section
variable (s : State) (n k : Fin 32) (f g : Channel → Channel)

@[simp] theorem modChan_enabled : (s.modChan n f).enabled = s.enabled := rfl
@[simp] theorem modChan_tableBase : (s.modChan n f).tableBase = s.tableBase := rfl
@[simp] theorem modChan_port : (s.modChan n f).port = s.port := rfl
@[simp] theorem modChan_pool : (s.modChan n f).pool = s.pool := rfl
@[simp] theorem modChan_store : (s.modChan n f).store = s.store := rfl
@[simp] theorem modChan_maint : (s.modChan n f).maint = s.maint := rfl
@[simp] theorem modChan_attn : (s.modChan n f).attn = s.attn := rfl
@[simp] theorem modChan_readData : (s.modChan n f).readData = s.readData := rfl
@[simp] theorem modChan_mem : (s.modChan n f).mem = s.mem := rfl
@[simp] theorem modChan_bus : (s.modChan n f).bus = s.bus := rfl
@[simp] theorem modChan_freeNext : (s.modChan n f).freeNext = s.freeNext := rfl
@[simp] theorem modChan_pending : (s.modChan n f).pending = s.pending := rfl

@[simp] theorem modChan_chan_self : (s.modChan n f).chan n = f (s.chan n) := by
  simp [State.modChan, State.chan]

theorem modChan_chan_ne (h : k ≠ n) : (s.modChan n f).chan k = s.chan k := by
  have : n.val ≠ k.val := fun e => h (Fin.ext e.symm)
  simp [State.modChan, State.chan, Vector.getElem_set_ne, this]

/-- Every channel after a change of channel `n`. -/
theorem modChan_chan : (s.modChan n f).chan k = if k = n then f (s.chan n) else s.chan k := by
  by_cases h : k = n
  · subst h; simp
  · simp [h, modChan_chan_ne]

@[simp] theorem modChan_modChan : (s.modChan n f).modChan n g = s.modChan n (g ∘ f) := by
  simp [State.modChan]

end

section
variable (s : State)

@[simp] theorem chan_with_enabled (v : Bool) (n : Fin 32) : State.chan { s with enabled := v } n = s.chan n := rfl
@[simp] theorem modChan_with_enabled (v : Bool) (n : Fin 32) (f : Channel → Channel) : State.modChan n f { s with enabled := v } = { s.modChan n f with enabled := v } := rfl
@[simp] theorem chan_with_tableBase (v : BitVec 24) (n : Fin 32) : State.chan { s with tableBase := v } n = s.chan n := rfl
@[simp] theorem modChan_with_tableBase (v : BitVec 24) (n : Fin 32) (f : Channel → Channel) : State.modChan n f { s with tableBase := v } = { s.modChan n f with tableBase := v } := rfl
@[simp] theorem chan_with_port (v : Port) (n : Fin 32) : State.chan { s with port := v } n = s.chan n := rfl
@[simp] theorem modChan_with_port (v : Port) (n : Fin 32) (f : Channel → Channel) : State.modChan n f { s with port := v } = { s.modChan n f with port := v } := rfl
@[simp] theorem chan_with_pool (v : List Nat) (n : Fin 32) : State.chan { s with pool := v } n = s.chan n := rfl
@[simp] theorem modChan_with_pool (v : List Nat) (n : Fin 32) (f : Channel → Channel) : State.modChan n f { s with pool := v } = { s.modChan n f with pool := v } := rfl
@[simp] theorem chan_with_store (v : Store) (n : Fin 32) : State.chan { s with store := v } n = s.chan n := rfl
@[simp] theorem modChan_with_store (v : Store) (n : Fin 32) (f : Channel → Channel) : State.modChan n f { s with store := v } = { s.modChan n f with store := v } := rfl
@[simp] theorem chan_with_maint (v : Maint) (n : Fin 32) : State.chan { s with maint := v } n = s.chan n := rfl
@[simp] theorem modChan_with_maint (v : Maint) (n : Fin 32) (f : Channel → Channel) : State.modChan n f { s with maint := v } = { s.modChan n f with maint := v } := rfl
@[simp] theorem chan_with_attn (v : Attn) (n : Fin 32) : State.chan { s with attn := v } n = s.chan n := rfl
@[simp] theorem modChan_with_attn (v : Attn) (n : Fin 32) (f : Channel → Channel) : State.modChan n f { s with attn := v } = { s.modChan n f with attn := v } := rfl
@[simp] theorem chan_with_readData (v : Word) (n : Fin 32) : State.chan { s with readData := v } n = s.chan n := rfl
@[simp] theorem modChan_with_readData (v : Word) (n : Fin 32) (f : Channel → Channel) : State.modChan n f { s with readData := v } = { s.modChan n f with readData := v } := rfl
@[simp] theorem chan_with_mem (v : Memory) (n : Fin 32) : State.chan { s with mem := v } n = s.chan n := rfl
@[simp] theorem modChan_with_mem (v : Memory) (n : Fin 32) (f : Channel → Channel) : State.modChan n f { s with mem := v } = { s.modChan n f with mem := v } := rfl
@[simp] theorem chan_with_bus (v : Bus) (n : Fin 32) : State.chan { s with bus := v } n = s.chan n := rfl
@[simp] theorem modChan_with_bus (v : Bus) (n : Fin 32) (f : Channel → Channel) : State.modChan n f { s with bus := v } = { s.modChan n f with bus := v } := rfl
@[simp] theorem chan_with_freeNext (v : Nat) (n : Fin 32) : State.chan { s with freeNext := v } n = s.chan n := rfl
@[simp] theorem modChan_with_freeNext (v : Nat) (n : Fin 32) (f : Channel → Channel) : State.modChan n f { s with freeNext := v } = { s.modChan n f with freeNext := v } := rfl
@[simp] theorem chan_with_pending (v : List Instr) (n : Fin 32) : State.chan { s with pending := v } n = s.chan n := rfl
@[simp] theorem modChan_with_pending (v : List Instr) (n : Fin 32) (f : Channel → Channel) : State.modChan n f { s with pending := v } = { s.modChan n f with pending := v } := rfl

@[simp] theorem chan_map (f : Channel → Channel) (n : Fin 32) :
    State.chan { s with chans := s.chans.map f } n = f (s.chan n) := by
  simp [State.chan]

@[simp] theorem chan_reset (n : Fin 32) : State.reset.chan n = .reset := by
  simp [State.chan, State.reset]

end

section
variable (s : State) (i : Fin 34) (c : Cause) (b : Bool)

@[simp] theorem raise_enabled : (raise i c s).enabled = s.enabled := rfl
@[simp] theorem raise_tableBase : (raise i c s).tableBase = s.tableBase := rfl
@[simp] theorem raise_port : (raise i c s).port = s.port := rfl
@[simp] theorem raise_chans : (raise i c s).chans = s.chans := rfl
@[simp] theorem raise_pool : (raise i c s).pool = s.pool := rfl
@[simp] theorem raise_store : (raise i c s).store = s.store := rfl
@[simp] theorem raise_maint : (raise i c s).maint = s.maint := rfl
@[simp] theorem raise_readData : (raise i c s).readData = s.readData := rfl
@[simp] theorem raise_mem : (raise i c s).mem = s.mem := rfl
@[simp] theorem raise_bus : (raise i c s).bus = s.bus := rfl
@[simp] theorem raise_freeNext : (raise i c s).freeNext = s.freeNext := rfl
@[simp] theorem raise_pending : (raise i c s).pending = s.pending := rfl
@[simp] theorem raise_attn : (raise i c s).attn = attnRaise i c s.attn := rfl
@[simp] theorem raise_chan (n : Fin 32) : (raise i c s).chan n = s.chan n := rfl
@[simp] theorem raiseIf_enabled : (raiseIf b i c s).enabled = s.enabled := by cases b <;> rfl
@[simp] theorem raiseIf_tableBase : (raiseIf b i c s).tableBase = s.tableBase := by cases b <;> rfl
@[simp] theorem raiseIf_port : (raiseIf b i c s).port = s.port := by cases b <;> rfl
@[simp] theorem raiseIf_chans : (raiseIf b i c s).chans = s.chans := by cases b <;> rfl
@[simp] theorem raiseIf_pool : (raiseIf b i c s).pool = s.pool := by cases b <;> rfl
@[simp] theorem raiseIf_store : (raiseIf b i c s).store = s.store := by cases b <;> rfl
@[simp] theorem raiseIf_maint : (raiseIf b i c s).maint = s.maint := by cases b <;> rfl
@[simp] theorem raiseIf_readData : (raiseIf b i c s).readData = s.readData := by cases b <;> rfl
@[simp] theorem raiseIf_mem : (raiseIf b i c s).mem = s.mem := by cases b <;> rfl
@[simp] theorem raiseIf_bus : (raiseIf b i c s).bus = s.bus := by cases b <;> rfl
@[simp] theorem raiseIf_freeNext : (raiseIf b i c s).freeNext = s.freeNext := by cases b <;> rfl
@[simp] theorem raiseIf_pending : (raiseIf b i c s).pending = s.pending := by cases b <;> rfl
@[simp] theorem raiseIf_chan (n : Fin 32) : (raiseIf b i c s).chan n = s.chan n := by cases b <;> rfl

/-- A raise under a condition: the raise, or nothing. -/
theorem raiseIf_eq : raiseIf b i c s = if b then raise i c s else s := rfl

end

section
variable (s : State) (n : Fin 32) (g : Nat)

@[simp] theorem grant_enabled : (grant n g s).enabled = s.enabled := rfl
@[simp] theorem grant_tableBase : (grant n g s).tableBase = s.tableBase := rfl
@[simp] theorem grant_port : (grant n g s).port = s.port := rfl
@[simp] theorem grant_store : (grant n g s).store = s.store := rfl
@[simp] theorem grant_maint : (grant n g s).maint = s.maint := rfl
@[simp] theorem grant_attn : (grant n g s).attn = s.attn := rfl
@[simp] theorem grant_readData : (grant n g s).readData = s.readData := rfl
@[simp] theorem grant_mem : (grant n g s).mem = s.mem := rfl
@[simp] theorem grant_bus : (grant n g s).bus = s.bus := rfl
@[simp] theorem grant_freeNext : (grant n g s).freeNext = s.freeNext := rfl
@[simp] theorem grant_pending : (grant n g s).pending = s.pending := rfl
@[simp] theorem shrink_enabled : (shrink n g s).enabled = s.enabled := rfl
@[simp] theorem shrink_tableBase : (shrink n g s).tableBase = s.tableBase := rfl
@[simp] theorem shrink_port : (shrink n g s).port = s.port := rfl
@[simp] theorem shrink_store : (shrink n g s).store = s.store := rfl
@[simp] theorem shrink_maint : (shrink n g s).maint = s.maint := rfl
@[simp] theorem shrink_attn : (shrink n g s).attn = s.attn := rfl
@[simp] theorem shrink_readData : (shrink n g s).readData = s.readData := rfl
@[simp] theorem shrink_mem : (shrink n g s).mem = s.mem := rfl
@[simp] theorem shrink_bus : (shrink n g s).bus = s.bus := rfl
@[simp] theorem shrink_freeNext : (shrink n g s).freeNext = s.freeNext := rfl
@[simp] theorem shrink_pending : (shrink n g s).pending = s.pending := rfl

@[simp] theorem grant_pool : (grant n g s).pool = s.pool.drop g := rfl

@[simp] theorem shrink_pool :
    (shrink n g s).pool = s.pool ++ ((s.chan n).segs.drop g).reverse := rfl

/-- A grant in the channel that asked (R78): the segments taken from the head of the free list join the
oldest end, and read as zero (R77). -/
@[simp] theorem grant_chan_self : (grant n g s).chan n = addSegs (s.pool.take g) (s.chan n) :=
  modChan_chan_self s n _

theorem grant_chan_ne (k : Fin 32) (h : k ≠ n) : (grant n g s).chan k = s.chan k :=
  modChan_chan_ne s n k (addSegs (s.pool.take g)) h

/-- A shrink in the channel that releases (R79): the newest segments stay with their history. -/
@[simp] theorem shrink_chan_self : (shrink n g s).chan n = keepSegs g (s.chan n) :=
  modChan_chan_self s n _

theorem shrink_chan_ne (k : Fin 32) (h : k ≠ n) : (shrink n g s).chan k = s.chan k :=
  modChan_chan_ne s n k (keepSegs g) h

end

end Sys2Proof.Machine
end

