-- ==== Sys2Proof/Laws/Memory.lean ====
section
/-! SUPPORT. Laws of shared memory: every write keeps the canonical form, a read after a write to the
same byte gives the byte written, and a write leaves every other byte alone. -/

namespace Sys2Proof.Machine

theorem memWrite_mem {m : Memory} {a : Nat} {b : Byte} {x : Host.Cell} (h : x ∈ memWrite m a b) :
    x ∈ m ∨ (x = (a, b) ∧ b ≠ unlistedByte) := by
  induction m with
  | nil =>
    simp only [memWrite] at h
    split at h
    · simp at h
    · right; exact ⟨by simpa using h, by assumption⟩
  | cons c m ih =>
    obtain ⟨k, v⟩ := c
    simp only [memWrite] at h
    split_ifs at h
    · exact .inl h
    · rcases List.mem_cons.1 h with rfl | h
      · exact .inr ⟨rfl, by assumption⟩
      · exact .inl h
    · exact .inl (List.mem_cons_of_mem _ h)
    · rcases List.mem_cons.1 h with rfl | h
      · exact .inr ⟨rfl, by assumption⟩
      · exact .inl (List.mem_cons_of_mem _ h)
    · rcases List.mem_cons.1 h with rfl | h
      · exact .inl (List.mem_cons_self ..)
      · rcases ih h with h | h
        · exact .inl (List.mem_cons_of_mem _ h)
        · exact .inr h

theorem memWrite_pairwise {m : Memory} {a : Nat} {b : Byte}
    (h : m.Pairwise fun x y => x.1 < y.1) :
    (memWrite m a b).Pairwise fun x y => x.1 < y.1 := by
  induction m with
  | nil => simp only [memWrite]; split <;> simp
  | cons c m ih =>
    obtain ⟨k, v⟩ := c
    have hm := (List.pairwise_cons.1 h).2
    have hk := (List.pairwise_cons.1 h).1
    simp only [memWrite]
    split_ifs with h1 h2 h3 h4
    · exact h
    · refine List.pairwise_cons.2 ⟨fun y hy => ?_, h⟩
      rcases List.mem_cons.1 hy with rfl | hy
      · exact h1
      · exact Nat.lt_trans h1 (hk y hy)
    · exact hm
    · subst h3; exact List.pairwise_cons.2 ⟨hk, hm⟩
    · refine List.pairwise_cons.2 ⟨fun y hy => ?_, ih hm⟩
      rcases memWrite_mem hy with hy | ⟨rfl, -⟩
      · exact hk y hy
      · show k < a; omega

/-- A byte written keeps the canonical form. -/
theorem memWrite_wf {m : Memory} {a : Nat} {b : Byte} (ha : a < 2 ^ 32) (h : m.wf) :
    (memWrite m a b).wf := by
  refine ⟨memWrite_pairwise h.1, fun x hx => ?_⟩
  rcases memWrite_mem hx with hx | ⟨rfl, hb⟩
  · exact h.2 x hx
  · exact ⟨ha, hb⟩

theorem memRead_of_lt {m : Memory} {x : Nat} (h : ∀ c ∈ m, x < c.1) : memRead m x = unlistedByte := by
  induction m with
  | nil => rfl
  | cons c m ih =>
    obtain ⟨k, v⟩ := c
    have hk : x < k := h (k, v) (List.mem_cons_self ..)
    simp only [memRead, Nat.ne_of_lt hk, if_false]
    exact ih fun c hc => h c (List.mem_cons_of_mem _ hc)

/-- A byte read after a byte written. -/
theorem memRead_memWrite {m : Memory} {a : Nat} {b : Byte} (x : Nat) (h : m.wf) :
    memRead (memWrite m a b) x = if x = a then b else memRead m x := by
  obtain ⟨h, -⟩ := h
  induction m with
  | nil =>
    simp only [memWrite]
    split_ifs with h1 h2 h2 <;> simp [memRead, h1, h2]
  | cons c m ih =>
    obtain ⟨k, v⟩ := c
    have hm := (List.pairwise_cons.1 h).2
    have hk := (List.pairwise_cons.1 h).1
    simp only [memWrite]
    split_ifs with h1 h2 h3 h3 h4 h5 h6 h6 h7
    · subst h3
      rw [h2]
      refine memRead_of_lt fun c hc => ?_
      rcases List.mem_cons.1 hc with rfl | hc
      · exact h1
      · exact Nat.lt_trans h1 (hk c hc)
    · rfl
    · simp [memRead, h3]
    · simp [memRead, h3]
    · subst h6; subst h4; rw [h5]; exact memRead_of_lt hk
    · subst h4; simp [memRead, h6]
    · simp [memRead, h6]
    · subst h4; simp [memRead, h6]
    · subst h7
      have : x ≠ k := by omega
      simp [memRead, this, ih hm]
    · simp only [memRead, ih hm]; simp [h7]

/-- Bytes written keep the canonical form. -/
theorem memWriteBytes_wf (bs : List Byte) (a : Word) {m : Memory} (h : m.wf) :
    (memWriteBytes bs a m).wf := by
  induction bs generalizing a m with
  | nil => exact h
  | cons b bs ih => exact ih (a + 1#32) (memWrite_wf a.isLt h)

/-- Bytes written leave every byte outside their run alone. -/
theorem memRead_memWriteBytes_ne (bs : List Byte) (a : Word) {m : Memory} (h : m.wf) (x : Nat)
    (hx : ∀ i < bs.length, x ≠ (a + BitVec.ofNat 32 i).toNat) :
    memRead (memWriteBytes bs a m) x = memRead m x := by
  induction bs generalizing a m with
  | nil => rfl
  | cons b bs ih =>
    have h0 : x ≠ a.toNat := by simpa using hx 0 (by simp)
    rw [memWriteBytes, ih _ (memWrite_wf a.isLt h), memRead_memWrite x h, if_neg h0]
    intro i hi
    have := hx (i + 1) (by simpa using hi)
    rwa [show a + BitVec.ofNat 32 (i + 1) = a + 1#32 + BitVec.ofNat 32 i by
      rw [BitVec.ofNat_add, BitVec.add_assoc, BitVec.add_comm (BitVec.ofNat 32 i)]] at this

/-- The host's writes of a slot keep the canonical form. -/
theorem applyHost_wf (ws : List HostWrite) {m : Memory} (h : m.wf) : (applyHost ws m).wf := by
  induction ws generalizing m with
  | nil => exact h
  | cons w ws ih => exact ih (memWriteBytes_wf w.bytes w.addr h)

theorem applySlots_wf (bus : Bus) {m : Memory} (h : m.wf) :
    (bus.foldl (fun m b => applyHost b.host m) m).wf := by
  induction bus generalizing m with
  | nil => exact h
  | cons b bus ih => exact ih (applyHost_wf b.host h)

theorem memSetWord_wf (a v : Word) {m : Memory} (h : m.wf) : (memSetWord m a v).wf :=
  memWriteBytes_wf _ a h

theorem memSetHalf_wf (a : Word) (v : BitVec 16) {m : Memory} (h : m.wf) : (memSetHalf m a v).wf :=
  memWriteBytes_wf _ a h

/-- A word is made of its bytes. -/
theorem wordOfBytes_byteOf (v : Word) :
    wordOfBytes (byteOf v 0) (byteOf v 1) (byteOf v 2) (byteOf v 3) = v := by
  apply BitVec.eq_of_getLsbD_eq
  intro i hi
  simp only [wordOfBytes, byteOf, BitVec.getLsbD_append, BitVec.getLsbD_extractLsb']
  rcases Nat.lt_or_ge i 8 with h | h
  · simp [h, show i < 16 by omega, hi]
  · rcases Nat.lt_or_ge i 16 with h2 | h2
    · simp [h2, show ¬ i < 8 by omega, show i - 8 < 8 by omega, show 8 + (i - 8) = i by omega, hi]
    · rcases Nat.lt_or_ge i 24 with h3 | h3
      · simp [show ¬ i < 16 by omega, show i - 16 < 8 by omega, show 16 + (i - 16) = i by omega]
      · simp [show ¬ i < 16 by omega, show ¬ i - 16 < 8 by omega, show i - 16 - 8 < 8 by omega,
          show 24 + (i - 16 - 8) = i by omega]

theorem word_add_ne (a : Word) {i j : Nat} (hi : i < 4) (hj : j < 4) (h : i ≠ j) :
    (a + BitVec.ofNat 32 i).toNat ≠ (a + BitVec.ofNat 32 j).toNat := by
  intro e
  simp only [BitVec.toNat_add, BitVec.toNat_ofNat] at e
  omega

/-- A word read where a word was written is the word written. -/
theorem memWord_memSetWord (a v : Word) {m : Memory} (h : m.wf) :
    memWord (memSetWord m a v) a = v := by
  have ne : ∀ i j : Nat, i < 4 → j < 4 → i ≠ j →
      (a + BitVec.ofNat 32 i).toNat ≠ (a + BitVec.ofNat 32 j).toNat :=
    fun i j hi hj hij => word_add_ne a hi hj hij
  have z : a.toNat = (a + BitVec.ofNat 32 0).toNat := by simp
  have w1 := memWrite_wf (b := byteOf v 0) a.isLt h
  have w2 := memWrite_wf (b := byteOf v 1) (a + 1#32).isLt w1
  have w3 := memWrite_wf (b := byteOf v 2) (a + 2#32).isLt w2
  have e2 : a + 1#32 + 1#32 = a + 2#32 := by rw [BitVec.add_assoc]; rfl
  have e3 : a + 2#32 + 1#32 = a + 3#32 := by rw [BitVec.add_assoc]; rfl
  have n01 : a.toNat ≠ (a + 1#32).toNat := by rw [z]; exact ne 0 1 (by omega) (by omega) (by omega)
  have n02 : a.toNat ≠ (a + 2#32).toNat := by rw [z]; exact ne 0 2 (by omega) (by omega) (by omega)
  have n03 : a.toNat ≠ (a + 3#32).toNat := by rw [z]; exact ne 0 3 (by omega) (by omega) (by omega)
  have n12 : (a + 1#32).toNat ≠ (a + 2#32).toNat := ne 1 2 (by omega) (by omega) (by omega)
  have n13 : (a + 1#32).toNat ≠ (a + 3#32).toNat := ne 1 3 (by omega) (by omega) (by omega)
  have n23 : (a + 2#32).toNat ≠ (a + 3#32).toNat := ne 2 3 (by omega) (by omega) (by omega)
  unfold memWord memSetWord
  simp only [memWriteBytes, e2, e3]
  rw [memRead_memWrite _ w3, memRead_memWrite _ w3, memRead_memWrite _ w3, memRead_memWrite _ w3,
    memRead_memWrite _ w2, memRead_memWrite _ w2, memRead_memWrite _ w2,
    memRead_memWrite _ w1, memRead_memWrite _ w1, memRead_memWrite _ h]
  simp only [n01, n02, n03, n12, n13, n23, if_true, if_false]
  exact wordOfBytes_byteOf v

end Sys2Proof.Machine
end

