-- ==== Sys2Proof/Laws/BusErrors.lean ====
section
/-! SUPPORT. What the bus accesses do under an empty script and under a script with one bus error
(`ErrorAt`), each said once: an access before the error is made, the one at the error is not, and the script
is then used up (log 1); and what one slot of any script does. -/

namespace Sys2Proof.Machine

/-- Memory after consecutive words from `a` upward. -/
def memSetWords : List Word → Word → Memory → Memory
  | [], _, m => m
  | w :: ws, a, m => memSetWords ws (a + 4#32) (memSetWord m a w)

/-- The words at `a` and upward. -/
def memWords : Nat → Word → Memory → List Word
  | 0, _, _ => []
  | n + 1, a, m => memWord m a :: memWords n (a + 4#32) m

variable {s : State}

theorem memSetWords_wf (ws : List Word) (a : Word) {m : Memory} (h : m.wf) :
    (memSetWords ws a m).wf := by
  induction ws generalizing a m with
  | nil => exact h
  | cons w ws ih => exact ih _ (memSetWord_wf a w h)

/-- Words written leave every byte outside their run alone. -/
theorem memRead_memSetWords_ne (ws : List Word) (a : Word) {m : Memory} (h : m.wf) (x : Nat)
    (hx : Outside a (4 * ws.length) x) : memRead (memSetWords ws a m) x = memRead m x := by
  induction ws generalizing a m with
  | nil => rfl
  | cons w ws ih =>
    have e : ∀ k, a + BitVec.ofNat 32 (k + 4) = a + 4#32 + BitVec.ofNat 32 k := fun k => by
      rw [BitVec.ofNat_add, BitVec.add_assoc, BitVec.add_comm (BitVec.ofNat 32 k)]
    rw [memSetWords, ih _ (memSetWord_wf a w h) fun k hk => by
      rw [← e]; exact hx (k + 4) (by simp at hk ⊢; omega)]
    exact memRead_memWriteBytes_ne _ a h x fun k hk => hx k (by simp at hk ⊢; omega)

/-- A word whose bytes lie outside a run of written words reads as before. -/
theorem memWord_memSetWords_apart (ws : List Word) (a b : Word) {m : Memory} (h : m.wf)
    (hb : Apart b 4 a (4 * ws.length)) : memWord (memSetWords ws a m) b = memWord m b := by
  have e : ∀ k < 4, memRead (memSetWords ws a m) (b + BitVec.ofNat 32 k).toNat =
      memRead m (b + BitVec.ofNat 32 k).toNat :=
    fun k hk => memRead_memSetWords_ne ws a h _ (hb k hk)
  have e0 : memRead (memSetWords ws a m) b.toNat = memRead m b.toNat := by
    simpa only [BitVec.add_zero] using e 0 (by omega)
  unfold memWord
  rw [e0, e 1 (by omega), e 2 (by omega), e 3 (by omega)]

/-- An access takes its slot: the slot's host writes, then its error or none (log 1). -/
theorem busSlot_cons {slot : BusSlot} {rest : Bus} (h : s.bus = slot :: rest) :
    busSlot s = (slot.err, { s with mem := hostMemory [slot] s.mem, bus := rest }) := by
  simp [busSlot, h, hostMemory]

theorem hostMemory_wf (bus : Bus) {m : Memory} (h : m.wf) : (hostMemory bus m).wf :=
  applySlots_wf bus h

theorem busSlot_nil (h : s.bus = []) : busSlot s = (false, s) := by simp [busSlot, h]

theorem busSlot_errorAt_zero (h : s.bus = ErrorAt 0) : busSlot s = (true, { s with bus := [] }) := by
  simp [busSlot, h, ErrorAt, applyHost]

theorem busSlot_errorAt_succ {k : Nat} (h : s.bus = ErrorAt (k + 1)) :
    busSlot s = (false, { s with bus := ErrorAt k }) := by
  simp [busSlot, h, ErrorAt, applyHost, List.replicate_succ]

theorem readWord_nil (a : Word) (h : s.bus = []) : readWord a s = (some (memWord s.mem a), s) := by
  simp [readWord, busSlot_nil h]

theorem readWord_errorAt_zero (a : Word) (h : s.bus = ErrorAt 0) :
    readWord a s = (none, { s with bus := [] }) := by
  simp [readWord, busSlot_errorAt_zero h]

theorem readWord_errorAt_succ (a : Word) {k : Nat} (h : s.bus = ErrorAt (k + 1)) :
    readWord a s = (some (memWord s.mem a), { s with bus := ErrorAt k }) := by
  simp [readWord, busSlot_errorAt_succ h]

theorem writeWord_nil (a v : Word) (h : s.bus = []) :
    writeWord a v s = (true, { s with mem := memSetWord s.mem a v }) := by
  simp [writeWord, busSlot_nil h]

theorem writeWord_errorAt_zero (a v : Word) (h : s.bus = ErrorAt 0) :
    writeWord a v s = (false, { s with bus := [] }) := by
  simp [writeWord, busSlot_errorAt_zero h]

theorem writeWord_errorAt_succ (a v : Word) {k : Nat} (h : s.bus = ErrorAt (k + 1)) :
    writeWord a v s = (true, { s with mem := memSetWord s.mem a v, bus := ErrorAt k }) := by
  simp [writeWord, busSlot_errorAt_succ h]

/-- Reads without an error. -/
theorem readWords_nil (n : Nat) (a : Word) (h : s.bus = []) :
    readWords n a s = (some (memWords n a s.mem), s) := by
  induction n generalizing a with
  | zero => rfl
  | succ n ih => simp [readWords, readWord_nil a h, ih, memWords]

/-- Reads that all come before the error. -/
theorem readWords_errorAt_before (n : Nat) (a : Word) {k : Nat} (h : s.bus = ErrorAt k) (hk : n ≤ k) :
    readWords n a s = (some (memWords n a s.mem), { s with bus := ErrorAt (k - n) }) := by
  induction n generalizing a k s with
  | zero => cases s; simp_all [readWords, memWords]
  | succ n ih =>
    obtain ⟨k, rfl⟩ : ∃ j, k = j + 1 := ⟨k - 1, by omega⟩
    have := ih (s := { s with bus := ErrorAt k }) (a + 4#32) rfl (by omega)
    simp [readWords, readWord_errorAt_succ a h, this, memWords]

/-- Reads that reach the error. -/
theorem readWords_errorAt_reached (n : Nat) (a : Word) {k : Nat} (h : s.bus = ErrorAt k) (hk : k < n) :
    readWords n a s = (none, { s with bus := [] }) := by
  induction n generalizing a k s with
  | zero => omega
  | succ n ih =>
    cases k with
    | zero => simp [readWords, readWord_errorAt_zero a h]
    | succ k =>
      have := ih (s := { s with bus := ErrorAt k }) (a + 4#32) rfl (by omega)
      simp [readWords, readWord_errorAt_succ a h, this]

/-- Writes without an error. -/
theorem writeWords_nil (ws : List Word) (a : Word) (h : s.bus = []) :
    writeWords ws a s = (true, { s with mem := memSetWords ws a s.mem }) := by
  induction ws generalizing a s with
  | nil => rfl
  | cons w ws ih => simp [writeWords, writeWord_nil a w h, ih, h, memSetWords]

/-- Writes that all come before the error. -/
theorem writeWords_errorAt_before (ws : List Word) (a : Word) {k : Nat} (h : s.bus = ErrorAt k)
    (hk : ws.length ≤ k) :
    writeWords ws a s =
      (true, { s with mem := memSetWords ws a s.mem, bus := ErrorAt (k - ws.length) }) := by
  induction ws generalizing a k s with
  | nil => cases s; simp_all [writeWords, memSetWords]
  | cons w ws ih =>
    obtain ⟨k, rfl⟩ : ∃ j, k = j + 1 := ⟨k - 1, by simp at hk; omega⟩
    have := ih (s := { s with mem := memSetWord s.mem a w, bus := ErrorAt k }) (a + 4#32) rfl
      (by simpa using hk)
    simp [writeWords, writeWord_errorAt_succ a w h, this, memSetWords]

/-- Writes that reach the error at word `k`: the words before it are written. -/
theorem writeWords_errorAt_reached (ws : List Word) (a : Word) {k : Nat} (h : s.bus = ErrorAt k)
    (hk : k < ws.length) :
    writeWords ws a s = (false, { s with mem := memSetWords (ws.take k) a s.mem, bus := [] }) := by
  induction ws generalizing a k s with
  | nil => simp at hk
  | cons w ws ih =>
    cases k with
    | zero => simp [writeWords, writeWord_errorAt_zero a w h, memSetWords]
    | succ k =>
      have := ih (s := { s with mem := memSetWord s.mem a w, bus := ErrorAt k }) (a + 4#32) rfl
        (by simpa using hk)
      simp [writeWords, writeWord_errorAt_succ a w h, this, memSetWords]

end Sys2Proof.Machine
end

