-- ==== Sys2Proof/Laws/Pool.lean ====
section
/-! SUPPORT. Laws of the history pool: a grant and a release move segments and lose none, and the pool
history keeps 32 samples for each segment held (R73, R75, R78, R79); what a search start, a placement and a
loaded profile leave a channel to hold (R58, R67, R33, R74). -/

namespace Sys2Proof.Machine

variable {s t : State} {n : Fin 32}

/-- The pool's law kept when the free list and every segment list count as before. -/
theorem poolLegal_of_eq (hp : t.pool = s.pool) (hs : ∀ k, (t.chan k).segs = (s.chan k).segs)
    (h : PoolLegal s) : PoolLegal t := by
  intro x
  have := h x
  simpa [hp, hs] using this

/-- What one channel's list and the free list exchange keeps the pool's law. -/
theorem poolLegal_of_move (ho : ∀ k, k ≠ n → (t.chan k).segs = (s.chan k).segs)
    (hm : ∀ x, t.pool.count x + (t.chan n).segs.count x = s.pool.count x + (s.chan n).segs.count x)
    (h : PoolLegal s) : PoolLegal t := by
  intro x
  rw [← h x]
  have split : ∀ u : State, ∑ k : Fin 32, (u.chan k).segs.count x =
      (u.chan n).segs.count x + ∑ k ∈ Finset.univ.erase n, (u.chan k).segs.count x :=
    fun u => (Finset.add_sum_erase _ (fun k => (u.chan k).segs.count x) (Finset.mem_univ n)).symm
  have rest : ∑ k ∈ Finset.univ.erase n, (t.chan k).segs.count x =
      ∑ k ∈ Finset.univ.erase n, (s.chan k).segs.count x :=
    Finset.sum_congr rfl fun k hk => by rw [ho k (Finset.ne_of_mem_erase hk)]
  have := hm x
  rw [split t, split s, rest]
  omega

/-- A grant keeps the pool's law (R73, R78). -/
theorem grant_poolLegal (g : Nat) (h : PoolLegal s) : PoolLegal (grant n g s) := by
  refine poolLegal_of_move (n := n) (fun k hk => by rw [grant_chan_ne _ _ _ _ hk]) (fun x => ?_) h
  have := congrArg (List.count x) (List.take_append_drop g s.pool)
  simp only [List.count_append] at this
  simp only [grant_chan_self, grant_pool, addSegs, List.count_append]
  omega

/-- A release keeps the pool's law (R73, R79). -/
theorem shrink_poolLegal (k : Nat) (h : PoolLegal s) : PoolLegal (shrink n k s) := by
  refine poolLegal_of_move (n := n) (fun j hj => by rw [shrink_chan_ne _ _ _ _ hj]) (fun x => ?_) h
  have := congrArg (List.count x) (List.take_append_drop k (s.chan n).segs)
  simp only [List.count_append] at this
  simp only [shrink_chan_self, shrink_pool, keepSegs, List.count_append, List.count_reverse]
  omega

/-- A channel's pool history is 32 samples a segment (R75). -/
def HistKept (c : Channel) : Prop := c.poolHist.length = 32 * c.segs.length

theorem addSegs_histKept {c : Channel} {l : List Nat} (h : HistKept c) : HistKept (addSegs l c) := by
  unfold HistKept at *; simp [addSegs, h, Nat.mul_add]

theorem keepSegs_histKept {c : Channel} {k : Nat} (h : HistKept c) : HistKept (keepSegs k c) := by
  unfold HistKept at *; simp only [keepSegs, List.length_take]; omega

/-- A holding brought to `t` segments changes the channel's list and pool history alone, and ends at `t` at
most (R59, R67). -/
theorem bringHolding_spec (n : Fin 32) (t : Nat) (s : State) : ∃ l p,
    (bringHolding n t s).chan n = { s.chan n with segs := l, poolHist := p } ∧ l.length ≤ t := by
  dsimp only [bringHolding]
  split_ifs with h1 h2
  · exact ⟨_, _, shrink_chan_self .., by simp⟩
  · exact ⟨_, _, grant_chan_self .., by simp; omega⟩
  · exact ⟨(s.chan n).segs, (s.chan n).poolHist, rfl, by omega⟩

theorem releaseAll_chan_self (n : Fin 32) (s : State) :
    (releaseAll n s).chan n = { s.chan n with segs := [], poolHist := [] } := by
  simp [releaseAll, keepSegs]

/-- A search start leaves the far canceller off, and the channel with nothing, or sweeping with at most the search
target (R58, R59, R70). -/
theorem startSearch_holds (n : Fin 32) (s : State) : ∃ c, c = (startSearch n s).chan n ∧
    c.filt.delay = 0 ∧ c.dmin = (s.chan n).dmin ∧ (c.search.sweeping = false → c.segs = []) ∧
    (c.search.sweeping = true → c.segs.length ≤ segsFor (c.dmax + 15)) := by
  refine ⟨_, rfl, ?_⟩
  obtain ⟨l, p, hc, hl⟩ := bringHolding_spec n
    (searchTarget ((s.modChan n fun c => { c with filt := farOff c.filt, statusDue := true }).chan n))
    (s.modChan n fun c => { c with filt := farOff c.filt, statusDue := true })
  dsimp only [startSearch]
  generalize bringHolding n _ _ = b at hc ⊢
  simp only [modChan_chan_self, searchTarget] at hc hl
  split_ifs
  · simp [hc, farOff, startedSearch, hl]
  · simp [hc, farOff, emptySearch, releaseAll_chan_self]

theorem segsFor_le_iff (l h : Nat) : segsFor l ≤ h ↔ l + 40 ≤ 32 * h := by
  unfold segsFor; omega

/-- A placement leaves the channel with nothing and its far canceller off, or with a window that it holds enough
for, and no more than the placement target (R67, R68). -/
theorem placeWindow_holds (hd : 0 < (s.chan n).dmin) : ∃ c, c = (placeWindow n s).chan n ∧
    (c.filt.delay = 0 → c.segs = []) ∧
    (c.filt.delay ≠ 0 → c.filt.delay + c.filt.lfEff + 39 ≤ 32 * c.segs.length ∧
      c.segs.length ≤ segsFor (c.filt.delay + c.filt.lf - 1)) := by
  refine ⟨_, rfl, ?_⟩
  obtain ⟨l, p, hc, hl⟩ := bringHolding_spec n
    (segsFor (placedDelay (s.chan n).dmin (s.chan n).search.bestLag + (s.chan n).filt.lf - 1)) s
  have hpos : 0 < placedDelay (s.chan n).dmin (s.chan n).search.bestLag := by
    unfold placedDelay; omega
  dsimp only [placeWindow]
  generalize bringHolding n _ _ = b at hc ⊢
  simp only [hc]
  split_ifs with h1 h2
  · have := (segsFor_le_iff _ _).1 h1
    simp only [modChan_chan_self, hc, farOn]
    exact ⟨fun e => absurd e (by omega), fun _ => ⟨by omega, hl⟩⟩
  · simp only [modChan_chan_self, raise_chan, hc, farOn]
    refine ⟨fun e => absurd e (by omega), fun _ => ⟨?_, hl⟩⟩
    unfold narrowedTaps at *
    omega
  · simp [releaseAll_chan_self, farOff]

/-- The pool's answer to a loaded D leaves the same choice (R33, R74). -/
theorem requestForProfile_holds (hs : (s.chan n).segs = [])
    (he : (s.chan n).filt.lfEff = (s.chan n).filt.lf) : ∃ c, c = (requestForProfile n s).chan n ∧
    (c.filt.delay = 0 → c.segs = []) ∧
    (c.filt.delay ≠ 0 → c.filt.delay + c.filt.lfEff + 39 ≤ 32 * c.segs.length ∧
      c.segs.length ≤ segsFor (c.filt.delay + c.filt.lf - 1)) := by
  refine ⟨_, rfl, ?_⟩
  obtain ⟨l, p, hc, hl⟩ := bringHolding_spec n
    (segsFor ((s.chan n).filt.delay + (s.chan n).filt.lf - 1)) s
  dsimp only [requestForProfile]
  generalize bringHolding n _ _ = b at hc ⊢
  split_ifs with h0 h1
  · exact ⟨fun _ => hs, fun h => absurd h0 h⟩
  · rw [hc] at h1 ⊢
    have := (segsFor_le_iff _ _).1 h1
    exact ⟨fun e => absurd e h0, fun _ => ⟨by simp only [he] at *; omega, hl⟩⟩
  · simp [releaseAll_chan_self, farOff]

end Sys2Proof.Machine
end

