-- ==== Sys2Proof/Laws/Profiles.lean ====
section
/-! SUPPORT. Laws of the route profile store: what its searches find, and that its operations keep the
laws of its entries and of the recency order. -/

namespace Sys2Proof.Machine

variable {st : Store} {T : Fin 48 → Prop} {i j : Fin 48} {tag : Word}

theorem entryAt_setEntry (i j : Fin 48) (e : Entry) (st : Store) :
    entryAt (setEntry i e st) j = if j = i then e else entryAt st j := by
  by_cases h : j = i
  · subst h; simp [entryAt, setEntry]
  · have : i.val ≠ j.val := fun x => h (Fin.ext x.symm)
    simp [entryAt, setEntry, Vector.getElem_set_ne, this, h]

@[simp] theorem setEntry_recency (i : Fin 48) (e : Entry) (st : Store) :
    (setEntry i e st).recency = st.recency := rfl

@[simp] theorem touch_entry (i j : Fin 48) (st : Store) : entryAt (touch i st) j = entryAt st j := rfl

/-- A found tag names an entry in use that carries it (R120). -/
theorem findTag_some (h : findTag st tag = some i) :
    (entryAt st i).state ≠ .free ∧ (entryAt st i).tag = tag := by
  have := List.find?_some h
  simpa using this

/-- A tag not found is carried by no entry in use (R120). -/
theorem findTag_none (h : findTag st tag = none) (j : Fin 48) (hj : (entryAt st j).state ≠ .free) :
    (entryAt st j).tag ≠ tag := by
  have := List.find?_eq_none.1 h j (List.mem_finRange j)
  simpa [hj] using this

theorem findFree_some (h : findFree st = some i) : (entryAt st i).state = .free := by
  have := List.find?_some h
  simpa using this

theorem findVictim_some (h : findVictim st = some i) :
    (entryAt st i).state = .valid ∧ (entryAt st i).pinned = false ∧ i ∈ st.recency := by
  have h1 := List.find?_some h
  have h2 := List.mem_of_find?_eq_some h
  simpa [and_assoc] using And.intro h1 h2

/-- The entry a save or an import claim takes is FREE, or VALID and unpinned; no other entry in use
carries the tag (R120, R123, R129). -/
theorem selectTarget_ok (hk : StoreKept st T) (h : selectTarget st tag = .ok i) :
    ((entryAt st i).state = .free ∨ (entryAt st i).state = .valid ∧ (entryAt st i).pinned = false) ∧
      ∀ j, j ≠ i → (entryAt st j).state ≠ .free → (entryAt st j).tag ≠ tag := by
  unfold selectTarget at h
  split at h
  · rename_i k hf
    obtain ⟨h1, h2⟩ := findTag_some hf
    split_ifs at h with hp hv
    injection h with h; subst h
    refine ⟨.inr ⟨hv, by simpa using hp⟩, fun j hj hs => ?_⟩
    rw [← h2]; exact hk.1 j k hj hs h1
  · rename_i hn
    have hno := fun j => findTag_none hn j
    split at h
    · rename_i k hf
      injection h with h; subst h
      exact ⟨.inl (findFree_some hf), fun j _ => hno j⟩
    · split at h
      · rename_i k hv
        injection h with h; subst h
        exact ⟨.inr ⟨(findVictim_some hv).1, (findVictim_some hv).2.1⟩, fun j _ => hno j⟩
      · cases h

theorem mem_withoutEntry {order : List (Fin 48)} : j ∈ withoutEntry i order ↔ j ∈ order ∧ j ≠ i := by
  simp [withoutEntry]

theorem withoutEntry_nodup {order : List (Fin 48)} (h : order.Nodup) : (withoutEntry i order).Nodup :=
  h.filter _

/-- One entry replaced and the order set: the laws kept when the new tag is the entry's own, the order
lists the entries in use, and the entries in transfer are the new targets. -/
theorem StoreKept.replace {T' : Fin 48 → Prop} (hk : StoreKept st T) {e : Entry}
    {order : List (Fin 48)}
    (htag : e.state ≠ .free → ∀ j, j ≠ i → (entryAt st j).state ≠ .free → (entryAt st j).tag ≠ e.tag)
    (hnd : order.Nodup)
    (hmem : ∀ j, j ∈ order ↔ if j = i then e.state ≠ .free else (entryAt st j).state ≠ .free)
    (ht : ∀ j, T' j ↔ if j = i then inTransfer e = true else T j) :
    StoreKept { setEntry i e st with recency := order } T' := by
  have ent : ∀ j, entryAt { setEntry i e st with recency := order } j =
      if j = i then e else entryAt st j := fun j => entryAt_setEntry i j e st
  refine ⟨fun a b hab ha hb => ?_, fun a => ?_, hnd, fun a => ?_⟩
  · rw [ent] at ha hb ⊢
    rw [ent]
    by_cases h1 : a = i
    · subst h1
      have h2 : b ≠ a := hab.symm
      simp only [if_true, if_neg h2] at ha hb ⊢
      exact (htag ha b h2 hb).symm
    · by_cases h2 : b = i
      · subst h2
        simp only [if_true, if_neg h1] at ha hb ⊢
        exact htag hb a h1 ha
      · simp only [if_neg h1, if_neg h2] at ha hb ⊢
        exact hk.1 a b hab ha hb
  · rw [ent, ht]
    split
    · rfl
    · exact hk.2.1 a
  · rw [hmem, ent]
    split <;> rfl

/-- An entry in use moved to the most recent end keeps the laws (R121). -/
theorem touch_kept (hk : StoreKept st T) (hi : (entryAt st i).state ≠ .free) :
    StoreKept (touch i st) T := by
  refine ⟨hk.1, hk.2.1, ?_, fun j => ?_⟩
  · exact List.nodup_cons.2 ⟨fun h => (mem_withoutEntry.1 h).2 rfl, withoutEntry_nodup hk.2.2.1⟩
  · show j ∈ i :: withoutEntry i st.recency ↔ _
    rw [List.mem_cons, mem_withoutEntry, hk.2.2.2 j]
    constructor
    · rintro (rfl | h)
      · exact hi
      · exact h.1
    · intro h
      by_cases hj : j = i
      · exact .inl hj
      · exact .inr ⟨h, hj⟩

/-- One entry replaced by one of the same use and tag, the order kept. -/
theorem setEntry_kept {T' : Fin 48 → Prop} {e : Entry} (hk : StoreKept st T)
    (hs : e.state ≠ .free ↔ (entryAt st i).state ≠ .free) (htag : e.tag = (entryAt st i).tag)
    (ht : ∀ j, T' j ↔ if j = i then inTransfer e = true else T j) :
    StoreKept (setEntry i e st) T' := by
  refine StoreKept.replace (order := st.recency) hk (fun hf j hj hjf => ?_) hk.2.2.1 (fun j => ?_) ht
  · rw [htag]; exact hk.1 j i hj hjf (hs.1 hf)
  · rw [hk.2.2.2 j]
    split
    · rename_i e; subst e; exact hs.symm
    · rfl

theorem target_self {e : Entry} (hk : StoreKept st T)
    (h : inTransfer e = inTransfer (entryAt st i)) (j : Fin 48) :
    T j ↔ if j = i then inTransfer e = true else T j := by
  split
  · rename_i x; subst x; rw [h]; exact (hk.2.1 j).symm
  · rfl

/-- A freed entry keeps the laws (R127, R130, R132). -/
theorem freeEntry_kept {T' : Fin 48 → Prop} (hk : StoreKept st T)
    (ht : ∀ j, T' j ↔ j ≠ i ∧ T j) : StoreKept (freeEntry i st) T' := by
  refine StoreKept.replace hk (fun h => absurd rfl h) (withoutEntry_nodup hk.2.2.1) (fun j => ?_)
    (fun j => ?_)
  · rw [mem_withoutEntry, hk.2.2.2 j]
    split <;> rename_i h <;> simp [h]
  · rw [ht]; split <;> rename_i h <;> simp [h, inTransfer]

/-- A save keeps the store's laws (R120, R123, R124). -/
theorem saveProfileTo_kept (f : Filters) (hk : StoreKept st T) :
    StoreKept (saveProfileTo st tag f).2 T := by
  unfold saveProfileTo
  split
  · exact hk
  · rename_i i hsel
    obtain ⟨hst, huniq⟩ := selectTarget_ok hk hsel
    refine StoreKept.replace (e := savedEntry tag f) hk (fun _ j hj hjf => huniq j hj hjf) ?_
      (fun j => ?_) (fun j => ?_)
    · exact List.nodup_cons.2 ⟨fun h => (mem_withoutEntry.1 h).2 rfl, withoutEntry_nodup hk.2.2.1⟩
    · show j ∈ i :: withoutEntry i st.recency ↔ _
      rw [List.mem_cons, mem_withoutEntry, hk.2.2.2 j]
      by_cases hj : j = i <;> simp [hj, savedEntry]
    · split
      · rename_i e; subst e
        rw [← hk.2.1 j]
        rcases hst with h | h <;> simp [inTransfer, savedEntry, h]
      · rfl

/-- A lookup's touch keeps the store's laws: what it hits is in use (R121, R122). -/
theorem lookup_some {o : LookupOutcome} {ln lf le : Nat}
    (h : lookup st tag ln lf le = (o, some i)) :
    o = .hit ∧ (entryAt st i).state ≠ .free ∧ (entryAt st i).state ≠ .importing ∧
      (entryAt st i).tag = tag ∧ (entryAt st i).ln = ln ∧ (entryAt st i).lf = lf ∧
      (entryAt st i).le = le := by
  unfold lookup at h
  split at h
  · simp at h
  · rename_i k hf
    obtain ⟨h1, h2⟩ := findTag_some hf
    simp only at h
    split_ifs at h with hi hl
    · simp at h
    · simp only [Prod.mk.injEq, Option.some.injEq] at h
      obtain ⟨rfl, rfl⟩ := h
      exact ⟨rfl, h1, hi, h2, hl⟩
    · simp at h

/-- PIN and UNPIN keep the store's laws (R126). -/
theorem pinEntry_kept (b : Bool) (hk : StoreKept st T) : StoreKept (pinEntry st tag b).2 T := by
  unfold pinEntry
  split
  · exact hk
  · rename_i i hf
    dsimp only
    split
    · exact hk
    · exact setEntry_kept hk Iff.rfl rfl (target_self hk rfl)

/-- DROP keeps the store's laws (R127). -/
theorem dropEntry_kept (hk : StoreKept st T) : StoreKept (dropEntry st tag).2 T := by
  unfold dropEntry
  split
  · exact hk
  · rename_i i hf
    split_ifs with hp hv
    · exact hk
    · refine freeEntry_kept hk fun j => ⟨fun h => ⟨?_, h⟩, And.right⟩
      rintro rfl
      have := (hk.2.1 j).2 h
      simp [inTransfer, hv] at this
    · exact hk

/-- An import claim keeps the store's laws: its target becomes the one entry in transfer (R120, R129). -/
theorem claimTarget_kept {T' : Fin 48 → Prop} {h : Header} (hk : StoreKept st T)
    (hsel : selectTarget st h.tag = .ok i) (hT : ∀ j, ¬ T j) (ht : ∀ j, T' j ↔ j = i) :
    StoreKept (claimTarget i h st) T' := by
  obtain ⟨hst, huniq⟩ := selectTarget_ok hk hsel
  have key : ∀ order : List (Fin 48), order.Nodup → (∀ j, j ∈ order ↔ j ∈ st.recency ∨ j = i) →
      StoreKept { setEntry i (claimedEntry h) st with recency := order } T' := by
    intro order hn hm
    refine StoreKept.replace hk (fun _ j hj hjf => huniq j hj hjf) hn (fun j => ?_) (fun j => ?_)
    · rw [hm, hk.2.2.2 j]
      by_cases hj : j = i <;> simp [hj, claimedEntry]
    · rw [ht]
      by_cases hj : j = i <;> simp [hj, claimedEntry, inTransfer, hT]
  unfold claimTarget
  simp only
  split
  · rename_i hf
    refine key _ ?_ (fun j => ?_)
    · refine List.Nodup.append (withoutEntry_nodup hk.2.2.1) (by simp) ?_
      intro x hx hx'
      rw [List.mem_singleton.1 hx'] at hx
      exact (mem_withoutEntry.1 hx).2 rfl
    · show j ∈ withoutEntry i st.recency ++ [i] ↔ _
      rw [List.mem_append, mem_withoutEntry, List.mem_singleton]
      by_cases hj : j = i <;> simp [hj]
  · rename_i hf
    refine key st.recency hk.2.2.1 (fun j => ⟨.inl, ?_⟩)
    rintro (h | rfl)
    · exact h
    · exact (hk.2.2.2 j).2 (by simpa using hf)

/-- An import's coefficients keep the store's laws (R147). -/
theorem fillEntry_kept (ws : List Word) (hk : StoreKept st T) : StoreKept (fillEntry i ws st) T :=
  setEntry_kept hk Iff.rfl rfl (target_self hk rfl)

/-- The end of an import keeps the store's laws: its entry is in transfer no longer (R130). -/
theorem finishImport_kept {T' : Fin 48 → Prop} (m p : Bool) (hk : StoreKept st T)
    (hi : (entryAt st i).state ≠ .free) (ht : ∀ j, T' j ↔ j ≠ i ∧ T j) :
    StoreKept (finishImport i m p st) T' := by
  unfold finishImport
  split
  · refine touch_kept (setEntry_kept hk ?_ rfl fun j => ?_) ?_
    · simp [hi]
    · rw [ht]; split <;> rename_i h <;> simp [h, inTransfer]
    · rw [entryAt_setEntry]; simp
  · exact freeEntry_kept hk ht

/-- An entry of use put into another state of use keeps the store's laws (R131). -/
theorem setEntryState_kept {T' : Fin 48 → Prop} {x : EntryState} (hk : StoreKept st T)
    (hi : (entryAt st i).state ≠ .free) (hx : x ≠ .free)
    (ht : ∀ j, T' j ↔ if j = i then (x == .importing || x == .exporting) = true else T j) :
    StoreKept (setEntryState i x st) T' :=
  setEntry_kept hk (by simp [hi, hx]) rfl (by simpa [inTransfer] using ht)

/-- A transfer ended early keeps the store's laws: its entry is in transfer no longer (R132). -/
theorem abandonEntry_kept {T' : Fin 48 → Prop} (hk : StoreKept st T) (ht : ∀ j, T' j ↔ j ≠ i ∧ T j) :
    StoreKept (abandonEntry i st) T' := by
  have same : inTransfer (entryAt st i) = false → ∀ j, T' j ↔ T j := by
    intro hf j
    rw [ht]
    refine ⟨And.right, fun h => ⟨?_, h⟩⟩
    rintro rfl
    exact absurd ((hk.2.1 j).2 h) (by simp [hf])
  unfold abandonEntry
  split
  · exact freeEntry_kept hk ht
  · rename_i hs
    refine setEntryState_kept hk (by simp [hs]) (by simp) fun j => ?_
    rw [ht]; split <;> rename_i h <;> simp [h]
  · rename_i hs
    have := same (by simp [inTransfer, hs])
    exact ⟨hk.1, fun j => (hk.2.1 j).trans (this j).symm, hk.2.2⟩
  · rename_i hs
    have := same (by simp [inTransfer, hs])
    exact ⟨hk.1, fun j => (hk.2.1 j).trans (this j).symm, hk.2.2⟩

/-- With the target's transfer ended early no entry is in transfer (R132, R139, R150). -/
theorem abandonTarget_kept {T' : Fin 48 → Prop} {m : Maint} (hk : StoreKept st (IsTarget m))
    (hT : ∀ j, ¬ T' j) : StoreKept (abandonTarget m.target st) T' := by
  unfold abandonTarget
  split
  · rename_i i hm
    refine abandonEntry_kept hk fun j => ⟨fun h => absurd h (hT j), fun ⟨hj, h⟩ => ?_⟩
    have := h.1; rw [hm] at this; simp only [Option.some.injEq] at this; exact absurd this.symm hj
  · rename_i hm
    refine ⟨hk.1, fun j => (hk.2.1 j).trans ⟨fun h => ?_, fun h => absurd h (hT j)⟩, hk.2.2⟩
    have := h.1; rw [hm] at this; simp at this

/-- A soft reset keeps the store's laws and ends every transfer (R134). -/
theorem softResetStore_kept {T' : Fin 48 → Prop} (hk : StoreKept st T) (hT : ∀ j, ¬ T' j) :
    StoreKept (softResetStore st) T' := by
  have gen : ∀ (l : List (Fin 48)) (st : Store) (T : Fin 48 → Prop), StoreKept st T →
      StoreKept (l.foldl (fun st i => abandonEntry i st) st) (fun j => j ∉ l ∧ T j) := by
    intro l
    induction l with
    | nil => intro st T h; simpa using h
    | cons i l ih =>
      intro st T h
      have := ih (abandonEntry i st) (fun j => j ≠ i ∧ T j) (abandonEntry_kept h fun _ => Iff.rfl)
      simp only [List.foldl_cons]
      refine ⟨this.1, fun j => (this.2.1 j).trans ?_, this.2.2⟩
      simp only [List.mem_cons, not_or]
      tauto
  have := gen (List.finRange 48) st T hk
  exact ⟨this.1, fun j => (this.2.1 j).trans (by simp [hT]), this.2.2⟩

end Sys2Proof.Machine
end

