-- ==== Sys2Proof/Laws/Frames.lean ====
section
/-! SUPPORT. What an operation of one channel's event can do, said once: `ChanOp n` names what it
leaves alone and which laws it keeps, `LineOp n` adds the channel's lifecycle. Both compose. -/

namespace Sys2Proof.Machine

/-- What every operation of an event of channel `n` leaves alone and keeps. -/
structure ChanOp (n : Fin 32) (s t : State) : Prop where
  enabled   : t.enabled = s.enabled
  tableBase : t.tableBase = s.tableBase
  port      : t.port = s.port
  maint     : t.maint = s.maint
  readData  : t.readData = s.readData
  freeNext  : t.freeNext = s.freeNext
  pending   : t.pending = s.pending
  others    : ∀ k, k ≠ n → t.chan k = s.chan k
  mem       : s.mem.wf → t.mem.wf
  attn      : AttnLegal s.attn → AttnLegal t.attn
  pool      : PoolLegal s → PoolLegal t
  hist      : HistKept (s.chan n) → HistKept (t.chan n)
  store     : ∀ T, StoreKept s.store T → StoreKept t.store T

namespace ChanOp

variable {n : Fin 32} {s t u : State}

theorem refl : ChanOp n s s :=
  ⟨rfl, rfl, rfl, rfl, rfl, rfl, rfl, fun _ _ => rfl, id, id, id, id, fun _ => id⟩

theorem trans (h : ChanOp n s t) (g : ChanOp n t u) : ChanOp n s u where
  enabled := g.enabled.trans h.enabled
  tableBase := g.tableBase.trans h.tableBase
  port := g.port.trans h.port
  maint := g.maint.trans h.maint
  readData := g.readData.trans h.readData
  freeNext := g.freeNext.trans h.freeNext
  pending := g.pending.trans h.pending
  others k hk := (g.others k hk).trans (h.others k hk)
  mem := g.mem ∘ h.mem
  attn := g.attn ∘ h.attn
  pool := g.pool ∘ h.pool
  hist := g.hist ∘ h.hist
  store T := g.store T ∘ h.store T

/-- Memory and the bus script changed, memory's form kept. -/
theorem memory {m : Memory} {b : Bus} (hm : s.mem.wf → m.wf) :
    ChanOp n s { s with mem := m, bus := b } :=
  ⟨rfl, rfl, rfl, rfl, rfl, rfl, rfl, fun _ _ => rfl, hm, id, id, id, fun _ => id⟩

/-- The attention unit changed, its laws kept. -/
theorem attention {a : Attn} (ha : AttnLegal s.attn → AttnLegal a) :
    ChanOp n s { s with attn := a } :=
  ⟨rfl, rfl, rfl, rfl, rfl, rfl, rfl, fun _ _ => rfl, id, ha, id, id, fun _ => id⟩

/-- The store changed, its laws kept. -/
theorem storeOf {st : Store} (hs : ∀ T, StoreKept s.store T → StoreKept st T) :
    ChanOp n s { s with store := st } :=
  ⟨rfl, rfl, rfl, rfl, rfl, rfl, rfl, fun _ _ => rfl, id, id, id, id, hs⟩

/-- The channel changed, its segments and its history's length kept. -/
theorem chanMod {f : Channel → Channel} (hs : (f (s.chan n)).segs = (s.chan n).segs)
    (hh : HistKept (s.chan n) → HistKept (f (s.chan n))) : ChanOp n s (s.modChan n f) := by
  refine ⟨rfl, rfl, rfl, rfl, rfl, rfl, rfl, fun k hk => modChan_chan_ne s n k f hk, id, id,
    poolLegal_of_eq rfl fun k => ?_, by simpa using hh, fun _ => id⟩
  rw [modChan_chan]
  split
  · rename_i e; subst e; exact hs
  · rfl

theorem raise (i : Fin 34) (c : Cause) : ChanOp n s (raise i c s) := attention attnRaise_legal

theorem raiseIf (b : Bool) (i : Fin 34) (c : Cause) : ChanOp n s (raiseIf b i c s) := by
  unfold Machine.raiseIf; split
  · exact raise i c
  · exact refl

theorem grant (g : Nat) : ChanOp n s (grant n g s) :=
  ⟨rfl, rfl, rfl, rfl, rfl, rfl, rfl, fun k hk => grant_chan_ne _ _ _ _ hk, id, id,
    grant_poolLegal g, by rw [grant_chan_self]; exact addSegs_histKept, fun _ => id⟩

theorem shrink (k : Nat) : ChanOp n s (shrink n k s) :=
  ⟨rfl, rfl, rfl, rfl, rfl, rfl, rfl, fun k hk => shrink_chan_ne _ _ _ _ hk, id, id,
    shrink_poolLegal k, by rw [shrink_chan_self]; exact keepSegs_histKept, fun _ => id⟩

end ChanOp

/-- The lifecycle of one channel in an operation that neither opens it nor brings the line back: what
it keeps of R27, R31 and R173. `same` says that lifecycle, timeslot and record in flight are as they
were. -/
structure LifeKept (c d : Channel) : Prop where
  legal : ChanLegal true c → ChanLegal true d
  runs  : running d = true → running c = true
  slot  : running d = true → d.timeslot = c.timeslot
  flies : ∀ f, d.walk.inflight = some f → ∃ g, c.walk.inflight = some g ∧ g.addr = f.addr

theorem LifeKept.refl (c : Channel) : LifeKept c c :=
  ⟨id, id, fun _ => rfl, fun f h => ⟨f, h, rfl⟩⟩

theorem LifeKept.trans {c d e : Channel} (h : LifeKept c d) (g : LifeKept d e) : LifeKept c e where
  legal := g.legal ∘ h.legal
  runs := h.runs ∘ g.runs
  slot r := (g.slot r).trans (h.slot (g.runs r))
  flies f hf := by
    obtain ⟨x, hx, e⟩ := g.flies f hf
    obtain ⟨y, hy, e'⟩ := h.flies x hx
    exact ⟨y, hy, e'.trans e⟩

/-- The fields of the lifecycle as they were: state, resume state, hold reasons, timeslot and record in
flight. -/
structure SameLife (c d : Channel) : Prop where
  state : d.state = c.state
  resume : d.resume = c.resume
  directive : d.holdDirective = c.holdDirective
  line : d.holdLine = c.holdLine
  timeslot : d.timeslot = c.timeslot
  inflight : d.walk.inflight = c.walk.inflight

theorem SameLife.refl (c : Channel) : SameLife c c := ⟨rfl, rfl, rfl, rfl, rfl, rfl⟩

theorem SameLife.trans {c d e : Channel} (h : SameLife c d) (g : SameLife d e) : SameLife c e :=
  ⟨g.1.trans h.1, g.2.trans h.2, g.3.trans h.3, g.4.trans h.4, g.5.trans h.5, g.6.trans h.6⟩

theorem SameLife.legal {c d : Channel} {b : Bool} (h : SameLife c d) (g : ChanLegal b c) :
    ChanLegal b d := by
  unfold ChanLegal at *; rw [h.1, h.2, h.3, h.4]; exact g

theorem SameLife.running {c d : Channel} (h : SameLife c d) : running d = running c := by
  unfold Machine.running; rw [h.1]

theorem SameLife.lifeKept {c d : Channel} (h : SameLife c d) : LifeKept c d :=
  ⟨h.legal, fun r => h.running ▸ r, fun _ => h.5, fun f hf => ⟨f, h.6 ▸ hf, rfl⟩⟩

/-- The lifecycle kept where the fields it reads are as they were. -/
theorem LifeKept.of_eq {c d : Channel} (h1 : d.state = c.state) (h2 : d.resume = c.resume)
    (h3 : d.holdDirective = c.holdDirective) (h4 : d.holdLine = c.holdLine)
    (h5 : d.timeslot = c.timeslot) (h6 : d.walk.inflight = c.walk.inflight) : LifeKept c d :=
  SameLife.lifeKept ⟨h1, h2, h3, h4, h5, h6⟩

/-- An operation of channel `n`'s event that leaves its lifecycle as it was. -/
structure StillOp (n : Fin 32) (s t : State) : Prop where
  op   : ChanOp n s t
  same : SameLife (s.chan n) (t.chan n)

namespace StillOp

variable {n : Fin 32} {s t u : State}

theorem refl : StillOp n s s := ⟨.refl, .refl _⟩

theorem trans (h : StillOp n s t) (g : StillOp n t u) : StillOp n s u :=
  ⟨h.op.trans g.op, h.same.trans g.same⟩

theorem of_chan_eq (h : ChanOp n s t) (e : t.chan n = s.chan n) : StillOp n s t :=
  ⟨h, e ▸ .refl _⟩

theorem chanMod {f : Channel → Channel} (hs : (f (s.chan n)).segs = (s.chan n).segs)
    (hh : HistKept (s.chan n) → HistKept (f (s.chan n))) (hl : SameLife (s.chan n) (f (s.chan n))) :
    StillOp n s (s.modChan n f) :=
  ⟨.chanMod hs hh, by simpa using hl⟩

/-- A change of the channel that touches neither its lifecycle nor its segments. -/
theorem quiet {f : Channel → Channel} (h1 : (f (s.chan n)).state = (s.chan n).state)
    (h2 : (f (s.chan n)).resume = (s.chan n).resume)
    (h3 : (f (s.chan n)).holdDirective = (s.chan n).holdDirective)
    (h4 : (f (s.chan n)).holdLine = (s.chan n).holdLine)
    (h5 : (f (s.chan n)).timeslot = (s.chan n).timeslot)
    (h6 : (f (s.chan n)).walk.inflight = (s.chan n).walk.inflight)
    (h7 : (f (s.chan n)).segs = (s.chan n).segs)
    (h8 : (f (s.chan n)).poolHist = (s.chan n).poolHist) : StillOp n s (s.modChan n f) :=
  chanMod h7 (fun h => by unfold HistKept at *; rw [h7, h8]; exact h) ⟨h1, h2, h3, h4, h5, h6⟩

theorem raise (i : Fin 34) (c : Cause) : StillOp n s (raise i c s) := of_chan_eq (.raise i c) rfl

theorem raiseIf (b : Bool) (i : Fin 34) (c : Cause) : StillOp n s (raiseIf b i c s) := by
  unfold Machine.raiseIf; split
  · exact raise i c
  · exact refl

theorem grant (g : Nat) : StillOp n s (grant n g s) :=
  ⟨.grant g, by rw [grant_chan_self]; exact ⟨rfl, rfl, rfl, rfl, rfl, rfl⟩⟩

theorem shrink (k : Nat) : StillOp n s (shrink n k s) :=
  ⟨.shrink k, by rw [shrink_chan_self]; exact ⟨rfl, rfl, rfl, rfl, rfl, rfl⟩⟩

theorem releaseAll : StillOp n s (releaseAll n s) := shrink 0

theorem bringHolding (t : Nat) : StillOp n s (bringHolding n t s) := by
  unfold Machine.bringHolding
  simp only
  split_ifs
  · exact shrink t
  · exact grant _
  · exact refl

end StillOp

/-- An operation of channel `n`'s event that keeps its lifecycle. -/
structure LineOp (n : Fin 32) (s t : State) : Prop where
  op   : ChanOp n s t
  life : LifeKept (s.chan n) (t.chan n)

/-- An operation that leaves the lifecycle as it was keeps its laws. -/
theorem StillOp.lineOp {n : Fin 32} {s t : State} (h : StillOp n s t) : LineOp n s t :=
  ⟨h.op, h.same.lifeKept⟩

namespace LineOp

variable {n : Fin 32} {s t u : State}

theorem refl : LineOp n s s := ⟨.refl, .refl _⟩

theorem trans (h : LineOp n s t) (g : LineOp n t u) : LineOp n s u :=
  ⟨h.op.trans g.op, h.life.trans g.life⟩

theorem chanMod {f : Channel → Channel} (hs : (f (s.chan n)).segs = (s.chan n).segs)
    (hh : HistKept (s.chan n) → HistKept (f (s.chan n))) (hl : LifeKept (s.chan n) (f (s.chan n))) :
    LineOp n s (s.modChan n f) :=
  ⟨.chanMod hs hh, by simpa using hl⟩

/-- A change of the channel that touches neither its lifecycle nor its segments. -/
theorem quiet {f : Channel → Channel} (h1 : (f (s.chan n)).state = (s.chan n).state)
    (h2 : (f (s.chan n)).resume = (s.chan n).resume)
    (h3 : (f (s.chan n)).holdDirective = (s.chan n).holdDirective)
    (h4 : (f (s.chan n)).holdLine = (s.chan n).holdLine)
    (h5 : (f (s.chan n)).timeslot = (s.chan n).timeslot)
    (h6 : (f (s.chan n)).walk.inflight = (s.chan n).walk.inflight)
    (h7 : (f (s.chan n)).segs = (s.chan n).segs)
    (h8 : (f (s.chan n)).poolHist = (s.chan n).poolHist) : LineOp n s (s.modChan n f) :=
  (StillOp.quiet h1 h2 h3 h4 h5 h6 h7 h8).lineOp

theorem raise (i : Fin 34) (c : Cause) : LineOp n s (raise i c s) := (StillOp.raise i c).lineOp

theorem raiseIf (b : Bool) (i : Fin 34) (c : Cause) : LineOp n s (raiseIf b i c s) :=
  (StillOp.raiseIf b i c).lineOp

end LineOp

/-! ## Bus accesses -/

section
variable (s : State)

/-- One slot of the bus script: only memory and the script change. -/
theorem busSlot_spec : ∃ m b, (busSlot s).2 = { s with mem := m, bus := b } ∧ (s.mem.wf → m.wf) := by
  unfold busSlot
  split
  · exact ⟨s.mem, s.bus, rfl, id⟩
  · rename_i b rest h; exact ⟨_, rest, rfl, fun h => applyHost_wf _ h⟩

/-- A word read: only memory and the script change. -/
theorem readWord_spec (a : Word) :
    ∃ m b, (readWord a s).2 = { s with mem := m, bus := b } ∧ (s.mem.wf → m.wf) := by
  obtain ⟨m, b, h, hm⟩ := busSlot_spec s
  refine ⟨m, b, ?_, hm⟩
  unfold readWord
  simp only [h]
  split <;> rfl

/-- A word written: only memory and the script change. -/
theorem writeWord_spec (a v : Word) :
    ∃ m b, (writeWord a v s).2 = { s with mem := m, bus := b } ∧ (s.mem.wf → m.wf) := by
  obtain ⟨m, b, h, hm⟩ := busSlot_spec s
  unfold writeWord
  simp only [h]
  split
  · exact ⟨m, b, rfl, hm⟩
  · exact ⟨memSetWord m a v, b, rfl, fun w => memSetWord_wf a v (hm w)⟩

/-- A half-word written: only memory and the script change. -/
theorem writeHalf_spec (a : Word) (v : BitVec 16) :
    ∃ m b, (writeHalf a v s).2 = { s with mem := m, bus := b } ∧ (s.mem.wf → m.wf) := by
  obtain ⟨m, b, h, hm⟩ := busSlot_spec s
  unfold writeHalf
  simp only [h]
  split
  · exact ⟨m, b, rfl, hm⟩
  · exact ⟨memSetHalf m a v, b, rfl, fun w => memSetHalf_wf a v (hm w)⟩

/-- Words read: only memory and the script change. -/
theorem readWords_spec (k : Nat) (a : Word) :
    ∃ m b, (readWords k a s).2 = { s with mem := m, bus := b } ∧ (s.mem.wf → m.wf) := by
  induction k generalizing a s with
  | zero => exact ⟨s.mem, s.bus, rfl, id⟩
  | succ k ih =>
    obtain ⟨m, b, h, hm⟩ := readWord_spec s a
    unfold readWords
    split
    · rename_i t ht; rw [ht] at h; exact ⟨m, b, h, hm⟩
    · rename_i w t ht
      rw [ht] at h; simp only at h; subst h
      obtain ⟨m', b', h', hm'⟩ := ih { s with mem := m, bus := b } (a + 4#32)
      refine ⟨m', b', ?_, hm' ∘ hm⟩
      split
      · rename_i u hu; rw [hu] at h'; exact h'
      · rename_i ws u hu; rw [hu] at h'; exact h'

/-- Words written: only memory and the script change. -/
theorem writeWords_spec (ws : List Word) (a : Word) :
    ∃ m b, (writeWords ws a s).2 = { s with mem := m, bus := b } ∧ (s.mem.wf → m.wf) := by
  induction ws generalizing a s with
  | nil => exact ⟨s.mem, s.bus, rfl, id⟩
  | cons w ws ih =>
    obtain ⟨m, b, h, hm⟩ := writeWord_spec s a w
    unfold writeWords
    split
    · rename_i t ht; rw [ht] at h; exact ⟨m, b, h, hm⟩
    · rename_i t ht
      rw [ht] at h; simp only at h; subst h
      obtain ⟨m', b', h', hm'⟩ := ih { s with mem := m, bus := b } (a + 4#32)
      exact ⟨m', b', h', hm' ∘ hm⟩

/-- Words read are as many as were asked for. -/
theorem readWords_length (k : Nat) (a : Word) {ws : List Word} {t : State}
    (h : readWords k a s = (some ws, t)) : ws.length = k := by
  induction k generalizing a s ws t with
  | zero => simp [readWords] at h; simp [← h.1]
  | succ k ih =>
    unfold readWords at h
    split at h
    · simp at h
    · rename_i w u hu
      split at h
      · simp at h
      · rename_i vs v hv
        simp only [Prod.mk.injEq, Option.some.injEq] at h
        rw [← h.1, List.length_cons, ih u _ hv]

end

/-- What a whole access, or a run of them, does to the rest of the state: nothing. -/
theorem ChanOp.of_spec {n : Fin 32} {s t : State}
    (h : ∃ m b, t = { s with mem := m, bus := b } ∧ (s.mem.wf → m.wf)) : ChanOp n s t := by
  obtain ⟨m, b, rfl, hm⟩ := h
  exact .memory hm

theorem StillOp.of_spec {n : Fin 32} {s t : State}
    (h : ∃ m b, t = { s with mem := m, bus := b } ∧ (s.mem.wf → m.wf)) : StillOp n s t := by
  obtain ⟨m, b, rfl, hm⟩ := h
  exact .of_chan_eq (.memory hm) rfl

section
variable {n : Fin 32} {s t : State}

theorem StillOp.of_readWord {a : Word} {r : Option Word} (h : readWord a s = (r, t)) : StillOp n s t := by
  have := readWord_spec s a; rw [h] at this; exact .of_spec this

theorem StillOp.of_readWords {k : Nat} {a : Word} {r : Option (List Word)}
    (h : readWords k a s = (r, t)) : StillOp n s t := by
  have := readWords_spec s k a; rw [h] at this; exact .of_spec this

theorem StillOp.of_writeWord {a v : Word} {r : Bool} (h : writeWord a v s = (r, t)) : StillOp n s t := by
  have := writeWord_spec s a v; rw [h] at this; exact .of_spec this

theorem StillOp.of_writeWords {ws : List Word} {a : Word} {r : Bool}
    (h : writeWords ws a s = (r, t)) : StillOp n s t := by
  have := writeWords_spec s ws a; rw [h] at this; exact .of_spec this

theorem LineOp.of_readWord {a : Word} {r : Option Word} (h : readWord a s = (r, t)) : LineOp n s t :=
  (StillOp.of_readWord h).lineOp

theorem LineOp.of_readWords {k : Nat} {a : Word} {r : Option (List Word)}
    (h : readWords k a s = (r, t)) : LineOp n s t := (StillOp.of_readWords h).lineOp

theorem LineOp.of_writeWord {a v : Word} {r : Bool} (h : writeWord a v s = (r, t)) : LineOp n s t :=
  (StillOp.of_writeWord h).lineOp

theorem LineOp.of_writeWords {ws : List Word} {a : Word} {r : Bool}
    (h : writeWords ws a s = (r, t)) : LineOp n s t := (StillOp.of_writeWords h).lineOp

/-! ## Status writes and entry to FAULT -/

/-- A write into a descriptor changes memory and, on a bus error, raises TABLE_FAULT (R159, R160). -/
theorem writeDesc_stillOp (k : Nat) (o : Word) (ws : List Word) : StillOp n s (writeDesc k o ws s).2 := by
  unfold writeDesc
  split
  · exact .refl
  · split
    · rename_i t ht; exact .of_writeWords ht
    · rename_i t ht; exact (StillOp.of_writeWords ht).trans (.raise _ _)

/-- A status write of a channel keeps the channel but for the mark that one was due (R159). -/
theorem statusWrite_stillOp : StillOp n s (statusWrite n s).2 := by
  unfold statusWrite
  have h := writeDesc_stillOp (n := n) (s := s) n 128#32 (statusWords (s.chan n))
  generalize writeDesc n 128#32 (statusWords (s.chan n)) s = p at h ⊢
  obtain ⟨b, t⟩ := p
  refine h.trans ?_
  dsimp only
  exact .quiet rfl rfl rfl rfl rfl rfl rfl rfl

theorem statusEvent_stillOp (c : Channel) : StillOp n s (statusEvent n c s) := by
  unfold statusEvent
  split
  · exact statusWrite_stillOp
  · exact .refl

/-- The lifecycle of a channel that stops running (R36, R38): no law of R27, R31 or R173 is left to
keep. -/
theorem leaveRunning_lifeKept (final : ChanState) (h : final = .closed ∨ final = .fault) (c : Channel) :
    LifeKept c (leaveRunning final c) where
  legal _ := by rcases h with rfl | rfl <;> simp [ChanLegal, leaveRunning, endBlock]
  runs r := by rcases h with rfl | rfl <;> simp [running, leaveRunning, endBlock] at r
  slot r := by rcases h with rfl | rfl <;> simp [running, leaveRunning, endBlock] at r
  flies f hf := by simp [leaveRunning, endBlock] at hf

theorem leaveRunning_lineOp (final : ChanState) (h : final = .closed ∨ final = .fault) :
    LineOp n s (s.modChan n (leaveRunning final)) :=
  .chanMod rfl id (leaveRunning_lifeKept final h _)

/-- Entry to FAULT but for its status write (R38). -/
theorem faultEffects_lineOp : LineOp n s (faultEffects n s) := by
  unfold faultEffects
  exact (StillOp.releaseAll.lineOp.trans (leaveRunning_lineOp _ (.inr rfl))).trans
    (StillOp.raise _ _).lineOp

/-- Entry to FAULT (R38). -/
theorem enterFault_lineOp : LineOp n s (enterFault n s) :=
  faultEffects_lineOp.trans statusWrite_stillOp.lineOp

end

/-! ## Hold reasons -/

section
variable {n : Fin 32} {s : State}

theorem addHoldChan_lifeKept (r : HoldReason) (c : Channel) : LifeKept c (addHoldChan r c) := by
  unfold addHoldChan
  cases hs : c.state <;> cases r <;>
    constructor <;> simp_all [ChanLegal, setHold, running]

theorem setHold_state (r : HoldReason) (b : Bool) (c : Channel) :
    (setHold r b c).state = c.state ∧ (setHold r b c).resume = c.resume ∧
      (setHold r b c).timeslot = c.timeslot ∧ (setHold r b c).walk = c.walk ∧
      (setHold r b c).segs = c.segs ∧ (setHold r b c).poolHist = c.poolHist := by
  cases r <;> exact ⟨rfl, rfl, rfl, rfl, rfl, rfl⟩

theorem removeHoldChan_lifeKept (r : HoldReason) (c : Channel) : LifeKept c (removeHoldChan r c) := by
  unfold removeHoldChan
  obtain ⟨h1, h2, h3, h4, -, -⟩ := setHold_state r false c
  split_ifs with hs hd
  · refine ⟨fun h => ?_, fun _ => by simp [running, hs], fun _ => h3, fun f hf => ⟨f, h4 ▸ hf, rfl⟩⟩
    unfold ChanLegal at h ⊢
    rw [h1, h2]
    refine ⟨h.1, ⟨fun _ => by simpa using hd, fun _ => hs⟩, h.2.2⟩
  · refine ⟨fun h => ?_, fun _ => by simp [running, hs], fun _ => h3, fun f hf => ⟨f, h4 ▸ hf, rfl⟩⟩
    simp only [Bool.or_eq_true, not_or, Bool.not_eq_true] at hd
    cases hr : (setHold r false c).resume with
    | none => simp [ChanLegal, leaveHeld, hr, hd]
    | some rs => cases rs <;> simp [ChanLegal, leaveHeld, hr, hd, RunState.toState]
  · exact .refl c

theorem addHoldChan_segs (r : HoldReason) (c : Channel) :
    (addHoldChan r c).segs = c.segs ∧ (addHoldChan r c).poolHist = c.poolHist := by
  unfold addHoldChan; cases c.state <;> cases r <;> exact ⟨rfl, rfl⟩

theorem removeHoldChan_segs (r : HoldReason) (c : Channel) :
    (removeHoldChan r c).segs = c.segs ∧ (removeHoldChan r c).poolHist = c.poolHist := by
  obtain ⟨-, -, -, -, h5, h6⟩ := setHold_state r false c
  unfold removeHoldChan
  split_ifs <;> first | exact ⟨h5, h6⟩ | exact ⟨rfl, rfl⟩

/-- A change of hold reasons keeps the channel's lifecycle laws (R47, R48). -/
theorem changeHold_lineOp {f : Channel → Channel} (hl : ∀ c, LifeKept c (f c))
    (hs : ∀ c, (f c).segs = c.segs ∧ (f c).poolHist = c.poolHist) : LineOp n s (changeHold n f s) := by
  unfold changeHold
  refine LineOp.trans (LineOp.chanMod (hs _).1 (fun h => ?_) (hl _)) (StillOp.raiseIf _ _ _).lineOp
  unfold HistKept at *; rw [(hs _).1, (hs _).2]; exact h

end

end Sys2Proof.Machine
end

