-- ==== Sys2Proof/Laws/Events.lean ====
section
/-! SUPPORT. What the operations of a channel's boundary do, each said once: search, program, directives,
completions, takes and closes keep the laws of `LineOp`, and a boundary those of `BoundaryOp`. -/

namespace Sys2Proof.Machine

variable {n : Fin 32} {s t u : State}

/-! ## Delay search -/

theorem startSearch_stillOp : StillOp n s (startSearch n s) := by
  unfold startSearch
  dsimp only
  have h1 : StillOp n s (s.modChan n fun c => { c with filt := farOff c.filt, statusDue := true }) :=
    .quiet rfl rfl rfl rfl rfl rfl rfl rfl
  have h2 := h1.trans (StillOp.bringHolding
    (searchTarget ((s.modChan n fun c => { c with filt := farOff c.filt, statusDue := true }).chan n)))
  split_ifs
  · exact (h2.trans (.raiseIf _ _ _)).trans (.quiet rfl rfl rfl rfl rfl rfl rfl rfl)
  · exact (((h2.trans (.raiseIf _ _ _)).trans .releaseAll).trans
      (.quiet rfl rfl rfl rfl rfl rfl rfl rfl)).trans (.raise _ _)

theorem placeWindow_stillOp : StillOp n s (placeWindow n s) := by
  unfold placeWindow
  dsimp only
  split_ifs
  · exact (StillOp.bringHolding _).trans (.quiet rfl rfl rfl rfl rfl rfl rfl rfl)
  · exact ((StillOp.bringHolding _).trans (.raise _ _)).trans
      (.quiet rfl rfl rfl rfl rfl rfl rfl rfl)
  · exact (((StillOp.bringHolding _).trans (.raise _ _)).trans .releaseAll).trans
      (.quiet rfl rfl rfl rfl rfl rfl rfl rfl)

theorem endSearch_stillOp : StillOp n s (endSearch n s) := by
  unfold endSearch
  dsimp only
  refine StillOp.trans (StillOp.trans (t := if accepted (s.chan n).ratio (s.chan n).search = true
    then placeWindow n s
    else (releaseAll n s).modChan n fun c => { c with filt := farOff c.filt }) ?_
      (.quiet rfl rfl rfl rfl rfl rfl rfl rfl)) (.raise _ _)
  split
  · exact placeWindow_stillOp
  · exact StillOp.releaseAll.trans (.quiet rfl rfl rfl rfl rfl rfl rfl rfl)

theorem abandonSearch_stillOp : StillOp n s (abandonSearch n s) := by
  unfold abandonSearch
  split
  · exact StillOp.releaseAll.trans (.quiet rfl rfl rfl rfl rfl rfl rfl rfl)
  · exact .refl

/-! ## Training program and directives -/

theorem enterPhase_stillOp (p : Nat) : StillOp n s (enterPhase n p s) := by
  unfold enterPhase
  dsimp only
  have h : StillOp n s (s.modChan n fun c => { c with phaseIndex := p, blockCount := 0, earlyRun := 0 }) :=
    .quiet rfl rfl rfl rfl rfl rfl rfl rfl
  split
  · exact h.trans startSearch_stillOp
  · exact h

/-- The lifecycle of a channel in TRAINING that enters TRACKING (R44). -/
theorem toTracking_lifeKept {c d : Channel} (hs : c.state = .training) (h1 : d.state = .tracking)
    (h2 : d.resume = c.resume) (h3 : d.holdDirective = c.holdDirective) (h4 : d.holdLine = c.holdLine)
    (h5 : d.timeslot = c.timeslot) (h6 : d.walk = c.walk) : LifeKept c d := by
  refine ⟨fun h => ?_, fun _ => by simp [running, hs], fun _ => h5, fun f hf => ⟨f, h6 ▸ hf, rfl⟩⟩
  unfold ChanLegal at *
  rw [h1, h2, h3, h4]
  simpa [hs] using h

theorem nextPhase_lineOp (hs : (s.chan n).state = .training) : LineOp n s (nextPhase n s) := by
  unfold nextPhase
  dsimp only
  split
  · exact (enterPhase_stillOp _).lineOp
  · exact (LineOp.chanMod rfl id (toTracking_lifeKept hs rfl rfl rfl rfl rfl rfl)).trans (.raise _ _)

theorem advanceProgram_lineOp (er eu : Nat) (hs : (s.chan n).state = .training) :
    LineOp n s (advanceProgram n er eu s) := by
  unfold advanceProgram
  dsimp only
  generalize hv : s.modChan n (fun c =>
    { c with blockCount := c.blockCount + 1, earlyRun := nextEarlyRun c er eu }) = v
  have h1 : LineOp n s v := hv ▸ .quiet rfl rfl rfl rfl rfl rfl rfl rfl
  have e1 : (v.chan n).state = .training := by rw [← hv, modChan_chan_self]; exact hs
  split_ifs
  · exact (h1.trans endSearch_stillOp.lineOp).trans (nextPhase_lineOp (endSearch_stillOp.same.state.trans e1))
  · exact h1.trans (nextPhase_lineOp e1)
  · exact h1

theorem untrain_stillOp : StillOp n s (untrain n s) :=
  StillOp.releaseAll.trans (.quiet rfl rfl rfl rfl rfl rfl rfl rfl)

theorem backToTraining_lineOp : LineOp n s (backToTraining n s) := by
  unfold backToTraining
  split
  · rename_i hs
    refine LineOp.trans (.chanMod rfl id ?_) (.raise _ _)
    refine ⟨fun h => ?_, fun _ => by simp [running, hs], fun _ => rfl, fun f hf => ⟨f, hf, rfl⟩⟩
    unfold ChanLegal at *
    simpa [hs] using h
  · rename_i hs
    refine .chanMod rfl id ?_
    refine ⟨fun h => ?_, fun _ => by simp [running, hs], fun _ => rfl, fun f hf => ⟨f, hf, rfl⟩⟩
    unfold ChanLegal at *
    refine ⟨fun _ => rfl, ?_, by simp [hs]⟩
    simpa [hs] using h.2.1
  · exact .refl
  · exact .refl
  · exact .refl

theorem divergenceRestart_lineOp : LineOp n s (divergenceRestart n s) := by
  unfold divergenceRestart
  dsimp only
  exact (((untrain_stillOp.lineOp.trans (enterPhase_stillOp 0).lineOp).trans
    (.quiet rfl rfl rfl rfl rfl rfl rfl rfl)).trans backToTraining_lineOp).trans (.raise _ _)

theorem guardAndProgram_lineOp (er eu : Nat) : LineOp n s (guardAndProgram n er eu s) := by
  unfold guardAndProgram
  dsimp only
  split
  · rename_i hs
    split_ifs
    all_goals first
      | exact divergenceRestart_lineOp
      | exact LineOp.trans (.quiet rfl rfl rfl rfl rfl rfl rfl rfl)
          (advanceProgram_lineOp er eu (by rw [modChan_chan_self]; exact hs))
  · split_ifs
    all_goals first
      | exact divergenceRestart_lineOp
      | exact .quiet rfl rfl rfl rfl rfl rfl rfl rfl
  · exact .refl
  · exact .refl
  · exact .refl

theorem requestSave_stillOp : StillOp n s (requestSave n s).2 := by
  unfold requestSave
  dsimp only
  refine StillOp.trans (StillOp.trans (StillOp.of_chan_eq (ChanOp.storeOf
    (st := (saveProfileTo s.store (s.chan n).routeTag (s.chan n).filt).2)
    fun T h => saveProfileTo_kept _ h) rfl) ?_) (.raiseIf _ _ _)
  exact .quiet rfl rfl rfl rfl rfl rfl rfl rfl

theorem retrain_lineOp (p : Nat) : LineOp n s (retrain n p s) :=
  (abandonSearch_stillOp.lineOp.trans backToTraining_lineOp).trans (enterPhase_stillOp p).lineOp

theorem restart_lineOp : LineOp n s (restart n s) :=
  (untrain_stillOp.lineOp.trans (enterPhase_stillOp 0).lineOp).trans backToTraining_lineOp

theorem saveNow_stillOp : StillOp n s (saveNow n s).2 := by
  unfold saveNow
  dsimp only
  split
  · exact requestSave_stillOp
  · exact .refl

theorem applyDirective_lineOp (code arg : Nat) : LineOp n s (applyDirective n code arg s).2 := by
  unfold applyDirective
  split
  · exact .refl
  · exact changeHold_lineOp (addHoldChan_lifeKept _) (addHoldChan_segs _)
  · exact changeHold_lineOp (removeHoldChan_lifeKept _) (removeHoldChan_segs _)
  · split
    · exact retrain_lineOp arg
    · exact .refl
  · exact restart_lineOp
  · exact saveNow_stillOp.lineOp
  · exact .refl

/-! ## Links and completions -/

theorem followLink_lineOp (a : Word) : LineOp n s (followLink n a s).2 := by
  unfold followLink
  split
  · rename_i t ht; exact (LineOp.of_readWord ht).trans enterFault_lineOp
  · rename_i v t ht
    split
    · refine (LineOp.of_readWord ht).trans ?_
      dsimp only
      exact .quiet rfl rfl rfl rfl rfl rfl rfl rfl
    · refine (LineOp.of_readWord ht).trans ?_
      dsimp only
      exact .quiet rfl rfl rfl rfl rfl rfl rfl rfl
    · exact (LineOp.of_readWord ht).trans enterFault_lineOp

theorem clearInflight_lineOp : LineOp n s (s.modChan n clearInflight) := by
  refine .chanMod rfl id ⟨fun h => ?_, id, fun _ => rfl, fun f hf => ?_⟩
  · exact h
  · simp [clearInflight] at hf

theorem completeDone_lineOp (f : InFlight) (z w : List Sample) (m : Metrics) :
    LineOp n s (completeDone n f z w m s) := by
  unfold completeDone
  split
  · rename_i t ht; exact (LineOp.of_writeWords ht).trans enterFault_lineOp
  · rename_i t ht
    dsimp only
    have h1 := (LineOp.of_writeWords (n := n) ht).trans
      (LineOp.quiet (f := fun c => { c with walk := { c.walk with gapCount := 0 } })
        rfl rfl rfl rfl rfl rfl rfl rfl)
    split
    · rename_i v hv; exact (h1.trans (.of_writeWord hv)).trans enterFault_lineOp
    · rename_i v hv
      exact (((h1.trans (.of_writeWord hv)).trans clearInflight_lineOp).trans
        (followLink_lineOp _)).trans (.raiseIf _ _ _)

theorem writeEarlyCode_lineOp (f : InFlight) (code : Word) :
    LineOp n s (writeEarlyCode n f code s).2 := by
  unfold writeEarlyCode
  split
  · rename_i t ht; exact .of_writeWord ht
  · rename_i t ht
    dsimp only
    have h1 := (LineOp.of_writeWord (n := n) ht).trans
      (LineOp.quiet (f := fun c => { c with walk := { c.walk with gapCount := 0 } })
        rfl rfl rfl rfl rfl rfl rfl rfl)
    split
    · rename_i v hv; exact h1.trans (.of_writeWord hv)
    · rename_i v hv; exact (h1.trans (.of_writeWord hv)).trans clearInflight_lineOp

theorem completeLineLost_lineOp (f : InFlight) (r : Bool) : LineOp n s (completeLineLost n f r s) := by
  unfold completeLineLost
  have h := writeEarlyCode_lineOp (n := n) (s := s) f dispLineLost
  split
  · rename_i t ht; rw [ht] at h; exact h.trans enterFault_lineOp
  · rename_i t ht
    rw [ht] at h
    dsimp only at h ⊢
    split
    · exact (h.trans (followLink_lineOp _)).trans (.raiseIf _ _ _)
    · exact h.trans (.raiseIf _ _ _)

/-! ## Takes -/

theorem starve_stillOp : StillOp n s (starve n s) := by
  unfold starve
  dsimp only
  exact StillOp.trans (.quiet rfl rfl rfl rfl rfl rfl rfl rfl) (.raiseIf _ _ _)

theorem beginBlock_stillOp : StillOp n s (s.modChan n beginBlock) :=
  .quiet rfl rfl rfl rfl rfl rfl rfl rfl

theorem starveAndBegin_stillOp : StillOp n s (starveAndBegin n s) :=
  starve_stillOp.trans beginBlock_stillOp

theorem refuseRecord_lineOp (a : Word) (k : Control) : LineOp n s (refuseRecord n a k s) := by
  unfold refuseRecord
  split
  · rename_i t ht; exact (LineOp.of_writeWord ht).trans enterFault_lineOp
  · rename_i t ht
    have h := followLink_lineOp (n := n) (s := t) a
    split
    · rename_i v hv; rw [hv] at h; exact ((LineOp.of_writeWord ht).trans h).trans (.raiseIf _ _ _)
    · rename_i v hv
      rw [hv] at h
      exact (((LineOp.of_writeWord ht).trans h).trans (.raiseIf _ _ _)).trans starveAndBegin_stillOp.lineOp

/-- What an operation of channel `n`'s boundary does: as a `LineOp`, but that the record in flight after
it may be a new one, whose address is no other channel's record in flight (R173). -/
structure BoundaryOp (n : Fin 32) (s t : State) : Prop where
  op    : ChanOp n s t
  legal : ChanLegal true (s.chan n) → ChanLegal true (t.chan n)
  runs  : running (t.chan n) = true → running (s.chan n) = true
  slot  : running (t.chan n) = true → (t.chan n).timeslot = (s.chan n).timeslot
  flies : ∀ f, (t.chan n).walk.inflight = some f →
    (∃ g, (s.chan n).walk.inflight = some g ∧ g.addr = f.addr) ∨
      ∀ k, k ≠ n → ∀ g, (s.chan k).walk.inflight = some g → g.addr ≠ f.addr

theorem LineOp.boundaryOp (h : LineOp n s t) : BoundaryOp n s t :=
  ⟨h.op, h.life.legal, h.life.runs, h.life.slot, fun f hf => .inl (h.life.flies f hf)⟩

theorem BoundaryOp.trans (h : BoundaryOp n s t) (g : BoundaryOp n t u) : BoundaryOp n s u where
  op := h.op.trans g.op
  legal := g.legal ∘ h.legal
  runs := h.runs ∘ g.runs
  slot r := (g.slot r).trans (h.slot (g.runs r))
  flies f hf := by
    rcases g.flies f hf with ⟨x, hx, e⟩ | hn
    · rcases h.flies x hx with ⟨y, hy, e'⟩ | hn
      · exact .inl ⟨y, hy, e'.trans e⟩
      · exact .inr (e ▸ hn)
    · refine .inr fun k hk x hx => hn k hk x ?_
      rwa [h.op.others k hk]

theorem heldByOther_false {a : Word} (h : heldByOther s n a = false) (k : Fin 32) (hk : k ≠ n)
    (g : InFlight) (hg : (s.chan k).walk.inflight = some g) : g.addr ≠ a := by
  have := List.any_eq_false.1 h k (List.mem_finRange k)
  simpa [hk, hg] using this

/-- A record taken whose address no other channel holds in flight (R92, R173). -/
theorem takeRecord_boundaryOp {a : Word} {k : Control} (h : heldByOther s n a = false) :
    BoundaryOp n s (takeRecord n a k s) := by
  unfold takeRecord
  split
  · rename_i t ht; exact ((LineOp.of_writeWord ht).trans enterFault_lineOp).boundaryOp
  · rename_i t ht
    have h1 : LineOp n s t := .of_writeWord ht
    split
    · rename_i v hv; exact ((h1.trans (.of_readWords hv)).trans enterFault_lineOp).boundaryOp
    · rename_i ws v hv
      have h2 : LineOp n s v := h1.trans (.of_readWords hv)
      dsimp only
      have load : BoundaryOp n v (v.modChan n (loadTaken a k (unpackSamples ws))) := by
        refine ⟨.chanMod rfl id, ?_, ?_, ?_, ?_⟩
        · rw [modChan_chan_self]; exact id
        · rw [modChan_chan_self]; exact id
        · rw [modChan_chan_self]; exact fun _ => rfl
        · rw [modChan_chan_self]
          intro f hf
          have : takenRecord a k = f := by simpa [loadTaken] using hf
          refine .inr fun j hj g hg => ?_
          rw [← this]
          exact heldByOther_false h j hj g (h2.op.others j hj ▸ hg)
      have h3 := (h2.boundaryOp.trans load).trans beginBlock_stillOp.lineOp.boundaryOp
      generalize State.modChan n beginBlock (v.modChan n (loadTaken a k (unpackSamples ws))) = w
        at h3 ⊢
      have h4 := h3.trans (applyDirective_lineOp k.dirCode k.dirArg).boundaryOp
      refine (h4.trans (LineOp.boundaryOp ?_)).trans (statusEvent_stillOp _).lineOp.boundaryOp
      refine .chanMod rfl id ⟨id, id, fun _ => rfl, fun f hf => ?_⟩
      simp only [keepReport, Option.map_eq_some_iff] at hf
      obtain ⟨g, hg, rfl⟩ := hf
      exact ⟨g, hg, rfl⟩

theorem heldByOther_congr {a : Word} (h : ChanOp n s t) : heldByOther t n a = heldByOther s n a := by
  have h0 : ∀ k : Fin 32,
      (k != n && ((t.chan k).walk.inflight.map InFlight.addr) == some a) =
        (k != n && ((s.chan k).walk.inflight.map InFlight.addr) == some a) := by
    intro k
    by_cases hk : k = n
    · simp [hk]
    · rw [h.others k hk]
  unfold heldByOther
  rw [funext h0]

theorem lookAtRecord_boundaryOp : BoundaryOp n s (lookAtRecord n s) := by
  unfold lookAtRecord
  dsimp only
  split
  · rename_i t ht; exact ((LineOp.of_readWord ht).trans enterFault_lineOp).boundaryOp
  · rename_i d t ht
    have h1 : LineOp n s t := .of_readWord ht
    split
    · exact (h1.trans starveAndBegin_stillOp.lineOp).boundaryOp
    · rename_i hc
      split
      · rename_i v hv; exact ((h1.trans (.of_readWord hv)).trans enterFault_lineOp).boundaryOp
      · rename_i w v hv
        have h2 : LineOp n t v := .of_readWord hv
        split
        · refine (h1.trans h2).boundaryOp.trans (takeRecord_boundaryOp ?_)
          rw [heldByOther_congr h2.op]
          simp only [Bool.or_eq_true, not_or, Bool.not_eq_true] at hc
          exact hc.2
        · exact ((h1.trans h2).trans (refuseRecord_lineOp _ _)).boundaryOp

theorem take_boundaryOp : BoundaryOp n s (take n s) := by
  unfold take
  split
  · exact lookAtRecord_boundaryOp
  · have h := followLink_lineOp (n := n) (s := s) (s.chan n).walk.cursor
    split
    · rename_i t ht; rw [ht] at h; exact h.boundaryOp
    · rename_i t ht
      rw [ht] at h
      split
      · exact (h.trans starveAndBegin_stillOp.lineOp).boundaryOp
      · exact h.boundaryOp.trans lookAtRecord_boundaryOp

/-! ## Closes and boundaries -/

theorem block40_length (xs : List Sample) : (block40 xs).length = 40 := by simp [block40]

theorem enterPool_histKept {k : Nat} {x p : List Sample} (h : p.length = 32 * k) :
    (enterPool k x p).length = 32 * k := by
  simp [enterPool, h]

theorem applyClose_lineOp (m : Measured) (eps : Option (List Sample))
    (hm : m.poolHist = enterPool (s.chan n).segs.length m.x (s.chan n).poolHist) :
    LineOp n s (s.modChan n fun c => searchAtClose m.u (applyClose m eps c)) := by
  have e : ∀ c, (searchAtClose m.u c).segs = c.segs ∧ (searchAtClose m.u c).poolHist = c.poolHist ∧
      LifeKept c (searchAtClose m.u c) := by
    intro c; unfold searchAtClose
    split
    · exact ⟨rfl, rfl, .of_eq rfl rfl rfl rfl rfl rfl⟩
    · exact ⟨rfl, rfl, .refl _⟩
  refine .chanMod (by rw [(e _).1]; rfl) (fun h => ?_) ?_
  · unfold HistKept at *
    rw [(e _).1, (e _).2.1]
    show m.poolHist.length = 32 * (s.chan n).segs.length
    rw [hm]; exact enterPool_histKept h
  · have h : LifeKept (s.chan n) (applyClose m eps (s.chan n)) := .of_eq rfl rfl rfl rfl rfl rfl
    exact h.trans (e _).2.2

theorem finishClose_lineOp (before : Channel) (m : Measured) (o : RefOutcome)
    (eps : Option (List Sample))
    (hm : m.poolHist = enterPool (s.chan n).segs.length m.x (s.chan n).poolHist) :
    LineOp n s (finishClose n before m o eps s) := by
  unfold finishClose
  dsimp only
  have h := ((applyClose_lineOp m eps hm).trans (guardAndProgram_lineOp m.er m.eu)).trans
    (statusEvent_stillOp before).lineOp
  split
  · exact h
  · exact h.trans (completeDone_lineOp _ _ _ _)

theorem closeBlock_lineOp : LineOp n s (closeBlock n s) := by
  unfold closeBlock
  dsimp only
  have h1 : LineOp n s (raiseIf ((s.chan n).hist.stuckRun == 199 &&
      (measure (s.chan n)).stuckRun == 200) (chanSource n) .stuck s) := .raiseIf _ _ _
  have hc : (raiseIf ((s.chan n).hist.stuckRun == 199 &&
      (measure (s.chan n)).stuckRun == 200) (chanSource n) .stuck s).chan n = s.chan n := by
    unfold raiseIf; split <;> rfl
  generalize raiseIf ((s.chan n).hist.stuckRun == 199 &&
      (measure (s.chan n)).stuckRun == 200) (chanSource n) .stuck s = t at h1 hc ⊢
  have hm : ∀ v : State, v.chan n = s.chan n → (measure (s.chan n)).poolHist =
      enterPool (v.chan n).segs.length (measure (s.chan n)).x (v.chan n).poolHist := by
    intro v hv; rw [hv]; rfl
  split
  · exact h1.trans (finishClose_lineOp _ _ _ _ (hm t hc))
  · split
    · split
      · rename_i v hv
        exact ((h1.trans (.of_readWords hv)).trans
          (.quiet rfl rfl rfl rfl rfl rfl rfl rfl)).trans enterFault_lineOp
      · rename_i f _ _ _ _ ws v hv
        have : v.chan n = s.chan n := by
          have := readWords_spec t 20 (f.addr + refOffset)
          rw [hv] at this
          obtain ⟨m, b, e, -⟩ := this
          dsimp only at e; subst e; exact hc
        exact (h1.trans (.of_readWords hv)).trans (finishClose_lineOp _ _ _ _ (hm v this))
    · exact h1.trans (finishClose_lineOp _ _ _ _ (hm t hc))

/-- What a boundary does (R111): its close, then its take. -/
theorem boundary_boundaryOp : BoundaryOp n s (boundary n s) := by
  unfold boundary
  split
  · dsimp only
    have h : LineOp n s (if (s.chan n).line.inBlock = true then
        (closeBlock n s).modChan n fun c => { c with line := { c.line with inBlock := false } }
        else s) := by
      split
      · exact closeBlock_lineOp.trans (.quiet rfl rfl rfl rfl rfl rfl rfl rfl)
      · exact .refl
    split_ifs at h ⊢
    all_goals first
      | exact h.boundaryOp.trans take_boundaryOp
      | exact h.boundaryOp
  · exact LineOp.refl.boundaryOp

end Sys2Proof.Machine
end

