-- ==== Sys2Proof/Laws/Line.lean ====
section
/-! SUPPORT. What the line port's events do to the whole part, each said once: frames, lock, stall and
line restart (06, R105 to R118). -/

namespace Sys2Proof.Machine

variable {n : Fin 32} {s t u : State}

/-- What an event that goes through channels leaves alone and keeps, for the whole part. -/
structure AllOp (s t : State) : Prop where
  enabled   : t.enabled = s.enabled
  tableBase : t.tableBase = s.tableBase
  port      : t.port = s.port
  maint     : t.maint = s.maint
  readData  : t.readData = s.readData
  freeNext  : t.freeNext = s.freeNext
  pending   : t.pending = s.pending
  mem       : s.mem.wf → t.mem.wf
  attn      : AttnLegal s.attn → AttnLegal t.attn
  pool      : PoolLegal s → PoolLegal t
  store     : ∀ T, StoreKept s.store T → StoreKept t.store T
  hist      : HistoryLegal s → HistoryLegal t
  runs      : ∀ n, running (t.chan n) = true → running (s.chan n) = true
  slot      : ∀ n, running (t.chan n) = true → (t.chan n).timeslot = (s.chan n).timeslot
  flies     : InflightLegal s → InflightLegal t

theorem AllOp.refl : AllOp s s :=
  ⟨rfl, rfl, rfl, rfl, rfl, rfl, rfl, id, id, id, fun _ => id, id, fun _ => id, fun _ _ => rfl, id⟩

theorem AllOp.trans (h : AllOp s t) (g : AllOp t u) : AllOp s u where
  enabled := g.enabled.trans h.enabled
  tableBase := g.tableBase.trans h.tableBase
  port := g.port.trans h.port
  maint := g.maint.trans h.maint
  readData := g.readData.trans h.readData
  freeNext := g.freeNext.trans h.freeNext
  pending := g.pending.trans h.pending
  mem := g.mem ∘ h.mem
  attn := g.attn ∘ h.attn
  pool := g.pool ∘ h.pool
  store T := g.store T ∘ h.store T
  hist := g.hist ∘ h.hist
  runs n := h.runs n ∘ g.runs n
  slot n r := (g.slot n r).trans (h.slot n (g.runs n r))
  flies := g.flies ∘ h.flies

/-- A boundary of one channel is an event of the whole part (R111, R173). -/
theorem BoundaryOp.allOp (h : BoundaryOp n s t) : AllOp s t where
  enabled := h.op.enabled
  tableBase := h.op.tableBase
  port := h.op.port
  maint := h.op.maint
  readData := h.op.readData
  freeNext := h.op.freeNext
  pending := h.op.pending
  mem := h.op.mem
  attn := h.op.attn
  pool := h.op.pool
  store := h.op.store
  hist g k := by
    by_cases hk : k = n
    · subst hk; exact h.op.hist (g k)
    · rw [h.op.others k hk]; exact g k
  runs k r := by
    by_cases hk : k = n
    · subst hk; exact h.runs r
    · rwa [h.op.others k hk] at r
  slot k r := by
    by_cases hk : k = n
    · subst hk; exact h.slot r
    · rw [h.op.others k hk]
  flies g i k hik f x hf hx := by
    by_cases hi : i = n
    · subst hi
      have hk : k ≠ i := hik.symm
      rw [h.op.others k hk] at hx
      rcases h.flies f hf with ⟨y, hy, e⟩ | hn
      · rw [← e]; exact g i k hik y x hy hx
      · exact (hn k hk x hx).symm
    · rw [h.op.others i hi] at hf
      by_cases hk : k = n
      · subst hk
        rcases h.flies x hx with ⟨y, hy, e⟩ | hn
        · rw [← e]; exact g i k hik f y hf hy
        · exact hn i hi f hf
      · rw [h.op.others k hk] at hx
        exact g i k hik f x hf hx

theorem LineOp.allOp (h : LineOp n s t) : AllOp s t := h.boundaryOp.allOp

/-- An event of one channel after another, in a list's order. -/
theorem AllOp.foldl {f : State → Fin 32 → State} (h : ∀ s n, AllOp s (f s n)) (l : List (Fin 32)) :
    AllOp s (l.foldl f s) := by
  induction l generalizing s with
  | nil => exact .refl
  | cons n l ih => exact (h s n).trans ih

/-! ## Frames -/

theorem advancePlay_fields (c : Channel) :
    (advancePlay c).state = c.state ∧ (advancePlay c).resume = c.resume ∧
      (advancePlay c).holdDirective = c.holdDirective ∧ (advancePlay c).holdLine = c.holdLine ∧
      (advancePlay c).timeslot = c.timeslot ∧ (advancePlay c).walk = c.walk ∧
      (advancePlay c).segs = c.segs ∧ (advancePlay c).poolHist = c.poolHist := by
  unfold advancePlay; split <;> exact ⟨rfl, rfl, rfl, rfl, rfl, rfl, rfl, rfl⟩

theorem sendFrame_chan (n : Fin 32) : (sendFrame s).chan n = advancePlay (s.chan n) := by
  simp [sendFrame, State.chan]

/-- The port's state and timer are no concern of a frame's send. -/
theorem sendFrame_port : (sendFrame s).port.state = s.port.state ∧
    (sendFrame s).port.stallArmed = s.port.stallArmed ∧
    (sendFrame s).port.activeFmt = s.port.activeFmt ∧
    (sendFrame s).port.pendingFmt = s.port.pendingFmt := ⟨rfl, rfl, rfl, rfl⟩

/-- What a frame served does to the whole part: but for the port's shift out and the channels' play
positions it is the boundary of one channel, or nothing (R111). -/
theorem serveFrame_spec (f : Nat) : ∃ t, AllOp s t ∧ serveFrame f s = sendFrame t ∧
    (∀ n, ChanLegal true (s.chan n) → ChanLegal true (t.chan n)) := by
  unfold serveFrame
  split
  · rename_i h
    have b := boundary_boundaryOp (n := ⟨f, h⟩) (s := s)
    refine ⟨_, b.allOp, rfl, fun k => ?_⟩
    by_cases hk : k = ⟨f, h⟩
    · subst hk; exact b.legal
    · rw [b.op.others k hk]; exact id
  · exact ⟨s, .refl, rfl, fun _ => id⟩

/-! ## Lock -/

/-- The lock's step for one channel keeps the channel's laws and takes LINE away (R109). -/
theorem lockStep_lineOp : LineOp n s (lockStep s n) := by
  unfold lockStep
  split
  · dsimp only
    refine LineOp.trans (LineOp.trans (.chanMod rfl (fun _ => ?_) (.of_eq rfl rfl rfl rfl rfl rfl))
      (changeHold_lineOp (removeHoldChan_lifeKept _) (removeHoldChan_segs _))) (statusEvent_stillOp _).lineOp
    simp [HistKept, lockChan, zeroTakenRun]
  · exact .quiet rfl rfl rfl rfl rfl rfl rfl rfl

/-! ## Loss of the line -/

theorem chanLegal_mono {c : Channel} (h : ChanLegal false c) : ChanLegal true c :=
  ⟨fun _ => rfl, h.2⟩

/-- Adding LINE leaves no channel in TRAINING or TRACKING (R47, R115). -/
theorem addHoldChan_line_legal {c : Channel} (h : ChanLegal true c) :
    ChanLegal false (addHoldChan .line c) := by
  unfold addHoldChan
  cases hs : c.state <;> simp_all [ChanLegal, setHold]

theorem statusWrite_chan : (statusWrite n s).2.chan n = { s.chan n with statusDue := false } := by
  have h : (writeDesc n 128#32 (statusWords (s.chan n)) s).2.chan n = s.chan n := by
    unfold writeDesc
    split
    · rfl
    · have := writeWords_spec s (statusWords (s.chan n)) (s.desc n + 128#32)
      split
      · rename_i t ht
        rw [ht] at this; obtain ⟨m, b, e, -⟩ := this; dsimp only at e; subst e; rfl
      · rename_i t ht
        rw [ht] at this; obtain ⟨m, b, e, -⟩ := this; dsimp only at e; subst e; rfl
  unfold statusWrite
  generalize writeDesc n 128#32 (statusWords (s.chan n)) s = p at h ⊢
  obtain ⟨b, t⟩ := p
  dsimp only at h ⊢
  rw [modChan_chan_self, h]

theorem statusEvent_legal {b : Bool} {c : Channel} (h : ChanLegal b (s.chan n)) :
    ChanLegal b ((statusEvent n c s).chan n) := by
  unfold statusEvent
  split
  · rw [statusWrite_chan]; exact h
  · exact h

/-- A channel that has entered FAULT (R38). -/
theorem faultEffects_chan : (faultEffects n s).chan n = leaveRunning .fault (keepSegs 0 (s.chan n)) := by
  unfold faultEffects
  rw [raise_chan, modChan_chan_self]
  unfold releaseAll
  rw [shrink_chan_self]

theorem enterFault_chan : (enterFault n s).chan n =
    { leaveRunning .fault (keepSegs 0 (s.chan n)) with statusDue := false } := by
  unfold enterFault
  rw [statusWrite_chan, faultEffects_chan]

theorem leaveRunning_legal {b : Bool} {c : Channel} (final : ChanState)
    (h : final = .closed ∨ final = .fault) : ChanLegal b (leaveRunning final c) := by
  rcases h with rfl | rfl <;> simp [ChanLegal, leaveRunning, endBlock]

theorem enterFault_legal {b : Bool} : ChanLegal b ((enterFault n s).chan n) := by
  rw [enterFault_chan]; exact leaveRunning_legal (c := keepSegs 0 (s.chan n)) .fault (.inr rfl)

/-- A channel in none of the running states, under the laws of R27. -/
theorem legal_of_not_running {b : Bool} {c : Channel} (hr : running c = false)
    (h : ChanLegal true c) : ChanLegal b c := by
  refine ⟨fun x => ?_, h.2⟩
  rcases x with x | x <;> simp [running, x] at hr

theorem changeHold_chan (f : Channel → Channel) : (changeHold n f s).chan n = f (s.chan n) := by
  unfold changeHold
  dsimp only
  unfold raiseIf
  split
  · rw [raise_chan, modChan_chan_self]
  · rw [modChan_chan_self]

theorem dropRecord_lineOp (b : Bool) : LineOp n s (dropRecord n b s) := by
  unfold dropRecord
  split
  · exact completeLineLost_lineOp _ _
  · exact .refl

/-- The line lost for one channel: its laws kept, and afterwards it is neither in TRAINING nor in
TRACKING (R27, R115, R116). -/
theorem loseLine_lineOp (slots : Option Nat) : LineOp n s (loseLine slots s n) ∧
    (ChanLegal true (s.chan n) → ChanLegal false ((loseLine slots s n).chan n)) := by
  unfold loseLine
  dsimp only
  split
  · rename_i hr
    have h1 : LineOp n s (s.modChan n endBlock) := .quiet rfl rfl rfl rfl rfl rfl rfl rfl
    have h2 := h1.trans (dropRecord_lineOp (n := n) (!slotOutside slots (s.chan n)))
    generalize dropRecord n (!slotOutside slots (s.chan n)) (s.modChan n endBlock) = v at h2 ⊢
    split_ifs with hv ho
    · exact ⟨h2, fun h => legal_of_not_running (by simpa using hv) (h2.life.legal h)⟩
    · exact ⟨h2.trans enterFault_lineOp, fun _ => enterFault_legal⟩
    · refine ⟨(h2.trans (changeHold_lineOp (addHoldChan_lifeKept _) (addHoldChan_segs _))).trans
        (statusEvent_stillOp _).lineOp, fun h => statusEvent_legal ?_⟩
      rw [changeHold_chan]
      exact addHoldChan_line_legal (h2.life.legal h)
  · rename_i hr
    exact ⟨.refl, fun h => legal_of_not_running (by simpa using hr) h⟩

/-- A channel whose timeslot is at or above the new slot count does not run after a restart (R116). -/
theorem loseLine_outside {k : Nat} (h : slotOutside (some k) (s.chan n) = true) :
    running ((loseLine (some k) s n).chan n) = false := by
  unfold loseLine
  dsimp only
  split
  · simp only [h, Bool.not_true]
    split_ifs with hv
    · simpa using hv
    · rw [enterFault_chan]; rfl
  · rename_i hr; simpa using hr

theorem mem_allChans (n : Fin 32) : n ∈ allChans := List.mem_finRange n

/-- What a fold of per-channel events does to one channel, when each event leaves the others alone and
brings its own from `P` to `Q`. -/
theorem foldl_each {f : State → Fin 32 → State} {P Q : Channel → Prop}
    (hf : ∀ s n, ∀ k, k ≠ n → (f s n).chan k = s.chan k)
    (hpq : ∀ s n, P (s.chan n) → Q ((f s n).chan n)) (l : List (Fin 32)) (hl : l.Nodup)
    (k : Fin 32) (hk : k ∈ l) (h : P (s.chan k)) : Q ((l.foldl f s).chan k) := by
  have keep : ∀ (l : List (Fin 32)) (s : State), k ∉ l → (l.foldl f s).chan k = s.chan k := by
    intro l
    induction l with
    | nil => intro _ _; rfl
    | cons a l ih =>
      intro s hn
      simp only [List.mem_cons, not_or] at hn
      rw [List.foldl_cons, ih _ hn.2, hf s a k hn.1]
  induction l generalizing s with
  | nil => simp at hk
  | cons a l ih =>
    rw [List.foldl_cons]
    have hnd := List.nodup_cons.1 hl
    by_cases ha : k = a
    · subst ha
      rw [keep l _ hnd.1]
      exact hpq s k h
    · refine ih hnd.2 (List.mem_of_ne_of_mem ha hk) ?_
      rw [hf s a k ha]; exact h

theorem allChans_nodup : allChans.Nodup := List.nodup_finRange 32

/-- Every channel after the lock's steps (R109). -/
theorem lock_chans_legal (h : ∀ n, ChanLegal true (s.chan n)) (k : Fin 32) :
    ChanLegal true ((allChans.foldl lockStep s).chan k) :=
  foldl_each (P := ChanLegal true) (Q := ChanLegal true)
    (fun _ _ k hk => lockStep_lineOp.op.others k hk)
    (fun _ _ => lockStep_lineOp.life.legal) _ allChans_nodup k (mem_allChans k) (h k)

/-- Every channel after the line is lost (R115, R116). -/
theorem lost_chans_legal (slots : Option Nat) (h : ∀ n, ChanLegal true (s.chan n)) (k : Fin 32) :
    ChanLegal false ((allChans.foldl (loseLine slots) s).chan k) :=
  foldl_each (P := ChanLegal true) (Q := ChanLegal false)
    (fun _ _ k hk => (loseLine_lineOp slots).1.op.others k hk)
    (fun _ _ => (loseLine_lineOp slots).2) _ allChans_nodup k (mem_allChans k) (h k)

/-- No running channel is left outside the new format after a restart (R116). -/
theorem lost_chans_inside {k : Nat} (m : Fin 32)
    (hr : running ((allChans.foldl (loseLine (some k)) s).chan m) = true) :
    slotOutside (some k) (s.chan m) = false := by
  by_contra hc
  have hc : slotOutside (some k) (s.chan m) = true := by simpa using hc
  have := foldl_each (s := s) (f := loseLine (some k))
    (P := fun c => slotOutside (some k) c = true) (Q := fun c => running c = false)
    (fun _ _ k hk => (loseLine_lineOp _).1.op.others k hk)
    (fun _ _ => loseLine_outside) _ allChans_nodup m (mem_allChans m) hc
  rw [this] at hr
  exact absurd hr (by decide)

theorem lockSteps_allOp : AllOp s (allChans.foldl lockStep s) :=
  AllOp.foldl (fun _ _ => lockStep_lineOp.allOp) _

theorem loseLines_allOp (slots : Option Nat) : AllOp s (allChans.foldl (loseLine slots) s) :=
  AllOp.foldl (fun _ _ => (loseLine_lineOp slots).1.allOp) _

/-! ## Syncs and received samples (R106) -/

/-- A sync is a change to the active level (R106). -/
theorem isSync_iff (f : Format) (l : LSync) : isSync f l = true ↔ ToActive f l := by
  obtain ⟨_, p, _⟩ := f
  obtain ⟨b, n⟩ := l
  cases p <;> cases b <;> cases n <;> simp [isSync, ToActive]

theorem lsyncSampled_sync {l : LSync} (clocks : Nat) (h : ToActive s.port.activeFmt l) :
    lsyncSampled clocks l s = syncSeen clocks s := if_pos ((isSync_iff _ l).mpr h)

theorem lsyncSampled_other {l : LSync} (clocks : Nat) (h : ¬ ToActive s.port.activeFmt l) :
    lsyncSampled clocks l s = s := if_neg (fun g => h ((isSync_iff _ l).mp g))

/-- A bit clock puts its bit at the bottom and moves the rest up (R106). -/
theorem shiftIn_getElem (r : Sample) (b : Bool) (i : Nat) (h : i < 16) :
    (shiftIn r b)[i] = if _h0 : i = 0 then b else r[i - 1] := by
  unfold shiftIn
  rw [BitVec.getElem_append]
  rcases i with _ | i
  · simp
  · simp [← BitVec.getLsbD_eq_getElem, BitVec.getLsbD_extractLsb', show i < 15 by omega]

/-- The first bit received is the most significant (R106). -/
theorem receivedSample_getElem (v : Lrx) (i : Fin 16) :
    (receivedSample v)[i.val] = v[15 - i.val] := by
  obtain ⟨⟨l⟩, h⟩ := v
  match l, h with
  | [b0, b1, b2, b3, b4, b5, b6, b7, b8, b9, b10, b11, b12, b13, b14, b15], _ =>
    fin_cases i <;> simp [receivedSample, shiftIn_getElem]

end Sys2Proof.Machine
end

