-- ==== Sys2Proof/Laws/Registers.lean ====
section
/-! SUPPORT. What the resets and the register writes do to the whole part, each said once
(10, R162 to R164; R28, R80, R117). -/

namespace Sys2Proof.Machine

variable {n : Fin 32} {s t u : State}

/-! ## Every holding released -/

/-- Releases of listed channels, in the list's order: the pool gets each channel's list, oldest segment
first; the others' lists stand (R79, R80). -/
theorem releaseList_spec (l : List (Fin 32)) (hl : l.Nodup) (s : State) :
    (∃ c p, l.foldl (fun s n => releaseAll n s) s = { s with chans := c, pool := p }) ∧
      (l.foldl (fun s n => releaseAll n s) s).pool = s.pool ++ l.flatMap (fun n => (s.chan n).segs.reverse) ∧
      ∀ k, (l.foldl (fun s n => releaseAll n s) s).chan k =
        if k ∈ l then keepSegs 0 (s.chan k) else s.chan k := by
  induction l generalizing s with
  | nil => exact ⟨⟨s.chans, s.pool, rfl⟩, by simp, by simp⟩
  | cons a l ih =>
    have hnd := List.nodup_cons.1 hl
    obtain ⟨⟨c, p, h1⟩, h2, h3⟩ := ih hnd.2 (releaseAll a s)
    have hne : ∀ k, k ≠ a → (releaseAll a s).chan k = s.chan k := fun k hk =>
      shrink_chan_ne s a 0 k hk
    rw [List.foldl_cons]
    refine ⟨⟨c, p, h1⟩, ?_, fun k => ?_⟩
    · rw [h2, show (releaseAll a s).pool = s.pool ++ ((s.chan a).segs.drop 0).reverse from rfl,
        List.flatMap_cons, List.drop_zero, List.append_assoc]
      congr 2
      refine List.flatMap_congr fun k hk => ?_
      rw [hne k (fun e => hnd.1 (e ▸ hk))]
    · rw [h3]
      by_cases hk : k = a
      · subst hk
        simp only [hnd.1, if_false, List.mem_cons, true_or, if_true]
        exact shrink_chan_self s k 0
      · simp only [List.mem_cons, hk, false_or]
        rw [hne k hk]

/-- After every holding is released: the pool, and every channel (R80). -/
theorem releaseEvery_spec (s : State) :
    (∃ c p, releaseEvery s = { s with chans := c, pool := p }) ∧
      (releaseEvery s).pool = s.pool ++ allChans.flatMap (fun n => (s.chan n).segs.reverse) ∧
      ∀ k, (releaseEvery s).chan k = keepSegs 0 (s.chan k) := by
  obtain ⟨h1, h2, h3⟩ := releaseList_spec allChans allChans_nodup s
  exact ⟨h1, h2, fun k => by
    have := h3 k
    rw [if_pos (mem_allChans k)] at this
    exact this⟩

theorem releaseEvery_allOp : AllOp s (releaseEvery s) :=
  AllOp.foldl (fun _ n => (StillOp.releaseAll (n := n)).lineOp.allOp) _

/-! ## The soft reset -/

/-- Every channel after a soft reset (R28, R80). -/
theorem softReset_chan (n : Fin 32) :
    (softResetPart s).chan n = softResetChan (keepSegs 0 (s.chan n)) := by
  unfold softResetPart
  dsimp only
  show (Vector.map softResetChan (releaseEvery s).chans)[n] = _
  have := (releaseEvery_spec s).2.2 n
  unfold State.chan at this
  simp only [Fin.getElem_fin, Vector.getElem_map] at this ⊢
  rw [this]; rfl

/-- The pool after a soft reset (R80). -/
theorem softReset_pool : (softResetPart s).pool =
    s.pool ++ allChans.flatMap (fun n => (s.chan n).segs.reverse) := (releaseEvery_spec s).2.1

/-- What a soft reset leaves of the parts that are not the channels (R28, R105, R134, R137, R164). -/
theorem softReset_fields : (softResetPart s).enabled = false ∧
    (softResetPart s).tableBase = s.tableBase ∧ (softResetPart s).port = softResetPort s.port ∧
    (softResetPart s).store = softResetStore s.store ∧
    (softResetPart s).maint = { clearTransfer s.maint with chain := .idle } ∧
    (softResetPart s).attn = attnSoftReset s.attn ∧ (softResetPart s).readData = s.readData ∧
    (softResetPart s).mem = s.mem ∧ (softResetPart s).bus = s.bus ∧
    (softResetPart s).freeNext = s.freeNext ∧ (softResetPart s).pending = s.pending := by
  obtain ⟨⟨c, p, h⟩, -, -⟩ := releaseEvery_spec s
  unfold softResetPart
  dsimp only
  rw [h]
  exact ⟨rfl, rfl, rfl, rfl, rfl, rfl, rfl, rfl, rfl, rfl, rfl⟩

end Sys2Proof.Machine
end

