-- ==== Sys2Proof/Laws/Visits.lean ====
section
/-! SUPPORT. What a maintenance visit does, each operation said once: the requests of the line channels
(OPEN, CLOSE) and those of descriptor 32, and the store step (08, 09). -/

namespace Sys2Proof.Machine

variable {n : Fin 32} {s t u : State}

/-! ## Requests of a line channel -/

/-- What a request of line channel `n` served at a visit does: the laws of R27 kept under the port as it
stands, a timeslot given only below the active slot count and to no second running channel (R30, R31),
and no new record in flight. -/
structure VisitOp (n : Fin 32) (s t : State) : Prop where
  op    : ChanOp n s t
  legal : ChanLegal (s.port.state == .locked) (s.chan n) →
    ChanLegal (s.port.state == .locked) (t.chan n)
  slot  : running (t.chan n) = true →
    (running (s.chan n) = true ∧ (t.chan n).timeslot = (s.chan n).timeslot) ∨
      ∃ k, (t.chan n).timeslot = some k ∧ k < s.port.activeFmt.slots.toNat ∧
        slotTaken s n k = false
  flies : ∀ f, (t.chan n).walk.inflight = some f →
    ∃ g, (s.chan n).walk.inflight = some g ∧ g.addr = f.addr

theorem slotTaken_congr (h : ChanOp n s t) (k : Nat) : slotTaken t n k = slotTaken s n k := by
  have h0 : ∀ j : Fin 32,
      (j != n && running (t.chan j) && (t.chan j).timeslot == some k) =
        (j != n && running (s.chan j) && (s.chan j).timeslot == some k) := by
    intro j
    by_cases hj : j = n
    · simp [hj]
    · rw [h.others j hj]
  unfold slotTaken
  rw [funext h0]

theorem StillOp.visitOp (h : StillOp n s t) : VisitOp n s t :=
  ⟨h.op, h.same.legal, fun r => .inl ⟨h.same.running ▸ r, h.same.timeslot⟩,
    fun f hf => ⟨f, h.same.inflight ▸ hf, rfl⟩⟩

theorem VisitOp.trans_still (h : VisitOp n s t) (g : StillOp n t u) : VisitOp n s u where
  op := h.op.trans g.op
  legal x := g.same.legal (h.legal x)
  slot r := by
    rw [g.same.timeslot]
    exact h.slot (g.same.running ▸ r)
  flies f hf := h.flies f (g.same.inflight ▸ hf)

theorem StillOp.trans_visit (h : StillOp n s t) (g : VisitOp n t u) : VisitOp n s u where
  op := h.op.trans g.op
  legal x := by
    have := g.legal
    rw [h.op.port] at this
    exact this (h.same.legal x)
  slot r := by
    rcases g.slot r with ⟨h1, h2⟩ | ⟨k, h1, h2, h3⟩
    · exact .inl ⟨h.same.running ▸ h1, h2.trans h.same.timeslot⟩
    · refine .inr ⟨k, h1, ?_, ?_⟩
      · rw [← h.op.port]; exact h2
      · rw [← slotTaken_congr h.op]; exact h3
  flies f hf := by
    obtain ⟨g', hg, e⟩ := g.flies f hf
    exact ⟨g', h.same.inflight ▸ hg, e⟩

theorem answer_stillOp (d : Fin 33) (src : Fin 34) (r : Response) : StillOp n s (answer d src r s) := by
  unfold answer
  have h1 := writeDesc_stillOp (n := n) (s := s) d.val 4#32 [r.word]
  split
  · rename_i t ht; rw [ht] at h1; exact h1
  · rename_i t ht
    rw [ht] at h1
    have h2 := writeDesc_stillOp (n := n) (s := t) d.val 0#32 [0#32]
    split
    · rename_i v hv; rw [hv] at h2; exact h1.trans h2
    · rename_i v hv; rw [hv] at h2; exact (h1.trans h2).trans (.raise _ _)

theorem answerAfter_stillOp (d : Fin 33) (src : Fin 34) (r : Response) (p : Bool × State) :
    StillOp n p.2 (answerAfter d src r p) := by
  unfold answerAfter
  split
  · exact answer_stillOp _ _ _
  · exact .refl

theorem readOpen_stillOp {r : Option (OpenReq × List Phase)} (h : readOpen n s = (r, t)) :
    StillOp n s t := by
  unfold readOpen at h
  split at h
  · rename_i v hv; simp only [Prod.mk.injEq] at h; rw [← h.2]; exact .of_readWords hv
  · rename_i ws v hv
    dsimp only at h
    split at h
    · simp only [Prod.mk.injEq] at h; rw [← h.2]; exact .of_readWords hv
    · split at h
      · rename_i w hw
        simp only [Prod.mk.injEq] at h; rw [← h.2]
        exact (StillOp.of_readWords hv).trans (.of_readWords hw)
      · rename_i ps w hw
        simp only [Prod.mk.injEq] at h; rw [← h.2]
        exact (StillOp.of_readWords hv).trans (.of_readWords hw)

theorem requestForProfile_stillOp : StillOp n s (requestForProfile n s) := by
  unfold requestForProfile
  dsimp only
  split_ifs
  · exact .refl
  · exact .bringHolding _
  · exact (((StillOp.bringHolding _).trans .releaseAll).trans
      (.quiet rfl rfl rfl rfl rfl rfl rfl rfl)).trans (.raise _ _)

theorem consultStore_stillOp : StillOp n s (consultStore n s) := by
  unfold consultStore
  dsimp only
  split
  · split
    · exact .quiet rfl rfl rfl rfl rfl rfl rfl rfl
    · rename_i o i hl
      have hfree := (lookup_some hl).2.1
      have h1 : StillOp n s { s with store := touch i s.store } :=
        .of_chan_eq (.storeOf fun T h => touch_kept h hfree) rfl
      exact (h1.trans (.quiet rfl rfl rfl rfl rfl rfl rfl rfl)).trans requestForProfile_stillOp
  · exact .refl

theorem chanSource_ne_part (n : Fin 32) : chanSource n ≠ partSource := by
  intro h
  have := congrArg Fin.val h
  have hn := n.isLt
  simp only [chanSource, partSource] at this
  have : n.val = 33 := this
  omega

/-- An accepted OPEN: its channel starts in a state the laws of R27 allow under the port, on the
timeslot it asked for (R31 to R35). -/
theorem acceptOpen_visitOp {r : OpenReq} {phases : List Phase}
    (hlt : r.timeslot < s.port.activeFmt.slots.toNat) (hfree : slotTaken s n r.timeslot = false) :
    VisitOp n s (acceptOpen n r phases s) := by
  unfold acceptOpen
  have h1 : ChanOp n s (copyPriority (chanSource n) r.priority s) :=
    .attention (attnSetPriority_legal (chanSource_ne_part n))
  have h2 : ChanOp n s ((copyPriority (chanSource n) r.priority s).modChan n (openedChan r phases)) :=
    h1.trans (.chanMod rfl id)
  have e2 : ((copyPriority (chanSource n) r.priority s).modChan n (openedChan r phases)).chan n =
      openedChan r phases (s.chan n) := modChan_chan_self _ _ _
  generalize (copyPriority (chanSource n) r.priority s).modChan n (openedChan r phases) = v at h2 e2
  have h3 := consultStore_stillOp (n := n) (s := v)
  have e3 : SameLife (openedChan r phases (s.chan n)) ((consultStore n v).chan n) := e2 ▸ h3.same
  generalize consultStore n v = w at h3 e3
  have h4 := h2.trans h3.op
  unfold startChannel
  dsimp only
  generalize startPosition (w.chan n) = p
  obtain ⟨p, rs⟩ := p
  dsimp only
  have hp : (w.port.state == .locked) = (s.port.state == .locked) := by rw [h4.port]
  have key : ∀ x : Channel,
      x = { startState (w.port.state == .locked) rs (w.chan n) with phaseIndex := p } →
      ChanLegal (s.port.state == .locked) x ∧ x.timeslot = some r.timeslot ∧
        x.walk.inflight = none ∧ x.segs = (w.chan n).segs ∧ x.poolHist = (w.chan n).poolHist := by
    rintro x rfl
    have q1 : (w.chan n).holdDirective = false := e3.directive
    have q2 : (w.chan n).timeslot = some r.timeslot := e3.timeslot
    have q3 : (w.chan n).walk.inflight = none := e3.inflight
    rw [hp]
    by_cases hl : (s.port.state == .locked) = true
    · simp only [hl, startState, if_true]
      refine ⟨?_, q2, q3, by simp, by simp⟩
      cases rs <;> simp [ChanLegal, RunState.toState, q1]
    · simp only [hl, startState]
      refine ⟨?_, q2, q3, by simp, by simp⟩
      simp [ChanLegal]
  have hx := key _ rfl
  have h5 : VisitOp n s (w.modChan n fun c =>
      { startState (w.port.state == .locked) rs c with phaseIndex := p }) := by
    refine ⟨h4.trans (.chanMod hx.2.2.2.1 fun h => ?_), fun _ => ?_, fun _ => .inr ?_, fun f hf => ?_⟩
    · unfold HistKept at *; rw [hx.2.2.2.1, hx.2.2.2.2]; exact h
    · rw [modChan_chan_self]; exact hx.1
    · rw [modChan_chan_self]; exact ⟨r.timeslot, hx.2.1, hlt, hfree⟩
    · rw [modChan_chan_self, hx.2.2.1] at hf; cases hf
  cases rs
  · exact h5.trans_still (enterPhase_stillOp p)
  · exact h5

theorem openRefusal_none {closed taken : Bool} {slots : Nat} {r : OpenReq} {phases : List Phase}
    (h : openRefusal closed slots taken r phases = none) :
    closed = true ∧ r.timeslot < slots ∧ taken = false := by
  unfold openRefusal at h
  split_ifs at h with h1 h2
  simp only [Bool.or_eq_true, decide_eq_true_eq, not_or, Bool.not_eq_true] at h2
  exact ⟨by simpa using h1, by omega, h2.2⟩

theorem openStatus_stillOp : StillOp n s (openStatus n s).2 := by
  unfold openStatus
  have h := statusWrite_stillOp (n := n) (s := s)
  split
  · rename_i t ht; rw [ht] at h; exact h
  · rename_i t ht; rw [ht] at h; exact h.trans (writeDesc_stillOp _ _ _)

theorem serveOpen_visitOp : VisitOp n s (serveOpen n s) := by
  unfold serveOpen
  split
  · rename_i t ht; exact ((readOpen_stillOp ht).trans (.raise _ _)).visitOp
  · rename_i r phases t ht
    have h1 := readOpen_stillOp ht
    split
    · exact (h1.trans (answer_stillOp _ _ _)).visitOp
    · rename_i hn
      obtain ⟨-, hlt, hfree⟩ := openRefusal_none hn
      refine h1.trans_visit (((acceptOpen_visitOp hlt hfree).trans_still
        openStatus_stillOp).trans_still (answerAfter_stillOp _ _ _ _))

/-- A channel closed at a visit has nothing left to keep (R36, R37). -/
theorem closed_visitOp (h : ChanOp n s t) :
    VisitOp n s (t.modChan n (leaveRunning .closed)) := by
  refine ⟨h.trans (.chanMod rfl id), fun _ => ?_, fun r => ?_, fun f hf => ?_⟩
  · rw [modChan_chan_self]; exact leaveRunning_legal _ (.inl rfl)
  · rw [modChan_chan_self] at r; simp [running, leaveRunning, endBlock] at r
  · rw [modChan_chan_self] at hf; simp [leaveRunning, endBlock] at hf

theorem completeClosed_lineOp : LineOp n s (completeClosed n s).2 := by
  unfold completeClosed
  split
  · exact .refl
  · rename_i f hf
    have h := writeEarlyCode_lineOp (n := n) (s := s) f dispClosed
    split
    · rename_i t ht; rw [ht] at h; exact h
    · rename_i t ht; rw [ht] at h; exact h.trans (.raiseIf _ _ _)

theorem saveAtClose_stillOp : StillOp n s (saveAtClose n s) := by
  unfold saveAtClose
  dsimp only
  split
  · exact requestSave_stillOp
  · exact .refl

theorem serveClose_visitOp : VisitOp n s (serveClose n s) := by
  have tail : ∀ v : State, ChanOp n s v → VisitOp n s (answerAfter (chanDesc n) (chanSource n)
      respClosed (statusWrite n (v.modChan n (leaveRunning .closed)))) := fun v h =>
    ((closed_visitOp h).trans_still statusWrite_stillOp).trans_still (answerAfter_stillOp _ _ _ _)
  have main : VisitOp n s (match completeClosed n s with
      | (true, s) => answerAfter (chanDesc n) (chanSource n) respClosed
          (statusWrite n (closeChan n (saveAtClose n s)))
      | (false, s) => answerAfter (chanDesc n) (chanSource n) respClosed
          (statusWrite n ((faultEffects n s).modChan n (leaveRunning .closed)))) := by
    have h := completeClosed_lineOp (n := n) (s := s)
    split
    · rename_i t ht
      rw [ht] at h
      exact tail _ ((h.op.trans saveAtClose_stillOp.op).trans (ChanOp.shrink 0))
    · rename_i t ht
      rw [ht] at h
      exact tail _ (h.op.trans faultEffects_lineOp.op)
  unfold serveClose
  split
  · exact (answer_stillOp _ _ _).visitOp
  · exact tail s .refl
  · exact main
  · exact main
  · exact main

/-- A descriptor of a line channel served at a visit (R155). -/
theorem serveChannel_visitOp : VisitOp n s (serveChannel s n) := by
  unfold serveChannel
  split
  · rename_i t ht; exact ((StillOp.of_readWord ht).trans (.raise _ _)).visitOp
  · rename_i w t ht
    have h : StillOp n s t := .of_readWord ht
    split
    · exact h.visitOp
    · exact h.trans_visit serveOpen_visitOp
    · exact h.trans_visit serveClose_visitOp
    · exact (h.trans (answer_stillOp _ _ _)).visitOp

/-! ## Descriptor 32 and the store chain -/

/-- What the maintenance source's part of a visit leaves alone and keeps: everything of the line
channels, the pool and the port; of the store, its laws together with the directive in flight. -/
structure MaintOp (s t : State) : Prop where
  enabled   : t.enabled = s.enabled
  tableBase : t.tableBase = s.tableBase
  port      : t.port = s.port
  chans     : t.chans = s.chans
  pool      : t.pool = s.pool
  readData  : t.readData = s.readData
  freeNext  : t.freeNext = s.freeNext
  pending   : t.pending = s.pending
  mem       : s.mem.wf → t.mem.wf
  attn      : AttnLegal s.attn → AttnLegal t.attn

theorem MaintOp.refl : MaintOp s s := ⟨rfl, rfl, rfl, rfl, rfl, rfl, rfl, rfl, id, id⟩

theorem MaintOp.trans (h : MaintOp s t) (g : MaintOp t u) : MaintOp s u :=
  ⟨g.1.trans h.1, g.2.trans h.2, g.3.trans h.3, g.4.trans h.4, g.5.trans h.5, g.6.trans h.6,
    g.7.trans h.7, g.8.trans h.8, g.9 ∘ h.9, g.10 ∘ h.10⟩

/-- A `MaintOp` that touches neither the store nor the maintenance unit. -/
structure MaintMem (s t : State) : Prop where
  op    : MaintOp s t
  store : t.store = s.store
  maint : t.maint = s.maint

theorem MaintMem.refl : MaintMem s s := ⟨.refl, rfl, rfl⟩

theorem MaintMem.trans (h : MaintMem s t) (g : MaintMem t u) : MaintMem s u :=
  ⟨h.op.trans g.op, g.store.trans h.store, g.maint.trans h.maint⟩

theorem MaintMem.of_spec (h : ∃ m b, t = { s with mem := m, bus := b } ∧ (s.mem.wf → m.wf)) :
    MaintMem s t := by
  obtain ⟨m, b, rfl, hm⟩ := h
  exact ⟨⟨rfl, rfl, rfl, rfl, rfl, rfl, rfl, rfl, hm, id⟩, rfl, rfl⟩

theorem MaintMem.raise (i : Fin 34) (c : Cause) : MaintMem s (raise i c s) :=
  ⟨⟨rfl, rfl, rfl, rfl, rfl, rfl, rfl, rfl, id, attnRaise_legal⟩, rfl, rfl⟩

theorem MaintMem.raiseIf (b : Bool) (i : Fin 34) (c : Cause) : MaintMem s (raiseIf b i c s) := by
  unfold Machine.raiseIf; split
  · exact raise i c
  · exact refl

theorem MaintMem.of_readWord {a : Word} {r : Option Word} (h : readWord a s = (r, t)) :
    MaintMem s t := by have := readWord_spec s a; rw [h] at this; exact .of_spec this

theorem MaintMem.of_readWords {k : Nat} {a : Word} {r : Option (List Word)}
    (h : readWords k a s = (r, t)) : MaintMem s t := by
  have := readWords_spec s k a; rw [h] at this; exact .of_spec this

theorem MaintMem.of_writeWord {a v : Word} {r : Bool} (h : writeWord a v s = (r, t)) :
    MaintMem s t := by have := writeWord_spec s a v; rw [h] at this; exact .of_spec this

theorem MaintMem.of_writeHalf {a : Word} {v : BitVec 16} {r : Bool} (h : writeHalf a v s = (r, t)) :
    MaintMem s t := by have := writeHalf_spec s a v; rw [h] at this; exact .of_spec this

theorem MaintMem.of_writeWords {ws : List Word} {a : Word} {r : Bool}
    (h : writeWords ws a s = (r, t)) : MaintMem s t := by
  have := writeWords_spec s ws a; rw [h] at this; exact .of_spec this

theorem writeDesc_maintMem (k : Nat) (o : Word) (ws : List Word) :
    MaintMem s (writeDesc k o ws s).2 := by
  unfold writeDesc
  split
  · exact .refl
  · split
    · rename_i t ht; exact .of_writeWords ht
    · rename_i t ht; exact (MaintMem.of_writeWords ht).trans (.raise _ _)

theorem maintStatus_maintMem : MaintMem s (maintStatus s).2 := by
  unfold maintStatus
  dsimp only
  have h1 := writeDesc_maintMem (s := s) 32 128#32
    [pack4 s.maint.chain.code (directiveCode s.maint.inflight) (s.maint.position % 256)
      (s.maint.position / 256)]
  split
  · rename_i t ht; rw [ht] at h1; exact h1
  · rename_i t ht
    rw [ht] at h1
    split
    · exact h1
    · split
      · rename_i v hv; exact h1.trans (.of_writeHalf hv)
      · rename_i v hv; exact (h1.trans (.of_writeHalf hv)).trans (.raise _ _)

theorem answer_maintMem (d : Fin 33) (src : Fin 34) (r : Response) : MaintMem s (answer d src r s) := by
  unfold answer
  have h1 := writeDesc_maintMem (s := s) d.val 4#32 [r.word]
  split
  · rename_i t ht; rw [ht] at h1; exact h1
  · rename_i t ht
    rw [ht] at h1
    have h2 := writeDesc_maintMem (s := t) d.val 0#32 [0#32]
    split
    · rename_i v hv; rw [hv] at h2; exact h1.trans h2
    · rename_i v hv; rw [hv] at h2; exact (h1.trans h2).trans (.raise _ _)

theorem answerAfter_maintMem (d : Fin 33) (src : Fin 34) (r : Response) (p : Bool × State) :
    MaintMem p.2 (answerAfter d src r p) := by
  unfold answerAfter
  split
  · exact answer_maintMem _ _ _
  · exact .refl

/-- What the maintenance source's part of a visit does with the store's laws: `Ends s t` says that
from a store whose entries in transfer are none or the target's, a store with its laws comes. -/
structure StoreOp (s t : State) : Prop where
  op    : MaintOp s t
  store : StoreLegal s → StoreLegal t

theorem StoreOp.trans (h : StoreOp s t) (g : StoreOp t u) : StoreOp s u :=
  ⟨h.op.trans g.op, g.store ∘ h.store⟩

theorem MaintMem.storeOp (h : MaintMem s t) : StoreOp s t :=
  ⟨h.op, fun x => by unfold StoreLegal at *; rw [h.store, h.maint]; exact x⟩

/-- The store and the maintenance unit changed. -/
theorem MaintOp.set (st : Store) (m : Maint) : MaintOp s { s with store := st, maint := m } :=
  ⟨rfl, rfl, rfl, rfl, rfl, rfl, rfl, rfl, id, id⟩

theorem isTarget_congr {m m' : Maint} (h1 : m'.target = m.target) (h2 : m'.inflight = m.inflight) :
    IsTarget m' = IsTarget m := by
  funext i; unfold IsTarget; rw [h1, h2]

/-- A change of the maintenance unit that keeps target and directive in flight. -/
theorem StoreOp.setMaint {m : Maint} (h1 : m.target = s.maint.target)
    (h2 : m.inflight = s.maint.inflight) : StoreOp s { s with maint := m } :=
  ⟨.set s.store m, fun x => by
    unfold StoreLegal at *
    show StoreKept s.store (IsTarget m)
    rw [isTarget_congr h1 h2]; exact x⟩

theorem isTarget_clear (m : Maint) (c : ChainState) (j : Fin 48) :
    ¬ IsTarget { clearTransfer m with chain := c } j := by
  simp [IsTarget, clearTransfer]

theorem maintOpen_storeOp : StoreOp s (maintOpen s) := by
  unfold maintOpen
  split
  · rename_i t ht; exact ((MaintMem.of_readWord ht).trans (.raise _ _)).storeOp
  · rename_i first t ht
    split
    · rename_i v hv
      exact (((MaintMem.of_readWord ht).trans (.of_readWord hv)).trans (.raise _ _)).storeOp
    · rename_i w v hv
      have h := (MaintMem.of_readWord ht).trans (.of_readWord hv)
      split_ifs
      · exact (h.trans (answer_maintMem _ _ _)).storeOp
      · exact (h.trans (answer_maintMem _ _ _)).storeOp
      · dsimp only
        have h1 : StoreOp v (copyPriority maintSource (w.extractLsb' 8 3) v) :=
          ⟨⟨rfl, rfl, rfl, rfl, rfl, rfl, rfl, rfl, id, attnSetPriority_legal (by decide)⟩, id⟩
        refine StoreOp.trans (StoreOp.trans (StoreOp.trans h.storeOp h1) ?_)
          (maintStatus_maintMem.trans (answerAfter_maintMem _ _ _ _)).storeOp
        exact .setMaint rfl rfl

theorem abandonRecord_maintMem (f : InFlightStore) : MaintMem s (abandonRecord f s).2 := by
  unfold abandonRecord
  split
  · rename_i t ht; exact .of_writeWords ht
  · rename_i t ht
    have h := writeWord_spec t f.addr dispAbandoned
    exact (MaintMem.of_writeWords ht).trans (.of_spec h)

theorem abandonInFlight_maintMem : MaintMem s (abandonInFlight s) := by
  unfold abandonInFlight
  split
  · exact .refl
  · rename_i f hf
    have h := abandonRecord_maintMem (s := s) f
    split
    · rename_i t ht; rw [ht] at h; exact h.trans (.raise _ _)
    · rename_i t ht; rw [ht] at h; exact h.trans (.raise _ _)

theorem maintClose_storeOp : StoreOp s (maintClose s) := by
  unfold maintClose
  split
  · exact (answer_maintMem _ _ _).storeOp
  · dsimp only
    have h1 := abandonInFlight_maintMem (s := s)
    generalize abandonInFlight s = v at h1
    refine StoreOp.trans (StoreOp.trans h1.storeOp ⟨.set _ _, fun x => ?_⟩)
      (maintStatus_maintMem.trans (answerAfter_maintMem _ _ _ _)).storeOp
    exact abandonTarget_kept x (isTarget_clear _ _)

theorem serveMaint_storeOp : StoreOp s (serveMaint s) := by
  unfold serveMaint
  split
  · rename_i t ht; exact ((MaintMem.of_readWord ht).trans (.raise _ _)).storeOp
  · rename_i w t ht
    have h : MaintMem s t := .of_readWord ht
    split
    · exact h.storeOp
    · exact h.storeOp.trans maintOpen_storeOp
    · exact h.storeOp.trans maintClose_storeOp
    · exact (h.trans (answer_maintMem _ _ _)).storeOp

/-! ## The store step -/

theorem chainFault_storeOp : StoreOp s (chainFault s) := by
  unfold chainFault
  dsimp only
  refine StoreOp.trans (t := { s with store := abandonTarget s.maint.target s.store,
                                       maint := { clearTransfer s.maint with chain := .faulted } })
    ⟨.set _ _, fun x => abandonTarget_kept x (isTarget_clear _ _)⟩ ?_
  exact ((MaintMem.raise _ _).trans maintStatus_maintMem).storeOp

/-- A chain fault from a store in which no entry is in transfer any longer, or the target's is. -/
theorem chainFault_of (T : Fin 48 → Prop) (hT : ∀ j, T j → s.maint.target = some j) :
    MaintOp s (chainFault s) ∧ (StoreKept s.store T → StoreLegal (chainFault s)) := by
  refine ⟨chainFault_storeOp.op, fun x => ?_⟩
  have h : StoreKept (abandonTarget s.maint.target s.store)
      (IsTarget { clearTransfer s.maint with chain := .faulted }) := by
    unfold abandonTarget
    split
    · rename_i i hm
      refine abandonEntry_kept x fun j => ⟨fun h => absurd h (isTarget_clear _ _ _), fun ⟨hj, h⟩ => ?_⟩
      have := hT j h
      rw [hm] at this
      exact absurd (Option.some.inj this).symm hj
    · rename_i hm
      refine ⟨x.1, fun j => (x.2.1 j).trans ⟨fun h => ?_, fun h => absurd h (isTarget_clear _ _ _)⟩,
        x.2.2⟩
      have := hT j h
      rw [hm] at this
      cases this
  unfold chainFault
  dsimp only
  exact ((MaintMem.raise _ _).trans maintStatus_maintMem).storeOp.store h

/-- A record completed when no entry is in transfer any longer (R142). -/
theorem completeStore_of (addr : Word) (notify : Bool) (r : StoreResult) (k : Nat) :
    MaintOp s (completeStore addr notify r k s) ∧
      (StoreKept s.store (fun _ => False) → StoreLegal (completeStore addr notify r k s)) := by
  have cf : ∀ v, MaintMem s v → MaintOp s (chainFault v) ∧
      (StoreKept s.store (fun _ => False) → StoreLegal (chainFault v)) := fun v h => by
    have := chainFault_of (s := v) (fun _ => False) (fun _ h => h.elim)
    exact ⟨h.op.trans this.1, fun x => this.2 (h.store ▸ x)⟩
  unfold completeStore
  dsimp only
  split
  · rename_i t ht; exact cf t (.of_writeWords ht)
  · rename_i t ht
    have h1 : MaintMem s t := .of_writeWords ht
    split
    · rename_i v hv; exact cf v (h1.trans (.of_writeWord hv))
    · rename_i v hv
      have h2 := h1.trans (.of_writeWord hv)
      have key : ∀ m : Maint, m.target = none → ∀ w : State,
          MaintMem { v with maint := m } w →
          MaintOp s w ∧ (StoreKept s.store (fun _ => False) → StoreLegal w) := by
        intro m hm w hw
        refine ⟨(h2.op.trans (.set v.store m)).trans hw.op, fun x => ?_⟩
        refine hw.storeOp.store ?_
        show StoreKept v.store (IsTarget m)
        rw [h2.store]
        refine ⟨x.1, fun j => (x.2.1 j).trans ⟨False.elim, fun h => ?_⟩, x.2.2⟩
        have := h.1; rw [hm] at this; cases this
      have fault : ∀ w, MaintMem { v with maint := clearTransfer v.maint } w →
          MaintOp s (raiseIf (notify || r != .ok) maintSource .storeDone (chainFault w)) ∧
          (StoreKept s.store (fun _ => False) →
            StoreLegal (raiseIf (notify || r != .ok) maintSource .storeDone (chainFault w))) := by
        intro w hw
        obtain ⟨h3, h4⟩ := key _ rfl w hw
        exact ⟨(h3.trans chainFault_storeOp.op).trans (MaintMem.raiseIf _ _ _).op,
          fun x => (MaintMem.raiseIf _ _ _).storeOp.store (chainFault_storeOp.store (h4 x))⟩
      split
      · rename_i w hw; exact fault w (.of_readWord hw)
      · rename_i link w hw
        have h3 : MaintMem { v with maint := clearTransfer v.maint } w := .of_readWord hw
        have move : ∀ m : Maint, m.target = w.maint.target → m.inflight = w.maint.inflight →
            MaintOp s (maintStatus (raiseIf (notify || r != .ok) maintSource .storeDone
              { w with maint := m })).2 ∧ (StoreKept s.store (fun _ => False) → StoreLegal
              (maintStatus (raiseIf (notify || r != .ok) maintSource .storeDone
                { w with maint := m })).2) := by
          intro m hm hi
          obtain ⟨h4, h5⟩ := key _ rfl w h3
          have h6 : StoreOp w { w with maint := m } := .setMaint hm hi
          have h7 := (MaintMem.raiseIf (s := { w with maint := m }) (notify || r != .ok) maintSource
            .storeDone).trans maintStatus_maintMem
          exact ⟨(h4.trans h6.op).trans h7.op, fun x => h7.storeOp.store (h6.store (h5 x))⟩
        split
        · exact move _ rfl rfl
        · exact move _ rfl rfl
        · exact fault w h3

/-- With no directive in flight no entry is in transfer. -/
theorem storeLegal_idle (h : StoreLegal s) (hi : s.maint.inflight = none) :
    StoreKept s.store (fun _ => False) := by
  refine ⟨h.1, fun j => (h.2.1 j).trans ⟨fun x => ?_, False.elim⟩, h.2.2⟩
  have := x.2; rw [hi] at this; cases this

/-- A visit of an import whose entry is its target (R147). -/
theorem importVisit_storeOp {f : InFlightStore} {i : Fin 48} (ht : s.maint.target = some i)
    (hf : s.maint.inflight.isSome = true) : StoreOp s (importVisit f i s) := by
  unfold importVisit
  dsimp only
  split
  · rename_i t hr
    have h : MaintMem s t := .of_readWords hr
    exact h.storeOp.trans chainFault_storeOp
  · rename_i ws t hr
    have h : MaintMem s t := .of_readWords hr
    generalize hm : ({ t.maint with crc := crcWords t.maint.crc (ws.take (s.maint.imageLen - 1 - s.maint.position)), position := visitLimit s.maint.position s.maint.imageLen } : Maint) = m
    have hm1 : m.target = s.maint.target := by rw [← hm, ← h.maint]
    have hm2 : m.inflight = s.maint.inflight := by rw [← hm, ← h.maint]
    have fill : StoreLegal s → StoreKept
        (fillEntry i (ws.take (s.maint.imageLen - 1 - s.maint.position)) t.store) (IsTarget m) := by
      intro x
      rw [isTarget_congr hm1 hm2, h.store]
      exact fillEntry_kept _ x
    split_ifs
    · exact ⟨(h.op.trans (.set _ m)).trans maintStatus_maintMem.op,
        fun x => maintStatus_maintMem.storeOp.store (fill x)⟩
    all_goals
      refine ⟨(h.op.trans (.set _ m)).trans (completeStore_of _ _ _ _).1, fun x => ?_⟩
      refine (completeStore_of _ _ _ _).2 (finishImport_kept _ _ (fill x) ?_ fun j => ?_)
      · have := (fill x).2.1 i
        have := this.2 ⟨hm1.trans ht, hm2 ▸ hf⟩
        intro e
        simp [inTransfer, e] at this
      · refine ⟨False.elim, fun ⟨hj, y⟩ => hj ?_⟩
        have := y.1
        rw [hm1, ht] at this
        exact (Option.some.inj this).symm

/-- A visit of an export whose entry is its target (R148). -/
theorem exportVisit_storeOp {f : InFlightStore} {i : Fin 48} (ht : s.maint.target = some i)
    (hf : s.maint.inflight.isSome = true) : StoreOp s (exportVisit f i s) := by
  unfold exportVisit
  dsimp only
  split
  · rename_i t hr
    have h : MaintMem s t := .of_writeWords hr
    exact h.storeOp.trans chainFault_storeOp
  · rename_i t hr
    have h : MaintMem s t := .of_writeWords hr
    split_ifs
    · refine h.storeOp.trans (StoreOp.trans ?_ maintStatus_maintMem.storeOp)
      exact .setMaint rfl rfl
    · refine ⟨(h.op.trans (.set _ _)).trans (completeStore_of _ _ _ _).1, fun x => ?_⟩
      refine (completeStore_of _ _ _ _).2 ?_
      show StoreKept (setEntryState i .valid t.store) _
      rw [h.store]
      refine setEntryState_kept x ?_ (by simp) fun j => ?_
      · have := (x.2.1 i).2 ⟨ht, hf⟩
        intro e
        simp [inTransfer, e] at this
      · split
        · simp
        · rename_i hj
          refine ⟨False.elim, fun y => hj ?_⟩
          have := y.1
          rw [ht] at this
          exact (Option.some.inj this).symm

theorem startImport_storeOp {addr buffer tag : Word} {notify : Bool} (hi : s.maint.inflight = none) :
    StoreOp s (startImport addr buffer tag notify s) := by
  unfold startImport
  split
  · rename_i t hr
    have h : MaintMem s t := .of_readWords hr
    exact h.storeOp.trans chainFault_storeOp
  · rename_i ws t hr
    have h : MaintMem s t := .of_readWords hr
    dsimp only
    have refuse : ∀ r k, StoreOp s (completeStore addr notify r k t) := fun r k =>
      ⟨h.op.trans (completeStore_of _ _ _ _).1,
        fun x => (completeStore_of _ _ _ _).2 (h.store ▸ storeLegal_idle x hi)⟩
    split
    · exact refuse _ _
    · split
      · exact refuse _ _
      · rename_i i hsel
        refine StoreOp.trans (h.storeOp.trans ⟨.set _ _, fun x => ?_⟩)
          (importVisit_storeOp rfl rfl)
        refine claimTarget_kept (storeLegal_idle x (h.maint ▸ hi)) hsel (fun _ h => h) fun j => ?_
        simp [IsTarget, eq_comm]

theorem startExport_storeOp {addr buffer tag : Word} {notify : Bool} (hi : s.maint.inflight = none) :
    StoreOp s (startExport addr buffer tag notify s) := by
  unfold startExport
  have refuse : ∀ r k, StoreOp s (completeStore addr notify r k s) := fun r k =>
    ⟨(completeStore_of _ _ _ _).1, fun x => (completeStore_of _ _ _ _).2 (storeLegal_idle x hi)⟩
  split
  · exact refuse _ _
  · rename_i i hf
    dsimp only
    split_ifs with hv
    · exact refuse _ _
    · refine StoreOp.trans ⟨.set _ _, fun x => ?_⟩ (exportVisit_storeOp rfl rfl)
      refine setEntryState_kept (storeLegal_idle x hi) (findTag_some hf).1 (by simp) fun j => ?_
      by_cases hj : j = i
      · simp [IsTarget, hj]
      · have : ¬ i = j := fun e => hj e.symm
        simp [IsTarget, hj, this]

theorem performDirective_storeOp {addr tag buffer : Word} {code : Nat} {notify : Bool}
    (hi : s.maint.inflight = none) : StoreOp s (performDirective addr code notify tag buffer s) := by
  unfold performDirective
  have done : ∀ r k st, (StoreKept s.store (fun _ => False) → StoreKept st (fun _ => False)) →
      StoreOp s (completeStore addr notify r k { s with store := st }) := fun r k st hst =>
    ⟨(MaintOp.set st s.maint).trans (completeStore_of _ _ _ _).1,
      fun x => (completeStore_of _ _ _ _).2 (hst (storeLegal_idle x hi))⟩
  split
  · exact done _ _ s.store id
  · split
    · exact done _ _ _ (pinEntry_kept _)
    · exact done _ _ _ (pinEntry_kept _)
    · exact done _ _ _ dropEntry_kept
    · unfold performList
      split
      · rename_i t ht
        have h : MaintMem s t := .of_writeWords ht
        exact h.storeOp.trans chainFault_storeOp
      · rename_i t ht
        have h : MaintMem s t := .of_writeWords ht
        exact ⟨h.op.trans (completeStore_of _ _ _ _).1,
          fun x => (completeStore_of _ _ _ _).2 (h.store ▸ storeLegal_idle x hi)⟩
    · exact startImport_storeOp hi
    · exact startExport_storeOp hi

theorem takeStore_storeOp {addr : Word} (hi : s.maint.inflight = none) :
    StoreOp s (takeStore addr s) := by
  unfold takeStore
  dsimp only
  have h0 : StoreOp s { s with maint := { s.maint with chain := .walking } } := .setMaint rfl rfl
  split
  · rename_i t ht
    have h : MaintMem _ t := .of_writeWord ht
    exact (h0.trans h.storeOp).trans chainFault_storeOp
  · rename_i t ht
    have h : MaintMem _ t := .of_writeWord ht
    split
    · rename_i v hv
      have h2 := h.trans (.of_readWords hv)
      exact (h0.trans h2.storeOp).trans chainFault_storeOp
    · rename_i ws v hv
      have h2 := h.trans (.of_readWords hv)
      refine (h0.trans h2.storeOp).trans (performDirective_storeOp ?_)
      rw [h2.maint]; exact hi

theorem waitStore_storeOp : StoreOp s (waitStore s) := by
  unfold waitStore
  split
  · exact MaintMem.refl.storeOp
  · have h : StoreOp s { s with maint := { s.maint with chain := .waiting } } := .setMaint rfl rfl
    exact h.trans maintStatus_maintMem.storeOp

theorem lookAtStore_storeOp (hi : s.maint.inflight = none) : StoreOp s (lookAtStore s) := by
  unfold lookAtStore
  split
  · rename_i t ht
    have h : MaintMem s t := .of_readWord ht
    exact h.storeOp.trans chainFault_storeOp
  · rename_i d t ht
    have h : MaintMem s t := .of_readWord ht
    split
    · exact h.storeOp.trans (takeStore_storeOp (h.maint ▸ hi))
    · exact h.storeOp.trans waitStore_storeOp

theorem findStore_storeOp (hi : s.maint.inflight = none) : StoreOp s (findStore s) := by
  unfold findStore
  split
  · exact lookAtStore_storeOp hi
  · split
    · rename_i t ht
      have h : MaintMem s t := .of_readWord ht
      exact h.storeOp.trans chainFault_storeOp
    · rename_i v t ht
      have h : MaintMem s t := .of_readWord ht
      split
      · exact h.storeOp.trans waitStore_storeOp
      · rename_i b _
        have h2 : StoreOp t { t with maint := { t.maint with cursor := b, mode := .atRecord } } :=
          .setMaint rfl rfl
        refine (h.storeOp.trans h2).trans (lookAtStore_storeOp ?_)
        exact h.maint ▸ hi
      · exact h.storeOp.trans chainFault_storeOp

/-- The store step of an open chain keeps the store's laws (R120, R141). -/
theorem workStore_storeOp : StoreOp s (workStore s) := by
  unfold workStore
  split
  · rename_i f hf
    unfold transferVisit
    split
    · exact MaintMem.refl.storeOp
    · rename_i i hi
      split
      · exact importVisit_storeOp hi (by rw [hf]; rfl)
      · exact exportVisit_storeOp hi (by rw [hf]; rfl)
  · rename_i hf; exact findStore_storeOp hf

/-- One store step keeps the store's laws (R120, R141). -/
theorem storeStep_storeOp : StoreOp s (storeStep s) := by
  unfold storeStep
  split
  · exact MaintMem.refl.storeOp
  · exact MaintMem.refl.storeOp
  · exact workStore_storeOp
  · exact workStore_storeOp

end Sys2Proof.Machine
end

