-- ==== Sys2Proof/WellFormed.lean ====
section
/-! DEFINITION. When a command's operands are ones the table's row can have. No meaning depends on
it: `exec` is total (log 5, 7, 8). -/

namespace Sys2Proof

/-- A host write lies inside the 32-bit address space. -/
def HostWrite.fits (w : HostWrite) : Bool := w.addr.toNat + w.bytes.length ≤ 2 ^ 32

/-- Every host write of a bus script lies inside the address space. -/
def busFits (b : Bus) : Bool := b.all fun slot => slot.host.all HostWrite.fits

/-- LSYNC changes its level: the line events of a sync are of such a bit clock (R106). -/
def changes (l : LSync) : Bool := l.before != l.now

/-- The offsets at which a register write has an effect (R161). -/
def writableOffsets : List Word := [0x00#32, 0x04#32, 0x08#32, 0x10#32]

/-- The operands are ones the command's row can have: the bits a PART_CONTROL row fixes are as the
row says (R163), an ignored write goes to an offset without effect (R161), an ignored sync stands at
a bit clock inside the longest frame (R106, R110), and host writes lie inside memory. -/
def wellFormed : Instr → Bool
  | .hardwareReset => true
  | .tableBaseWrite _ => true
  | .lineFormatWrite _ => true
  | .enable v => v.getLsbD 0 && !v.getLsbD 1
  | .disable v => !v.getLsbD 0
  | .softReset v => v.getLsbD 1
  | .lineRestart v bus => v.getLsbD 0 && !v.getLsbD 1 && v.getLsbD 2 && busFits bus
  | .setAttnThreshold _ => true
  | .setAttnMode _ _ => true
  | .claim => true
  | .peek => true
  | .sourceCompletion _ => true
  | .ignoredRegisterWrite offset _ => !writableOffsets.contains offset
  | .syncInHunt sync bus => 0 < sync.clocks && changes sync.lsync && busFits bus
  | .huntFrameMissed => true
  | .frameArrival arrival => changes arrival.lsync && busFits arrival.bus
  | .syncIgnored sync => 0 < sync.clocks && sync.clocks < 516 && changes sync.lsync
  | .missingFrame => true
  | .sampleDelivery _ _ => true
  | .stall bus => busFits bus
  | .maintenanceVisit bus => busFits bus
  | .attnPulseEnd => true

end Sys2Proof
end

