-- ==== Sys2Proof/Tests/Slice0.lean ====
section
/-! SUPPORT. Tests: the well-formedness smoke tests, worked cases of the manual with the manual's own
numbers, a step of each command, and for each statement with hypotheses a state that meets them. -/

namespace Sys2Proof.Tests

open Sys2Proof Sys2Proof.Machine

set_option Elab.async false

/-! ## Well-formedness: each check refuses an ill-formed term -/

theorem test_wf_enable : wellFormed (.enable 1#32) = true ∧ wellFormed (.enable 0#32) = false ∧
    wellFormed (.enable 3#32) = false := by decide

theorem test_wf_disable : wellFormed (.disable 2#32) = true ∧ wellFormed (.disable 1#32) = false := by
  decide

theorem test_wf_soft_reset : wellFormed (.softReset 3#32) = true ∧
    wellFormed (.softReset 1#32) = false := by decide

theorem test_wf_line_restart : wellFormed (.lineRestart 5#32 []) = true ∧
    wellFormed (.lineRestart 4#32 []) = false ∧ wellFormed (.lineRestart 7#32 []) = false ∧
    wellFormed (.lineRestart 1#32 []) = false := by decide

theorem test_wf_ignored_write : wellFormed (.ignoredRegisterWrite 0x0C#32 1#32) = true ∧
    wellFormed (.ignoredRegisterWrite 0x08#32 1#32) = false := by decide

/-- A change of LSYNC from low to high: a sync of polarity 0 (R106). -/
def rise : LSync := ⟨false, true⟩

theorem test_wf_sync : wellFormed (.syncInHunt ⟨0, rise⟩ []) = false ∧
    wellFormed (.syncIgnored ⟨515, rise⟩) = true ∧ wellFormed (.syncIgnored ⟨516, rise⟩) = false ∧
    wellFormed (.syncIgnored ⟨0, rise⟩) = false ∧ wellFormed (.frameArrival ⟨⟨true, true⟩, []⟩) = false := by
  decide

/-- A host write that runs past the end of the address space. -/
def pastEnd : Bus := [⟨[⟨0xFFFFFFFF#32, [1#8, 2#8]⟩], false⟩]

theorem test_wf_bus : wellFormed (.frameArrival ⟨rise, pastEnd⟩) = false ∧
    wellFormed (.stall pastEnd) = false ∧ wellFormed (.maintenanceVisit pastEnd) = false ∧
    wellFormed (.syncInHunt ⟨516, rise⟩ pastEnd) = false ∧ wellFormed (.lineRestart 5#32 pastEnd) = false := by
  decide

/-- No row of the table has bits (opcode_table.json), so no word spells a command. -/
theorem test_no_word_spells : decodeTableWord 0 0 = none ∧ decodeTableWord 32 0xFFFFFFFF = none := by
  decide

/-! ## Worked cases of the arithmetic (01) -/

/-- The sample that an integer is. -/
def smp (v : Int) : Sample := BitVec.ofInt 16 v

/-- The coefficient that an integer is. -/
def cf (v : Int) : Coef := BitVec.ofInt 24 v

/-- The filters of the worked case of 01 section 1.3. -/
def caseFilters : Filters :=
  { Filters.reset with ln := 8, hn := [0#24, 0#24, cf 262144, cf (-104858), 0#24, 0#24, 0#24, 0#24] }

/-- Worked case of 01 section 1.3: x(n-2) = 1000, x(n-3) = -1200, estimate 370, residual 42. -/
theorem test_estimate_and_residual :
    (toSample (echoAcc caseFilters [0#16, 0#16, smp (-1200), smp 1000, 0#16, 0#16] [] [] 5)).toInt = 370 ∧
    (residual caseFilters [0#16, 0#16, smp (-1200), smp 1000, 0#16, 0#16] [] []
      [0#16, 0#16, 0#16, 0#16, 0#16, smp 412] 5).toInt = 42 := by decide +kernel

/-- R4 and 01 section 1.3: halves go up, for negative values too. -/
theorem test_rounding : (toSample (-2621440)).toInt = -2 ∧ (toSample (-2621441)).toInt = -3 ∧
    (toSample (-1572864)).toInt = -1 ∧ (toSample 2621440).toInt = 3 := by decide +kernel

/-- R13: a difference of -33268 gives -32768, one of 33000 gives 32767. -/
theorem test_clamping : (sat16 (-33268)).toInt = -32768 ∧ (sat16 33000).toInt = 32767 := by
  decide +kernel

/-- Worked case of 01 section 1.5.1: the update 74, the negative half, the saturation. -/
theorem test_update : (updateCoef (cf 262144) 24 1234567890).toInt = 262218 ∧
    roundShift 24 (-25165824) = -1 ∧ (updateCoef (cf 8388000) 8 256000).toInt = 8388607 := by
  decide +kernel

/-- R21: exact halves at the largest and the smallest shift. -/
theorem test_update_halves : roundShift 40 (-(2 ^ 39)) = 0 ∧ roundShift 40 (2 ^ 39) = 1 ∧
    roundShift 8 (-128) = 0 ∧ roundShift 8 128 = 1 := by decide +kernel

/-- Worked case of 01 section 1.5.2: gradient 200000, update 3, Eε 400000, reported 1562. -/
theorem test_equalizer_update :
    eqGrad (List.replicate 40 (smp 100)) (List.replicate 143 (smp 50)) 63 = 200000 ∧
    roundShift 16 200000 = 3 ∧ energy (List.replicate 40 (smp 100)) = 400000 ∧
    reported 400000 = 1562 := by decide +kernel

/-- Worked case of the energy gate (01 section 1.5.1): reported Ex is 156250. -/
theorem test_energy_gate :
    reported (energy ((List.range 40).map fun n => if n % 2 = 0 then smp 1000 else smp (-1000))) =
      156250 := by decide +kernel

/-- 01 section 1.8: with the equalizer in reset form at cursor 5, the first five outputs are 0 and the
others the residuals five samples earlier. -/
theorem test_equalizer_reset_form :
    let f := eqReset { Filters.reset with le := 16, cursorTap := 5 }
    let u := (List.range 40).map fun n => smp (n + 7)
    eqOutput f u (List.replicate 143 0#16) 4 = 0#16 ∧
    (eqOutput f u (List.replicate 143 0#16) 5).toInt = 7 ∧
    (eqOutput f u (List.replicate 143 0#16) 39).toInt = 41 := by decide +kernel

/-! ## Programs, guard and search (02, 03) -/

/-- Phase 1 of the worked case of 02: T = 4, K = 3, duration 400. -/
def casePhase : Phase := { Phase.blank with duration := 400, target := 4, runK := 3 }

/-- A channel in that phase with Rf 1000 and an early-exit run of 1. -/
def caseChan : Channel :=
  { Channel.reset with state := .training, program := [casePhase], progLen := 1, rf := 1000,
                       earlyRun := 1 }

/-- The worked case of early exit (02 section 2.4): closes a, b, d, e on a run of 1. -/
theorem test_early_exit : nextEarlyRun caseChan 25600000 1500000 = 2 ∧
    nextEarlyRun caseChan 25600000 1700000 = 0 ∧ nextEarlyRun caseChan 204800 10000 = 0 ∧
    nextEarlyRun caseChan 30720000 1000000 = 2 := by decide +kernel

/-- 02 section 2.7: Eu 30,000,000 over Er 12,800,000 is divergent; Eu of exactly twice Er is not. -/
theorem test_divergent : divergent caseChan 12800000 30000000 = true ∧
    divergent caseChan 12800000 25600000 = false := by decide

/-- The values of `segs` in 04, R76. -/
theorem test_segs : segsFor 71 = 4 ∧ segsFor 79 = 4 ∧ segsFor 127 = 6 ∧ segsFor 4258 = 135 ∧
    segsFor 5007 = 158 ∧ segsFor 5119 = 162 := by decide

/-- 03 sections 3.7 and 3.9: the ranges and sweep lengths of a full and of a short grant. -/
theorem test_ranges : effectiveDmax { Channel.reset with dmax := 4992 } 158 = 4992 ∧
    sweepLength 64 4992 = 309 ∧ effectiveDmax { Channel.reset with dmax := 4992 } 120 = 3785 ∧
    sweepLength 64 3785 = 233 := by decide

/-- R63: window 308 of the widest range evaluates lag 4992 alone; window 0 is lags 64 to 79. -/
theorem test_windows : windowLags 64 4992 308 = [4992] ∧
    windowLags 64 4992 0 = [64, 65, 66, 67, 68, 69, 70, 71, 72, 73, 74, 75, 76, 77, 78, 79] := by
  decide +kernel

/-- 03 sections 3.7 and 3.8: the accepted and the rejected best lag. -/
theorem test_acceptance :
    accepted 8 { Search.reset with bestScore := 3600000000, lagsEval := 4929,
                                   scoreSum := 985800000000 } = true ∧
    accepted 8 { Search.reset with bestScore := 900000000, lagsEval := 4000,
                                   scoreSum := 800000000000 } = false := by decide +kernel

/-- 03 sections 3.7 and 3.9: placement at 4195, and the taps left by 159 and by 158 segments. -/
theorem test_placement : placedDelay 64 4203 = 4195 ∧ narrowedTaps 128 159 4982 = 64 ∧
    narrowedTaps 128 158 4982 = 32 := by decide

/-! ## The pool (04) -/

/-- The moment of the worked case of 04 section 4.5. -/
def casePool : State :=
  ({ State.reset with pool := [40, 41, 42] }.modChan 2 fun c =>
    { c with segs := [300, 301, 302, 303, 304, 305] }).modChan 11 fun c => { c with segs := [510, 511] }

/-- The worked case of 04 section 4.5: a shrink to 4, then a grant of 4. -/
theorem test_pool_orders : (shrink 2 4 casePool).pool = [40, 41, 42, 305, 304] ∧
    ((shrink 2 4 casePool).chan 2).segs = [300, 301, 302, 303] ∧
    (grant 11 4 (shrink 2 4 casePool)).pool = [304] ∧
    ((grant 11 4 (shrink 2 4 casePool)).chan 11).segs = [510, 511, 40, 41, 42, 305] := by
  decide +kernel

/-! ## The profile store and its images (07, 08) -/

/-- Every entry VALID under tag 0x100 plus its number, the order by entry number, but that entries 31,
17, 2 and 40 stand at the least recent end; 17 is IMPORTING, 2 and 40 are pinned (07 section 7.7). -/
def caseStore : Store :=
  { entries := Vector.ofFn fun i =>
      { Entry.reset with state := if i = 17 then .importing else .valid,
                         tag := BitVec.ofNat 32 (0x100 + i.val), pinned := i = 2 || i = 40 }
    recency := ((List.finRange 48).filter fun i => !([31, 17, 2, 40].contains i)) ++ [31, 17, 2, 40] }

/-- The worked case of eviction (07 section 7.7): entry 31 is evicted and becomes the most recent;
the import of entry 17 then fails and its entry is FREE. -/
theorem test_eviction :
    (saveProfileTo caseStore 0x5A000999#32 .reset).1 = .saved ∧
    (saveProfileTo caseStore 0x5A000999#32 .reset).2.recency.head? = some 31 ∧
    (entryAt (saveProfileTo caseStore 0x5A000999#32 .reset).2 31).tag = 0x5A000999#32 ∧
    (saveProfileTo caseStore 0x5A000999#32 .reset).2.recency.drop 45 = [17, 2, 40] ∧
    (finishImport 17 false false caseStore).recency.drop 45 = [2, 40] ∧
    findFree (finishImport 17 false false caseStore) = some 17 := by decide +kernel

/-- R123: pinned, BUSY, overwritten in place. -/
theorem test_saves : (saveProfileTo caseStore 0x102#32 .reset).1 = .pinned ∧
    (saveProfileTo caseStore 0x111#32 .reset).1 = .busy ∧
    (saveProfileTo caseStore 0x107#32 .reset).2.recency.head? = some 7 := by decide +kernel

/-- R149: the CRC of the nine characters 1 to 9, and of one byte of zeros. -/
theorem test_crc : ([0x31#8, 0x32#8, 0x33#8, 0x34#8, 0x35#8, 0x36#8, 0x37#8, 0x38#8, 0x39#8].foldl
    crcByte 0xFFFF#16) = 0x29B1#16 ∧ crcByte 0xFFFF#16 0#8 = 0xE1F0#16 := by decide +kernel

/-- R145: an image of 32, 64 and 32 taps has 133 words and the largest 261; R147: 64 words a visit. -/
theorem test_image_length : imageLength { Entry.reset with ln := 32, lf := 64, le := 32 } = 133 ∧
    imageLength { Entry.reset with ln := 64, lf := 128, le := 64 } = 261 ∧
    visitLimit 4 133 = 64 ∧ visitLimit 64 133 = 128 ∧ visitLimit 128 133 = 133 := by decide

/-! ## Line records and the frame (05, 06) -/

/-- The four layouts of R83. -/
theorem test_layouts : recordLength false false = 52 ∧ recordLength false true = 72 ∧
    recordLength true false = 72 ∧ recordLength true true = 92 ∧
    metricsOffset false false = 176#32 ∧ metricsOffset false true = 256#32 ∧
    metricsOffset true false = 256#32 ∧ metricsOffset true true = 336#32 := by decide

/-- R106 and 06 section 6.11: frames of 388 and 516 bit clocks; with 24 slots and offset 2, slot 0 ends
at bit clock 17 and slot 23 at 385. -/
theorem test_frame : frameLength ⟨.n24, false, 2#2⟩ = 388 ∧ frameLength .reset = 516 ∧
    slotEnd ⟨.n24, false, 2#2⟩ 0 = 17 ∧ slotEnd ⟨.n24, false, 2#2⟩ 23 = 385 := by decide

/-! ## One step of each command -/

/-- Memory holding the words given at the addresses given. -/
def poke (l : List (Nat × Nat)) : Memory :=
  l.foldl (fun m p => memSetWord m (BitVec.ofNat 32 p.1) (BitVec.ofNat 32 p.2)) []

/-- The state after a command. -/
def after (c : Instr) (s : State) : State :=
  match exec c s with
  | .next t => t
  | .fault _ => s
  | .refused _ => s

/-- Channel `n` replaced. -/
def put (n : Fin 32) (c : Channel) (s : State) : State := s.modChan n fun _ => c

/-- An enabled part whose port is LOCKED in the 32-slot format. -/
def live : State :=
  { State.reset with
    enabled := true, port := { Port.reset with state := .locked, stallArmed := true } }

/-- A channel in a state on a timeslot. -/
def onSlot (st : ChanState) (k : Nat) : Channel := { Channel.reset with state := st, timeslot := some k }

/-- A channel whose block is in progress with the record at `a` in flight. -/
def flying (a : Word) (notify : Bool) (c : Channel) : Channel :=
  { c with line := { c.line with inBlock := true },
           walk := { c.walk with
             cursor := a, takenRun := 1,
             inflight := some (InFlight.mk a false false notify false .none) } }

/-- An attention unit with a priority for every channel, threshold 0 and level mode. -/
def heard (p : BitVec 3) : Attn :=
  { Attn.reset with sources := (Vector.replicate 34 ⟨0#16, false, p⟩).set 33 ⟨0#16, false, 7#3⟩ }

/-- R161: after hardware reset PART_STATUS reads 32 slots, 1024 segments free and all else 0. -/
theorem test_hardware_reset :
    readRegister 0x0C#32 (after .hardwareReset live) = 0x04000020#32 ∧
    readRegister 0x08#32 (after .hardwareReset live) = 32#32 := by decide +kernel

/-- R162: bits 0 to 7 are discarded; a write while enabled is ignored. -/
theorem test_table_base :
    readRegister 0x00#32 (after (.tableBaseWrite 0x000200FF#32) .reset) = 0x00020000#32 ∧
    readRegister 0x00#32 (after (.tableBaseWrite 0x000200FF#32) live) = 0#32 := by decide +kernel

/-- R107: 28 becomes 24, 29 becomes 32; the active format stands. -/
theorem test_line_format :
    readRegister 0x08#32 (after (.lineFormatWrite 0x211C#32) live) = 0x2118#32 ∧
    readRegister 0x08#32 (after (.lineFormatWrite 0x1D#32) live) = 0x20#32 ∧
    (after (.lineFormatWrite 0x1C#32) live).port.activeFmt = .reset := by decide +kernel

/-- 11 section 11.1: the enabling write latches the format and takes mode and threshold; HUNT shows in
PART_STATUS. -/
theorem test_enable :
    readRegister 0x0C#32 (after (.enable 0x111#32) (after (.lineFormatWrite 24#32) .reset)) =
      0x04000003#32 ∧
    readRegister 0x04#32 (after (.enable 0x111#32) .reset) = 0x111#32 := by decide +kernel

/-- R163, R117: ENABLE written 0 turns the port OFF and clears ENABLE. -/
theorem test_disable : readRegister 0x0C#32 (after (.disable 0#32) live) = 0x04000020#32 := by
  decide +kernel

/-- R164, R28: a soft reset closes the channels; a record in flight stays as memory holds it. -/
theorem test_soft_reset :
    ((after (.softReset 3#32) (put 4 (flying 0x1000#32 true (onSlot .tracking 12))
      { live with mem := poke [(0x1000, 2)] })).chan 4).state = .closed ∧
    memWord (after (.softReset 3#32) (put 4 (flying 0x1000#32 true (onSlot .tracking 12))
      { live with mem := poke [(0x1000, 2)] })).mem 0x1000#32 = 2#32 := by decide +kernel

/-- The state of 06 section 6.13 after the write of LINE_FORMAT. -/
def narrowing : State :=
  put 5 { flying 0x1000#32 false (onSlot .tracking 27) with segs := [7] }
    (put 9 (flying 0x1200#32 false (onSlot .tracking 3))
      { live with pool := [1], attn := heard 5#3, mem := poke [(0x1000, 2), (0x1200, 2), (0x1204, 0x1400)],
                  port := { live.port with pendingFmt := ⟨.n24, false, 0#2⟩ } })

/-- The worked case of 06 section 6.13: channel 5 faults with its link unread, channel 9 is held. -/
theorem test_line_restart :
    let t := after (.lineRestart 5#32 []) narrowing
    (t.chan 5).state = .fault ∧ (t.chan 5).segs = [] ∧ t.pool = [1, 7] ∧
    memWord t.mem 0x1000#32 = 6#32 ∧ (t.chan 9).state = .held ∧ (t.chan 9).resume = some .tracking ∧
    (t.chan 9).walk.cursor = 0x1400#32 ∧ memWord t.mem 0x1200#32 = 6#32 := by decide +kernel

/-- The causes of the same case (06 section 6.13; bits of R161). -/
theorem test_line_restart_causes :
    let t := after (.lineRestart 5#32 []) narrowing
    t.attn.sources[5].causes = 0x0100#16 ∧ t.attn.sources[9].causes = 0x0002#16 ∧
    t.attn.sources[33].causes = 0x2000#16 := by decide +kernel

/-- 10 section 10.6: source 32 of priority 3 waits under threshold 3 and gives a pulse at 2. -/
theorem test_threshold :
    let s := { live with attn := { attnRaise 32 .storeDone (heard 3#3) with
                                     threshold := 3#3, pulse := true, pin := false } }
    (after (.setAttnThreshold 2#3) s).attn.pin = true ∧
    (after (.setAttnThreshold 3#3) s).attn.pin = false := by decide +kernel

/-- R169: pulse to level asserts the pin while a source is claimable; level to pulse deasserts it. -/
theorem test_mode :
    let s := { live with attn := attnRaise 4 .state (heard 5#3) }
    (after (.setAttnMode false 0#3) { s with attn := { s.attn with pulse := true, pin := false } }).attn.pin
      = true ∧
    (after (.setAttnMode true 0#3) s).attn.pin = false := by
  constructor
  · decide +kernel
  · simp [after, exec, execSetAttnMode, takeControlFields, attnControl, live, State.reset]
    decide +kernel

/-- The attention unit of 10 section 10.6 before its first claim, in level mode. -/
def twoWaiting : State :=
  { live with attn := attnRaise 4 .state (attnRaise 9 .blockDone { heard 5#3 with threshold := 2#3 }) }

/-- 10 section 10.6: the claim returns source 4 with STATE; the next returns 9 with BLOCK_DONE. -/
theorem test_claim : (after .claim twoWaiting).readData = 0x204#32 ∧
    (after .claim twoWaiting).attn.sources[4].inService = true ∧
    (after .claim (after .claim twoWaiting)).readData = 0x109#32 ∧
    (after .claim (after .claim twoWaiting)).attn.pin = false := by decide +kernel

/-- 10 section 10.6: the part source goes first with LINE_LOST; with nothing claimable the value is 63. -/
theorem test_peek :
    (after .peek { live with attn := attnRaise 33 .lineLost twoWaiting.attn }).readData = 0x200021#32 ∧
    (after .peek live).readData = 0x3F#32 := by decide +kernel

/-- 10 section 10.6: the completion of 4 brings it back with FAR_RESULT; a number above 33 is ignored. -/
theorem test_completion :
    let s := { live with attn := attnRaise 4 .farResult (attnClaim twoWaiting.attn) }
    (after .claim (after (.sourceCompletion 0xFF04#32) s)).readData = 0x1004#32 ∧
    after (.sourceCompletion 34#32) s = s := by decide +kernel

/-- R161: writes of PART_STATUS and of an undecoded offset change nothing. -/
theorem test_ignored_write : after (.ignoredRegisterWrite 0x0C#32 0xFFFFFFFF#32) live = live ∧
    after (.ignoredRegisterWrite 0x18#32 0xFFFFFFFF#32) live = live := by decide +kernel

/-- A hunting port with a sync run. -/
def hunting (run : Nat) : State :=
  { live with port := { live.port with state := .hunt, stallArmed := false, syncRun := run } }

/-- R108: an in-place sync raises the run, another starts it again. -/
theorem test_hunt : (after (.syncInHunt ⟨516, rise⟩ []) (hunting 6)).port.syncRun = 7 ∧
    (after (.syncInHunt ⟨515, rise⟩ []) (hunting 6)).port.syncRun = 1 ∧
    (after (.syncInHunt ⟨3, rise⟩ []) (hunting 0)).port.syncRun = 1 := by decide +kernel

/-- The channels of 06 section 6.12 after the stall. -/
def stalled : State :=
  put 0 { onSlot .held 7 with resume := some .tracking, holdLine := true }
    (put 3 { onSlot .held 8 with resume := some .training, holdLine := true, holdDirective := true }
      { hunting 7 with attn := heard 5#3 })

/-- The lock of 06 section 6.12: channel 0 returns to TRACKING, channel 3 stays held. -/
theorem test_lock :
    let t := after (.syncInHunt ⟨516, rise⟩ []) stalled
    t.port.state = .locked ∧ t.port.frameCount = 0 ∧ (t.chan 0).state = .tracking ∧
    (t.chan 3).state = .held ∧ (t.chan 3).holdLine = false ∧ (t.chan 3).holdDirective = true ∧
    t.attn.sources[33].causes = 0x1000#16 ∧ t.attn.sources[3].causes = 0#16 := by decide +kernel

/-- R106: with polarity 1 a change from low to high is no sync, one from high to low is. -/
theorem test_polarity :
    let s := { hunting 6 with port := { (hunting 6).port with activeFmt := ⟨.n32, true, 0#2⟩ } }
    after (.syncInHunt ⟨516, rise⟩ []) s = s ∧
    (after (.syncInHunt ⟨516, ⟨true, false⟩⟩ []) s).port.syncRun = 7 := by decide +kernel

/-- R108: a frame length without a sync sets the run to 0. -/
theorem test_hunt_missed : (after .huntFrameMissed (hunting 7)).port.syncRun = 0 := by decide +kernel

/-- Channel 6 of 05 section 5.9 before boundary b1: A in flight, B posted. -/
def chainRuns : State :=
  put 6 { flying 0x48000#32 false (onSlot .tracking 12) with hist := .reset }
    { live with attn := heard 5#3, port := { live.port with frameCount := 5 },
                mem := poke [(0x48000, 2), (0x48004, 0x48200), (0x48200, 1), (0x48208, 0x434),
                             (0x48210, 0x00030007)] }

/-- 05 section 5.9, boundary b1: A is DONE with gap word 0, B is TAKEN, the taken run is 2, and x(0) of B
goes out in slot 12. -/
theorem test_boundary_closes_and_takes :
    let t := after (.frameArrival ⟨rise, []⟩) chainRuns
    t.port.frameCount = 6 ∧ memWord t.mem 0x48000#32 = 3#32 ∧
    memWord t.mem (0x48000#32 + 200#32) = 0#32 ∧ memWord t.mem 0x48200#32 = 2#32 ∧
    (t.chan 6).walk.cursor = 0x48200#32 ∧ (t.chan 6).walk.takenRun = 2 ∧
    (t.port.frameOut.getD []).getD 12 0#16 = 7#16 ∧ (t.chan 6).line.playPos = 1 := by decide +kernel

/-- 05 section 5.9, boundary b2: the link of a watched record is 0, the boundary is starved. -/
theorem test_boundary_starves :
    let s := put 6 { onSlot .tracking 12 with
      walk := { Walker.reset with cursor := 0x48200#32, mode := .watching, takenRun := 2 } }
      { live with attn := heard 5#3, port := { live.port with frameCount := 5 } }
    let t := after (.frameArrival ⟨rise, []⟩) s
    (t.chan 6).walk.gapCount = 1 ∧ (t.chan 6).walk.takenRun = 0 ∧
    (t.chan 6).walk.mode = .watching ∧ t.attn.sources[6].causes = 0x0008#16 ∧
    (t.port.frameOut.getD []).getD 12 1#16 = 0#16 := by decide +kernel

/-- R110: a sync elsewhere does not restart the frame position; a missing frame sends nothing and leaves
the frame count. -/
theorem test_ignored_and_missing :
    (after (.syncIgnored ⟨100, rise⟩) chainRuns).port.frameCount = 5 ∧
    (after .missingFrame chainRuns).port.frameCount = 5 ∧
    (after .missingFrame chainRuns).port.frameOut = none := by decide +kernel

/-- R106, R113: a sample, its most significant bit first, joins the capture buffer of its slot's owner; one of a slot no one owns is discarded. -/
theorem test_sample :
    let s := { chainRuns with port := { chainRuns.port with frameOut := some [] } }
    let lrx : Lrx := #v[true, false, false, false, false, false, false, false,
                        false, false, false, false, false, true, false, true]
    ((after (.sampleDelivery 12#5 lrx) s).chan 6).line.capture = [0x8005#16] ∧
    ((after (.sampleDelivery 13#5 lrx) s).chan 6).line.capture = [] := by decide +kernel

/-- The state of 06 section 6.12 as the stall timer expires. -/
def stalling : State :=
  put 0 (flying 0x1000#32 false (onSlot .tracking 7))
    (put 3 { flying 0x1200#32 false (onSlot .held 8) with resume := some .training, holdDirective := true }
      (put 7 { onSlot .training 9 with
          line := { LineBuf.reset with inBlock := true },
          walk := { Walker.reset with gapCount := 1, starvReported := true } }
        (put 12 { Channel.reset with state := .fault }
          { live with attn := heard 5#3, mem := poke [(0x1000, 2), (0x1004, 0x1400), (0x1200, 2)] })))

/-- The worked case of 06 section 6.12: records LINE_LOST, hold reasons and resume states. -/
theorem test_stall :
    let t := after (.stall []) stalling
    memWord t.mem 0x1000#32 = 6#32 ∧ memWord t.mem 0x1200#32 = 6#32 ∧
    (t.chan 0).walk.cursor = 0x1400#32 ∧ (t.chan 3).walk.mode = .watching ∧
    (t.chan 0).state = .held ∧ (t.chan 3).holdLine = true ∧ (t.chan 3).resume = some .training ∧
    (t.chan 7).resume = some .training ∧ (t.chan 7).walk.gapCount = 1 ∧ (t.chan 12).state = .fault := by
  decide +kernel

/-- The causes of the same case: STATE on 0 and 7, nothing on 3 and 12, LINE_LOST on the part source. -/
theorem test_stall_causes :
    let t := after (.stall []) stalling
    t.attn.sources[0].causes = 0x0002#16 ∧ t.attn.sources[3].causes = 0#16 ∧
    t.attn.sources[7].causes = 0x0002#16 ∧ t.attn.sources[12].causes = 0#16 ∧
    t.attn.sources[33].causes = 0x2000#16 := by decide +kernel

/-- The table of 09 section 9.6: channels 2 and 6 request OPEN on timeslot 9. -/
def twoOpens : State :=
  { live with tableBase := 0x200#24, attn := heard 3#3,
              mem := poke [(0x20200, 1), (0x20208, 0x48000), (0x2020C, 0x77), (0x20210, 0x10002009),
                           (0x20214, 0x10314), (0x20228, 1),
                           (0x20600, 1), (0x20608, 0x48000), (0x2060C, 0x78), (0x20610, 0x10002009),
                           (0x20614, 0x10504), (0x20628, 1)] }

/-- The worked case of 09 section 9.6: LENGTHS with reason 4, OPENED with reason 4, both words NONE, and
REQUEST_DONE on both. -/
theorem test_visit_opens :
    let t := after (.maintenanceVisit []) twoOpens
    memWord t.mem 0x20204#32 = 0x0406#32 ∧ memWord t.mem 0x20604#32 = 0x0401#32 ∧
    memWord t.mem 0x20200#32 = 0#32 ∧ memWord t.mem 0x20600#32 = 0#32 ∧
    (t.chan 2).state = .closed ∧ (t.chan 6).state = .training ∧ (t.chan 6).timeslot = some 9 ∧
    t.attn.sources[2].causes = 0x0200#16 ∧ t.attn.sources[6].causes = 0x0200#16 ∧
    t.attn.sources[6].priority = 5#3 := by decide +kernel

/-- A live part whose channel table is at 0x20000. -/
def tabled : State := { live with tableBase := 0x200#24, attn := heard 5#3 }

/-- A chain whose cursor rests on a posted PIN of tag 0x55, NOTIFY clear, link 0. -/
def pinPosted : State :=
  { tabled with maint := { Maint.reset with chain := .waiting, cursor := 0x3000#32 },
                mem := poke [(0x3000, 1), (0x3008, 1), (0x300C, 0x55)] }

/-- R126, R140, R142: a PIN of a tag no entry carries is DONE with NOT_FOUND, and raises STORE_DONE. -/
theorem test_visit_pins :
    let t := after (.maintenanceVisit []) pinPosted
    memWord t.mem 0x3000#32 = 3#32 ∧ memWord t.mem 0x3014#32 = 1#32 ∧
    t.attn.sources[32].causes = 0x0400#16 ∧ t.maint.mode = .watching := by decide +kernel

/-- R170: the pulse ends in pulse mode alone. -/
theorem test_pulse_end :
    (after .attnPulseEnd { live with attn := { live.attn with pulse := true, pin := true } }).attn.pin
      = false ∧
    (after .attnPulseEnd twoWaiting).attn.pin = true := by decide +kernel

/-- The worked case of 01 section 1.9: USED at block 100, OVERLOAD at 103, GAP at 106, NO_REFERENCE at
107, and HELD before GAP (R22). -/
theorem test_reference_outcomes :
    let c := { Channel.reset with state := .tracking, trackEq := 20, filt := { Filters.reset with le := 8 } }
    let run := fun (c : Channel) k => { c with walk := { c.walk with takenRun := k } }
    refOutcome (run c 10) (measure c) true = .used ∧
    refOutcome { run c 13 with hist := { c.hist with outOld := ⟨[], true⟩ } } (measure c) true = .overload ∧
    refOutcome (run c 2) (measure c) true = .gap ∧ refOutcome (run c 3) (measure c) false = .noReference ∧
    refOutcome { run c 2 with state := .held } (measure c) true = .held := by decide +kernel

/-! ## Witnesses: for each statement with hypotheses, a state and operands that meet them -/

/-- A part with a channel tracking on the last slot of the frame, holding two segments and a record in
flight, a held one on the first slot, a profile, a cause waiting and a command in the queue. -/
def busy : State :=
  put 4 { flying 0x100#32 true (onSlot .tracking 31) with
      segs := [0, 1], poolHist := List.replicate 64 0#16 }
    (put 5 { onSlot .held 0 with resume := some .training, holdDirective := true }
      { live with
        pool := List.range' 2 1022, attn := attnRaise 4 .blockDone (heard 5#3), mem := [(0x100, 2#8)],
        store := { entries := (Vector.replicate 48 Entry.reset).set 3
                     { Entry.reset with state := .valid, tag := 0x77#32, ln := 8, le := 8 },
                   recency := [3] },
        pending := [.peek, .claim] })

theorem busy_segs : ∀ n : Fin 32, (busy.chan n).segs = if n = 4 then [0, 1] else [] := by
  decide +kernel

theorem busy_pool : PoolLegal busy := by
  intro x
  have hp : busy.pool = List.range' 2 1022 := rfl
  have hs : ∑ n : Fin 32, (busy.chan n).segs.count x = [0, 1].count x := by
    rw [Finset.sum_eq_single 4]
    · rw [busy_segs]; rfl
    · intro n _ h; rw [busy_segs, if_neg h]; rfl
    · intro h; exact absurd (Finset.mem_univ _) h
  rw [hs, hp, (List.nodup_range' (step := 1)).count]
  simp only [List.mem_range'_1]
  rcases x with _ | _ | x
  · decide
  · decide
  · have : List.count (x + 2) [0, 1] = 0 := by simp
    rw [this]
    by_cases h : x + 2 < 1024
    · rw [if_pos h, if_pos ⟨by omega, by omega⟩]
    · rw [if_neg h, if_neg (by omega)]

theorem busy_running : ∀ n : Fin 32, running (busy.chan n) = true →
    (busy.chan n).timeslot = some 31 ∧ n = 4 ∨ (busy.chan n).timeslot = some 0 ∧ n = 5 := by
  decide +kernel

theorem busy_slots : SlotLegal busy := by
  have hk : busy.port.activeFmt.slots.toNat = 32 := rfl
  refine ⟨by decide +kernel, fun n h => ?_, fun n k hn h1 h2 => ?_⟩
  · rcases busy_running n h with ⟨ht, _⟩ | ⟨ht, _⟩ <;> exact ⟨_, ht, by rw [hk]; decide⟩
  · rcases busy_running n h1 with ⟨ht, hn1⟩ | ⟨ht, hn1⟩ <;>
      rcases busy_running k h2 with ⟨hu, hk1⟩ | ⟨hu, hk1⟩ <;>
      first
        | (exact absurd (hn1.trans hk1.symm) hn)
        | (rw [ht, hu]; decide)

theorem busy_inflight : InflightLegal busy := by
  have h : ∀ n : Fin 32, n ≠ 4 → (busy.chan n).walk.inflight = none := by decide +kernel
  intro n k hn f g hf hg
  by_cases h4 : n = 4
  · rw [h k (fun e => hn (h4.trans e.symm))] at hg; cases hg
  · rw [h n h4] at hf; cases hf

theorem busy_store : StoreLegal busy := by
  unfold StoreLegal StoreKept IsTarget
  decide +kernel

theorem busy_attn : AttnLegal busy.attn := by
  unfold AttnLegal
  decide +kernel

/-- `busy` meets every law, and its step answers a next state. -/
theorem witness_laws : MemLegal busy ∧ PoolLegal busy ∧ HistoryLegal busy ∧ AttnLegal busy.attn ∧
    LifeLegal busy ∧ SlotLegal busy ∧ InflightLegal busy ∧ StoreLegal busy ∧
    step busy = .next (after .peek { busy with pending := [.claim] }) :=
  ⟨by decide +kernel, busy_pool, by unfold HistoryLegal; decide +kernel, busy_attn,
    by unfold LifeLegal ChanLegal; decide +kernel, busy_slots, busy_inflight, busy_store, rfl⟩

/-- An IDLE chain, and one WAITING on an enabled part with a table; the chain's law of `StoreLawKept`. -/
theorem witness_ChainLegal : ChainLegal busy ∧ ChainLegal pinPosted ∧ pinPosted.maint.chain ≠ .idle := by
  unfold ChainLegal
  decide +kernel

/-- A window of 8 taps at 64 in 4 segments, and a sweep up to Dmax 64 with 4; every other channel CLOSED with
nothing. -/
def holding : State :=
  put 4 { onSlot .tracking 3 with
      dmin := 64, dmax := 64, segs := [0, 1, 2, 3],
      filt := { Filters.reset with lf := 8, lfEff := 8, delay := 64 } }
    (put 5 { onSlot .training 4 with
        dmin := 64, dmax := 64, segs := [4, 5, 6, 7], search := { Search.reset with sweeping := true } }
      { live with pending := [.peek] })

theorem witness_HoldingLegal : HoldingLegal holding ∧
    step holding = .next (after .peek { holding with pending := [] }) :=
  ⟨by unfold HoldingLegal HoldsLegally; decide +kernel, rfl⟩

theorem witness_StepRunsFrontCommand : busy.pending = .peek :: [.claim] := rfl

theorem witness_EveryCommandCompletes : busy.bus = [] := rfl

theorem witness_ConfigurationChangesOnlyByWrites :
    exec .peek busy = .next (after .peek busy) ∧ Instr.peek ≠ .hardwareReset ∧
    (∀ v, Instr.peek ≠ .tableBaseWrite v) ∧ (∀ v, Instr.peek ≠ .lineFormatWrite v) ∧
    (∀ o v, Instr.peek ≠ .ignoredRegisterWrite o v) ∧ (∀ v, Instr.peek ≠ .enable v) ∧
    (∀ v, Instr.peek ≠ .disable v) ∧ (∀ v, Instr.peek ≠ .softReset v) ∧
    (∀ v bus, Instr.peek ≠ .lineRestart v bus) ∧
    live.bus = [] ∧ 0x0C#32 ≠ 0x00#32 ∧ 0x0C#32 ≠ 0x04#32 ∧ 0x0C#32 ≠ 0x08#32 ∧ 0x0C#32 ≠ 0x10#32 ∧
    0x11#32 ≠ 0x10#32 :=
  ⟨rfl, nofun, nofun, nofun, nofun, nofun, nofun, nofun, nofun, rfl, by decide, by decide, by decide,
    by decide, by decide⟩

/-- A store with an entry in each state. -/
def fourStates : Store := freeEntry 9 (setEntryState 5 .exporting caseStore)

theorem witness_SoftResetEffects : ({ live with store := fourStates } : State).bus = [] ∧
    (entryAt fourStates 0).state = .valid ∧ (entryAt fourStates 9).state = .free ∧
    (entryAt fourStates 5).state = .exporting ∧ (entryAt fourStates 17).state = .importing ∧
    PoolLegal busy :=
  ⟨rfl, by decide +kernel, by decide +kernel, by decide +kernel, by decide +kernel, busy_pool⟩

/-- Each clause at its bit. -/
theorem witness_ConfigurationAndEnableWrites : live.bus = [] ∧ live.enabled = true ∧ State.reset.bus = [] ∧
    State.reset.enabled = false ∧ (1#32).getLsbD 2 = false ∧ (5#32).getLsbD 2 = true ∧
    (0#32).getLsbD 1 = false := by decide

/-- The pulse clauses: a part in pulse mode, and one in level mode whose write gains no source. -/
theorem witness_ThresholdAndModeWrite :
    ({ live with attn := { live.attn with pulse := true } } : State).attn.pulse = true ∧
    twoWaiting.attn.pulse = false ∧
    ∀ i, Waits (after (.setAttnMode true 2#3) twoWaiting).attn i → Waits twoWaiting.attn i := by
  refine ⟨rfl, rfl, ?_⟩
  unfold Waits
  decide +kernel

/-- A claim with nothing claimable, and one with two sources of equal priority; completions of a source in
service, of one not in service, and of the numbers 33 and 34. -/
theorem witness_ClaimAndCompletion : (∀ i, ¬ Waits live.attn i) ∧ Waits twoWaiting.attn 4 ∧
    Waits twoWaiting.attn 9 ∧ (33 : Fin 34).val = ((33#32).extractLsb' 0 6).toNat ∧
    (attnClaim (attnRaise 33 .lineLost (heard 5#3))).sources[33].inService = true ∧
    (heard 5#3).sources[33].inService = false ∧
    ∀ i : Fin 34, i.val = ((34#32).extractLsb' 0 6).toNat → live.attn.sources[i].inService = false := by
  unfold Waits
  decide +kernel

theorem witness_RaiseJoinsCauseSet : Attn.reset.sources[0].priority = 0#3 ∧
    (heard 1#3).sources[0].priority ≠ 0#3 ∧ (heard 1#3).pulse = false ∧
    ({ heard 1#3 with pulse := true } : Attn).pulse = true := by decide +kernel

/-- An in-place sync on run 6, and a misplaced one on run 7; the two polarities. -/
theorem witness_HuntSyncsAndMissedFrames_hunt : (hunting 6).bus = [] ∧ (hunting 6).port.state = .hunt ∧
    (hunting 6).port.syncRun < 7 ∧ (hunting 7).bus = [] ∧ (hunting 7).port.state = .hunt ∧
    515 ≠ (hunting 7).port.activeFmt.slots.toNat * 16 + 4 ∧
    ToActive (hunting 6).port.activeFmt rise ∧ ToActive ⟨.n24, true, 0#2⟩ ⟨true, false⟩ := by
  unfold ToActive
  decide

theorem witness_EighthSyncLocks : stalled.bus = [] ∧ MemLegal stalled ∧ stalled.port.state = .hunt ∧ stalled.port.syncRun = 7 ∧
    AttnLegal stalled.attn ∧ (3 : Fin 32).val ≠ 0 ∧ running (stalled.chan 3) = true ∧
    (stalled.chan 3).state = .held ∧ running (stalled.chan 12) = false ∧
    (stalled.chan 12).line.inBlock = false ∧ ToActive stalled.port.activeFmt rise ∧
    let s := put 4 { onSlot .held 9 with resume := some .tracking, holdLine := true } stalled
    (s.chan 4).state = .held ∧ (s.chan 4).holdDirective = false ∧
    s.attn.sources[chanSource 4].priority ≠ 0#3 := by
  unfold AttnLegal ToActive
  decide +kernel

theorem witness_HuntSyncsAndMissedFrames : State.reset.port.state = .off ∧ State.reset.bus = [] ∧
    ToActive State.reset.port.activeFmt rise ∧
    (hunting 7).port.state = .hunt ∧ live.port.state = .locked ∧ live.bus = [] ∧
    515 ≠ live.port.activeFmt.slots.toNat * 16 + 4 ∧ 517 ≠ live.port.activeFmt.slots.toNat * 16 + 4 ∧
    ToActive live.port.activeFmt rise ∧ ¬ ToActive live.port.activeFmt ⟨true, false⟩ ∧
    ¬ ToActive live.port.activeFmt ⟨true, true⟩ := by
  unfold ToActive
  decide

/-- The counts 38 and 39, a channel with a block and one without; an arrival without a boundary, where
count 31 becomes 32. -/
theorem witness_FrameArrivalServesAndSends :
    ({ chainRuns with port := { chainRuns.port with frameCount := 38 } } : State).port.state = .locked ∧
    ({ chainRuns with port := { chainRuns.port with frameCount := 39 } } : State).port.state = .locked ∧
    (6 : Fin 32).val ≠ 39 ∧ (chainRuns.chan 6).line.inBlock = true ∧
    (chainRuns.chan 7).line.inBlock = false ∧ ToActive chainRuns.port.activeFmt rise ∧
    ({ busy with port := { busy.port with frameCount := 31 } } : State).bus = [] ∧
    ({ busy with port := { busy.port with frameCount := 31 } } : State).port.state = .locked ∧
    ToActive busy.port.activeFmt rise ∧
    SlotLegal ({ busy with port := { busy.port with
      framePos := 0, stallArmed := true, frameCount := 32 } } : State) ∧
    OwnsSlot (busy.chan 4) 31 ∧ (∀ n, ¬ OwnsSlot (busy.chan n) 30) :=
  ⟨rfl, rfl, by decide, by decide +kernel, by decide +kernel, rfl, rfl, rfl, rfl, busy_slots,
    by unfold OwnsSlot; decide +kernel, by unfold OwnsSlot; decide +kernel⟩

/-- Slot 31 of 32 with an owner and slot 30 with none; outside a frame; slot 24 of 24. -/
theorem witness_SamplesReachTheirOwner :
    SlotLegal ({ busy with port := { busy.port with frameOut := some [] } } : State) ∧
    ({ busy with port := { busy.port with frameOut := some [] } } : State).port.frameOut ≠ none ∧
    (31#5).toNat < busy.port.activeFmt.slots.toNat ∧ OwnsSlot (busy.chan 4) (31#5).toNat ∧
    (busy.chan 4).line.capture.length < 40 ∧ ¬ OwnsSlot (busy.chan 4) (30#5).toNat ∧
    SlotLegal busy ∧ busy.port.frameOut = none ∧ SlotCount.n24.toNat ≤ (24#5).toNat :=
  ⟨busy_slots, by decide, by decide, by unfold OwnsSlot; decide +kernel, by decide +kernel,
    by unfold OwnsSlot; decide +kernel, busy_slots, rfl, by decide⟩

theorem witness_StallHoldsRunningChannels : stalling.bus = [] ∧ MemLegal stalling ∧ stalling.port.stallArmed = true ∧ AttnLegal stalling.attn ∧
    running (stalling.chan 0) = true ∧ running (stalling.chan 12) = false ∧
    (stalling.chan 7).walk.inflight = none ∧ (hunting 0).port.stallArmed = false := by
  unfold AttnLegal
  decide +kernel

/-- Timeslots 23 and 24 against a new slot count of 24. -/
theorem witness_LineRestartHoldsOrFaults :
    let s := put 1 (onSlot .tracking 23) (put 2 (onSlot .tracking 24) narrowing)
    s.bus = [] ∧ MemLegal s ∧ s.enabled = true ∧ s.port.state ≠ .off ∧ AttnLegal s.attn ∧ running (s.chan 1) = true ∧
    (s.chan 1).timeslot = some 23 ∧ 23 < s.port.pendingFmt.slots.toNat ∧
    running (s.chan 2) = true ∧ (s.chan 2).timeslot = some 24 ∧
    s.port.pendingFmt.slots.toNat ≤ 24 ∧ running (s.chan 3) = false := by
  unfold AttnLegal
  decide +kernel

/-- A channel looking at a record at 0x400, with the memory given. -/
def looking (mode : CursorMode) (l : List (Nat × Nat)) : State :=
  put 6 { onSlot .tracking 12 with walk := { Walker.reset with cursor := 0x400#32, mode := mode } }
    { live with attn := heard 5#3, mem := poke l }

/-- A record not POSTED, and one that another channel has in flight; links of 0, 4 and 6 read from a watched
record. -/
theorem witness_TakeWithoutRecordStarves :
    (looking .atRecord []).bus = [] ∧ ((looking .atRecord []).chan 6).walk.mode = .atRecord ∧
    memWord (looking .atRecord []).mem ((looking .atRecord []).chan 6).walk.cursor ≠ 1#32 ∧
    ((looking .watching []).chan 6).walk.mode = .watching ∧
    memWord (looking .watching []).mem (0x400#32 + 4#32) = 0#32 ∧
    memWord (looking .watching [(0x404, 4)]).mem (0x400#32 + 4#32) = 4#32 ∧ (4#32).toNat % 4 = 0 ∧
    memWord (looking .watching [(0x404, 6)]).mem (0x400#32 + 4#32) = 6#32 ∧ (6#32).toNat % 4 ≠ 0 ∧
    MemLegal (looking .watching [(0x404, 6)]) ∧
    let s := put 7 (flying 0x400#32 false (onSlot .tracking 13)) (looking .atRecord [(0x400, 1)])
    s.bus = [] ∧ (s.chan 6).walk.mode = .atRecord ∧
    ∃ k f, k ≠ 6 ∧ (s.chan k).walk.inflight = some f ∧ f.addr = (s.chan 6).walk.cursor :=
  ⟨by decide +kernel, by decide +kernel, by decide +kernel, by decide +kernel, by decide +kernel,
    by decide +kernel, by decide, by decide +kernel, by decide, by decide +kernel, by decide +kernel,
    by decide +kernel, ⟨7, _, by decide, rfl, rfl⟩⟩

/-- A posted record of 92 words with both areas, NOTIFY and RETRAIN to phase 1, at a channel in TRACKING; the
directive changes the status area. The first and the last word of its status write. -/
theorem witness_TakeLoadsRecord :
    let s := looking .atRecord [(0x400, 1), (0x408, 0x0103075C)]
    let s := { s with tableBase := 0x200#24 }.modChan 6 fun c =>
      { c with program := [casePhase, casePhase], progLen := 2 }
    s.bus = [] ∧ MemLegal s ∧ (s.chan 6).statusDue = false ∧ (s.chan 6).walk.mode = .atRecord ∧
    (s.chan 6).walk.cursor = 0x400#32 ∧ memWord s.mem 0x400#32 = 1#32 ∧
    (∀ k : Fin 32, (s.chan k).walk.inflight = none) ∧
    0x0103075C#32 = memWord s.mem (0x400#32 + 8#32) ∧ ((0x0103075C#32).extractLsb' 16 8).toNat = 3 ∧
    ((0x0103075C#32).extractLsb' 24 8).toNat = 1 ∧
    ((0x0103075C#32).extractLsb' 0 8).toNat =
      52 + (if (0x0103075C#32).getLsbD 8 then 20 else 0) + (if (0x0103075C#32).getLsbD 9 then 20 else 0) ∧
    statusWords ((applyDirective 6 3 1 s).2.chan 6) ≠ statusWords (s.chan 6) ∧ s.tableBase ≠ 0#24 ∧
    ∀ k ∈ [0, 5], ({ s with bus := ErrorAt (23 + k) } : State).bus = ErrorAt (23 + k) := by
  decide +kernel

/-- 05 section 5.10: declared 72 with both areas, at links 8 and 6; starvation reported and not. -/
theorem witness_MismatchedRecordRefused :
    let s := looking .atRecord [(0x400, 1), (0x404, 8), (0x408, 0x748)]
    s.bus = [] ∧ MemLegal s ∧ (s.chan 6).walk.mode = .atRecord ∧ (s.chan 6).walk.cursor = 0x400#32 ∧
    memWord s.mem 0x400#32 = 1#32 ∧
    (∀ k f, k ≠ 6 → (s.chan k).walk.inflight = some f → f.addr ≠ 0x400#32) ∧
    0x748#32 = memWord s.mem (0x400#32 + 8#32) ∧ 8#32 = memWord s.mem (0x400#32 + 4#32) ∧
    ((0x748#32).extractLsb' 0 8).toNat ≠
      52 + (if (0x748#32).getLsbD 8 then 20 else 0) + (if (0x748#32).getLsbD 9 then 20 else 0) ∧
    (8#32).toNat % 4 = 0 ∧ (s.chan 6).walk.starvReported = false ∧
    6#32 = memWord (looking .atRecord [(0x400, 1), (0x404, 6), (0x408, 0x748)]).mem (0x400#32 + 4#32) ∧
    (6#32).toNat % 4 ≠ 0 ∧ Apart 0x400#32 4 ({ s with tableBase := 0x200#24 }.desc 6 + 128#32) 24 ∧
    ({ (s.chan 6) with walk := { (s.chan 6).walk with starvReported := true } } : Channel).walk.starvReported
      = true := by
  have h : ∀ k : Fin 32,
      ((looking .atRecord [(0x400, 1), (0x404, 8), (0x408, 0x748)]).chan k).walk.inflight = none := by
    decide +kernel
  exact ⟨rfl, by decide +kernel, by decide +kernel, by decide +kernel, by decide +kernel,
    fun k f _ hf => (by rw [h k] at hf; cases hf), by decide +kernel, by decide +kernel, by decide,
    by decide, by decide +kernel, by decide +kernel, by decide, by unfold Apart Outside; decide +kernel, rfl⟩

/-- Links of 0, 8 and 6, with and without residuals; the first and the last of the 28 result words of a record
without residuals, its code and its link. -/
theorem witness_CompletionWritesResults :
    (looking .atRecord []).bus = [] ∧ MemLegal (looking .atRecord []) ∧
    (List.replicate 40 (0#16 : Sample)).length = 40 ∧
    0#32 = memWord (looking .atRecord []).mem (0x400#32 + 4#32) ∧ (0#32).toNat % 4 = 0 ∧
    8#32 = memWord (looking .atRecord [(0x404, 8)]).mem (0x400#32 + 4#32) ∧ (8#32).toNat % 4 = 0 ∧
    (memWord (looking .atRecord [(0x404, 6)]).mem (0x400#32 + 4#32)).toNat % 4 ≠ 0 ∧
    28 = (packSamples (List.replicate 40 (0#16 : Sample)) ++ [] ++
      (metricsOf ⟨0x400#32, false, false, true, false, .none⟩ .reset .reset (measure .reset) .noReference
        none).words).length ∧ 0 < 28 ∧ 27 < 28 ∧
    ∀ k ∈ [0, 27, 28, 29], ({ looking .atRecord [] with bus := ErrorAt k } : State).bus = ErrorAt k := by
  decide +kernel

/-- The slot of an access with no host write and no error, and one that writes a word. -/
def still : BusSlot := ⟨[], false⟩

def hostWord (a v : Word) : BusSlot := ⟨[⟨a, [byteOf v 0, byteOf v 1, byteOf v 2, byteOf v 3]⟩], false⟩

/-- A channel at a posted record of 52 words, a slot behind `k` accesses that follow the disposition read. -/
def posted (k : Nat) (slot : BusSlot) : State :=
  { looking .atRecord [(0x400, 1), (0x408, 0x434)] with bus := List.replicate (k + 1) still ++ [slot] }

/-- A take with a new control word, of 92 words, written at the control read, and one with a sample written at
the last sample read. -/
theorem witness_HostWritesMeetAccesses :
    MemLegal (posted 0 still) ∧ ((posted 0 still).chan 6).statusDue = false ∧
    ((posted 0 still).chan 6).walk.mode = .atRecord ∧
    ((posted 0 still).chan 6).walk.cursor = 0x400#32 ∧ memWord (posted 0 still).mem 0x400#32 = 1#32 ∧
    (∀ j : Fin 32, ((posted 0 still).chan j).walk.inflight = none) ∧
    memWord (hostMemory [hostWord 0x408#32 0x75C#32] (posted 0 still).mem) (0x400#32 + 8#32) = 0x75C#32 ∧
    memWord (posted 21 (hostWord 0x45C#32 7#32)).mem (0x400#32 + 8#32) = 0x434#32 ∧
    ((0x75C#32).extractLsb' 0 8).toNat =
      52 + (if (0x75C#32).getLsbD 8 then 20 else 0) + (if (0x75C#32).getLsbD 9 then 20 else 0) ∧
    ((0x434#32).extractLsb' 0 8).toNat =
      52 + (if (0x434#32).getLsbD 8 then 20 else 0) + (if (0x434#32).getLsbD 9 then 20 else 0) ∧
    (0x75C#32).extractLsb' 16 8 = 0#8 ∧ (0x434#32).extractLsb' 16 8 = 0#8 ∧
    (hostWord 0x408#32 0x75C#32).err = false := by
  decide +kernel

/-- Records not POSTED and links of 0 and 8 at their reads; the links that a completion of 28 result words reads at
its slots 0 and 30; the last words of an OPEN with one phase entry and with none; a CLOSE of a CLOSED channel and a
request of code 3. -/
theorem witness_HostWritesMeetAccesses_rest :
    memWord (looking .atRecord []).mem 0x400#32 ≠ 1#32 ∧
    memWord (looking .watching []).mem (0x400#32 + 4#32) = 0#32 ∧
    memWord (looking .watching [(0x404, 8)]).mem (0x400#32 + 4#32) = 8#32 ∧
    (memWord (hostMemory [hostWord 0x404#32 8#32] (looking .atRecord []).mem) (0x400#32 + 4#32)).toNat % 4 = 0 ∧
    (memWord (looking .atRecord []).mem (0x400#32 + 4#32)).toNat % 4 = 0 ∧
    10 < 9 + (if 1 ≤ 1 ∧ 1 ≤ 8 then 2 * 1 else 0) ∧ 8 < 9 + (if 1 ≤ 0 ∧ 0 ≤ 8 then 2 * 0 else 0) ∧
    twoOpens.tableBase ≠ 0#24 ∧ (twoOpens.chan 0).state = .closed ∧
    ((memWord (hostMemory [hostWord 0x20000#32 2#32] twoOpens.mem)
      (twoOpens.desc 0)).extractLsb' 0 8).toNat = 2 ∧
    ((memWord (hostMemory [hostWord 0x20000#32 3#32] twoOpens.mem)
      (twoOpens.desc 0)).extractLsb' 0 8).toNat = 3 := by
  decide +kernel

theorem witness_EarlyCompletions :
    let s := put 6 { flying 0x400#32 true (onSlot .tracking 12) with
      walk := { (flying 0x400#32 true (onSlot .tracking 12)).walk with gapCount := 65535 } } live
    s.bus = [] ∧ MemLegal s ∧ 0#32 = memWord s.mem (0x400#32 + 4#32) ∧ (0#32).toNat % 4 = 0 ∧
    (s.chan 6).walk.gapCount ≤ 65535 ∧
    (s.chan 6).walk.inflight = some ⟨0x400#32, false, false, true, false, .none⟩ ∧
    (live.chan 6).walk.inflight = none ∧ (live.chan 6).walk.gapCount ≤ 65535 ∧
    (∀ k ∈ [0, 1, 2], ({ s with bus := ErrorAt k } : State).bus = ErrorAt k) ∧
    (memWord (poke [(0x404, 6)]) (0x400#32 + 4#32)).toNat % 4 ≠ 0 := by decide +kernel

/-- A bus error at the first access; at the accesses 1, 2, 3 and 22 of a posted record of 52 words, and at the
link read of one declared 71; behind a watched link of 8; at the reference words 0 and 19 of a close. -/
theorem witness_BusErrorAtTakeFaults :
    let s := { looking .atRecord [] with bus := [⟨[], true⟩, ⟨[], false⟩] }
    (s.bus = ⟨[], true⟩ :: [⟨[], false⟩] ∧ NoBusError [⟨[], false⟩] ∧
      (∀ slot ∈ [(⟨[], false⟩ : BusSlot)], slot.host = []) ∧ MemLegal s) ∧
    let good := fun k => { looking .atRecord [(0x400, 1), (0x408, 0x434)] with bus := ErrorAt k }
    (∀ k ∈ [1, 2, 3, 22], (good k).bus = ErrorAt k ∧ MemLegal (good k) ∧
      memWord (good k).mem ((good k).chan 6).walk.cursor = 1#32) ∧
    ((good 1).chan 6).walk.mode = .atRecord ∧ (∀ k : Fin 32, ((good 1).chan k).walk.inflight = none) ∧
    ((0x434#32).extractLsb' 0 8).toNat =
      52 + (if (0x434#32).getLsbD 8 then 20 else 0) + (if (0x434#32).getLsbD 9 then 20 else 0) ∧
    ((0x447#32).extractLsb' 0 8).toNat ≠
      52 + (if (0x447#32).getLsbD 8 then 20 else 0) + (if (0x447#32).getLsbD 9 then 20 else 0) ∧
    ((looking .watching [(0x404, 8)]).chan 6).walk.mode = .watching ∧
    memWord (looking .watching [(0x404, 8)]).mem (0x400#32 + 4#32) = 8#32 ∧ (8#32).toNat % 4 = 0 ∧
    let f : InFlight := ⟨0x48000#32, true, false, true, false, .none⟩
    let d := { onSlot .tracking 12 with
      trackEq := 20, filt := { Filters.reset with le := 8 },
      line := { LineBuf.reset with inBlock := true },
      walk := { Walker.reset with takenRun := 3, inflight := some f } }
    let u := fun k => put 6 d { live with bus := ErrorAt k }
    (∀ k ∈ [0, 19], (u k).bus = ErrorAt k ∧ MemLegal (u k) ∧ k < 20) ∧ (u 0).chan 6 = d ∧
    running d = true ∧ d.line.inBlock = true ∧ d.walk.inflight = some f ∧
    refOutcome d (measure d) f.refPresent = .used := by
  unfold NoBusError
  decide +kernel

theorem witness_RoundsHalfTowardPlusInfinity : 8 ≤ 8 := by decide

theorem witness_ResidualAndEqualizerOutput : 0 < 40 ∧ 39 < 40 ∧
    ({ Filters.reset with le := 16, cursorTap := 15 } : Filters).cursorTap < 16 := by decide

theorem witness_MeasuresAndReportsBlock : measure Channel.reset = measure Channel.reset := rfl

/-- A channel in TRAINING with open gates and a near shift, one with a far shift, and a held one. -/
theorem witness_UpdatesFollowGates :
    let p := { Phase.blank with nearAdapt := true, nearShift := 8, farAdapt := true, farShift := 40 }
    let c := { Channel.reset with state := .training, program := [p],
                                  filt := { Filters.reset with ln := 8, lf := 16, lfEff := 8, delay := 64 } }
    (c.state = .training ∨ c.state = .tracking) ∧ c.tf ≤ (measure c).ex / 256 ∧
    (measure c).overload = false ∧ (measure c).stuckRun ≠ 200 ∧ nearShiftOf c ≠ 0 ∧
    farShiftOf c ≠ 0 ∧ c.filt.lfEff ≠ 0 ∧ 7 < c.filt.ln ∧ 15 < c.filt.lf ∧
    nearShiftOf { c with state := .held } = 0 ∧ Channel.reset.filt.lfEff = 0 := by decide +kernel

/-- A channel with one segment, and the stuck run at 199 and 200. -/
theorem witness_CloseAdvancesHistories :
    let c := { Channel.reset with segs := [7], poolHist := List.replicate 32 0#16,
                                  hist := { Hist.reset with stuckRun := 200 } }
    c.hist.near.length = 63 ∧ c.hist.resid.length = 143 ∧
    c.poolHist.length = 32 * c.segs.length ∧ c.segs ≠ [] ∧ c.hist.stuckRun ≤ 200 ∧
    (measure { c with hist := { Hist.reset with stuckRun := 199 } }).stuckRun = 200 := by decide +kernel

/-- A closed channel, a running one without a block, a held one whose starved block ends with the stuck run
at 199, and a tracking one whose record in flight carries a reference that is USED. -/
theorem witness_BoundaryClosesThenTakes :
    let c := { onSlot .held 3 with resume := some .tracking, holdDirective := true,
                                   line := { LineBuf.reset with inBlock := true },
                                   hist := { Hist.reset with stuckRun := 199 } }
    running Channel.reset = false ∧ running (onSlot .tracking 3) = true ∧
    (onSlot .tracking 3).line.inBlock = false ∧ c.state = .held ∧ c.line.inBlock = true ∧
    c.walk.inflight = none ∧ c.statusDue = false ∧ (measure c).stuckRun = 200 ∧
    let f : InFlight := ⟨0x48000#32, true, false, true, false, .none⟩
    let d := { onSlot .tracking 12 with
      trackEq := 20, filt := { Filters.reset with le := 8 },
      line := { LineBuf.reset with inBlock := true },
      walk := { Walker.reset with takenRun := 3, inflight := some f } }
    let s := put 6 d { live with tableBase := 0x200#24 }
    s.chan 6 = d ∧ running d = true ∧ d.line.inBlock = true ∧ d.statusDue = false ∧ s.bus = [] ∧
    MemLegal s ∧ d.walk.inflight = some f ∧ refOutcome d (measure d) f.refPresent = .used ∧
    s.tableBase ≠ 0#24 := by decide +kernel

/-- A close whose program goes on to phase 1, which changes the status area: no record is in flight, so that the
first and the last word of its status write are accesses 0 and 5. -/
theorem witness_BoundaryClosesThenTakes_fault :
    let c := { onSlot .training 12 with
      program := [{ casePhase with duration := 1 }, casePhase], progLen := 2
      line := { LineBuf.reset with inBlock := true } }
    let m := measure c
    let d := { c with
      filt := adapt c m none
      hist := { near := (m.x.reverse ++ c.hist.near).take 63,
                resid := (m.u.reverse ++ c.hist.resid).take 143,
                outNew := ⟨m.z, m.overload⟩, outOld := c.hist.outNew,
                lastRecv := m.r.getD 39 0#16, stuckRun := m.stuckRun }
      poolHist := m.poolHist }
    running c = true ∧ c.line.inBlock = true ∧ c.statusDue = false ∧ c.walk.inflight = none ∧
    (∀ k ∈ [0, 5], (put 6 c { tabled with bus := ErrorAt (0 + k) }).bus = ErrorAt (0 + k)) ∧
    statusWords ((guardAndProgram 6 m.er m.eu (put 6 (searchAtClose m.u d) tabled)).chan 6) ≠
      statusWords c := by
  decide +kernel

/-- Phase ends by duration at 400 and not at 399; a last and a middle phase; a sweep that completes; a divergent
and a convergent close in TRACKING, and one in HELD. -/
theorem witness_CountedCloseAdvancesProgram :
    let c := { caseChan with blockCount := 398 }
    let e := { caseChan with blockCount := 399, program := [casePhase, casePhase], progLen := 2 }
    let w := { caseChan with program := [{ casePhase with search := true }],
                             search := { Search.reset with sweeping := true, sweepLen := 1, nextBlock := 1 } }
    c.state = .training ∧ ¬ (c.guard = true ∧ 2 * 10 < 20 ∧ c.rf ≤ 10 / 256 ∧ 7 ≤ c.divRun) ∧
    ¬ (c.blockCount + 1 = 400 ∨ 0 = 3 ∨ casePhase.search = true) ∧
    e.blockCount + 1 = 400 ∧ e.search.sweeping = false ∧ e.phaseIndex + 1 < e.progLen ∧
    (e.program.getD (e.phaseIndex + 1) Phase.blank).search = false ∧
    ({ e with program := [casePhase, { casePhase with search := true }] }.program.getD 1 Phase.blank).search
      = true ∧
    { e with progLen := 1 }.progLen ≤ e.phaseIndex + 1 ∧
    (w.program.getD w.phaseIndex Phase.blank).search = true ∧ w.search.sweeping = true ∧
    w.search.sweepLen ≤ w.search.nextBlock ∧
    let k := { onSlot .tracking 3 with guard := true, divRun := 6 }
    k.state = .tracking ∧ ¬ (k.guard = true ∧ 2 * 10 < 21 ∧ k.rf ≤ 10 / 256 ∧ 7 ≤ k.divRun) ∧
    ¬ (k.guard = true ∧ 2 * 10 < 20 ∧ k.rf ≤ 10 / 256 ∧ 7 ≤ k.divRun) ∧
    (onSlot .held 3).state = .held := by decide +kernel

/-- The eighth divergent block of a tracking channel (02 section 2.7, close 305). -/
theorem witness_EighthDivergentCloseRestarts :
    let c := { caseChan with state := .tracking, guard := true, divRun := 7, divCount := 65535 }
    let s := put 2 c { live with attn := heard 5#3 }
    c = s.chan 2 ∧ c.state = .tracking ∧ c.guard = true ∧ 2 * 12800000 < 30000000 ∧
    c.rf ≤ 12800000 / 256 ∧ 7 ≤ c.divRun ∧ s.attn.sources[chanSource 2].priority ≠ 0#3 ∧
    (c.program.getD 0 Phase.blank).search = false ∧
    ({ c with program := [{ casePhase with search := true }] }.program.getD 0 Phase.blank).search = true := by
  decide +kernel

/-- Codes 5 and 6, an argument at the program length and one below it, and each state. -/
theorem witness_DirectivesAct :
    let h := { onSlot .held 3 with resume := some .tracking, holdDirective := true, progLen := 1,
                                   program := [casePhase], routeTag := 7#32 }
    6 ≤ 6 ∧ h.progLen ≤ 1 ∧ 0 < h.progLen ∧ h.search.sweeping = false ∧
    (h.program.getD 0 Phase.blank).search = false ∧
    ({ h with program := [{ casePhase with search := true }] }.program.getD 0 Phase.blank).search = true ∧
    h.state = .held ∧ h.holdLine = false ∧
    h.resume = some .tracking ∧ { h with holdLine := true }.holdLine = true ∧
    (onSlot .training 3).state = .training ∧ (onSlot .tracking 3).state ≠ .held ∧
    running h = true ∧ h.routeTag ≠ 0#32 ∧ (onSlot .training 3).routeTag = 0#32 ∧
    { h with search := { h.search with sweeping := true } }.search.sweeping = true := by decide +kernel

/-- Ranges of 64 to 4992 from a pool of 1024 and of 3 segments, and the least range of one lag from 4. -/
theorem witness_SearchStartFixesRange :
    let c := { onSlot .training 3 with dmin := 64, dmax := 4992 }
    let one := { onSlot .training 3 with dmin := 64, dmax := 64 }
    64 ≤ c.dmin ∧ 158 = (c.dmax + 15 + 40 + 31) / 32 ∧
    158 = (if 158 ≤ c.segs.length then 158 else min 158 (c.segs.length + State.reset.pool.length)) ∧
    (4992 : Int) = min (c.dmax : Int) (32 * 158 - 55) ∧ (c.dmin : Int) ≤ 4992 ∧
    4 = (one.dmax + 15 + 40 + 31) / 32 ∧ (64 : Int) = min (one.dmax : Int) (32 * 4 - 55) ∧
    3 = (if 158 ≤ c.segs.length then 158 else min 158 (c.segs.length + [40, 41, 42].length)) ∧
    (41 : Int) = min (c.dmax : Int) (32 * 3 - 55) ∧ (41 : Int) < c.dmin := by decide +kernel

theorem witness_SweepFindsFirstBestLag : 64 ≤ 64 ∧ Search.reset.lagsEval = 0 ∧ Search.reset.scoreSum = 0 ∧
    [(([] : List Sample), ([] : List Sample), 64)] ≠ [] ∧
    (onSlot .training 3).state = .training ∧ ({ Search.reset with sweeping := true } : Search).sweeping = true ∧
    ¬ ((onSlot .held 3).state = .training ∧ (onSlot .held 3).search.sweeping = true) := by decide

/-- The search of 03 section 3.9 with an accepted lag of 4990. -/
def caseSearch : Search :=
  { Search.reset with sweeping := true, sweepLen := 309, nextBlock := 309, bestLag := 4990,
                      bestScore := 100, scoreSum := 100, lagsEval := 8 }

/-- Its channel with Lf 128, holding 158 segments. -/
def caseSearcher : Channel :=
  { onSlot .training 3 with dmin := 64, dmax := 4992, ratio := 8, search := caseSearch,
                            segs := List.range 158, filt := { Filters.reset with lf := 128 } }

/-- The placement target 161 met with 3 segments free and missed with 1; room for 8 taps in 159 segments
and none in 157; a lag that is accepted and one that is not. -/
theorem witness_SearchEndPlacesWindow :
    (caseSearch.bestScore ≠ 0 ∧
      caseSearcher.ratio * caseSearch.scoreSum ≤ caseSearch.bestScore * caseSearch.lagsEval) ∧
    ¬ (caseSearch.bestScore ≠ 0 ∧ caseSearcher.ratio * caseSearch.scoreSum ≤ caseSearch.bestScore * 7) ∧
    max caseSearcher.dmin (caseSearch.bestLag - 8) = 4982 ∧
    (4982 + caseSearcher.filt.lf - 1 + 40 + 31) / 32 = 161 ∧
    caseSearcher.segs.length = 158 ∧ min 161 (158 + 1) = 159 ∧ min 161 (158 + 3) = 161 ∧
    0 < caseSearcher.dmin ∧ 8 ≤ caseSearcher.filt.lf ∧ caseSearch.sweepLen ≤ caseSearch.nextBlock ∧
    4982 + 8 + 39 ≤ 32 * 159 ∧ 32 * 157 < 4982 + 8 + 39 := by decide +kernel

/-- An OPEN's configuration: Ln 8, Lf 8, Le 8 on timeslot 31 with priority 0 and clamped values. -/
def caseOpen : OpenReq :=
  { firstRecord := 0x400#32, tag := 0x77#32, timeslot := 31, ln := 8, lf := 8, le := 8, cursor := 7,
    priority := 5#3, useProfile := true, saveProfile := true, guard := true, tf := 0, rf := 0,
    dmin := 5000, dmax := 0, ratio := 1, trackNear := 7, trackFar := 41, trackEq := 0, progLen := 1 }

/-- No tag; tags that miss, of an entry IMPORTING, and of one of other lengths; a first phase that searches and
one that does not; clamped values. -/
theorem witness_ColdOpenStartsTraining :
    ({ caseOpen with tag := 0#32 } : OpenReq).tag = 0#32 ∧ caseOpen.tag ≠ 0#32 ∧
    caseOpen.useProfile = true ∧
    lookup Store.reset caseOpen.tag caseOpen.ln caseOpen.lf caseOpen.le = (.miss, none) ∧
    lookup caseStore 0x111#32 caseOpen.ln caseOpen.lf caseOpen.le = (.busy, none) ∧
    lookup caseStore 0x107#32 caseOpen.ln caseOpen.lf caseOpen.le = (.mismatch, none) ∧
    ([casePhase].getD 0 Phase.blank).search = false ∧
    ([{ casePhase with search := true }].getD 0 Phase.blank).search = true ∧
    ((clampDelay 5000, clampDmax 5000 0, clampRatio 1, clampShift 7, clampShift 41) =
      (4992, 4992, 2, 8, 40)) := by decide +kernel

/-- A profile with D 64, whose window of 8 taps needs 4 segments (R76), under the tag of `caseOpen`. -/
def hitStore (d : Nat) : Store :=
  { entries := (Vector.replicate 48 Entry.reset).set 3
      { Entry.reset with state := .valid, tag := 0x77#32, ln := 8, lf := 8, le := 8, delay := d,
                         coefs := List.replicate 24 1#24 }
    recency := [3] }

/-- With D 0, with D 64 and 4 segments free, and with 3; with a warm phase, which may search, and without. -/
theorem witness_HitOpenLoadsProfile : caseOpen.tag ≠ 0#32 ∧ caseOpen.useProfile = true ∧
    Channel.reset.segs = [] ∧ Channel.reset.poolHist = [] ∧
    lookup (hitStore 64) caseOpen.tag caseOpen.ln caseOpen.lf caseOpen.le = (.hit, some 3) ∧
    lookup (hitStore 0) caseOpen.tag caseOpen.ln caseOpen.lf caseOpen.le = (.hit, some 3) ∧
    4 = ((entryAt (hitStore 64) 3).delay + caseOpen.lf - 1 + 40 + 31) / 32 ∧
    caseOpen.progLen = [casePhase].length ∧ (entryAt (hitStore 0) 3).delay = 0 ∧
    (entryAt (hitStore 64) 3).delay ≠ 0 ∧ 4 ≤ [40, 41, 42, 43].length ∧ [40, 41, 42].length < 4 ∧
    (∀ p ∈ [casePhase], p.warm = false) ∧
    (∀ b, ([{ casePhase with warm := true, search := b }].getD 0 Phase.blank).warm = true ∧
      ([{ casePhase with warm := true, search := b }].getD 0 Phase.blank).search = b) := by decide +kernel

/-- Request words of codes 0, 1, 2, 3 and 255 for a channel in FAULT, whose program length word is 0: the
accesses of its OPEN are 0 to 11, of its CLOSE 0 to 8, of an unknown code 0 to 2. -/
theorem witness_RequestsAnswered :
    let s := fun w : Nat => put 0 { Channel.reset with state := .fault }
      { live with tableBase := 0x200#24, attn := heard 5#3, mem := poke [(0x20000, w)] }
    (s 1).bus = [] ∧ MemLegal (s 1) ∧ (s 1).tableBase ≠ 0#24 ∧ ((s 1).chan 0).state = .fault ∧
    0 = ((memWord (s 0).mem ((s 0).desc 0)).extractLsb' 0 8).toNat ∧
    1 = ((memWord (s 1).mem ((s 1).desc 0)).extractLsb' 0 8).toNat ∧
    2 = ((memWord (s 2).mem ((s 2).desc 0)).extractLsb' 0 8).toNat ∧
    3 = ((memWord (s 3).mem ((s 3).desc 0)).extractLsb' 0 8).toNat ∧
    255 = ((memWord (s 255).mem ((s 255).desc 0)).extractLsb' 0 8).toNat ∧
    ∀ k ∈ [0, 1, 2, 7, 8, 9, 10, 11], ({ s 1 with bus := ErrorAt k } : State).bus = ErrorAt k ∧
      MemLegal ({ s 1 with bus := ErrorAt k } : State) := by decide +kernel

/-- The two OPENs of 09 section 9.6: refused for channel 2, accepted for channel 6. Each reads the accesses 0 to
11; the refused one then writes 12 and 13, the accepted one 12 to 35. -/
theorem witness_OpenServedAtVisit : twoOpens.bus = [] ∧ MemLegal twoOpens ∧ twoOpens.tableBase ≠ 0#24 ∧
    (twoOpens.chan 2).state = .closed ∧ (twoOpens.chan 6).state = .closed ∧
    (memWord twoOpens.mem (twoOpens.desc 2)).extractLsb' 0 8 = 1#8 ∧
    (memWord twoOpens.mem (twoOpens.desc 6)).extractLsb' 0 8 = 1#8 ∧
    (∀ k, ¬ (running (twoOpens.chan k) = true ∧ (twoOpens.chan k).timeslot = some 9)) ∧
    ((memWord twoOpens.mem (twoOpens.desc 6 + 40#32)).extractLsb' 0 8).toNat = 1 ∧
    11 = 9 + (if 1 ≤ 1 ∧ 1 ≤ 8 then 2 * 1 else 0) ∧
    ∀ k ∈ [0, 11, 12, 13, 33, 34, 35], ({ twoOpens with bus := ErrorAt k } : State).bus = ErrorAt k := by
  decide +kernel

/-- A CLOSE of a tracking channel with a record in flight, the save policy and a tag; of one in TRAINING
with neither; and of the first with a bus error behind the request read, at the gap word or at the code, and
at the first and the last write of its answer. -/
theorem witness_CloseEndsRecordAndSaves :
    let c := { flying 0x48000#32 true (onSlot .tracking 12) with saveProfile := true, routeTag := 7#32 }
    let s := put 6 c { tabled with mem := poke [(0x20600, 2)] }
    s.bus = [] ∧ MemLegal s ∧ s.tableBase ≠ 0#24 ∧ c = s.chan 6 ∧ running c = true ∧
    c.walk.gapCount ≤ 65535 ∧ (memWord s.mem (s.desc 6)).extractLsb' 0 8 = 2#8 ∧
    c.saveProfile = true ∧ c.routeTag ≠ 0#32 ∧ Apart 0x48000#32 368 (s.desc 6) 256 ∧
    running (onSlot .training 12) = true ∧ (onSlot .training 12).walk.inflight = none ∧
    (onSlot .training 12).saveProfile = false ∧
    ∀ k ∈ [1, 2, 3, 10], ({ s with bus := ErrorAt k } : State).bus = ErrorAt k := by
  unfold Apart Outside
  decide +kernel

/-- The store of the eviction case: tags of an entry VALID, pinned and IMPORTING, and of none. -/
theorem witness_LookupsAndSavesSelect : StoreKept caseStore (· = 17) ∧
    (∀ i, i = 7 ↔ (entryAt caseStore i).state ≠ .free ∧ (entryAt caseStore i).tag = 0x107#32) ∧
    (∀ i, i = 2 ↔ (entryAt caseStore i).state ≠ .free ∧ (entryAt caseStore i).tag = 0x102#32) ∧
    (∀ i, i = 17 ↔ (entryAt caseStore i).state ≠ .free ∧ (entryAt caseStore i).tag = 0x111#32) ∧
    (∀ i, ¬ ((entryAt caseStore i).state ≠ .free ∧ (entryAt caseStore i).tag = 0x999#32)) ∧
    (∀ j, (entryAt caseStore j).state ≠ .free) ∧
    (∀ j, (entryAt caseStore j).pinned = false → (entryAt caseStore j).state = .valid →
      caseStore.recency.idxOf j ≤ caseStore.recency.idxOf 31) := by
  unfold StoreKept
  decide +kernel

theorem witness_VisitServesInOrder : live.bus = [] ∧ live.enabled = true ∧ live.tableBase = 0#24 ∧
    NoRequest live ∧ live.maint.chain = .idle ∧
    twoOpens.enabled = true ∧ twoOpens.tableBase ≠ 0#24 ∧ State.reset.enabled = false := by
  unfold NoRequest
  decide +kernel

theorem witness_VisitPerformsPinOrDrop : pinPosted.bus = [] ∧ MemLegal pinPosted ∧
    pinPosted.enabled = true ∧ pinPosted.tableBase ≠ 0#24 ∧ NoRequest pinPosted ∧ StoreLegal pinPosted ∧
    pinPosted.maint.chain = .waiting ∧ pinPosted.maint.inflight = none ∧
    pinPosted.maint.mode = .atRecord ∧ pinPosted.maint.cursor = 0x3000#32 ∧
    memWord pinPosted.mem 0x3000#32 = 1#32 ∧ 1#32 = memWord pinPosted.mem (0x3000#32 + 8#32) ∧
    0x55#32 = memWord pinPosted.mem (0x3000#32 + 12#32) ∧
    0#32 = memWord pinPosted.mem (0x3000#32 + 4#32) ∧ (0#32).toNat % 4 = 0 ∧
    1 = ((1#32).extractLsb' 0 8).toNat ∧ Apart 0x3000#32 28 (pinPosted.desc 32 + 128#32) 6 := by
  unfold NoRequest Apart Outside StoreLegal StoreKept IsTarget
  decide +kernel

/-- An exporting entry of 128 coefficients. -/
def exported : Entry :=
  { Entry.reset with state := .exporting, tag := 0x77#32, ln := 32, lf := 64, le := 32,
                     coefs := List.replicate 128 1#24 }

/-- A transfer of 133 words in flight at a position, its record at 0x3000, its buffer at 0x4000. -/
def moving (kind : TransferKind) (position : Nat) : State :=
  { tabled with
    maint := { Maint.reset with
      chain := .walking, cursor := 0x3000#32, position := position, imageLen := 133, target := some 0,
      inflight := some ⟨0x3000#32, kind, 0x77#32, 0x4000#32, true, true⟩ }
    store := { entries := Store.reset.entries.set 0 exported, recency := [0] } }

/-- The store step at a POSTED record, at one that is not, at watched links of 0 and 0x3000, and with the last
visit of a transfer of each kind ahead. -/
theorem witness_VisitServesInOrder_step :
    let empty := { pinPosted with mem := [] }
    let watch := fun link => { pinPosted with
      mem := poke [(0x3004, link)], maint := { pinPosted.maint with mode := .watching } }
    (∀ s ∈ [pinPosted, empty, watch 0, watch 0x3000, moving .importImage 128, moving .exportImage 128],
      s.bus = [] ∧ MemLegal s ∧ s.tableBase ≠ 0#24 ∧
      (s.maint.chain = .walking ∨ s.maint.chain = .waiting)) ∧
    (∀ s ∈ [pinPosted, empty, watch 0, watch 0x3000], s.maint.inflight = none) ∧
    pinPosted.maint.mode = .atRecord ∧ memWord pinPosted.mem pinPosted.maint.cursor = 1#32 ∧
    empty.maint.mode = .atRecord ∧ memWord empty.mem empty.maint.cursor ≠ 1#32 ∧
    (watch 0).maint.mode = .watching ∧ memWord (watch 0).mem ((watch 0).maint.cursor + 4#32) = 0#32 ∧
    memWord (watch 0x3000).mem ((watch 0x3000).maint.cursor + 4#32) = 0x3000#32 ∧
    (0x3000#32).toNat % 4 = 0 ∧
    (∀ kind, (moving kind 128).maint.target = some 0 ∧
      (moving kind 128).maint.inflight = some ⟨0x3000#32, kind, 0x77#32, 0x4000#32, true, true⟩) := by
  refine ⟨?_, ?_, ?_, ?_, ?_, ?_, ?_, ?_, ?_, ?_, fun kind => ⟨?_, ?_⟩⟩ <;>
    first | rfl | decide +kernel

/-- The second visit of a transfer of 133 words. -/
theorem witness_TransferMoves64WordsAVisit :
    let s := moving .exportImage 64
    s.bus = [] ∧ MemLegal s ∧ s.enabled = true ∧ s.tableBase ≠ 0#24 ∧ NoRequest s ∧
    s.maint.chain = .walking ∧
    s.maint.inflight = some ⟨0x3000#32, .exportImage, 0x77#32, 0x4000#32, true, true⟩ ∧
    s.maint.target = some 0 ∧ exported = entryAt s.store 0 ∧ 64 = s.maint.position ∧
    128 = (64 / 64 + 1) * 64 ∧ 128 < s.maint.imageLen ∧ s.maint.imageLen ≤ 261 ∧
    s.maint.imageLen = 4 + (exported.ln + exported.lf + exported.le) + 1 ∧
    exported.coefs.length = exported.ln + exported.lf + exported.le ∧
    Apart (0x4000#32 + BitVec.ofNat 32 (4 * 127)) 4 (s.desc 32 + 128#32) 6 ∧
    (moving .importImage 64).maint.chain = .walking := by
  unfold NoRequest Apart Outside
  decide +kernel

/-- OPEN of an IDLE chain with records at 0, 6 and 8; requests of codes 2 and 3; a CLOSE with a record in
flight, and one without; a bus error at the accesses of each. -/
theorem witness_StoreChainOpensAndCloses :
    let req := fun w first => { tabled with mem := poke [(0x22000, w), (0x22008, first)] }
    let closing := { moving .importImage 64 with mem := poke [(0x22000, 2)] }
    (∀ s ∈ [req 1 0, req 1 6, req 1 8, req 2 0, req 3 0, closing],
      s.bus = [] ∧ MemLegal s ∧ s.tableBase ≠ 0#24) ∧
    1 = ((memWord (req 1 8).mem ((req 1 8).desc 32)).extractLsb' 0 8).toNat ∧
    8#32 = memWord (req 1 8).mem ((req 1 8).desc 32 + 8#32) ∧ (8#32).toNat % 4 = 0 ∧
    0#32 = memWord (req 1 0).mem ((req 1 0).desc 32 + 8#32) ∧ (6#32).toNat % 4 ≠ 0 ∧
    2 = ((memWord (req 2 0).mem ((req 2 0).desc 32)).extractLsb' 0 8).toNat ∧
    3 = ((memWord (req 3 0).mem ((req 3 0).desc 32)).extractLsb' 0 8).toNat ∧
    (req 1 8).maint.chain = .idle ∧ closing.maint.chain ≠ .idle ∧
    2 = ((memWord closing.mem (closing.desc 32)).extractLsb' 0 8).toNat ∧
    Apart 0x3000#32 28 (closing.desc 32) 256 ∧ closing.maint.inflight =
      some ⟨0x3000#32, .importImage, 0x77#32, 0x4000#32, true, true⟩ ∧
    (∀ s ∈ [req 1 8, closing], ∀ k ∈ [0, 1, 2, 3, 4, 6, 7],
      ({ s with bus := ErrorAt k } : State).bus = ErrorAt k) ∧
    let quiet := { pinPosted with mem := poke [(0x22000, 2)] }
    quiet.maint.chain ≠ .idle ∧ quiet.maint.inflight = none ∧ MemLegal quiet ∧
    2 = ((memWord quiet.mem (quiet.desc 32)).extractLsb' 0 8).toNat := by
  unfold Apart Outside
  decide +kernel

/-- A channel that goes from TRACKING to HELD with a status write due or a change, one that is HELD with LINE alone,
and one running channel at a stall; the words 0 and 5 of its status write. -/
theorem witness_StatusWriteFaults :
    let held := { onSlot .held 12 with resume := some .tracking, holdLine := true }
    let s := fun c => put 6 c tabled
    (∀ k ∈ [0, 5], ({ s held with bus := ErrorAt k } : State).bus = ErrorAt k ∧ k < 6) ∧
    (s held).tableBase ≠ 0#24 ∧ MemLegal (s held) ∧
    statusWords (onSlot .tracking 12) ≠ statusWords ((s held).chan 6) ∧
    ({ held with statusDue := true } : Channel).statusDue = true ∧
    ((s held).chan 6).state = .held ∧ ((s held).chan 6).holdDirective = false ∧
    let r := s (onSlot .tracking 12)
    r.bus = [] ∧ r.port.stallArmed = true ∧ running (r.chan 6) = true ∧ (r.chan 6).state ≠ .held ∧
    (r.chan 6).walk.inflight = none ∧ ∀ j : Fin 32, j ≠ 6 → running (r.chan j) = false := by
  decide +kernel

/-- The store step that finds no record, a completion with the links 0 and 8, and a chain fault, with a bus
error at each write of descriptor 32's status area. -/
theorem witness_StatusWriteFaults_store :
    let s := { pinPosted with mem := [], maint := { pinPosted.maint with chain := .walking } }
    MemLegal s ∧ s.tableBase ≠ 0#24 ∧ s.maint.chain = .walking ∧ s.maint.inflight = none ∧
    s.maint.mode = .atRecord ∧ memWord s.mem s.maint.cursor ≠ 1#32 ∧
    memWord s.mem (0x3000#32 + 4#32) = 0#32 ∧
    memWord (poke [(0x3004, 8)]) (0x3000#32 + 4#32) = 8#32 ∧ (8#32).toNat % 4 = 0 ∧
    ∀ j ∈ [0, 1], j < 2 ∧ ({ s with bus := ErrorAt (1 + j) } : State).bus = ErrorAt (1 + j) ∧
      ({ s with bus := ErrorAt (4 + j) } : State).bus = ErrorAt (4 + j) ∧
      ({ s with bus := ErrorAt j } : State).bus = ErrorAt j := by
  decide +kernel

/-- A part whose store holds one profile. -/
def listed : State :=
  { tabled with
    store :=
      { entries := Store.reset.entries.set 3 { exported with state := .valid }
        recency := [3] } }

/-- Codes 0, 7 and 4, with a list of one entry. -/
theorem witness_ListDescribesStore :
    let s := listed
    s.bus = [] ∧ MemLegal s ∧ s.tableBase ≠ 0#24 ∧ (memWord s.mem (0x3000#32 + 4#32)).toNat % 4 = 0 ∧
    Apart 0x3000#32 28 (s.desc 32 + 128#32) 6 ∧
    1 = (Finset.univ.filter fun i : Fin 48 => (entryAt s.store i).state ≠ .free).card ∧
    0x4000#32 ≠ 0#32 ∧ (0x4000#32).toNat % 4 = 0 ∧ s.store.recency.length ≤ 48 ∧
    Apart 0x4000#32 (8 * 1) 0x3000#32 28 ∧ Apart 0x4000#32 (8 * 1) (s.desc 32 + 128#32) 6 ∧
    (entryAt s.store 3).state ≠ .free ∧ (entryAt s.store 3).ln ≤ 64 ∧ (entryAt s.store 3).lf ≤ 128 ∧
    (entryAt s.store 3).le ≤ 64 ∧ 0 = (Finset.univ.filter fun j : Fin 48 =>
      j < 3 ∧ (entryAt s.store j).state ≠ .free).card := by
  unfold Apart Outside
  decide +kernel

/-- Errors at the first look, the disposition, and the first and last directive word of a posted record; links 6
and 8 watched; errors at both words of a LIST of one entry, and at the first and last header word. -/
theorem witness_StoreChainFaults :
    let look := fun k => { pinPosted with bus := ErrorAt k }
    let watch := fun link => { pinPosted with
      mem := poke [(0x3004, link)], maint := { pinPosted.maint with mode := .watching } }
    (∀ k ∈ [0, 1, 2, 4], (look k).bus = ErrorAt k ∧ MemLegal (look k) ∧ (look k).tableBase ≠ 0#24 ∧
      (look k).maint.chain = .waiting ∧ (look k).maint.inflight = none ∧
      (look k).maint.mode = .atRecord ∧ memWord (look k).mem (look k).maint.cursor = 1#32) ∧
    (∀ link ∈ [6, 8], (watch link).bus = [] ∧ MemLegal (watch link) ∧
      (watch link).maint.mode = .watching ∧ (watch link).maint.inflight = none ∧
      memWord (watch link).mem ((watch link).maint.cursor + 4#32) = BitVec.ofNat 32 link) ∧
    (6#32).toNat % 4 ≠ 0 ∧ (8#32).toNat % 4 = 0 ∧
    0x4000#32 ≠ 0#32 ∧ (0x4000#32).toNat % 4 = 0 ∧ (listing listed.store).length = 2 ∧
    ∀ k ∈ [0, 1, 3], ({ listed with bus := ErrorAt k } : State).bus = ErrorAt k ∧
      MemLegal ({ listed with bus := ErrorAt k } : State) ∧
      ({ listed with bus := ErrorAt k } : State).tableBase ≠ 0#24 := by
  decide +kernel

/-- The last visit of a transfer of 133 words, at its first and its last word; a completion's words 0 and 2, and
its link; a target IMPORTING and one EXPORTING. -/
theorem witness_StoreChainFaults_transfers :
    (∀ k ∈ [0, 4], ∀ kind ∈ [TransferKind.importImage, TransferKind.exportImage],
      let s := { moving kind 128 with bus := ErrorAt k }
      MemLegal s ∧ s.tableBase ≠ 0#24 ∧ exported = entryAt s.store 0 ∧ 128 = s.maint.position ∧
      133 = s.maint.imageLen ∧ 133 = min 133 ((128 / 64 + 1) * 64) ∧ k < 133 - 128) ∧
    133 = 4 + (exported.ln + exported.lf + exported.le) + 1 ∧
    exported.coefs.length = exported.ln + exported.lf + exported.le ∧
    (∀ k ∈ [0, 2, 3], ({ listed with bus := ErrorAt k } : State).bus = ErrorAt k) ∧
    (memWord (poke [(0x3004, 6)]) (0x3000#32 + 4#32)).toNat % 4 ≠ 0 ∧
    (entryAt (setEntryState 0 .importing Store.reset) 0).state = .importing ∧
    (entryAt (setEntryState 0 .exporting Store.reset) 0).state = .exporting := by
  decide +kernel

/-- A good header of an image of 21 words with Lf 0, tag 0x999, at 0x4000, and an empty store. -/
def importing : State :=
  { tabled with mem := poke [(0x4000, 0x150001), (0x4004, 0x999), (0x4008, 0x07080008)] }

/-- The store clauses of `ImportStartsAndEnds`: the tag is new to the empty store and to `caseStore`, and tags
of `caseStore` are on an entry that is pinned, IMPORTING and VALID. -/
theorem witness_ImportStartsAndEnds_store : StoreKept importing.store (fun _ => False) ∧
    StoreKept caseStore (· = 17) ∧ Claimable importing.store 0x999#32 0 ∧
    Carries caseStore 0x102#32 2 ∧ (entryAt caseStore 2).pinned = true ∧ Carries caseStore 0x111#32 17 ∧
    (entryAt caseStore 17).pinned = false ∧ (entryAt caseStore 17).state ≠ .valid ∧
    Claimable caseStore 0x107#32 7 ∧ Claimable caseStore 0x999#32 31 := by
  unfold StoreKept Claimable Carries
  refine ⟨?_, ?_, ?_, ?_, ?_, ?_, ?_, ?_, ?_, ?_⟩ <;> decide +kernel

/-- The good header, and one of zeros; the last visit of an import whose words are 0. -/
theorem witness_ImportStartsAndEnds :
    let s := importing
    s.bus = [] ∧ MemLegal s ∧ s.tableBase ≠ 0#24 ∧
    (memWord s.mem (0x3000#32 + 4#32)).toNat % 4 = 0 ∧ Apart 0x3000#32 28 (s.desc 32 + 128#32) 6 ∧
    0x4000#32 ≠ 0#32 ∧ (0x4000#32).toNat % 4 = 0 ∧
    headerOk (decodeHeader [memWord s.mem 0x4000#32, memWord s.mem (0x4000#32 + 4#32),
      memWord s.mem (0x4000#32 + 8#32), memWord s.mem (0x4000#32 + 12#32)]) = true ∧
    headerOk (decodeHeader [0#32, 0#32, 0#32, 0#32]) = false ∧
    let u := moving .importImage 128
    u.bus = [] ∧ MemLegal u ∧ u.tableBase ≠ 0#24 ∧ (memWord u.mem (0x3000#32 + 4#32)).toNat % 4 = 0 ∧
    Apart 0x3000#32 28 (u.desc 32 + 128#32) 6 ∧ 128 < u.maint.imageLen ∧
    u.maint.imageLen ≤ (128 / 64 + 1) * 64 := by
  unfold Apart Outside
  decide +kernel

/-- A tag that no entry carries, one of an IMPORTING entry and one of a VALID one. -/
theorem witness_ExportStartsAndEnds_tags : (∀ i, ¬ Carries caseStore 0x999#32 i) ∧
    Carries caseStore 0x111#32 17 ∧ (entryAt caseStore 17).state = .importing ∧
    Carries caseStore 0x107#32 7 ∧ (entryAt caseStore 7).state = .valid := by
  unfold Carries
  decide +kernel

/-- A directive at `caseStore`; the last visit of an export of 133 words. -/
theorem witness_ExportStartsAndEnds :
    let s : State := { tabled with store := caseStore }
    s.bus = [] ∧ MemLegal s ∧ s.tableBase ≠ 0#24 ∧ (memWord s.mem (0x3000#32 + 4#32)).toNat % 4 = 0 ∧
    Apart 0x3000#32 28 (s.desc 32 + 128#32) 6 ∧
    let u := moving .exportImage 128
    exported = entryAt u.store 0 ∧ 128 = u.maint.position ∧ 133 = u.maint.imageLen ∧
    133 = 4 + (exported.ln + exported.lf + exported.le) + 1 ∧
    exported.coefs.length = exported.ln + exported.lf + exported.le ∧ 133 ≤ (128 / 64 + 1) * 64 ∧
    Apart (0x4000#32 + BitVec.ofNat 32 (4 * 128)) (4 * (133 - 128)) 0x3000#32 28 ∧
    Apart (0x4000#32 + BitVec.ofNat 32 (4 * 128)) (4 * (133 - 128)) (u.desc 32 + 128#32) 6 := by
  unfold Apart Outside
  decide +kernel

/-- Each field at the top of its range. -/
theorem witness_WordLayouts : (List.replicate 40 (0#16 : Sample)).length % 2 = 0 ∧
    ({ Phase.blank with nearShift := 255, farShift := 255, eqShift := 255, duration := 4095, target := 15,
                        runK := 15 } : Phase).duration < 4096 ∧
    ({ Entry.reset with ln := 64, lf := 128, le := 64, cursor := 255, delay := 4992 } : Entry).delay ≤ 4992 ∧
    State.reset.pool.length ≤ 1024 := by decide +kernel

/-- The fields at the top of their ranges. -/
theorem witness_WordLayouts_reported :
    let m : Metrics :=
      { ex := 167772160, er := 0, eu := 0, ee := 0, clip := 40, outcome := .used, state := .held,
        phase := 7, overload := true, stuck := false, held := true, searching := true,
        rejected := false, nearAdapted := true, farAdapted := true, eqAdapted := true,
        save := .storeFull, searchCode := 6, gap := 65535, delay := 4992, bestLag := 4992,
        lfEff := 128 }
    m.ex < 2 ^ 32 ∧ m.words = [167772160#32, 0#32, 0#32, 0#32, 0x07030128#32, 0x060500ED#32,
      0x1380FFFF#32, 0x00801380#32] ∧
    Channel.reset.phaseIndex ≤ 7 ∧ Channel.reset.divCount ≤ 65535 := by decide +kernel

end Sys2Proof.Tests
end

