-- ==== Sys2Proof/Proofs/Arithmetic.lean ====
section
/-! Proofs about the signal path arithmetic of a block close (R1 to R25): each operation of the model
against its plain mathematical reading, and the statements that follow. -/

namespace Sys2Proof.Machine

/-! ## Rounding, saturation and sums -/

/-- sat16 clamps into the sample range (R1). -/
theorem sat16_toInt (v : Int) : (sat16 v).toInt = max (-32768) (min 32767 v) := by
  unfold sat16
  split_ifs with hlo hhi
  · rw [BitVec.toInt_ofInt_eq_self (by decide) (by decide) (by decide)]; omega
  · rw [BitVec.toInt_ofInt_eq_self (by decide) (by decide) (by decide)]; omega
  · rw [BitVec.toInt_ofInt_eq_self (by decide) (by simpa using hlo) (by simpa using by omega)]; omega

/-- sat24 clamps into the coefficient range (R2). -/
theorem sat24_toInt (v : Int) : (sat24 v).toInt = max (-8388608) (min 8388607 v) := by
  unfold sat24
  split_ifs with hlo hhi
  · rw [BitVec.toInt_ofInt_eq_self (by decide) (by decide) (by decide)]; omega
  · rw [BitVec.toInt_ofInt_eq_self (by decide) (by decide) (by decide)]; omega
  · rw [BitVec.toInt_ofInt_eq_self (by decide) (by simpa using hlo) (by simpa using by omega)]; omega

/-- The model's integer division is the floor of R4. -/
theorem roundShift_eq_floor (s : Nat) (v : Int) :
    roundShift s v = ⌊((v : ℚ) + 2 ^ (s - 1)) / 2 ^ s⌋ := by
  rw [roundShift, ← Rat.floor_intCast_div_natCast]
  push_cast
  rfl

/-- An accumulator as a sample, in the words of R4. -/
theorem toSample_toInt (acc : Int) :
    (toSample acc).toInt = max (-32768) (min 32767 ⌊((acc : ℚ) + 2 ^ 19) / 2 ^ 20⌋) := by
  rw [toSample, sat16_toInt, roundShift_eq_floor]

/-- A coefficient's update, in the words of R4 and R21. -/
theorem updateCoef_toInt (old : Coef) (s : Nat) (grad : Int) :
    (updateCoef old s grad).toInt =
      max (-8388608) (min 8388607 (old.toInt + ⌊((grad : ℚ) + 2 ^ (s - 1)) / 2 ^ s⌋)) := by
  rw [updateCoef, sat24_toInt, roundShift_eq_floor]

/-- Settles O24: the clamps and the floor of R4, and a half goes up. -/
theorem roundsHalfTowardPlusInfinity : Obligations.RoundsHalfTowardPlusInfinity := by
  refine ⟨toSample_toInt, fun old s grad _ => updateCoef_toInt old s grad, fun k => ?_⟩
  have half : roundShift 20 (k * 2 ^ 20 + 2 ^ 19) = roundShift 20 ((k + 1) * 2 ^ 20) := by
    unfold roundShift; norm_num; omega
  rw [toSample, toSample, half]

/-- The model's running sum is the sum over a range (R3). -/
theorem sumTo_eq_sum (m : Nat) (f : Nat → Int) : sumTo m f = ∑ j ∈ Finset.range m, f j := by
  induction m with
  | zero => rfl
  | succ m ih => rw [sumTo, ih, Finset.sum_range_succ]

/-- A lagged sample, as the sample of the block or of the history that it is (R12, R15). -/
theorem lagged_eq_toInt (block history : List Sample) (n j : Nat) : lagged block history n j =
    (if j ≤ n then block.getD (n - j) 0#16 else history.getD (j - n - 1) 0#16).toInt := by
  unfold lagged; split <;> rfl

theorem sample_bounds (x : Sample) : -32768 ≤ x.toInt ∧ x.toInt ≤ 32767 := by
  have lo := BitVec.le_toInt x
  have hi := BitVec.toInt_lt (x := x)
  norm_num at lo hi
  omega

/-- A sample in coefficient scale, rounded back, is the sample: unit gain changes nothing (R4, R8). -/
theorem toSample_unit_gain (x : Sample) : toSample (1048576 * x.toInt) = x := by
  obtain ⟨lo, hi⟩ := sample_bounds x
  have floor : roundShift 20 (1048576 * x.toInt) = x.toInt := by
    unfold roundShift; norm_num; omega
  apply BitVec.eq_of_toInt_eq
  rw [toSample, floor, sat16_toInt]
  omega

/-! ## Residual and equalizer output (R12 to R15) -/

/-- The taps of the equalizer's reset form (R8): unit gain at the cursor, else nothing. -/
theorem eqReset_coefVal (f : Filters) (j : Nat) (hj : j < f.le) :
    coefVal (eqReset f).g j = if j = f.cursorTap then 1048576 else 0 := by
  simp only [coefVal, eqReset, List.getD_eq_getElem?_getD, List.getElem?_map,
    List.getElem?_range hj, Option.map_some, Option.getD_some]
  split <;> rfl

/-- The equalizer in reset form delays by the cursor index and changes nothing (R8, R15). -/
theorem eqOutput_eqReset (f : Filters) (u resid : List Sample) (n : Nat) (h : f.cursorTap < f.le) :
    eqOutput (eqReset f) u resid n =
      if f.cursorTap ≤ n then u.getD (n - f.cursorTap) 0#16
      else resid.getD (f.cursorTap - n - 1) 0#16 := by
  have only_cursor : sumTo f.le (fun j => coefVal (eqReset f).g j * lagged u resid n j) =
      1048576 * lagged u resid n f.cursorTap := by
    rw [sumTo_eq_sum, Finset.sum_eq_single_of_mem _ (Finset.mem_range.2 h) fun j hj hne => ?_]
    · rw [eqReset_coefVal f _ h, if_pos rfl]
    · rw [eqReset_coefVal f j (Finset.mem_range.1 hj), if_neg hne, zero_mul]
  rw [eqOutput, show (eqReset f).le = f.le from rfl, only_cursor, lagged_eq_toInt, toSample_unit_gain]

/-- Settles O25: the model's sums are R12's and R15's, and the reset form is a pure delay. -/
theorem residualAndEqualizerOutput : Obligations.ResidualAndEqualizerOutput := by
  refine ⟨fun f x near pool r n _ => ⟨(toSample (echoAcc f x near pool n)).toInt, ?_, ?_, ?_, ?_⟩,
    fun f u resid n => ?_, eqOutput_eqReset⟩
  · rw [toSample_toInt]
    simp only [echoAcc, sumTo_eq_sum]
    rfl
  · have := sample_bounds (r.getD n 0#16)
    have := sample_bounds (toSample (echoAcc f x near pool n))
    omega
  · have := sample_bounds (r.getD n 0#16)
    have := sample_bounds (toSample (echoAcc f x near pool n))
    omega
  · exact sat16_toInt _
  · rw [eqOutput, toSample_toInt, sumTo_eq_sum]
    rfl

end Sys2Proof.Machine
end

