-- ==== Sys2Proof/Proofs/Close.lean ====
section
/-! Proofs about what a block close measures, reports, updates and advances (R5, R11 to R25, R85). -/

namespace Sys2Proof.Machine

/-! ## Lists of samples -/

theorem block40_getD (xs : List Sample) (n : Nat) (h : n < 40) :
    (block40 xs).getD n 0#16 = xs.getD n 0#16 := by
  simp [block40, h]

/-- An energy is the exact sum of squares (R5). -/
theorem energy_eq_sum (xs : List Sample) :
    (energy xs : Int) = ∑ n ∈ Finset.range xs.length, (xs.getD n 0#16).toInt ^ 2 := by
  induction xs with
  | nil => rfl
  | cons x xs ih =>
    rw [List.length_cons, Finset.sum_range_succ']
    simp only [List.getD_cons_succ, List.getD_cons_zero]
    rw [← ih, energy, List.map_cons, List.sum_cons, Nat.cast_add, Nat.cast_pow, Int.natAbs_pow_two,
      add_comm]
    rfl

/-- An energy is at most 2^30 a sample (R5). -/
theorem energy_le (xs : List Sample) : energy xs ≤ xs.length * 2 ^ 30 := by
  induction xs with
  | nil => exact Nat.zero_le _
  | cons x xs ih =>
    have hx : x.toInt.natAbs ^ 2 ≤ 2 ^ 30 := by
      obtain ⟨lo, hi⟩ := sample_bounds x
      calc x.toInt.natAbs ^ 2 ≤ 32768 ^ 2 := Nat.pow_le_pow_left (by omega) 2
        _ = 2 ^ 30 := by norm_num
    have split : energy (x :: xs) = x.toInt.natAbs ^ 2 + energy xs := rfl
    rw [split, List.length_cons, Nat.add_mul, one_mul]
    omega

/-- The energy of the forty samples of a block. -/
theorem energy_block (f : Nat → Sample) : (energy ((List.range 40).map f) : Int) =
    ∑ n ∈ Finset.range 40, (f n).toInt ^ 2 := by
  rw [energy_eq_sum, List.length_map, List.length_range]
  refine Finset.sum_congr rfl fun n hn => ?_
  simp [Finset.mem_range.1 hn]

theorem energy_block_le {xs : List Sample} (h : xs.length = 40) : energy xs ≤ 40 * 2 ^ 30 :=
  h ▸ energy_le xs

theorem atLimit_iff (r : Sample) : atLimit r = true ↔ r.toInt = -32768 ∨ r.toInt = 32767 := by
  simp [atLimit]

/-- The clip count of forty samples (R17). -/
theorem filter_atLimit_length (f : Nat → Sample) :
    (((List.range 40).map f).filter atLimit).length = ((Finset.range 40).filter fun n =>
      (f n).toInt = -32768 ∨ (f n).toInt = 32767).card := by
  rw [List.filter_map, List.length_map, ← List.toFinset_card_of_nodup (List.nodup_range.filter _)]
  congr 1
  ext n
  simp [atLimit_iff]

theorem any_atLimit_iff (xs : List Sample) :
    xs.any atLimit = true ↔ 0 < (xs.filter atLimit).length := by
  rw [List.length_pos_iff_exists_mem, List.any_eq_true]
  simp only [List.mem_filter]

/-! ## What a close measures and reports -/

theorem stuckClosed_iff (run : Nat) : stuckClosed run = true ↔ run = 200 := by simp [stuckClosed]

/-- The conditions the near and far filters share, in the words of R20. -/
theorem echoGate_iff (c : Channel) (m : Measured) : echoGate c m = true ↔
    (c.state = .training ∨ c.state = .tracking) ∧ c.tf ≤ m.ex / 256 ∧ m.overload = false ∧
      m.stuckRun ≠ 200 := by
  simp only [echoGate, stuckClosed, Bool.and_eq_true, Bool.or_eq_true, beq_iff_eq,
    decide_eq_true_eq, Bool.not_eq_true', beq_eq_false_iff_ne, and_assoc]
  rfl

theorem nearAdapts_iff (c : Channel) (m : Measured) : nearAdapts c m = true ↔
    ((c.state = .training ∨ c.state = .tracking) ∧ c.tf ≤ m.ex / 256 ∧ m.overload = false ∧
      m.stuckRun ≠ 200) ∧ nearShiftOf c ≠ 0 := by
  rw [nearAdapts, Bool.and_eq_true, echoGate_iff, bne_iff_ne, and_comm]

theorem farAdapts_iff (c : Channel) (m : Measured) : farAdapts c m = true ↔
    ((c.state = .training ∨ c.state = .tracking) ∧ c.tf ≤ m.ex / 256 ∧ m.overload = false ∧
      m.stuckRun ≠ 200) ∧ farShiftOf c ≠ 0 := by
  rw [farAdapts, Bool.and_eq_true, echoGate_iff, bne_iff_ne, and_comm]

/-- The samples that a close measures are those of the buffers, its residuals those of R13, its outputs
those of R15. -/
theorem measure_getD (c : Channel) (n : Nat) (h : n < 40) :
    (measure c).x.getD n 0#16 = c.line.play.getD n 0#16 ∧
    (measure c).r.getD n 0#16 = c.line.capture.getD n 0#16 ∧
    (measure c).u.getD n 0#16 =
      residual c.filt (measure c).x c.hist.near (measure c).poolHist (measure c).r n ∧
    (measure c).z.getD n 0#16 = eqOutput c.filt (measure c).u c.hist.resid n := by
  refine ⟨block40_getD _ n h, block40_getD _ n h, ?_, ?_⟩ <;> simp [measure, h]

theorem measure_u_length (c : Channel) : (measure c).u.length = 40 := by simp [measure]

theorem measure_z_length (c : Channel) : (measure c).z.length = 40 := by simp [measure]

theorem measure_overload_iff (c : Channel) :
    (measure c).overload = true ↔ 0 < (measure c).clip := any_atLimit_iff _

/-- The energy of the errors of an equalizer update (R23). -/
theorem energy_eqErrors (ref stored : List Sample) : energy (eqErrors ref stored) =
    (∑ i ∈ Finset.range 40, (max (-32768) (min 32767
      ((ref.getD i 0#16).toInt - (stored.getD i 0#16).toInt))) ^ 2).toNat := by
  rw [← Int.toNat_natCast (energy _), eqErrors, energy_block]
  simp only [sat16_toInt, sampleVal]

/-- Settles O26: each measured quantity and each field of the metrics, by the lemma that says it. -/
theorem measuresAndReportsBlock : Obligations.MeasuresAndReportsBlock := by
  rintro c before after f m o ref stored rfl
  have hx : (measure c).ex = energy (block40 c.line.play) := rfl
  have hr : (measure c).er = energy (block40 c.line.capture) := rfl
  have hu : (measure c).eu = energy (measure c).u := rfl
  refine ⟨measure_getD c, measure_u_length c, measure_z_length c, ?_, ?_, ?_, ?_, ?_, ?_, ?_,
    measure_overload_iff c, fun eps => ⟨rfl, rfl, rfl, rfl, rfl⟩, ?_, rfl, ?_⟩
  · rw [hx, block40, energy_block]
  · rw [hr, block40, energy_block]
  · rw [hu, energy_eq_sum, measure_u_length]
  · exact energy_block_le (block40_length _)
  · exact energy_block_le (block40_length _)
  · exact energy_block_le (measure_u_length c)
  · exact filter_atLimit_length _
  · rintro eps rep rfl
    generalize measure c = m
    refine ⟨rfl, rfl, rfl, stuckClosed_iff _, ?_, rfl, rfl, rfl, ?_, ?_, ?_, rfl, rfl, rfl, rfl, ?_⟩
    · show (before.state == .held) = true ↔ _
      rw [beq_iff_eq]
    · exact (nearAdapts_iff before m).trans (and_right_comm.trans and_assoc)
    · exact (farAdapts_iff before m).trans (and_right_comm.trans and_assoc)
    · exact Option.isSome_iff_exists
    · show searchCode after.search = _
      unfold searchCode
      cases after.search.lastResult <;> rfl
  · show reported (energy _) = _
    rw [Option.getD_some, energy_eqErrors, reported]

/-! ## The reference outcome (R22) -/

/-- Settles O28: one row of the table after another, each by its own condition. -/
theorem referenceOutcomeFirstRow : Obligations.ReferenceOutcomeFirstRow := by
  intro c m refPresent
  have stuck : stuckClosed m.stuckRun = true ↔ m.stuckRun = 200 := stuckClosed_iff _
  unfold refOutcome
  split_ifs with hp hheld hgap hov hstuck hshift
  · simp_all [metricsOf]
  · simp_all [metricsOf]
  · have : ¬ 3 ≤ c.walk.takenRun := by omega
    simp_all [metricsOf]
  · simp_all [metricsOf]
  · simp_all [metricsOf]
  · simp_all [metricsOf]
  · simp_all [metricsOf]

/-! ## Updates (R19 to R24) -/

theorem shiftFor_stopped {st : ChanState} (h1 : st ≠ .training) (h2 : st ≠ .tracking) (b : Bool)
    (p t : Nat) : shiftFor st b p t = 0 := by
  cases st with
  | training => exact absurd rfl h1
  | tracking => exact absurd rfl h2
  | _ => rfl

theorem farShiftOf_on {c : Channel} (h : c.filt.lfEff ≠ 0) :
    farShiftOf c = shiftFor c.state (currentPhase c).farAdapt (currentPhase c).farShift c.trackFar :=
  if_neg h

theorem farShiftOf_off {c : Channel} (h : c.filt.lfEff = 0) : farShiftOf c = 0 := if_pos h

theorem getD_map_range {α : Type} (f : Nat → α) (d : α) {j k : Nat} (h : j < k) :
    ((List.range k).map f).getD j d = f j := by
  simp [h]

/-- The gradients as sums (R21, R23). -/
theorem nearGrad_eq (m : Measured) (near : List Sample) (j : Nat) : nearGrad m near j =
    ∑ n ∈ Finset.range 40, (m.u.getD n 0#16).toInt *
      (if j ≤ n then (m.x.getD (n - j) 0#16).toInt else (near.getD (j - n - 1) 0#16).toInt) :=
  sumTo_eq_sum _ _

theorem farGrad_eq (m : Measured) (delay j : Nat) : farGrad m delay j =
    ∑ n ∈ Finset.range 40, (m.u.getD n 0#16).toInt *
      (m.poolHist.getD (39 - n + (delay + j)) 0#16).toInt := sumTo_eq_sum _ _

theorem eqGrad_eq (eps resid : List Sample) (j : Nat) : eqGrad eps resid j =
    ∑ i ∈ Finset.range 40, (eps.getD i 0#16).toInt * (resid.getD (79 - i + j) 0#16).toInt :=
  sumTo_eq_sum _ _

/-- The near filter's taps when its update is applied (R21). -/
theorem adapt_hn {c : Channel} {m : Measured} {eps : Option (List Sample)} (h : nearAdapts c m = true) :
    (adapt c m eps).hn = (List.range c.filt.ln).map fun j =>
      updateCoef (c.filt.hn.getD j 0#24) (nearShiftOf c) (nearGrad m c.hist.near j) := if_pos h

/-- The far filter's taps when its update is applied (R21). -/
theorem adapt_hf {c : Channel} {m : Measured} {eps : Option (List Sample)} (h : farAdapts c m = true) :
    (adapt c m eps).hf = (List.range c.filt.lf).map fun j =>
      if j < c.filt.lfEff then
        updateCoef (c.filt.hf.getD j 0#24) (farShiftOf c) (farGrad m c.filt.delay j)
      else c.filt.hf.getD j 0#24 := if_pos h

/-- Settles O27: the shifts by the channel's state, then each filter's update by its gate. -/
theorem updatesFollowGates : Obligations.UpdatesFollowGates := by
  intro c m eps open_ p
  have near : nearAdapts c m = true ↔ open_ ∧ nearShiftOf c ≠ 0 := nearAdapts_iff c m
  have far : farAdapts c m = true ↔ open_ ∧ farShiftOf c ≠ 0 := farAdapts_iff c m
  refine ⟨fun h => ⟨?_, ?_, fun hl => ?_⟩, fun h => ⟨?_, ?_, fun hl => ?_⟩, fun h1 h2 => ⟨?_, ?_, ?_⟩,
    farShiftOf_off, fun h j hj => ?_, fun h => ?_, fun h j hj => ?_, fun h => ?_, ?_, ?_, rfl⟩
  · rw [nearShiftOf, h]; rfl
  · rw [eqShiftOf, h]; rfl
  · rw [farShiftOf_on hl, h]; rfl
  · rw [nearShiftOf, h]; rfl
  · rw [eqShiftOf, h]; rfl
  · rw [farShiftOf_on hl, h]; rfl
  · exact shiftFor_stopped h1 h2 ..
  · by_cases hl : c.filt.lfEff = 0
    · exact farShiftOf_off hl
    · exact (farShiftOf_on hl).trans (shiftFor_stopped h1 h2 ..)
  · exact shiftFor_stopped h1 h2 ..
  · rw [← nearGrad_eq, adapt_hn (near.2 h), getD_map_range _ _ hj]
  · exact if_neg (mt near.1 h)
  · rw [← farGrad_eq, adapt_hf (far.2 h), getD_map_range _ _ hj]
  · exact if_neg (mt far.1 h)
  · rintro e rfl j hj
    rw [← eqGrad_eq]
    exact getD_map_range _ _ hj
  · rintro rfl
    rfl

/-! ## Histories (R11, R18, R25) -/

/-- A block entered newest first at the head of a history that keeps `k` samples: a new sample. -/
theorem getD_entered_new (x h : List Sample) (hx : x.length = 40) {i k : Nat} (hi : i < 40) (hk : i < k) :
    ((x.reverse ++ h).take k).getD i 0#16 = x.getD (39 - i) 0#16 := by
  simp only [List.getD_eq_getElem?_getD, List.getElem?_take_of_lt hk]
  rw [List.getElem?_append_left (by simpa [hx] using hi), List.getElem?_reverse (by omega), hx]

/-- A block entered newest first at the head of a history that keeps `k` samples: an older one. -/
theorem getD_entered_old (x h : List Sample) (hx : x.length = 40) {i k : Nat} (hk : i + 40 < k) :
    ((x.reverse ++ h).take k).getD (i + 40) 0#16 = h.getD i 0#16 := by
  simp only [List.getD_eq_getElem?_getD, List.getElem?_take_of_lt hk]
  rw [List.getElem?_append_right (by simp [hx])]
  simp [hx]

theorem all_block40_iff (xs : List Sample) (p : Sample → Bool) :
    (block40 xs).all p = true ↔ ∀ i < 40, p (xs.getD i 0#16) = true := by
  simp [block40]

theorem any_block40_iff (xs : List Sample) (p : Sample → Bool) :
    (block40 xs).any p = true ↔ ∃ i < 40, p (xs.getD i 0#16) = true := by
  simp [block40]

/-- The stuck run after a close, in the words of R18. -/
theorem nextStuckRun_eq (run : Nat) (xs : List Sample) (last : Sample) (h : run ≤ 200) :
    nextStuckRun run (block40 xs) last =
      if ∀ i < 40, xs.getD i 0#16 = last then min 200 (run + 1) else 0 := by
  have all : (block40 xs).all (· == last) = true ↔ ∀ i < 40, xs.getD i 0#16 = last := by
    simp only [all_block40_iff, beq_iff_eq]
  have up : (if run < 200 then run + 1 else 200) = min 200 (run + 1) := by split <;> omega
  unfold nextStuckRun
  rw [up]
  simp only [all]

/-- Settles O29: each history takes the block at its newest end. -/
theorem closeAdvancesHistories : Obligations.CloseAdvancesHistories := by
  intro c eps hnear hresid hpool
  have hx : (measure c).x.length = 40 := block40_length _
  have hu : (measure c).u.length = 40 := measure_u_length c
  have x_at : ∀ i < 40, (measure c).x.getD (39 - i) 0#16 = c.line.play.getD (39 - i) 0#16 :=
    fun i _ => (measure_getD c (39 - i) (by omega)).1
  refine ⟨_, _, rfl, rfl, fun i hi => ⟨?_, ?_⟩, fun i hi => ?_, fun i hi => ?_, ?_, ?_, fun _ i hi => ?_,
    fun i hi => ?_, ?_, rfl, rfl, ?_, ?_, nextStuckRun_eq _ _ _⟩
  · exact (getD_entered_new _ _ hx hi (by omega)).trans (x_at i hi)
  · exact getD_entered_new _ _ hu hi (by omega)
  · exact getD_entered_old _ _ hx hi
  · exact getD_entered_old _ _ hu hi
  · simp [applyClose, advanceHist, hnear, hx]
  · simp [applyClose, advanceHist, hresid, hu]
  · exact (getD_entered_new _ _ hx (by omega) (by omega)).trans (x_at i (by omega))
  · exact getD_entered_old _ _ hx hi
  · exact enterPool_histKept hpool
  · simp only [← atLimit_iff]
    exact any_block40_iff _ _
  · exact (measure_getD c 39 (by omega)).2.1

end Sys2Proof.Machine
end

