-- ==== Sys2Proof/Proofs/Reset.lean ====
section
/-! Proofs about the hardware reset (R39 and the tables it gathers). -/

namespace Sys2Proof.Machine

theorem entryAt_reset (i : Fin 48) : entryAt Store.reset i = .reset := by
  simp [entryAt, Store.reset]

/-- No entry of the store is in use after a hardware reset (R119, R135). -/
theorem entriesInUse_reset : entriesInUse Store.reset = 0 := by
  simp [entriesInUse, entryAt_reset, Entry.reset]

/-- The sources after a hardware reset (R165). -/
theorem reset_source (i : Fin 34) : Attn.reset.sources[i] =
    ⟨0#16, false, if i = partSource then 7#3 else 0#3⟩ := by
  by_cases h : i = partSource
  · subst h; rfl
  · have : 33 ≠ i.val := fun e => h (Fin.ext e.symm)
    simp [Attn.reset, Vector.getElem_set_ne, this, h]

theorem hardwareReset_pool (s : State) : (hardwareResetPart s).pool = List.range 1024 := by
  simp only [hardwareResetPart, State.reset]

theorem hardwareReset_chan (s : State) (n : Fin 32) : (hardwareResetPart s).chan n = .reset := by
  simp [hardwareResetPart, State.chan, State.reset]

/-- PART_STATUS after a hardware reset: 32 slots, and all 1024 segments free (R161). -/
theorem partStatus_hardwareReset (s : State) :
    partStatus (hardwareResetPart s) = 0x04000020#32 := by
  have used : entriesInUse (hardwareResetPart s).store = 0 := entriesInUse_reset
  rw [partStatus, used, hardwareReset_pool, List.length_range]
  show BitVec.ofNat 32 (0 + 2 * 0 + 8 * 0 + 32 * 1 + 256 * 0 + 65536 * 1024) = _
  norm_num

/-- The registers as they read after a hardware reset (R161). -/
theorem hardwareReset_registers (s : State) : readRegister 0x00#32 (hardwareResetPart s) = 0#32 ∧
    readRegister 0x04#32 (hardwareResetPart s) = 0#32 ∧
    readRegister 0x08#32 (hardwareResetPart s) = 32#32 ∧
    readRegister 0x0C#32 (hardwareResetPart s) = 0x04000020#32 := by
  have base : tableAddr (hardwareResetPart s).tableBase = 0#32 :=
    show tableAddr 0#24 = 0#32 by decide
  have control : controlWord (hardwareResetPart s) = 0#32 := rfl
  have format : formatWord (hardwareResetPart s).port.pendingFmt = 32#32 := rfl
  simp [readRegister, base, control, format, partStatus_hardwareReset]

/-- Settles O4: the registers are those of `State.reset`, whose fields hold the tables' values. -/
theorem hardwareResetValues : Obligations.HardwareResetValues := by
  refine fun s => ⟨hardwareResetPart s, rfl, rfl, rfl, rfl, rfl, rfl,
    hardwareReset_chan s, hardwareReset_pool s, entryAt_reset, rfl, rfl, rfl, rfl, rfl, ?_⟩
  obtain ⟨base, control, format, status⟩ := hardwareReset_registers s
  refine ⟨base, control, format, status, fun i => ?_⟩
  have source : (hardwareResetPart s).attn.sources[i] = _ := reset_source i
  rw [source]
  exact ⟨rfl, rfl, rfl⟩

end Sys2Proof.Machine
end

