-- ==== Sys2Proof/Proofs/Program.lean ====
section
/-! Proofs about the attention unit's growing cause sets, the start of a search, and what an accepted cold
OPEN and a divergence restart leave (R32 to R35, R55, R56, R58, R166). -/

namespace Sys2Proof.Machine

/-! ## Causes that stand (R166) -/

/-- What raises, in whatever number, do to the attention unit: every priority stands, and so does every
cause that was there. -/
structure AttnGrows (a b : Attn) : Prop where
  priority : ∀ j : Fin 34, b.sources[j].priority = a.sources[j].priority
  cause    : ∀ j c, HasCause a j c → HasCause b j c

theorem AttnGrows.refl (a : Attn) : AttnGrows a a := ⟨fun _ => rfl, fun _ _ => id⟩

theorem AttnGrows.trans {a b c : Attn} (h : AttnGrows a b) (g : AttnGrows b c) : AttnGrows a c :=
  ⟨fun j => (g.priority j).trans (h.priority j), fun j x => g.cause j x ∘ h.cause j x⟩

/-- The sources after a raise: the cause joins the set of its source, but at priority 0 (R166). -/
theorem attnRaise_source (i j : Fin 34) (c : Cause) (a : Attn) : (attnRaise i c a).sources[j] =
    if j = i ∧ a.sources[i].priority ≠ 0#3 then
      { a.sources[i] with causes := a.sources[i].causes ||| causeBit c } else a.sources[j] := by
  unfold attnRaise
  by_cases hp : a.sources[i].priority = 0#3
  · rw [if_pos hp, if_neg fun h => h.2 hp]
  · rw [if_neg hp, updateSource_source]
    exact if_congr (and_iff_left hp).symm rfl rfl

theorem AttnGrows.raise (i : Fin 34) (c : Cause) (a : Attn) : AttnGrows a (attnRaise i c a) := by
  constructor
  · intro j
    rw [attnRaise_source]
    split_ifs with h
    · rw [h.1]
    · rfl
  · intro j x hx
    unfold HasCause at *
    rw [attnRaise_source]
    split_ifs with h
    · rw [BitVec.getLsbD_or, ← h.1, hx, Bool.true_or]
    · exact hx

theorem AttnGrows.raiseIf (b : Prop) [Decidable b] (i : Fin 34) (c : Cause) (a : Attn) :
    AttnGrows a (if b then attnRaise i c a else a) := by
  split_ifs
  · exact .raise i c a
  · exact .refl a

theorem causeBit_self (c : Cause) : (causeBit c).getLsbD (causeIndex c) = true := by
  cases c <;> decide

/-- A cause raised on a source of a priority other than 0 stands there (R166). -/
theorem hasCause_attnRaise {i : Fin 34} {a : Attn} (c : Cause) (h : a.sources[i].priority ≠ 0#3) :
    HasCause (attnRaise i c a) i c := by
  unfold HasCause
  rw [attnRaise_source, if_pos ⟨rfl, h⟩, BitVec.getLsbD_or, causeBit_self, Bool.or_true]

/-! ## Updates of the state in one form -/

@[simp] theorem raiseIf_attn (b : Bool) (i : Fin 34) (c : Cause) (s : State) :
    (raiseIf b i c s).attn = if b then attnRaise i c s.attn else s.attn := by
  cases b <;> rfl

/-- What a channel's event leaves alone, as one equation. -/
theorem ChanOp.state_eq {n : Fin 32} {s t : State} (h : ChanOp n s t) :
    t = { s with chans := t.chans, pool := t.pool, store := t.store, attn := t.attn, mem := t.mem,
                 bus := t.bus } := by
  obtain ⟨h1, h2, h3, h4, h5, h6, h7, -⟩ := h
  rw [← h1, ← h2, ← h3, ← h4, ← h5, ← h6, ← h7]

/-- A change of a channel that leaves it as it is changes nothing. -/
theorem modChan_eq_self {n : Fin 32} {f : Channel → Channel} {s : State} (h : f (s.chan n) = s.chan n) :
    s.modChan n f = s := by
  have : s.chans.set n (f s.chans[n]) = s.chans := by
    rw [show f s.chans[n] = s.chans[n] from h]
    exact Vector.set_getElem_self _
  unfold State.modChan
  rw [this]

/-! ## The start of a search (R58 to R60) -/

section
variable (n : Fin 32) (k : Nat) (s : State)

@[simp] theorem bringHolding_store : (bringHolding n k s).store = s.store := by
  dsimp only [bringHolding]; split_ifs <;> rfl

@[simp] theorem bringHolding_mem : (bringHolding n k s).mem = s.mem := by
  dsimp only [bringHolding]; split_ifs <;> rfl

@[simp] theorem bringHolding_bus : (bringHolding n k s).bus = s.bus := by
  dsimp only [bringHolding]; split_ifs <;> rfl

@[simp] theorem bringHolding_attn : (bringHolding n k s).attn = s.attn := by
  dsimp only [bringHolding]; split_ifs <;> rfl

@[simp] theorem startSearch_store : (startSearch n s).store = s.store := by
  dsimp only [startSearch]; split_ifs <;> simp [releaseAll]

@[simp] theorem startSearch_mem : (startSearch n s).mem = s.mem := by
  dsimp only [startSearch]; split_ifs <;> simp [releaseAll]

@[simp] theorem startSearch_bus : (startSearch n s).bus = s.bus := by
  dsimp only [startSearch]; split_ifs <;> simp [releaseAll]

end

/-- The causes that a search start raises join those that stand. -/
theorem startSearch_grows (n : Fin 32) (s : State) : AttnGrows s.attn (startSearch n s).attn := by
  dsimp only [startSearch]
  split_ifs
  · simp only [modChan_attn, raiseIf_attn, bringHolding_attn]
    exact .raiseIf ..
  · simp only [raise_attn, modChan_attn, releaseAll, shrink_attn, raiseIf_attn, bringHolding_attn]
    exact (AttnGrows.raiseIf ..).trans (.raise ..)

/-- The channel at a search start: the far canceller off, a status write due, a new holding and search, and
nothing else changed (R58). -/
theorem startSearch_chan (n : Fin 32) (s : State) : ∃ l p q, (startSearch n s).chan n =
    { s.chan n with filt := farOff (s.chan n).filt, statusDue := true, segs := l, poolHist := p,
                    search := q } := by
  obtain ⟨l, p, held, -⟩ := bringHolding_spec n
    (searchTarget ((s.modChan n fun c => { c with filt := farOff c.filt, statusDue := true }).chan n))
    (s.modChan n fun c => { c with filt := farOff c.filt, statusDue := true })
  dsimp only [startSearch]
  generalize bringHolding n _ _ = b at held ⊢
  split_ifs
  · exact ⟨l, p, _, by rw [modChan_chan_self, raiseIf_chan, held, modChan_chan_self]⟩
  · exact ⟨[], [], _, by rw [raise_chan, modChan_chan_self, releaseAll_chan_self, raiseIf_chan, held,
      modChan_chan_self]⟩

end Sys2Proof.Machine
end

