-- ==== Sys2Proof/Proofs/Restarts.lean ====
section
/-! Proofs about a divergence restart (R8, R55, R56) and an accepted cold OPEN (R32 to R35). -/

namespace Sys2Proof.Machine

variable {n : Fin 32} {s : State}

/-! ## Divergence restarts -/

theorem countUp_eq (k : Nat) : countUp k = min 65535 (k + 1) := by
  unfold countUp; split <;> omega

/-- The eighth divergent close in a row restarts (R55). -/
theorem guardAndProgram_restart {er eu : Nat}
    (hs : (s.chan n).state = .training ∨ (s.chan n).state = .tracking) (hg : (s.chan n).guard = true)
    (hd : 2 * er < eu) (hr : (s.chan n).rf ≤ er / 256) (h7 : 7 ≤ (s.chan n).divRun) :
    guardAndProgram n er eu s = divergenceRestart n s := by
  have div : divergent (s.chan n) er eu = true := by simp [divergent, reported, hd, hr]
  have eighth : 8 ≤ (s.chan n).divRun + 1 := by omega
  unfold guardAndProgram
  rcases hs with hs | hs <;> simp [hs, hg, div, eighth]

/-- TRACKING, or TRAINING, left for TRAINING: STATE is raised where it was TRACKING (R56). -/
theorem backToTraining_running
    (hs : (s.chan n).state = .training ∨ (s.chan n).state = .tracking) : backToTraining n s =
    { s.modChan n (fun c => { c with state := .training }) with
      attn := if (s.chan n).state = .tracking then attnRaise (chanSource n) .state s.attn
        else s.attn } := by
  unfold backToTraining
  rcases hs with hs | hs
  · rw [modChan_eq_self (by rw [← hs])]
    simp [hs]
  · simp only [hs, if_true]
    rfl

/-- A channel untrained and put at phase 0, before any search of that phase (R56). -/
def restarted (n : Fin 32) (s : State) : State :=
  (untrain n s).modChan n fun c => { c with phaseIndex := 0, blockCount := 0, earlyRun := 0 }

theorem restarted_chan : (restarted n s).chan n = { s.chan n with
    phaseIndex := 0, blockCount := 0, earlyRun := 0, divRun := 0, segs := [], poolHist := [],
    statusDue := true, filt := farOff (eqReset (nearReset (s.chan n).filt)),
    search := { (s.chan n).search with sweeping := false } } := by
  rw [restarted, modChan_chan_self, untrain, modChan_chan_self, releaseAll_chan_self]

theorem restarted_others (k : Fin 32) (h : k ≠ n) : (restarted n s).chan k = s.chan k := by
  rw [restarted, modChan_chan_ne _ _ _ _ h, untrain_stillOp.op.others k h]

/-- The same with the search of a phase 0 that has one (R45, R56). -/
def restartedSearching (n : Fin 32) (s : State) : State :=
  if ((s.chan n).program.getD 0 Phase.blank).search = true then startSearch n (restarted n s)
  else restarted n s

theorem enterPhase_untrain : enterPhase n 0 (untrain n s) = restartedSearching n s := by
  have phase : currentPhase ((restarted n s).chan n) = (s.chan n).program.getD 0 Phase.blank := by
    rw [restarted_chan]; rfl
  rw [restartedSearching, ← phase]
  rfl

theorem restartedSearching_of_search_false
    (h : ((s.chan n).program.getD 0 Phase.blank).search = false) :
    restartedSearching n s = restarted n s := if_neg fun hs => absurd (h.symm.trans hs) (by decide)

/-- The search of phase 0 changes the holding and the search state alone. -/
theorem restartedSearching_chan : ∃ l p q, (restartedSearching n s).chan n =
    { (restarted n s).chan n with segs := l, poolHist := p, search := q } := by
  unfold restartedSearching
  split
  · obtain ⟨l, p, q, h⟩ := startSearch_chan n (restarted n s)
    exact ⟨l, p, q, by rw [h, restarted_chan]; rfl⟩
  · exact ⟨_, _, _, rfl⟩

theorem restartedSearching_others (k : Fin 32) (h : k ≠ n) :
    (restartedSearching n s).chan k = s.chan k := by
  unfold restartedSearching
  split
  · rw [startSearch_stillOp.op.others k h, restarted_others k h]
  · exact restarted_others k h

theorem restartedSearching_grows : AttnGrows s.attn (restartedSearching n s).attn := by
  unfold restartedSearching
  split
  · exact startSearch_grows n (restarted n s)
  · exact .refl _

theorem restartedSearching_store_mem :
    (restartedSearching n s).store = s.store ∧ (restartedSearching n s).mem = s.mem := by
  unfold restartedSearching
  split
  · exact ⟨startSearch_store .., startSearch_mem ..⟩
  · exact ⟨rfl, rfl⟩

/-- A divergence restart in one form (R56). -/
theorem divergenceRestart_eq
    (hs : (s.chan n).state = .training ∨ (s.chan n).state = .tracking) : divergenceRestart n s =
    { (restartedSearching n s).modChan n (fun c =>
        { c with divCount := min 65535 (c.divCount + 1), state := .training }) with
      attn := attnRaise (chanSource n) .diverged
        (if (s.chan n).state = .tracking
          then attnRaise (chanSource n) .state (restartedSearching n s).attn
          else (restartedSearching n s).attn) } := by
  obtain ⟨l, p, q, hv⟩ := restartedSearching_chan (n := n) (s := s)
  have state : (((restartedSearching n s).modChan n fun c =>
      { c with divCount := countUp c.divCount }).chan n).state = (s.chan n).state := by
    rw [modChan_chan_self, hv, restarted_chan]
  unfold divergenceRestart
  dsimp only
  rw [enterPhase_untrain, backToTraining_running (by rw [state]; exact hs), state, modChan_modChan]
  simp only [← countUp_eq]
  rfl

/-- Settles O32: the eighth divergent close is `divergenceRestart`, whose form `divergenceRestart_eq` gives. -/
theorem eighthDivergentCloseRestarts : Obligations.EighthDivergentCloseRestarts := by
  rintro n er eu s t c rfl hs hg hd hr h7 rfl
  have form := divergenceRestart_eq hs
  rw [guardAndProgram_restart hs hg hd hr h7]
  generalize divergenceRestart n s = t at form ⊢
  have chan : t.chan n = { (restartedSearching n s).chan n with
      divCount := min 65535 (((restartedSearching n s).chan n).divCount + 1), state := .training } := by
    rw [form, chan_with_attn, modChan_chan_self]
  obtain ⟨l, p, q, hv⟩ := restartedSearching_chan (n := n) (s := s)
  obtain ⟨store, mem⟩ := restartedSearching_store_mem (n := n) (s := s)
  have grows := restartedSearching_grows (n := n) (s := s)
  have others : ∀ k, k ≠ n → t.chan k = s.chan k := fun k hk => by
    rw [form, chan_with_attn, modChan_chan_ne _ _ _ _ hk, restartedSearching_others k hk]
  have attn : t.attn = _ := congrArg State.attn form
  have quiet : ((s.chan n).program.getD 0 Phase.blank).search = false →
      (t.chan n).segs = [] ∧ (t.chan n).search.sweeping = false ∧
      (t.chan n).search.lastResult = (s.chan n).search.lastResult ∧
      t.pool = s.pool ++ (s.chan n).segs.reverse := fun h => by
    rw [chan, form, restartedSearching_of_search_false h, restarted_chan]
    exact ⟨rfl, rfl, rfl, rfl⟩
  rw [hv, restarted_chan] at chan
  refine ⟨by rw [chan], by rw [chan], by rw [chan], by rw [chan], by rw [chan], by rw [chan], by rw [chan],
    by rw [chan], by rw [chan], by rw [chan]; rfl, by rw [chan]; rfl, fun j hj => ?_, by rw [chan]; rfl,
    by rw [chan]; rfl, others, by rw [form]; exact store, by rw [form]; exact mem,
    fun hp => ⟨?_, fun ht => ?_⟩, quiet, restarted n s, restartedSearching n s, true, rfl,
    restarted_others, restarted_chan, rfl, by rw [form]; rfl, attn, ?_⟩
  · rw [chan]
    simp [eqReset, farOff, nearReset, hj]
  · rw [attn]
    refine hasCause_attnRaise _ ?_
    rw [(AttnGrows.raiseIf ..).priority, grows.priority]
    exact hp
  · rw [attn, if_pos ht]
    refine (AttnGrows.raise ..).cause _ _ (hasCause_attnRaise _ ?_)
    rw [grows.priority]
    exact hp
  · rw [chan, hv, restarted_chan]

end Sys2Proof.Machine
end

