-- ==== Sys2Proof/Proofs/Opens.lean ====
section
/-! Proofs about an accepted OPEN that starts cold (R32 to R35, R122, R165). -/

namespace Sys2Proof.Machine

variable {n : Fin 32} {s : State} {r : OpenReq} {phases : List Phase} {o : LookupOutcome}

/-! ## Clamps (R32) -/

theorem clampShift_eq (k : Nat) : clampShift k = if k = 0 then 0 else max 8 (min 40 k) := by
  unfold clampShift; split_ifs <;> omega

theorem clampOne_eq (k : Nat) : clampOne k = max 1 k := by
  unfold clampOne; split <;> omega

theorem clampRatio_eq (k : Nat) : clampRatio k = max 2 (min 64 k) := by
  unfold clampRatio; split_ifs <;> omega

theorem clampDelay_eq (k : Nat) : clampDelay k = max 64 (min 4992 k) := by
  unfold clampDelay; split_ifs <;> omega

theorem clampDmax_eq (dmin dmax : Nat) :
    clampDmax dmin dmax = max (clampDelay dmin) (max 64 (min 4992 dmax)) := by
  rw [← clampDelay_eq]
  unfold clampDmax; split <;> omega

/-! ## The cold start -/

/-- A lookup that answers no entry is no HIT (R122). -/
theorem lookup_none {st : Store} {tag : Word} {ln lf le : Nat} (h : lookup st tag ln lf le = (o, none)) :
    o ≠ .hit := by
  unfold lookup at h
  split at h
  · cases h; simp
  · dsimp only at h
    split_ifs at h <;> cases h <;> simp

/-- When an OPEN starts cold, and the outcome it shows (R33, R122). -/
def StartsCold (st : Store) (r : OpenReq) (o : LookupOutcome) : Prop :=
  (r.tag = 0#32 ∨ r.useProfile = false) ∧ o = .notUsed ∨
    r.tag ≠ 0#32 ∧ r.useProfile = true ∧ lookup st r.tag r.ln r.lf r.le = (o, none)

theorem StartsCold.ne_hit {st : Store} (h : StartsCold st r o) : o ≠ .hit := by
  rcases h with ⟨-, rfl⟩ | ⟨-, -, h⟩
  · simp
  · exact lookup_none h

/-- A lookup that loads nothing sets the outcome alone (R33). -/
theorem consultStore_cold (h : StartsCold s.store r o) :
    consultStore n (s.modChan n (openedChan r phases)) =
      s.modChan n fun c => { openedChan r phases c with profileOutcome := o } := by
  have opened : (s.modChan n (openedChan r phases)).chan n = openedChan r phases (s.chan n) :=
    modChan_chan_self ..
  unfold consultStore
  dsimp only
  rw [opened]
  rcases h with ⟨hp, rfl⟩ | ⟨ht, hu, hl⟩
  · rw [if_neg]
    · rfl
    · rintro ⟨ht, hu⟩
      rcases hp with hp | hp
      · exact ht hp
      · exact absurd (hp.symm.trans hu) (by decide)
  · have found : lookup (s.modChan n (openedChan r phases)).store (openedChan r phases (s.chan n)).routeTag
        (openedChan r phases (s.chan n)).filt.ln (openedChan r phases (s.chan n)).filt.lf
        (openedChan r phases (s.chan n)).filt.le = (o, none) := hl
    rw [if_pos ⟨ht, hu⟩, found]
    exact modChan_modChan ..

/-- The channel that a cold OPEN leaves, before any search of phase 0 (R32 to R35). -/
def coldChan (r : OpenReq) (phases : List Phase) (o : LookupOutcome) (locked : Bool) (c : Channel) :
    Channel :=
  { startState locked .training { openedChan r phases c with profileOutcome := o } with
    phaseIndex := 0, blockCount := 0, earlyRun := 0 }

theorem coldChan_phase (locked : Bool) (c : Channel) :
    (currentPhase (coldChan r phases o locked c)).search = (phases.getD 0 Phase.blank).search := by
  cases locked <;> cases phases <;> rfl

theorem startChannel_cold (h : o ≠ .hit) {f : Channel → Channel}
    (hf : (f (s.chan n)).profileOutcome = o) : startChannel n (s.modChan n f) =
    enterPhase n 0 (s.modChan n fun c =>
      { startState (s.port.state == .locked) .training (f c) with phaseIndex := 0 }) := by
  have start : startPosition ((s.modChan n f).chan n) = (0, .training) := by
    rw [modChan_chan_self, startPosition, if_neg (by rw [hf]; exact h)]
  unfold startChannel
  rw [start]
  dsimp only
  rw [modChan_modChan]
  rfl

/-- The state that a cold OPEN leaves, before any search of phase 0 (R32 to R35). -/
def coldOpened (n : Fin 32) (r : OpenReq) (phases : List Phase) (o : LookupOutcome) (s : State) : State :=
  (copyPriority (chanSource n) r.priority s).modChan n
    (coldChan r phases o (s.port.state == .locked))

theorem acceptOpen_cold (h : StartsCold s.store r o) : acceptOpen n r phases s =
    if (phases.getD 0 Phase.blank).search = true then startSearch n (coldOpened n r phases o s)
    else coldOpened n r phases o s := by
  unfold acceptOpen
  rw [consultStore_cold (s := copyPriority (chanSource n) r.priority s) h, startChannel_cold h.ne_hit rfl]
  unfold enterPhase
  rw [modChan_modChan]
  have phase : (currentPhase ((coldOpened n r phases o s).chan n)).search =
      (phases.getD 0 Phase.blank).search := by
    rw [coldOpened, modChan_chan_self, coldChan_phase]
  rw [← phase]
  rfl

/-- A cold OPEN's channel has the configuration of the request, clamped (R32, R34). -/
theorem coldChan_configured (locked : Bool) (c : Channel) :
    Configured r phases (locked = true) (coldChan r phases o locked c) := by
  have program : phases.map clampPhase = phases.map fun p => { p with
      nearShift := if p.nearShift = 0 then 0 else max 8 (min 40 p.nearShift)
      farShift := if p.farShift = 0 then 0 else max 8 (min 40 p.farShift)
      eqShift := if p.eqShift = 0 then 0 else max 8 (min 40 p.eqShift)
      duration := max 1 p.duration, runK := max 1 p.runK } := by
    simp only [← clampShift_eq, ← clampOne_eq]
    rfl
  cases locked <;>
    exact ⟨rfl, by simp [coldChan, startState], rfl, rfl, rfl, program, rfl, rfl, rfl, rfl, rfl, rfl, rfl,
      clampRatio_eq _, clampDelay_eq _, clampDmax_eq _ _, rfl, rfl, clampShift_eq _, clampShift_eq _,
      clampShift_eq _, rfl, rfl, rfl, rfl, rfl, rfl, rfl, rfl, rfl, rfl, rfl, rfl, rfl, ⟨rfl, rfl⟩, rfl, rfl,
      rfl⟩

/-- A cold OPEN's coefficients are in their reset forms (R8, R33). -/
theorem coldChan_filt (locked : Bool) (c : Channel) : (coldChan r phases o locked c).filt =
    eqReset { ln := r.ln, lf := r.lf, le := r.le, cursorTap := r.cursor, hn := List.replicate r.ln 0#24,
              hf := List.replicate r.lf 0#24, g := [], delay := 0, lfEff := 0 } := by
  cases locked <;> rfl

/-- What a cold OPEN leaves of the rest of the part (R165). -/
theorem coldOpened_leaves : OpenLeaves n r.priority False s (coldOpened n r phases o s) :=
  ⟨rfl, fun _ hk => modChan_chan_ne _ _ _ _ hk, _, attnSetPriority_copied .., False.elim, fun _ => rfl⟩

/-- Settles O39: the cold OPEN leaves `coldOpened`, and then the search of a search phase 0. -/
theorem coldOpenStartsTraining : Obligations.ColdOpenStartsTraining := by
  intro n r phases s o h
  have chan : (coldOpened n r phases o s).chan n =
      coldChan r phases o (s.port.state == .locked) (s.chan n) := modChan_chan_self ..
  refine ⟨coldOpened n r phases o s, _, chan.symm, acceptOpen_cold h, ?_⟩
  have locked : (s.port.state = .locked) = ((s.port.state == .locked) = true) := by
    rw [beq_iff_eq]
  simp only [locked]
  generalize (s.port.state == .locked) = b
  refine ⟨by cases b <;> rfl, by cases b <;> rfl, coldChan_configured b _, rfl, by cases b <;> rfl, ?_, ?_,
    fun j hj => ?_, ?_, ?_, ?_, by cases b <;> rfl, by cases b <;> rfl, coldOpened_leaves, rfl, rfl, rfl⟩
  all_goals rw [coldChan_filt]
  · rfl
  · rfl
  · simp [eqReset, hj]
  · rfl
  · rfl
  · rfl

end Sys2Proof.Machine
end

