-- ==== Sys2Proof/Proofs/Accesses.lean ====
section
/-! Laws of the accesses that proofs about events use: words read back, writes under a quiet bus script and
under a script with one error, status writes and the entry to FAULT (R38, R158 to R160; log 1). -/

namespace Sys2Proof.Machine

variable {n : Fin 32} {s : State}

/-! ## Words in memory -/

/-- Runs of bytes at offsets that do not meet share no byte. -/
theorem apart_offsets (d : Word) {a la b lb : Nat} (ha : a + la ≤ 2 ^ 32) (hb : b + lb ≤ 2 ^ 32)
    (h : a + la ≤ b ∨ b + lb ≤ a) :
    Apart (d + BitVec.ofNat 32 a) la (d + BitVec.ofNat 32 b) lb := by
  intro i hi j hj e
  simp only [BitVec.toNat_add, BitVec.toNat_ofNat] at e
  omega

theorem add_ofNat_ofNat (d : Word) (a b : Nat) :
    d + BitVec.ofNat 32 a + BitVec.ofNat 32 b = d + BitVec.ofNat 32 (a + b) := by
  rw [BitVec.add_assoc, ← BitVec.ofNat_add]

/-- A word of a written run reads back. -/
theorem memWord_memSetWords (ws : List Word) (a : Word) {m : Memory} (h : m.wf)
    (hl : 4 * ws.length ≤ 2 ^ 32) (i : Nat) (hi : i < ws.length) :
    memWord (memSetWords ws a m) (a + BitVec.ofNat 32 (4 * i)) = ws.getD i 0#32 := by
  induction ws generalizing a m i with
  | nil => simp at hi
  | cons w ws ih =>
    simp only [List.length_cons] at hl hi
    cases i with
    | zero =>
      have apart := apart_offsets a (a := 0) (la := 4) (b := 4) (lb := 4 * ws.length) (by omega) (by omega)
        (.inl (by omega))
      rw [memSetWords, memWord_memSetWords_apart ws _ _ (memSetWord_wf a w h) apart,
        BitVec.add_zero, memWord_memSetWord a w h]
      rfl
    | succ i =>
      have step : a + BitVec.ofNat 32 (4 * (i + 1)) = a + 4#32 + BitVec.ofNat 32 (4 * i) := by
        rw [add_ofNat_ofNat, Nat.mul_succ, Nat.add_comm]
      rw [step, memSetWords, ih _ (memSetWord_wf a w h) (by omega) i (by omega)]
      rfl

/-- Words read in a row, each by its offset. -/
theorem memWords_eq_map (k : Nat) (a : Word) (m : Memory) : memWords k a m =
    (List.range k).map fun i => memWord m (a + BitVec.ofNat 32 (4 * i)) := by
  induction k generalizing a with
  | zero => rfl
  | succ k ih =>
    have step : ∀ i, a + 4#32 + BitVec.ofNat 32 (4 * i) = a + BitVec.ofNat 32 (4 * (i + 1)) := fun i => by
      rw [add_ofNat_ofNat, Nat.mul_succ, Nat.add_comm]
    simp only [memWords, ih, step, List.range_succ_eq_map, List.map_cons, List.map_map, Nat.mul_zero,
      BitVec.add_zero]
    rfl

/-! ## A quiet bus script: no host write and no error -/

/-- No slot of the script brings a host write or an error. -/
def Quiet (bus : Bus) : Prop := ∀ slot ∈ bus, slot = ⟨[], false⟩

theorem quiet_nil : Quiet [] := by simp [Quiet]

/-- A word written under a quiet script. -/
theorem writeWord_quiet (a v : Word) (h : Quiet s.bus) : writeWord a v s =
    (true, { s with mem := memSetWord s.mem a v, bus := s.bus.drop 1 }) := by
  cases hb : s.bus with
  | nil => rw [writeWord_nil a v hb, List.drop_nil, ← hb]
  | cons slot rest =>
    have : slot = ⟨[], false⟩ := h slot (by simp [hb])
    subst this
    simp [writeWord, busSlot_cons hb, hostMemory, applyHost]

/-- Words written under a quiet script. -/
theorem writeWords_quiet (ws : List Word) (a : Word) (h : Quiet s.bus) : writeWords ws a s =
    (true, { s with mem := memSetWords ws a s.mem, bus := s.bus.drop ws.length }) := by
  induction ws generalizing a s with
  | nil => rfl
  | cons w ws ih =>
    have rest : Quiet (s.bus.drop 1) := fun slot hs => h slot (List.mem_of_mem_drop hs)
    rw [writeWords, writeWord_quiet a w h]
    dsimp only
    rw [ih (s := { s with mem := memSetWord s.mem a w, bus := s.bus.drop 1 }) _ rest, List.drop_drop,
      List.length_cons, Nat.add_comm 1]
    rfl

/-- An access that meets an error, with what is left of its script. -/
theorem readWord_error (a : Word) {rest : Bus} (h : s.bus = ⟨[], true⟩ :: rest) :
    readWord a s = (none, { s with bus := rest }) := by
  simp [readWord, busSlot_cons h, hostMemory, applyHost]

/-! ## Writes into a descriptor -/

/-- Memory after words are written into descriptor `k`: nothing while the table base is 0 (R152). -/
def descMemory (k : Nat) (offset : Word) (ws : List Word) (s : State) : Memory :=
  if s.tableBase = 0#24 then s.mem else memSetWords ws (s.desc k + offset) s.mem

theorem descMemory_wf (k : Nat) (offset : Word) (ws : List Word) (h : MemLegal s) :
    (descMemory k offset ws s).wf := by
  unfold descMemory
  split
  · exact h
  · exact memSetWords_wf _ _ h

theorem memRead_descMemory (k : Nat) (offset : Word) (ws : List Word) (h : MemLegal s) (x : Nat)
    (hx : Outside (s.desc k + offset) (4 * ws.length) x) :
    memRead (descMemory k offset ws s) x = memRead s.mem x := by
  unfold descMemory
  split
  · rfl
  · exact memRead_memSetWords_ne _ _ h x hx

theorem memWord_descMemory (k : Nat) (offset : Word) (ws : List Word) (h : MemLegal s)
    (hb : s.tableBase ≠ 0#24) (hl : 4 * ws.length ≤ 2 ^ 32) (i : Nat) (hi : i < ws.length) :
    memWord (descMemory k offset ws s) (s.desc k + offset + BitVec.ofNat 32 (4 * i)) = ws.getD i 0#32 := by
  rw [descMemory, if_neg hb]
  exact memWord_memSetWords ws _ h hl i hi

/-- A write into a descriptor under a quiet script is made. -/
theorem writeDesc_quiet (k : Nat) (offset : Word) (ws : List Word) (h : Quiet s.bus) :
    ∃ b, (s.bus = [] → b = []) ∧ writeDesc k offset ws s =
      (true, { s with mem := descMemory k offset ws s, bus := b }) := by
  unfold writeDesc descMemory
  by_cases hb : s.tableBase = 0#24
  · exact ⟨s.bus, id, by rw [if_pos hb, if_pos hb]⟩
  · refine ⟨s.bus.drop ws.length, fun e => by simp [e], ?_⟩
    rw [if_neg hb, if_neg hb, writeWords_quiet _ _ h]

theorem writeDesc_idle (k : Nat) (offset : Word) (ws : List Word) (h : s.bus = []) :
    writeDesc k offset ws s = (true, { s with mem := descMemory k offset ws s }) := by
  obtain ⟨b, hb, e⟩ := writeDesc_quiet k offset ws (s := s) (h ▸ quiet_nil)
  rw [e, hb h, ← h]

/-- A write into a descriptor whose error comes later. -/
theorem writeDesc_errorAt_before (k : Nat) (offset : Word) (ws : List Word) {j : Nat}
    (h : s.bus = ErrorAt j) (hb : s.tableBase ≠ 0#24) (hj : ws.length ≤ j) :
    writeDesc k offset ws s =
      (true, { s with mem := descMemory k offset ws s, bus := ErrorAt (j - ws.length) }) := by
  rw [writeDesc, descMemory, if_neg hb, if_neg hb, writeWords_errorAt_before _ _ h hj]

/-- A write into a descriptor that meets the error at word `j`: a table fault, the words before written
(R160). -/
theorem writeDesc_errorAt_reached (k : Nat) (offset : Word) (ws : List Word) {j : Nat}
    (h : s.bus = ErrorAt j) (hb : s.tableBase ≠ 0#24) (hj : j < ws.length) :
    writeDesc k offset ws s =
      (false, tableFault { s with mem := descMemory k offset (ws.take j) s, bus := [] }) := by
  rw [writeDesc, descMemory, if_neg hb, if_neg hb, writeWords_errorAt_reached _ _ h hj]

/-! ## Status writes (R158, R159) -/

/-- The mark of a due status write taken away. -/
def notDue (c : Channel) : Channel := { c with statusDue := false }

theorem statusWords_length (c : Channel) : (statusWords c).length = 6 := rfl

/-- Memory after a status write of channel `n`. -/
def statusMemory (n : Fin 32) (s : State) : Memory := descMemory n 128#32 (statusWords (s.chan n)) s

theorem statusMemory_wf (h : MemLegal s) : (statusMemory n s).wf := descMemory_wf _ _ _ h

theorem memRead_statusMemory (h : MemLegal s) (x : Nat) (hx : Outside (s.desc n.val + 128#32) 24 x) :
    memRead (statusMemory n s) x = memRead s.mem x := memRead_descMemory _ _ _ h x hx

theorem memWord_statusMemory (h : MemLegal s) (hb : s.tableBase ≠ 0#24) (i : Nat) (hi : i < 6) :
    memWord (statusMemory n s) (s.desc n.val + 128#32 + BitVec.ofNat 32 (4 * i)) =
      (statusWords (s.chan n)).getD i 0#32 :=
  memWord_descMemory _ _ _ h hb (by rw [statusWords_length]; omega) i hi

/-- A status write under a quiet script. -/
theorem statusWrite_quiet (h : Quiet s.bus) : ∃ b, (s.bus = [] → b = []) ∧ statusWrite n s =
    (true, { s.modChan n notDue with mem := statusMemory n s, bus := b }) := by
  obtain ⟨b, hb, e⟩ := writeDesc_quiet n 128#32 (statusWords (s.chan n)) h
  refine ⟨b, hb, ?_⟩
  rw [statusWrite, e]
  rfl

theorem statusWrite_idle (h : s.bus = []) : statusWrite n s =
    (true, { s.modChan n notDue with mem := statusMemory n s }) := by
  rw [statusWrite, writeDesc_idle _ _ _ h]
  rfl

/-- A status write that meets the error at its word `k` (R160). -/
theorem statusWrite_errorAt_reached {k : Nat} (h : s.bus = ErrorAt k) (hb : s.tableBase ≠ 0#24)
    (hk : k < 6) : statusWrite n s = (false, tableFault
      { s.modChan n notDue with
        mem := descMemory n 128#32 ((statusWords (s.chan n)).take k) s, bus := [] }) := by
  rw [statusWrite, writeDesc_errorAt_reached _ _ _ h hb (by rwa [statusWords_length])]
  rfl

/-- A status write whose error comes later. -/
theorem statusWrite_errorAt_before {k : Nat} (h : s.bus = ErrorAt k) (hb : s.tableBase ≠ 0#24)
    (hk : 6 ≤ k) : statusWrite n s =
      (true, { s.modChan n notDue with mem := statusMemory n s, bus := ErrorAt (k - 6) }) := by
  rw [statusWrite, writeDesc_errorAt_before _ _ _ h hb (by rwa [statusWords_length])]
  rfl

/-- A status write that meets an error, in the words of R159 and R160. -/
theorem statusWrite_faulted {k : Nat} (h : s.bus = ErrorAt k) (hb : s.tableBase ≠ 0#24) (hk : k < 6)
    (hw : MemLegal s) : StatusFaulted n k { s with bus := [] } (statusWrite n s).2 := by
  rw [statusWrite_errorAt_reached h hb hk]
  have len : ((statusWords (s.chan n)).take k).length = k := by
    rw [List.length_take, statusWords_length]; omega
  refine ⟨rfl, modChan_chan_self .., fun j hj => modChan_chan_ne _ _ _ _ hj, fun i hi => ?_, fun x hx => ?_⟩
  · refine (memWord_descMemory _ _ _ hw hb (by rw [len]; omega) i (by rw [len]; exact hi)).trans ?_
    simp only [List.getD_eq_getElem?_getD, List.getElem?_take_of_lt hi]
    rfl
  · exact memRead_descMemory _ _ _ hw x (by rw [len]; exact hx)

/-! ## Entry to FAULT (R38) -/

/-- The entry to FAULT under a quiet script. -/
theorem enterFault_quiet (h : Quiet s.bus) (hw : MemLegal s) :
    ∃ b, (s.bus = [] → b = []) ∧ FaultEntered n { s with bus := b } (enterFault n s) := by
  obtain ⟨b, hb, e⟩ := statusWrite_quiet (n := n) (s := faultEffects n s) h
  refine ⟨b, hb, ?_⟩
  have chan := enterFault_chan (n := n) (s := s)
  have others := (enterFault_lineOp (n := n) (s := s)).op.others
  have form : enterFault n s = _ := congrArg Prod.snd e
  have words : statusWords ((enterFault n s).chan n) = statusWords ((faultEffects n s).chan n) := by
    rw [chan, faultEffects_chan]
    rfl
  refine ⟨by rw [form]; rfl, chan, others, fun hbase => ?_, fun x hx => ?_⟩
  · intro i hi
    rw [words, form]
    exact memWord_statusMemory (s := faultEffects n s) hw hbase i hi
  · rw [form]
    exact memRead_statusMemory (s := faultEffects n s) hw x hx

theorem enterFault_idle (h : s.bus = []) (hw : MemLegal s) : FaultEntered n s (enterFault n s) := by
  obtain ⟨b, hb, e⟩ := enterFault_quiet (n := n) (s := s) (h ▸ quiet_nil) hw
  rwa [hb h, ← h] at e

end Sys2Proof.Machine
end

