-- ==== Sys2Proof/Proofs/TakeFaults.lean ====
section
/-! Proofs about a bus error at an access of a take, or at the reference read of a close (R38, R93, R103). -/

namespace Sys2Proof.Machine

variable {n : Fin 32} {s : State}

/-! ## The first access of a take -/

/-- A take whose first access meets an error enters FAULT (R103). -/
theorem take_error {rest : Bus} (h : s.bus = ⟨[], true⟩ :: rest) :
    take n s = enterFault n { s with bus := rest } := by
  unfold take
  split
  · unfold lookAtRecord
    dsimp only
    rw [readWord_error _ h]
  · unfold followLink
    rw [readWord_error _ h]

/-! ## The accesses of a look at a record, one error among them -/

/-- The record at `a` is POSTED and no other channel's record in flight (R89, R173). -/
def Takeable (s : State) (n : Fin 32) (a : Word) : Prop :=
  memWord s.mem a = 1#32 ∧ ∀ j f, j ≠ n → (s.chan j).walk.inflight = some f → f.addr ≠ a

theorem heldByOther_eq_false {a : Word}
    (h : ∀ j f, j ≠ n → (s.chan j).walk.inflight = some f → f.addr ≠ a) : heldByOther s n a = false := by
  unfold heldByOther
  rw [List.any_eq_false]
  intro j _
  by_cases hj : j = n
  · simp [hj]
  · cases hf : (s.chan j).walk.inflight with
    | none => simp
    | some f => simp [h j f hj hf]

/-- The control word's declared length is that of a well-formed record with its flags (R83, R84). -/
def Fits (ctl : Word) : Prop := (ctl.extractLsb' 0 8).toNat =
  52 + (if ctl.getLsbD 8 then 20 else 0) + (if ctl.getLsbD 9 then 20 else 0)

theorem fits_iff (ctl : Word) : Fits ctl ↔ (decodeControl ctl).declLen =
    recordLength (decodeControl ctl).refPresent (decodeControl ctl).residWanted := by
  have flags : ∀ b : Bool, 20 * bitNat b = if b then 20 else 0 := by decide
  simp only [Fits, recordLength, flags]
  rfl

/-- A look at a takeable record whose control word read meets the error. -/
theorem lookAtRecord_control_error (h : s.bus = ErrorAt 1)
    (ht : Takeable s n (s.chan n).walk.cursor) : lookAtRecord n s = enterFault n { s with bus := [] } := by
  obtain ⟨posted, free⟩ := ht
  have read := readWord_errorAt_succ (s := s) (s.chan n).walk.cursor h
  have ctl := readWord_errorAt_zero (s := { s with bus := ErrorAt 0 }) ((s.chan n).walk.cursor + 8#32) rfl
  have held : heldByOther { s with bus := ErrorAt 0 } n (s.chan n).walk.cursor = false :=
    heldByOther_eq_false free
  unfold lookAtRecord
  simp only [read, posted, held, ctl]
  rfl

/-- A look at a takeable record whose two reads come before the error: a take or a refusal. -/
theorem lookAtRecord_errorAt {k : Nat} (h : s.bus = ErrorAt (k + 2))
    (ht : Takeable s n (s.chan n).walk.cursor) {ctl : Word}
    (hc : ctl = memWord s.mem ((s.chan n).walk.cursor + 8#32)) :
    (Fits ctl → lookAtRecord n s =
      takeRecord n (s.chan n).walk.cursor (decodeControl ctl) { s with bus := ErrorAt k }) ∧
    (¬ Fits ctl → lookAtRecord n s =
      refuseRecord n (s.chan n).walk.cursor (decodeControl ctl) { s with bus := ErrorAt k }) := by
  obtain ⟨posted, free⟩ := ht
  have read := readWord_errorAt_succ (s := s) (s.chan n).walk.cursor h
  have control := readWord_errorAt_succ (s := { s with bus := ErrorAt (k + 1) })
    ((s.chan n).walk.cursor + 8#32) rfl
  have held : heldByOther { s with bus := ErrorAt (k + 1) } n (s.chan n).walk.cursor = false :=
    heldByOther_eq_false free
  have form : lookAtRecord n s = if (decodeControl ctl).declLen =
      recordLength (decodeControl ctl).refPresent (decodeControl ctl).residWanted then
        takeRecord n (s.chan n).walk.cursor (decodeControl ctl) { s with bus := ErrorAt k }
      else refuseRecord n (s.chan n).walk.cursor (decodeControl ctl) { s with bus := ErrorAt k } := by
    unfold lookAtRecord
    simp only [read, posted, held, control, hc]
    rfl
  rw [form]
  exact ⟨fun hf => if_pos ((fits_iff ctl).1 hf), fun hf => if_neg (mt (fits_iff ctl).2 hf)⟩

/-- A record not marked TAKEN for a bus error is not taken (R92, R103). -/
theorem takeRecord_mark_error {a : Word} {k : Control} (h : s.bus = ErrorAt 0) :
    takeRecord n a k s = enterFault n { s with bus := [] } := by
  unfold takeRecord
  rw [writeWord_errorAt_zero _ _ h]

/-- A transmit sample that is not read: the record is TAKEN, and the channel enters FAULT (R92, R103). -/
theorem takeRecord_sample_error {a : Word} {c : Control} {k : Nat} (h : s.bus = ErrorAt (k + 1))
    (hk : k < 20) : takeRecord n a c s =
      enterFault n { s with mem := memSetWord s.mem a dispTaken, bus := [] } := by
  have samples := readWords_errorAt_reached 20 (a + 16#32)
    (s := { s with mem := memSetWord s.mem a dispTaken, bus := ErrorAt k }) rfl hk
  unfold takeRecord
  simp only [writeWord_errorAt_succ _ _ h, samples]

theorem refuseRecord_mark_error {a : Word} {k : Control} (h : s.bus = ErrorAt 0) :
    refuseRecord n a k s = enterFault n { s with bus := [] } := by
  unfold refuseRecord
  rw [writeWord_errorAt_zero _ _ h]

/-- The link of a refused record is not read: the record is REFUSED, the channel enters FAULT, and NOTIFY
still raises BLOCK_DONE (R91, R95, R103). -/
theorem refuseRecord_link_error {a : Word} {k : Control} (h : s.bus = ErrorAt 1) :
    refuseRecord n a k s = notifyDone n k.notify
      (enterFault n { s with mem := memSetWord s.mem a dispRefused, bus := [] }) := by
  have link := readWord_errorAt_zero (s := { s with mem := memSetWord s.mem a dispRefused, bus := ErrorAt 0 })
    (a + 4#32) rfl
  unfold refuseRecord
  simp only [writeWord_errorAt_succ _ _ h, followLink, link]

/-- A watched record whose link leads on: the take goes on at the next record (R88, R89). -/
theorem take_moves_on {k : Nat} {link : Word} (hm : (s.chan n).walk.mode = .watching)
    (h : s.bus = ErrorAt (k + 1)) (hl : link = memWord s.mem ((s.chan n).walk.cursor + 4#32))
    (h0 : link ≠ 0#32) (ha : link.toNat % 4 = 0) :
    take n s = take n ({ s with bus := ErrorAt k }.modChan n fun c =>
      { c with walk := { c.walk with cursor := link, mode := .atRecord } }) := by
  have low : link.extractLsb' 0 2 = 0#2 := by
    apply BitVec.eq_of_toNat_eq
    simpa [BitVec.extractLsb'_toNat] using ha
  have step : linkStep link = .moveTo link := by simp [linkStep, h0, aligned, low]
  have moved : ({ s with bus := ErrorAt k }.modChan n fun c =>
      { c with walk := { c.walk with cursor := link, mode := .atRecord } }).chan n =
      { s.chan n with walk := { (s.chan n).walk with cursor := link, mode := .atRecord } } :=
    modChan_chan_self ..
  unfold take
  simp only [hm, followLink, readWord_errorAt_succ _ h, ← hl, step, moved]

/-! ## The reference read of a close -/

/-- A reference read that meets an error moves the channel to FAULT, the stuck run of stage 3 standing
(R9, R18, R93, R103). -/
theorem boundary_reference_error {f : InFlight} {k : Nat} (hr : running (s.chan n) = true)
    (hb : (s.chan n).line.inBlock = true) (hf : (s.chan n).walk.inflight = some f)
    (ho : refOutcome (s.chan n) (measure (s.chan n)) f.refPresent = .used) (hk : k < 20)
    (h : s.bus = ErrorAt k) : boundary n s = enterFault n ({ s with bus := [] }.modChan n fun c =>
      { c with hist := { c.hist with stuckRun := (measure (s.chan n)).stuckRun } }) := by
  have open_ : (measure (s.chan n)).stuckRun ≠ 200 :=
    ((referenceOutcomeFirstRow _ _ _).2.2.2.2.2.2.1.1 ho).2.2.2.2.1
  have quiet : raiseIf ((s.chan n).hist.stuckRun == 199 && (measure (s.chan n)).stuckRun == 200)
      (chanSource n) .stuck s = s := by simp [raiseIf, open_]
  have reference := readWords_errorAt_reached 20 (f.addr + refOffset) h hk
  have close : closeBlock n s = enterFault n ({ s with bus := [] }.modChan n fun c =>
      { c with hist := { c.hist with stuckRun := (measure (s.chan n)).stuckRun } }) := by
    unfold closeBlock
    dsimp only
    rw [quiet, hf]
    dsimp only
    rw [ho]
    dsimp only
    rw [reference]
  unfold boundary
  rw [if_pos hr, if_pos hb, close]
  generalize ({ s with bus := [] }.modChan n fun c =>
      { c with hist := { c.hist with stuckRun := (measure (s.chan n)).stuckRun } }) = u
  rw [modChan_eq_self (by rw [enterFault_chan]; rfl)]
  dsimp only
  rw [enterFault_chan]
  rfl

/-- Settles O23: each access in turn, by the lemma that says what its error does. -/
theorem busErrorAtTakeFaults : Obligations.BusErrorAtTakeFaults := by
  refine ⟨fun n s rest hbus herr hhost hw => ⟨_, rfl, ?_⟩, ?_, ?_⟩
  · have quiet : Quiet rest := fun slot hs => by
      obtain ⟨host, err⟩ := slot
      rw [show host = [] from hhost _ hs, show err = false from herr _ hs]
    obtain ⟨b, -, form, chan, others, -, frame⟩ :=
      enterFault_quiet (n := n) (s := { s with bus := rest }) quiet hw
    rw [take_error hbus]
    refine ⟨by rw [chan]; rfl, by rw [chan]; rfl, by rw [chan]; rfl, by rw [chan]; rfl, by rw [chan]; rfl,
      by rw [chan]; rfl, by rw [chan]; rfl, congrArg State.pool form,
      congrArg State.attn form, others, frame⟩
  · rintro n s _ k _ link ctl posted fits hw hbus rfl rfl hl hc hp hfits
    have fault : ∀ u : State, MemLegal u → u.bus = [] → FaultEntered n u (enterFault n u) :=
      fun u hu hb => enterFault_idle hb hu
    refine ⟨?_, fun hm hk h0 ha => ?_, fun hm hpost => ?_⟩
    · rintro rfl
      rw [take_error (rest := []) hbus]
      exact fault _ hw rfl
    · obtain ⟨k, rfl⟩ : ∃ j, k = j + 1 := ⟨k - 1, by omega⟩
      exact take_moves_on hm hbus hl h0 ha
    · have look : take n s = lookAtRecord n s := by rw [take, hm]
      have ht : Takeable s n (s.chan n).walk.cursor := hp.1 hpost
      have same : fits ↔ Fits ctl := hfits
      rw [look]
      refine ⟨?_, ?_, ?_, fun h3 h23 hf => ?_⟩
      · rintro rfl
        rw [lookAtRecord_control_error hbus ht]
        exact fault _ hw rfl
      · rintro rfl
        obtain ⟨taken, refused⟩ := lookAtRecord_errorAt hbus ht hc
        by_cases hf : Fits ctl
        · rw [taken hf, takeRecord_mark_error rfl]
          exact fault _ hw rfl
        · rw [refused hf, refuseRecord_mark_error rfl]
          exact fault _ hw rfl
      · rintro rfl hf
        rw [(lookAtRecord_errorAt hbus ht hc).2 (mt same.2 hf), refuseRecord_link_error rfl]
        refine ⟨{ s with mem := memSetWord s.mem (s.chan n).walk.cursor dispRefused, bus := [] }, _, rfl,
          memWord_memSetWord _ _ hw, fun x hx => memRead_memWriteBytes_ne _ _ hw x hx,
          fault _ (memSetWord_wf _ _ hw) rfl, ?_⟩
        cases hn : ctl.getLsbD 10
        · rw [show (decodeControl ctl).notify = false from hn]
          rfl
        · rw [show (decodeControl ctl).notify = true from hn]
          rfl
      · obtain ⟨k, rfl⟩ : ∃ j, k = j + 1 + 2 := ⟨k - 3, by omega⟩
        rw [(lookAtRecord_errorAt hbus ht hc).1 (same.1 hf), takeRecord_sample_error rfl (by omega)]
        exact ⟨{ s with mem := memSetWord s.mem (s.chan n).walk.cursor dispTaken, bus := [] }, rfl,
          memWord_memSetWord _ _ hw, fun x hx => memRead_memWriteBytes_ne _ _ hw x hx,
          fault _ (memSetWord_wf _ _ hw) rfl⟩
  · rintro n s c m f k hw rfl hr hb rfl hf ho hk hbus
    rw [boundary_reference_error hr hb hf ho hk hbus]
    exact enterFault_idle rfl hw

end Sys2Proof.Machine
end

