-- ==== Sys2Proof/Proofs/Requests.lean ====
section
/-! Proofs about the requests of a line channel that are answered at a visit, and their table faults
(R36, R37, R155, R156, R160). -/

namespace Sys2Proof.Machine

variable {n : Fin 32} {s : State}

/-! ## Bytes and words of a descriptor -/

/-- A part of a run of bytes is left where the run is left. -/
theorem outside_part {a : Word} {len x : Nat} (h : Outside a len x) {o l : Nat} (ho : o + l ≤ len) :
    Outside (a + BitVec.ofNat 32 o) l x := fun k hk => by
  rw [add_ofNat_ofNat]
  exact h (o + k) (by omega)

theorem memWord_congr {m m' : Memory} {a : Word}
    (h : ∀ k < 4, memRead m (a + BitVec.ofNat 32 k).toNat = memRead m' (a + BitVec.ofNat 32 k).toNat) :
    memWord m a = memWord m' a := by
  have h0 : memRead m a.toNat = memRead m' a.toNat := by
    simpa only [BitVec.add_zero] using h 0 (by omega)
  unfold memWord
  rw [h0, h 1 (by omega), h 2 (by omega), h 3 (by omega)]

/-- A word of a descriptor that a write into it does not touch. -/
theorem memWord_descMemory_apart (k : Nat) {offset len : Nat} (ws : List Word) (h : MemLegal s)
    (hlen : ws.length = len) (b : Nat) (hoffset : offset + 4 * len ≤ 2 ^ 32) (hb : b + 4 ≤ 2 ^ 32)
    (hne : b + 4 ≤ offset ∨ offset + 4 * len ≤ b) :
    memWord (descMemory k (BitVec.ofNat 32 offset) ws s) (s.desc k + BitVec.ofNat 32 b) =
      memWord s.mem (s.desc k + BitVec.ofNat 32 b) := by
  subst hlen
  unfold descMemory
  split
  · rfl
  · exact memWord_memSetWords_apart _ _ _ h (apart_offsets _ hb hoffset hne)

/-- A single word written into a descriptor reads back. -/
theorem memWord_descMemory_single (k : Nat) (offset w : Word) (h : MemLegal s) (hb : s.tableBase ≠ 0#24) :
    memWord (descMemory k offset [w] s) (s.desc k + offset) = w := by
  have := memWord_descMemory k offset [w] h hb (by simp) 0 (by simp)
  simpa using this

theorem desc_zero (k : Nat) : s.desc k + 0#32 = s.desc k := BitVec.add_zero _

/-- The lowest byte of a packed word. -/
theorem pack4_low (b0 b1 b2 b3 : Nat) : (pack4 b0 b1 b2 b3).extractLsb' 0 8 = BitVec.ofNat 8 b0 := by
  apply BitVec.eq_of_getLsbD_eq
  intro i hi
  simp only [pack4, wordOfBytes, BitVec.getLsbD_extractLsb', BitVec.getLsbD_append, Nat.zero_add, hi,
    show i < 16 by omega, decide_true, Bool.true_and, if_true]

/-! ## Answers (R155, R160) -/

/-- Memory after the response has been written. -/
def responseMemory (d : Nat) (r : Response) (s : State) : Memory := descMemory d 4#32 [r.word] s

/-- Memory after the response and NONE have been written. -/
def answerMemory (d : Nat) (r : Response) (s : State) : Memory :=
  descMemory d 0#32 [0#32] { s with mem := responseMemory d r s }

theorem responseMemory_wf (d : Nat) (r : Response) (h : MemLegal s) :
    MemLegal { s with mem := responseMemory d r s } := descMemory_wf _ _ _ h

/-- An answer that meets no error (R155). -/
theorem answer_idle (d : Fin 33) (src : Fin 34) (r : Response) (h : s.bus = []) : answer d src r s =
    { s with mem := answerMemory d.val r s, attn := attnRaise src .requestDone s.attn } := by
  have response := writeDesc_idle d.val 4#32 [r.word] h
  have none_ := writeDesc_idle (s := { s with mem := responseMemory d.val r s }) d.val 0#32 [0#32] h
  unfold answer
  rw [response]
  dsimp only
  rw [show descMemory d.val 4#32 [r.word] s = responseMemory d.val r s from rfl, none_]
  rfl

/-- The request word of an answered request is NONE (R155). -/
theorem answerMemory_request (d : Nat) (r : Response) (h : MemLegal s) (hb : s.tableBase ≠ 0#24) :
    memWord (answerMemory d r s) (s.desc d) = 0#32 := by
  have := memWord_descMemory_single d 0#32 0#32 (responseMemory_wf d r h) hb
  rwa [desc_zero] at this

/-- Any other word of the descriptor is as the response left it. -/
theorem answerMemory_other (d : Nat) (r : Response) (h : MemLegal s) (b : Nat) (h4 : 4 ≤ b)
    (hb : b + 4 ≤ 2 ^ 32) : memWord (answerMemory d r s) (s.desc d + BitVec.ofNat 32 b) =
      memWord (responseMemory d r s) (s.desc d + BitVec.ofNat 32 b) :=
  memWord_descMemory_apart d (offset := 0) (len := 1) [0#32] (responseMemory_wf d r h) rfl b (by omega) hb
    (.inr (by omega))

theorem answerMemory_response (d : Nat) (r : Response) (h : MemLegal s) (hb : s.tableBase ≠ 0#24) :
    memWord (answerMemory d r s) (s.desc d + 4#32) = r.word :=
  (answerMemory_other d r h 4 (by omega) (by omega)).trans (memWord_descMemory_single d 4#32 _ h hb)

/-- The status area is not touched by an answer. -/
theorem answerMemory_status (d : Nat) (r : Response) (h : MemLegal s) :
    memWord (answerMemory d r s) (s.desc d + 128#32) = memWord s.mem (s.desc d + 128#32) :=
  (answerMemory_other d r h 128 (by omega) (by omega)).trans
    (memWord_descMemory_apart d (offset := 4) (len := 1) [r.word] h rfl 128 (by omega) (by omega) (.inr (by omega)))

/-- An answer writes the request and response words alone (R155). -/
theorem memRead_answerMemory (d : Nat) (r : Response) (h : MemLegal s) (x : Nat)
    (hx : Outside (s.desc d) 8 x) : memRead (answerMemory d r s) x = memRead s.mem x := by
  have request : Outside (s.desc d + 0#32) 4 x := outside_part hx (o := 0) (by omega)
  have response : Outside (s.desc d + 4#32) 4 x := outside_part hx (o := 4) (by omega)
  exact (memRead_descMemory d _ _ (responseMemory_wf d r h) x request).trans
    (memRead_descMemory d _ _ h x response)

/-- An answer whose response or NONE meets the error (R160). -/
theorem answer_faulted (d : Fin 33) (src : Fin 34) (r : Response) {j : Nat} (h : s.bus = ErrorAt j)
    (hj : j < 2) (hw : MemLegal s) (hb : s.tableBase ≠ 0#24) :
    AnswerFaulted d.val [] r.word j { s with bus := [] } (answer d src r s) := by
  obtain rfl | rfl : j = 0 ∨ j = 1 := by omega
  · have form : answer d src r s =
        { s with bus := [], attn := attnRaise partSource .tableFault s.attn } := by
      unfold answer
      rw [writeDesc_errorAt_reached _ _ _ h hb (by simp)]
      simp [descMemory, memSetWords, tableFault, raise]
    rw [form]
    exact ⟨rfl, fun i hi => absurd hi (by simp), fun hj => absurd hj (by simp), rfl, fun _ _ _ => rfl⟩
  · have none_ := writeDesc_errorAt_reached (s := { s with mem := responseMemory d.val r s, bus := ErrorAt 0 })
      d.val 0#32 [0#32] rfl hb (by simp)
    have form : answer d src r s = { s with
        mem := responseMemory d.val r s, bus := [],
        attn := attnRaise partSource .tableFault s.attn } := by
      unfold answer
      rw [writeDesc_errorAt_before _ _ _ h hb (by simp)]
      dsimp only
      rw [show descMemory d.val 4#32 [r.word] s = responseMemory d.val r s from rfl,
        show (1 - [r.word].length) = 0 from rfl, none_]
      simp [descMemory, memSetWords, tableFault, raise]
    rw [form]
    refine ⟨rfl, fun i hi => absurd hi (by simp), fun _ => memWord_descMemory_single _ _ _ hw hb, ?_,
      fun x _ hx => memRead_descMemory _ _ _ hw x (hx (by simp))⟩
    have := memWord_descMemory_apart d.val (offset := 4) (len := 1) [r.word] hw rfl 0 (by omega) (by omega)
      (.inl (by omega))
    rwa [desc_zero] at this

/-- A status write and the answer behind it, the error at their write `j` (R160). -/
theorem answerAfter_faulted (r : Response) {j : Nat} (h : s.bus = ErrorAt j) (hj : j < 8) (hw : MemLegal s)
    (hb : s.tableBase ≠ 0#24) : AnswerFaulted n.val (statusWords (s.chan n)) r.word j
      ({ s with bus := [] }.modChan n notDue)
      (answerAfter (chanDesc n) (chanSource n) r (statusWrite n s)) := by
  rcases Nat.lt_or_ge j 6 with h6 | h6
  · have len : min j (statusWords (s.chan n)).length = j := by rw [statusWords_length]; omega
    obtain ⟨form, -, -, shown, frame⟩ := statusWrite_faulted (n := n) h hb h6 hw
    rw [statusWrite_errorAt_reached h hb h6] at form shown frame ⊢
    refine ⟨rfl, fun i hi => shown i (len ▸ hi), fun hlt => absurd hlt (by rw [statusWords_length]; omega),
      memWord_congr fun k hk => frame _ ?_, fun x hx _ => frame x (len ▸ hx)⟩
    have apart := apart_offsets (s.desc n.val) (a := 0) (la := 4) (b := 128) (lb := 4 * j) (by omega) (by omega)
      (.inl (by omega))
    rw [desc_zero] at apart
    exact apart k hk
  · obtain ⟨i, rfl⟩ : ∃ i, j = i + 6 := ⟨j - 6, by omega⟩
    have len : min (i + 6) (statusWords (s.chan n)).length = 6 := by rw [statusWords_length]; omega
    rw [statusWrite_errorAt_before h hb h6, Nat.add_sub_cancel]
    obtain ⟨form, -, response, request, frame⟩ := answer_faulted (chanDesc n) (chanSource n) r
      (s := { s.modChan n notDue with mem := statusMemory n s, bus := ErrorAt i }) rfl (by omega)
      (statusMemory_wf hw) hb
    have kept : ∀ b, 8 ≤ b → b + 4 ≤ 2 ^ 32 → memWord (answer (chanDesc n) (chanSource n) r
        { s.modChan n notDue with mem := statusMemory n s, bus := ErrorAt i }).mem
          (s.desc n.val + BitVec.ofNat 32 b) =
        memWord (statusMemory n s) (s.desc n.val + BitVec.ofNat 32 b) := fun b h8 hb =>
      memWord_congr fun k hk => frame _ (fun _ h0 => absurd h0 (by simp)) fun _ =>
        apart_offsets (s.desc n.val) (b := 4) (lb := 4) hb (by omega) (.inr h8) k hk
    refine ⟨form, fun k hk => ?_, fun hlt => response (by rw [statusWords_length] at hlt; simp; omega), ?_,
      fun x hx hr => ?_⟩
    · rw [len] at hk
      have offset : s.desc n.val + 128#32 + BitVec.ofNat 32 (4 * k) =
          s.desc n.val + BitVec.ofNat 32 (128 + 4 * k) := add_ofNat_ofNat ..
      refine (congrArg _ offset).trans ((kept _ (by omega) (by omega)).trans ?_)
      rw [← offset]
      exact memWord_statusMemory hw hb k hk
    · refine request.trans ?_
      have := memWord_descMemory_apart n.val (offset := 128) (len := 6) (statusWords (s.chan n)) hw
        (statusWords_length _) 0 (by omega) (by omega) (.inl (by omega))
      rwa [desc_zero] at this
    · refine (frame x (fun _ h0 => absurd h0 (by simp)) fun h0 => hr ?_).trans ?_
      · rw [statusWords_length]; simp at h0; omega
      · exact memRead_statusMemory hw x (by rwa [len] at hx)

/-! ## The words of an OPEN (R153 to R155) -/

/-- The program length that the descriptor holds. -/
def openLength (n : Fin 32) (s : State) : Nat :=
  ((memWord s.mem (s.desc n.val + 40#32)).extractLsb' 0 8).toNat

/-- The number of words that an OPEN reads. -/
def openReads (n : Fin 32) (s : State) : Nat :=
  9 + if 1 ≤ openLength n s ∧ openLength n s ≤ 8 then 2 * openLength n s else 0

theorem decodeOpen_progLen :
    (decodeOpen (memWords 9 (s.desc n.val + 8#32) s.mem)).progLen = openLength n s := by
  rw [memWords_eq_map, openLength, show s.desc n.val + 40#32 =
    s.desc n.val + 8#32 + BitVec.ofNat 32 (4 * 8) from (add_ofNat_ofNat _ 8 (4 * 8)).symm]
  rfl

theorem openLength_out (k : Nat) : (k == 0 || decide (8 < k)) = true ↔ ¬ (1 ≤ k ∧ k ≤ 8) := by
  simp only [Bool.or_eq_true, beq_iff_eq, decide_eq_true_eq]
  omega

/-- The words of an OPEN read without an error (R155). -/
theorem readOpen_idle (h : s.bus = []) : ∃ r phases, readOpen n s = (some (r, phases), s) := by
  unfold readOpen
  rw [readWords_nil _ _ h]
  dsimp only
  split
  · exact ⟨_, _, rfl⟩
  · rw [readWords_nil _ _ h]
    exact ⟨_, _, rfl⟩

/-- The words of an OPEN read before the error. -/
theorem readOpen_errorAt_before {j : Nat} (h : s.bus = ErrorAt j) (hj : openReads n s ≤ j) :
    ∃ r phases, readOpen n s = (some (r, phases), { s with bus := ErrorAt (j - openReads n s) }) := by
  have progLen := decodeOpen_progLen (n := n) (s := s)
  unfold openReads at hj ⊢
  unfold readOpen
  rw [readWords_errorAt_before 9 _ h (by omega)]
  dsimp only
  by_cases hl : 1 ≤ openLength n s ∧ openLength n s ≤ 8
  · rw [if_pos hl] at hj
    rw [if_neg (by rw [progLen, openLength_out]; exact not_not.2 hl), progLen,
      readWords_errorAt_before (s := { s with bus := ErrorAt (j - 9) }) _ _ rfl (by omega), if_pos hl]
    exact ⟨_, _, by rw [Nat.sub_sub]⟩
  · rw [if_pos (by rw [progLen, openLength_out]; exact hl), if_neg hl]
    exact ⟨_, _, rfl⟩

/-- The words of an OPEN, one of which meets the error (R160). -/
theorem readOpen_errorAt_reached {j : Nat} (h : s.bus = ErrorAt j) (hj : j < openReads n s) :
    readOpen n s = (none, { s with bus := [] }) := by
  have progLen := decodeOpen_progLen (n := n) (s := s)
  unfold openReads at hj
  unfold readOpen
  rcases Nat.lt_or_ge j 9 with h9 | h9
  · rw [readWords_errorAt_reached 9 _ h h9]
  · have hl : 1 ≤ openLength n s ∧ openLength n s ≤ 8 := by
      by_contra hl
      rw [if_neg hl] at hj
      omega
    rw [if_pos hl] at hj
    rw [readWords_errorAt_before 9 _ h h9]
    dsimp only
    rw [if_neg (by rw [progLen, openLength_out]; exact not_not.2 hl), progLen,
      readWords_errorAt_reached (s := { s with bus := ErrorAt (j - 9) }) _ _ rfl (by omega)]

/-- An OPEN of a channel that is not CLOSED is refused with NOT_CLOSED (R30). -/
theorem serveOpen_notClosed {r : OpenReq} {phases : List Phase} {t : State}
    (hread : readOpen n s = (some (r, phases), t)) (hs : (t.chan n).state ≠ .closed) :
    serveOpen n s = answer (chanDesc n) (chanSource n) respNotClosed t := by
  have refused : openRefusal ((t.chan n).state == .closed) t.port.activeFmt.slots.toNat
      (slotTaken t n r.timeslot) r phases = some respNotClosed := by
    rw [beq_eq_false_iff_ne.2 hs]
    rfl
  unfold serveOpen
  rw [hread]
  dsimp only
  rw [refused]

/-! ## A CLOSE that completes no record and saves nothing (R36, R37) -/

/-- The part as a CLOSE leaves it before its status write and answer. -/
def closedState (n : Fin 32) (s : State) : State :=
  if (s.chan n).state = .fault then s.modChan n (leaveRunning .closed) else closeChan n s

/-- No save is due at a CLOSE (R36). -/
def SavesNothing (c : Channel) : Prop := c.saveProfile = false ∨ c.routeTag = 0#32 ∨ c.state = .training

theorem saveAtClose_nothing (h : SavesNothing (s.chan n)) : saveAtClose n s = s := by
  unfold saveAtClose
  refine if_neg ?_
  rintro ⟨hs, ht, hk⟩
  rcases h with h | h | h
  · exact absurd (h.symm.trans hs) (by decide)
  · exact ht h
  · simp [tracks, h] at hk

theorem serveClose_quiet (hc : (s.chan n).state ≠ .closed)
    (h : (s.chan n).state = .fault ∨ (s.chan n).walk.inflight = none ∧ SavesNothing (s.chan n)) :
    serveClose n s = answerAfter (chanDesc n) (chanSource n) respClosed
      (statusWrite n (closedState n s)) := by
  by_cases hf : (s.chan n).state = .fault
  · rw [closedState, if_pos hf, serveClose, hf]
  · obtain ⟨hi, hs⟩ := h.resolve_left hf
    have complete : completeClosed n s = (true, s) := by rw [completeClosed, hi]
    rw [closedState, if_neg hf]
    unfold serveClose
    split
    · contradiction
    · contradiction
    all_goals
      rw [complete]
      dsimp only
      rw [saveAtClose_nothing hs]

theorem closedState_chan : ∃ l p, (closedState n s).chan n =
    leaveRunning .closed { s.chan n with segs := l, poolHist := p } ∧
    ((s.chan n).state ≠ .fault → l = [] ∧ (closedState n s).pool = s.pool ++ (s.chan n).segs.reverse) := by
  unfold closedState
  split
  · rename_i hf
    exact ⟨_, _, modChan_chan_self .., fun h => absurd hf h⟩
  · exact ⟨[], [], by rw [closeChan, modChan_chan_self, releaseAll_chan_self], fun _ => ⟨rfl, rfl⟩⟩

theorem closedState_frame : (closedState n s).mem = s.mem ∧ (closedState n s).bus = s.bus ∧
    (closedState n s).attn = s.attn ∧ (closedState n s).store = s.store ∧
    (closedState n s).port = s.port ∧ (closedState n s).tableBase = s.tableBase := by
  unfold closedState
  split <;> exact ⟨rfl, rfl, rfl, rfl, rfl, rfl⟩

/-- The answer behind a status write, no access meeting an error. -/
theorem answerAfter_idle (r : Response) (h : s.bus = []) :
    answerAfter (chanDesc n) (chanSource n) r (statusWrite n s) =
      { s.modChan n notDue with
        mem := answerMemory n.val r { s.modChan n notDue with mem := statusMemory n s }
        attn := attnRaise (chanSource n) .requestDone s.attn } := by
  rw [statusWrite_idle h, answerAfter, if_pos rfl,
    answer_idle (s := { s.modChan n notDue with mem := statusMemory n s }) _ _ _ h]
  rfl

/-! ## A descriptor served (R155) -/

/-- The code that the request word of a descriptor holds. -/
def requestCode (n : Fin 32) (s : State) : Nat := ((memWord s.mem (s.desc n.val)).extractLsb' 0 8).toNat

/-- A request by its code, the request word read without an error. -/
theorem serveChannel_by_code {t : State}
    (h : readWord (s.desc n.val) s = (some (memWord s.mem (s.desc n.val)), t)) :
    (requestCode n s = 0 → serveChannel s n = t) ∧ (requestCode n s = 1 → serveChannel s n = serveOpen n t) ∧
    (requestCode n s = 2 → serveChannel s n = serveClose n t) ∧
    (3 ≤ requestCode n s → serveChannel s n =
      answer (chanDesc n) (chanSource n) (respBadRequest (requestCode n s)) t) := by
  have code : field (memWord s.mem (s.desc n.val)) 0 8 = requestCode n s := rfl
  unfold serveChannel
  rw [h]
  dsimp only
  rw [code]
  generalize requestCode n s = k
  refine ⟨?_, ?_, ?_, fun h3 => ?_⟩
  · rintro rfl
    rfl
  · rintro rfl
    rfl
  · rintro rfl
    rfl
  · obtain ⟨j, rfl⟩ : ∃ j, k = j + 3 := ⟨k - 3, by omega⟩
    rfl

/-- The response to a request that changes nothing (R156). -/
def refusalOf (code : Nat) : Response :=
  if code = 1 then respNotClosed else if code = 2 then respNotOpen else respBadRequest code

theorem refusalOf_word_bad {code : Nat} (h : 3 ≤ code) (hlt : code < 256) :
    (refusalOf code).word = BitVec.ofNat 32 (9 + 256 * code) := by
  have bad : refusalOf code = respBadRequest code := by
    rw [refusalOf, if_neg (by omega), if_neg (by omega)]
  apply BitVec.eq_of_toNat_eq
  have packed : code * 256 ||| 9 = code * 256 + 9 := by
    have := Nat.shiftLeft_add_eq_or_of_lt (show 9 < 2 ^ 8 by norm_num) code
    rw [Nat.shiftLeft_eq] at this
    exact this.symm
  rw [bad]
  simp only [respBadRequest, Response.word, pack4, wordOfBytes, BitVec.toNat_append, BitVec.toNat_ofNat,
    Nat.mod_eq_of_lt hlt]
  norm_num [packed, Nat.shiftLeft_eq]
  omega

theorem requestCode_lt : requestCode n s < 256 := BitVec.isLt _

/-- The requests that change nothing: an OPEN of a channel not CLOSED, a CLOSE of one CLOSED, and an unknown
code (R37, R155, R156). -/
def Refusable (code : Nat) (c : Channel) : Prop :=
  code = 1 ∧ c.state ≠ .closed ∨ code = 2 ∧ c.state = .closed ∨ 3 ≤ code

/-- A CLOSE of a CLOSED channel, or an unknown code, is answered at once. -/
theorem serveChannel_refused {t : State}
    (h : readWord (s.desc n.val) s = (some (memWord s.mem (s.desc n.val)), t))
    (ht : t.chan n = s.chan n)
    (hc : requestCode n s = 2 ∧ (s.chan n).state = .closed ∨ 3 ≤ requestCode n s) :
    serveChannel s n = answer (chanDesc n) (chanSource n) (refusalOf (requestCode n s)) t := by
  obtain ⟨-, -, close, bad⟩ := serveChannel_by_code h
  rcases hc with ⟨hc, hs⟩ | hc
  · rw [close hc, serveClose, ht, hs, hc]
    rfl
  · rw [bad hc, refusalOf, if_neg (by omega), if_neg (by omega)]

/-- A request that changes nothing, no access meeting an error (R155). -/
theorem serveChannel_refusable_idle (hb : s.bus = []) (hc : Refusable (requestCode n s) (s.chan n)) :
    serveChannel s n = { s with
      mem := answerMemory n.val (refusalOf (requestCode n s)) s
      attn := attnRaise (chanSource n) .requestDone s.attn } := by
  have read := readWord_nil (s.desc n.val) hb
  rcases hc with ⟨h1, hs⟩ | hc
  · obtain ⟨r, phases, hopen⟩ := readOpen_idle (n := n) hb
    rw [(serveChannel_by_code read).2.1 h1, serveOpen_notClosed hopen hs, answer_idle _ _ _ hb, h1]
    rfl
  · rw [serveChannel_refused read rfl hc, answer_idle _ _ _ hb]
    rfl

/-- A request that changes nothing, the error at write `j` of its answer (R160). -/
theorem serveChannel_refusable_faulted {k j : Nat} (hbus : s.bus = ErrorAt k) (hw : MemLegal s)
    (hb : s.tableBase ≠ 0#24) (hc : Refusable (requestCode n s) (s.chan n))
    (hk : k = j + 1 + if requestCode n s = 1 then openReads n s else 0) (hj : j < 2) :
    AnswerFaulted n.val [] (refusalOf (requestCode n s)).word j { s with bus := [] }
      (serveChannel s n) := by
  obtain ⟨i, rfl⟩ : ∃ i, k = i + 1 := ⟨k - 1, by omega⟩
  have read := readWord_errorAt_succ (s.desc n.val) hbus
  rcases hc with ⟨h1, hs⟩ | hc
  · rw [if_pos h1] at hk
    obtain ⟨r, phases, hopen⟩ := readOpen_errorAt_before (n := n) (s := { s with bus := ErrorAt i }) rfl
      (show openReads n s ≤ i by omega)
    rw [(serveChannel_by_code read).2.1 h1, serveOpen_notClosed hopen hs, h1]
    exact answer_faulted (s := { s with bus := ErrorAt (i - openReads n s) }) _ _ respNotClosed
      (show ErrorAt (i - openReads n s) = ErrorAt j by congr 1; omega) hj hw hb
  · rw [if_neg (by omega)] at hk
    rw [serveChannel_refused read rfl hc]
    exact answer_faulted (s := { s with bus := ErrorAt i }) _ _ _
      (show ErrorAt i = ErrorAt j by congr 1; omega) hj hw hb

/-- A CLOSE that completes no record and saves nothing, no access meeting an error (R36, R37). -/
theorem serveChannel_close_idle (hbus : s.bus = []) (h2 : requestCode n s = 2)
    (hc : (s.chan n).state ≠ .closed)
    (h : (s.chan n).state = .fault ∨ (s.chan n).walk.inflight = none ∧ SavesNothing (s.chan n)) :
    serveChannel s n = answerAfter (chanDesc n) (chanSource n) respClosed
      (statusWrite n (closedState n s)) := by
  rw [(serveChannel_by_code (readWord_nil (s.desc n.val) hbus)).2.2.1 h2, serveClose_quiet hc h]

/-- What such a CLOSE leaves (R36, R37, R155, R158). -/
theorem closed_answered (hbus : s.bus = []) (hw : MemLegal s) (hb : s.tableBase ≠ 0#24) {t : State}
    (ht : t = answerAfter (chanDesc n) (chanSource n) respClosed (statusWrite n (closedState n s))) :
    memWord t.mem (s.desc n.val) = 0#32 ∧ t.attn = attnRaise (chanSource n) .requestDone s.attn ∧
    t.store = s.store ∧ t.port = s.port ∧ memWord t.mem (s.desc n.val + 4#32) = 2#32 ∧
    (memWord t.mem (s.desc n.val + 128#32)).extractLsb' 0 8 = 0#8 ∧
    t.chan n = notDue ((closedState n s).chan n) ∧ t.pool = (closedState n s).pool := by
  obtain ⟨mem, bus, attn, store, port, base⟩ := closedState_frame (n := n) (s := s)
  obtain ⟨l, p, chan, -⟩ := closedState_chan (n := n) (s := s)
  have first : (statusWords ((closedState n s).chan n)).getD 0 0#32 =
      pack4 0 0 0 (s.chan n).phaseIndex := by rw [chan]; rfl
  have desc : (closedState n s).desc n.val = s.desc n.val := by rw [State.desc, base, State.desc]
  rw [answerAfter_idle respClosed (bus.trans hbus)] at ht
  generalize closedState n s = c at *
  have hcw : MemLegal c := by rw [MemLegal, mem]; exact hw
  have hcb : c.tableBase ≠ 0#24 := base ▸ hb
  have hsw : MemLegal { c.modChan n notDue with mem := statusMemory n c } := statusMemory_wf hcw
  rw [ht, ← desc]
  refine ⟨answerMemory_request n.val _ hsw hcb, by rw [← attn], store, port,
    answerMemory_response n.val _ hsw hcb, ?_, modChan_chan_self .., rfl⟩
  have shown := memWord_statusMemory (n := n) hcw hcb 0 (by omega)
  rw [Nat.mul_zero, BitVec.add_zero, first] at shown
  refine (congrArg _ ((answerMemory_status n.val _ hsw).trans shown)).trans ?_
  exact pack4_low ..

/-- A channel closed from FAULT, and its status write no longer due (R37). -/
theorem notDue_leaveRunning (c : Channel) : notDue (leaveRunning .closed c) = { c with
    state := .closed, resume := none, holdDirective := false, holdLine := false, timeslot := none,
    statusDue := false, search := { c.search with sweeping := false },
    filt := { c.filt with delay := 0, lfEff := 0 }, walk := { c.walk with inflight := none },
    line := EndedLine } := rfl

/-- A CLOSE of a channel in FAULT, the error at write `j` of its status write and answer (R37, R160). -/
theorem serveChannel_closeFault_faulted {j : Nat} (hbus : s.bus = ErrorAt (j + 1)) (hw : MemLegal s)
    (hb : s.tableBase ≠ 0#24) (h2 : requestCode n s = 2) (hf : (s.chan n).state = .fault) (hj : j < 8) :
    AnswerFaulted n.val (statusWords (notDue (leaveRunning .closed (s.chan n)))) respClosed.word j
      ({ s with bus := [] }.modChan n fun _ => notDue (leaveRunning .closed (s.chan n)))
      (serveChannel s n) := by
  have read := readWord_errorAt_succ (s.desc n.val) hbus
  have form : serveChannel s n = answerAfter (chanDesc n) (chanSource n) respClosed
      (statusWrite n ({ s with bus := ErrorAt j }.modChan n (leaveRunning .closed))) := by
    have hf' : (State.chan { s with bus := ErrorAt j } n).state = .fault := hf
    rw [(serveChannel_by_code read).2.2.1 h2, serveClose, hf']
  have fault := answerAfter_faulted (n := n)
    (s := { s with bus := ErrorAt j }.modChan n (leaveRunning .closed)) respClosed rfl hj hw hb
  rw [← form, modChan_chan_self] at fault
  convert fault using 1
  · rfl
  · exact (modChan_modChan { s with bus := [] } n (leaveRunning .closed) notDue).symm

/-- A request word that meets the error (R160). -/
theorem serveChannel_request_faulted (hbus : s.bus = ErrorAt 0) : ReadFaulted s (serveChannel s n) := by
  rw [serveChannel, readWord_errorAt_zero _ hbus]
  rfl

/-- A configuration word of an OPEN that meets the error (R160). -/
theorem serveChannel_open_faulted {i : Nat} (hbus : s.bus = ErrorAt (i + 1)) (h1 : requestCode n s = 1)
    (hi : i < openReads n s) : ReadFaulted s (serveChannel s n) := by
  rw [(serveChannel_by_code (readWord_errorAt_succ (s.desc n.val) hbus)).2.1 h1, serveOpen,
    readOpen_errorAt_reached (s := { s with bus := ErrorAt i }) rfl hi]
  rfl

/-- Settles O41: each request by its code and the channel's state, and each of its accesses. -/
theorem requestsAnswered : Obligations.RequestsAnswered := by
  refine ⟨?_, ?_⟩
  · rintro n s _ _ code hbus hw hb rfl rfl (hcode : code = requestCode n s)
    subst hcode
    refine ⟨serveChannel_visitOp.op.others,
      fun h0 => (serveChannel_by_code (readWord_nil (s.desc n.val) hbus)).1 h0, fun h0 hopen hclose => ?_⟩
    by_cases hc : Refusable (requestCode n s) (s.chan n)
    · rw [serveChannel_refusable_idle hbus hc]
      have response := answerMemory_response n.val (refusalOf (requestCode n s)) hw hb
      refine ⟨answerMemory_request _ _ hw hb, rfl, rfl, rfl, fun h2 hs => ?_, fun _ =>
        ⟨rfl, rfl, fun h1 => ?_, fun h2 => ?_, fun h3 => ?_, fun x hx => memRead_answerMemory _ _ hw x hx⟩⟩
      · simp [Refusable, h2, hs] at hc
      · rw [response, h1]; rfl
      · rw [response, h2]; rfl
      · rw [response, refusalOf_word_bad h3 requestCode_lt]
    · have h2 : requestCode n s = 2 ∧ (s.chan n).state ≠ .closed := by
        unfold Refusable at hc
        by_cases h1 : requestCode n s = 1
        · exact absurd (.inl ⟨h1, hopen.resolve_left (not_not.2 h1)⟩) hc
        · have : requestCode n s = 2 := by
            by_contra h2
            exact hc (.inr (.inr (by omega)))
          exact ⟨this, fun hs => hc (.inr (.inl ⟨this, hs⟩))⟩
      obtain ⟨h2, hs⟩ := h2
      have quiet := (hclose.resolve_left (not_not.2 h2)).resolve_left hs
      obtain ⟨request, attn, store, port, response, status, chan, pool⟩ :=
        closed_answered hbus hw hb (serveChannel_close_idle hbus h2 hs quiet)
      obtain ⟨l, p, closed, released⟩ := closedState_chan (n := n) (s := s)
      rw [closed] at chan
      refine ⟨request, attn, store, port, fun _ _ => ⟨response, status, by rw [chan]; rfl, by rw [chan]; rfl,
        by rw [chan]; rfl, by rw [chan]; rfl, by rw [chan]; rfl, by rw [chan]; rfl, by rw [chan]; rfl,
        fun hf => ⟨?_, pool.trans (released hf).2⟩⟩, fun h => ?_⟩
      · rw [chan, (released hf).1]; rfl
      · exact absurd h (not_or.2 ⟨not_not.2 h2, hs⟩)
  · rintro n s _ _ _ code k len reads hw hb rfl hbus rfl rfl (hcode : code = requestCode n s)
      (hlen : len = openLength n s) hreads
    subst hcode hlen
    have hreads : reads = openReads n s := hreads
    subst hreads
    refine ⟨?_, fun h1 hs => ⟨fun hk => ?_, fun hlt hle => ?_⟩, fun h2 hs h0 hle => ?_, fun h3 h0 hle => ?_,
      fun h2 hf h0 hle => ⟨_, rfl, ?_⟩⟩
    · rintro rfl
      exact serveChannel_request_faulted hbus
    · cases k with
      | zero => exact serveChannel_request_faulted hbus
      | succ i => exact serveChannel_open_faulted hbus h1 hk
    · have := serveChannel_refusable_faulted (j := k - openReads n s - 1) hbus hw hb (.inl ⟨h1, hs⟩)
        (by rw [if_pos h1]; omega) (by omega)
      rw [h1] at this
      exact this
    · have := serveChannel_refusable_faulted (j := k - 1) hbus hw hb (.inr (.inl ⟨h2, hs⟩))
        (by rw [if_neg (by omega)]; omega) (by omega)
      rw [h2] at this
      exact this
    · have := serveChannel_refusable_faulted (j := k - 1) hbus hw hb (.inr (.inr h3))
        (by rw [if_neg (by omega)]; omega) (by omega)
      rw [refusalOf_word_bad h3 requestCode_lt] at this
      exact this
    · rw [← notDue_leaveRunning]
      exact serveChannel_closeFault_faulted (j := k - 1) (by rw [hbus]; congr 1; omega) hw hb h2 hf (by omega)

end Sys2Proof.Machine
end

