-- ==== Sys2Proof/Proofs/Boundaries.lean ====
section
/-! Proofs about a boundary: the close of the block in progress, then the take (R9, R10, R24 to R27, R49,
R93, R94, R159, R160). -/

namespace Sys2Proof.Machine

/-! ## Operations that make no access -/

/-- The state with another memory and another bus script. -/
def State.onMemory (m : Memory) (b : Bus) (s : State) : State := { s with mem := m, bus := b }

/-- The guard, the program and the search neither read nor change memory and the script: each commutes with a
change of both. -/
def Blind (f : State → State) : Prop := ∀ m b s, f (s.onMemory m b) = (f s).onMemory m b

theorem Blind.mem {f : State → State} (h : Blind f) (s : State) : (f s).mem = s.mem := by
  have same := congrArg State.mem (h s.mem s.bus s)
  exact same

theorem Blind.bus {f : State → State} (h : Blind f) (s : State) : (f s).bus = s.bus := by
  have same := congrArg State.bus (h s.mem s.bus s)
  exact same

section
variable (m : Memory) (b : Bus) (s : State) (n : Fin 32) (i : Fin 34) (c : Cause)

@[simp] theorem onMemory_chan : (s.onMemory m b).chan n = s.chan n := rfl
@[simp] theorem modChan_onMemory (f : Channel → Channel) :
    (s.onMemory m b).modChan n f = (s.modChan n f).onMemory m b := rfl
@[simp] theorem raise_onMemory : raise i c (s.onMemory m b) = (raise i c s).onMemory m b := rfl
@[simp] theorem raiseIf_onMemory (p : Bool) :
    raiseIf p i c (s.onMemory m b) = (raiseIf p i c s).onMemory m b := by cases p <;> rfl
@[simp] theorem shrink_onMemory (k : Nat) :
    shrink n k (s.onMemory m b) = (shrink n k s).onMemory m b := rfl
@[simp] theorem grant_onMemory (k : Nat) :
    grant n k (s.onMemory m b) = (grant n k s).onMemory m b := rfl
@[simp] theorem releaseAll_onMemory :
    releaseAll n (s.onMemory m b) = (releaseAll n s).onMemory m b := rfl
@[simp] theorem untrain_onMemory : untrain n (s.onMemory m b) = (untrain n s).onMemory m b := rfl

@[simp] theorem bringHolding_onMemory (k : Nat) :
    bringHolding n k (s.onMemory m b) = (bringHolding n k s).onMemory m b := by
  simp only [bringHolding, onMemory_chan, shrink_onMemory, grant_onMemory,
    apply_ite (State.onMemory m b)]
  rfl

@[simp] theorem startSearch_onMemory :
    startSearch n (s.onMemory m b) = (startSearch n s).onMemory m b := by
  simp only [startSearch, modChan_onMemory, bringHolding_onMemory, onMemory_chan, raiseIf_onMemory,
    releaseAll_onMemory, raise_onMemory]
  split <;> rfl

@[simp] theorem placeWindow_onMemory :
    placeWindow n (s.onMemory m b) = (placeWindow n s).onMemory m b := by
  simp only [placeWindow, modChan_onMemory, bringHolding_onMemory, onMemory_chan, releaseAll_onMemory,
    raise_onMemory]
  split_ifs <;> rfl

@[simp] theorem endSearch_onMemory : endSearch n (s.onMemory m b) = (endSearch n s).onMemory m b := by
  simp only [endSearch, onMemory_chan, placeWindow_onMemory, releaseAll_onMemory, modChan_onMemory]
  split <;> rfl

@[simp] theorem enterPhase_onMemory (p : Nat) :
    enterPhase n p (s.onMemory m b) = (enterPhase n p s).onMemory m b := by
  simp only [enterPhase, modChan_onMemory, onMemory_chan, startSearch_onMemory]
  split <;> rfl

@[simp] theorem nextPhase_onMemory : nextPhase n (s.onMemory m b) = (nextPhase n s).onMemory m b := by
  simp only [nextPhase, onMemory_chan, enterPhase_onMemory, modChan_onMemory, raise_onMemory]
  split <;> rfl

@[simp] theorem advanceProgram_onMemory (er eu : Nat) :
    advanceProgram n er eu (s.onMemory m b) = (advanceProgram n er eu s).onMemory m b := by
  simp only [advanceProgram, modChan_onMemory, onMemory_chan, endSearch_onMemory]
  split_ifs
  · exact nextPhase_onMemory ..
  · exact nextPhase_onMemory ..
  · rfl

@[simp] theorem backToTraining_onMemory :
    backToTraining n (s.onMemory m b) = (backToTraining n s).onMemory m b := by
  simp only [backToTraining, onMemory_chan]
  split <;> rfl

@[simp] theorem divergenceRestart_onMemory :
    divergenceRestart n (s.onMemory m b) = (divergenceRestart n s).onMemory m b := by
  simp only [divergenceRestart, untrain_onMemory, enterPhase_onMemory, modChan_onMemory,
    backToTraining_onMemory, raise_onMemory]

end

theorem guardAndProgram_blind (n : Fin 32) (er eu : Nat) : Blind (guardAndProgram n er eu) := by
  intro m b s
  simp only [guardAndProgram, onMemory_chan, divergenceRestart_onMemory, modChan_onMemory,
    advanceProgram_onMemory, ← apply_ite (State.onMemory m b)]
  split <;> rfl

/-! ## Status writes at the end of an event -/

/-- A status event under an empty script: the mark is gone, and only the status area changes, which shows a
change of its words (R159). -/
theorem statusEvent_idle {n : Fin 32} {s : State} (before : Channel) (h : s.bus = []) (hw : MemLegal s) :
    ∃ m, statusEvent n before s = { s.modChan n notDue with mem := m } ∧ m.wf ∧
      (∀ x, Outside (s.desc n.val + 128#32) 24 x → memRead m x = memRead s.mem x) ∧
      (s.tableBase ≠ 0#24 → statusWords before ≠ statusWords (s.chan n) → ∀ i < 6,
        memWord m (s.desc n.val + 128#32 + BitVec.ofNat 32 (4 * i)) =
          (statusWords (s.chan n)).getD i 0#32) := by
  unfold statusEvent
  by_cases hc : ((s.chan n).statusDue || statusWords before != statusWords (s.chan n)) = true
  · rw [if_pos hc, statusWrite_idle h]
    exact ⟨_, rfl, statusMemory_wf hw, memRead_statusMemory hw, fun hb _ => memWord_statusMemory hw hb⟩
  · rw [if_neg hc]
    simp only [Bool.or_eq_true, bne_iff_ne, not_or, Bool.not_eq_true, not_not] at hc
    have same : s.modChan n notDue = s := modChan_eq_self (by rw [notDue, ← hc.1])
    exact ⟨s.mem, by rw [same], hw, fun _ _ => rfl, fun _ hne => absurd hc.2 hne⟩

/-- A status event that changes the words, and whose write meets the error at its word `k` (R160). -/
theorem statusEvent_faulted {n : Fin 32} {s : State} {before : Channel} {k : Nat} (h : s.bus = ErrorAt k)
    (hk : k < 6) (hb : s.tableBase ≠ 0#24) (hw : MemLegal s)
    (hne : statusWords before ≠ statusWords (s.chan n)) :
    StatusFaulted n k { s with bus := [] } (statusEvent n before s) := by
  have changed : ((s.chan n).statusDue || statusWords before != statusWords (s.chan n)) = true := by
    rw [Bool.or_eq_true]
    exact .inr (bne_iff_ne.2 hne)
  rw [statusEvent, if_pos changed]
  exact statusWrite_faulted h hb hk hw

/-- A status event that nothing calls for. -/
theorem statusEvent_none {n : Fin 32} {s : State} {before : Channel} (hd : (s.chan n).statusDue = false)
    (hs : statusWords before = statusWords (s.chan n)) : statusEvent n before s = s := by
  simp [statusEvent, hd, hs]

/-- A status event under an empty script, or under one whose error, if there is one, meets it: `v` is the
state of the event but for its status write (R159, R160). -/
theorem statusEvent_scripted {n : Fin 32} {v w : State} {before : Channel} {fault : Option Nat} {b : Bus}
    (hv : v.bus = []) (hw : MemLegal v) (hnone : fault = none → b = [])
    (hsome : ∀ k, fault = some k → b = ErrorAt k ∧ k < 6 ∧ v.tableBase ≠ 0#24 ∧
      statusWords before ≠ statusWords (v.chan n)) (hwrite : w = statusEvent n before { v with bus := b }) :
    w = { v with mem := w.mem, chans := w.chans, attn := w.attn } ∧ w.chan n = notDue (v.chan n) ∧
    (∀ k, k ≠ n → w.chan k = v.chan k) ∧
    (∀ x, Outside (v.desc n.val + 128#32) 24 x → memRead w.mem x = memRead v.mem x) ∧
    (∀ k, fault = some k → StatusFaulted n k v w) ∧ (fault = none → w.attn = v.attn) ∧
    (fault = none → v.tableBase ≠ 0#24 → statusWords before ≠ statusWords (v.chan n) → ∀ i < 6,
      memWord w.mem (v.desc n.val + 128#32 + BitVec.ofNat 32 (4 * i)) =
        (statusWords (v.chan n)).getD i 0#32) := by
  have empty : { v with bus := [] } = v := by rw [← hv]
  cases fault with
  | none =>
    rw [hnone rfl, empty] at hwrite
    obtain ⟨m, form, -, frame, shown⟩ := statusEvent_idle (n := n) before hv hw
    rw [form] at hwrite
    rw [hwrite]
    exact ⟨rfl, modChan_chan_self .., fun k hk => modChan_chan_ne _ _ _ _ hk, frame,
      fun k h => absurd h (by simp), fun _ => rfl, fun _ => shown⟩
  | some k =>
    obtain ⟨rfl, hk, hb, hne⟩ := hsome k rfl
    have faulted : StatusFaulted n k { v with bus := [] } w := by
      rw [hwrite]
      exact statusEvent_faulted (s := { v with bus := ErrorAt k }) rfl hk hb hw hne
    rw [empty] at faulted
    have ⟨form, chan, others, _, frame⟩ := faulted
    have attn : w.attn = _ := congrArg State.attn form
    refine ⟨by rw [attn]; exact form, chan, others, fun x hx => frame x fun j hj => hx j (by omega),
      fun j h => ?_, fun h => absurd h (by simp), fun h => absurd h (by simp)⟩
    obtain rfl := Option.some.inj h
    exact faulted

theorem modChan_congr {n : Fin 32} {s : State} {f g : Channel → Channel}
    (h : f (s.chan n) = g (s.chan n)) : s.modChan n f = s.modChan n g := by
  unfold State.modChan
  rw [show f s.chans[n] = g s.chans[n] from h]

theorem guardAndProgram_held {n : Fin 32} {s : State} {er eu : Nat} (h : (s.chan n).state = .held) :
    guardAndProgram n er eu s = s := by
  unfold guardAndProgram
  simp only [h]

/-! ## A close -/

/-- The attention unit after stage 3 of a close: STUCK at the run's step from 199 to 200 (R18). -/
def stuckRaised (n : Fin 32) (s : State) : Attn :=
  if (s.chan n).hist.stuckRun = 199 ∧ (measure (s.chan n)).stuckRun = 200
    then attnRaise (chanSource n) .stuck s.attn else s.attn

theorem raiseIf_stuck (n : Fin 32) (s : State) :
    raiseIf ((s.chan n).hist.stuckRun == 199 && (measure (s.chan n)).stuckRun == 200) (chanSource n) .stuck
      s = { s with attn := stuckRaised n s } := by
  unfold raiseIf stuckRaised
  simp only [Bool.and_eq_true, beq_iff_eq]
  split <;> rfl

/-- The part after the updates, the guard and the program of a close (R9, R24 to R27). -/
def advanced (n : Fin 32) (m : Measured) (eps : Option (List Sample)) (s : State) : State :=
  guardAndProgram n m.er m.eu (s.modChan n fun c => searchAtClose m.u (applyClose m eps c))

theorem advanced_blind (n : Fin 32) (m : Measured) (eps : Option (List Sample)) :
    Blind (advanced n m eps) := fun mem b s => guardAndProgram_blind n m.er m.eu mem b
  (s.modChan n fun c => searchAtClose m.u (applyClose m eps c))

theorem advanced_lineOp {n : Fin 32} {m : Measured} {s : State} (eps : Option (List Sample))
    (h : m.poolHist = enterPool (s.chan n).segs.length m.x (s.chan n).poolHist) :
    LineOp n s (advanced n m eps s) :=
  (applyClose_lineOp m eps h).trans (guardAndProgram_lineOp m.er m.eu)

/-- The late stages of a close without a record in flight (R9). -/
theorem finishClose_none {n : Fin 32} {before : Channel} (h : before.walk.inflight = none) (m : Measured)
    (o : RefOutcome) (eps : Option (List Sample)) (s : State) :
    finishClose n before m o eps s = statusEvent n before (advanced n m eps s) := by
  unfold finishClose
  dsimp only
  rw [h]
  rfl

/-- The late stages of a close whose record is then completed with DONE (R9, R94). -/
theorem finishClose_some {n : Fin 32} {before : Channel} {f : InFlight} (h : before.walk.inflight = some f)
    (m : Measured) (o : RefOutcome) (eps : Option (List Sample)) (s : State) :
    finishClose n before m o eps s = completeDone n f m.z m.u
      (metricsOf f before ((statusEvent n before (advanced n m eps s)).chan n) m o eps)
      (statusEvent n before (advanced n m eps s)) := by
  unfold finishClose
  dsimp only
  rw [h]
  rfl

/-- A close up to its late stages: STUCK, and the reference read when the outcome is USED, which takes the
first accesses of the script (R9, R18, R93). -/
theorem closeBlock_eq {n : Fin 32} {s : State} {o : RefOutcome} {ref : List Sample}
    {eps : Option (List Sample)} {b : Bus}
    (hnone : (s.chan n).walk.inflight = none → o = .noReference)
    (hsome : ∀ f, (s.chan n).walk.inflight = some f →
      o = refOutcome (s.chan n) (measure (s.chan n)) f.refPresent ∧
      ref = unpackSamples (memWords 20 (f.addr + refOffset) s.mem))
    (heps : eps = if o = .used then some (eqErrors ref (s.chan n).hist.outOld.z) else none)
    (hbus : s.bus = [] ∧ b = [] ∨
      ∃ k, s.bus = ErrorAt ((if o = .used then 20 else 0) + k) ∧ b = ErrorAt k) :
    closeBlock n s = finishClose n (s.chan n) (measure (s.chan n)) o eps
      { s with attn := stuckRaised n s, bus := b } := by
  have unread : o ≠ .used → b = s.bus ∧ eps = none := fun ho => by
    simp only [ho, if_false, Nat.zero_add] at hbus heps
    refine ⟨?_, heps⟩
    rcases hbus with ⟨h, rfl⟩ | ⟨k, h, rfl⟩ <;> exact h.symm
  unfold closeBlock
  dsimp only
  rw [raiseIf_stuck]
  cases hf : (s.chan n).walk.inflight with
  | none =>
    obtain rfl := hnone hf
    obtain ⟨rfl, rfl⟩ := unread (by simp)
    rfl
  | some f =>
    obtain ⟨ho, rfl⟩ := hsome f hf
    dsimp only
    rw [← ho]
    by_cases hu : o = .used
    · subst hu
      have read : readWords 20 (f.addr + refOffset) { s with attn := stuckRaised n s } =
          (some (memWords 20 (f.addr + refOffset) s.mem),
            { s with attn := stuckRaised n s, bus := b }) := by
        rcases hbus with ⟨h, rfl⟩ | ⟨k, h, rfl⟩
        · rw [readWords_nil (s := { s with attn := stuckRaised n s }) _ _ h, ← h]
        · rw [readWords_errorAt_before (s := { s with attn := stuckRaised n s }) 20 _ h (Nat.le_add_right ..)]
          simp
      rw [heps, if_pos rfl]
      dsimp only
      rw [read]
    · obtain ⟨rfl, rfl⟩ := unread hu
      cases o with
      | used => exact absurd rfl hu
      | _ => rfl

/-! ## A boundary -/

/-- The block in progress marked as closed. -/
def blockClosed (c : Channel) : Channel := { c with line := { c.line with inBlock := false } }

theorem boundary_stopped {n : Fin 32} {s : State} (h : running (s.chan n) = false) : boundary n s = s := by
  rw [boundary, if_neg (by simp [h])]

theorem boundary_noBlock {n : Fin 32} {s : State} (h : running (s.chan n) = true)
    (hb : (s.chan n).line.inBlock = false) : boundary n s = take n s := by
  simp [boundary, h, hb]

/-- A block in progress is closed, and a channel that still runs takes (R10). -/
theorem boundary_block {n : Fin 32} {s : State} (h : running (s.chan n) = true)
    (hb : (s.chan n).line.inBlock = true) : boundary n s =
      if running ((closeBlock n s).chan n) then take n ((closeBlock n s).modChan n blockClosed)
      else (closeBlock n s).modChan n blockClosed := by
  have runs : running (((closeBlock n s).modChan n blockClosed).chan n) =
      running ((closeBlock n s).chan n) := by
    rw [modChan_chan_self]
    rfl
  rw [boundary, if_pos h, if_pos hb, ← runs]
  rfl

/-- A held channel's close adapts no filter (R19, R20, R49). -/
theorem adapt_held {c : Channel} (h : c.state = .held) (m : Measured) : adapt c m none = c.filt := by
  have gate : echoGate c m = false := by simp [echoGate, h]
  simp [adapt, nearAdapts, farAdapts, gate]

/-- A held channel's starved block moves its histories alone (R25, R49). -/
theorem closeBlock_held {n : Fin 32} {s : State} (h : (s.chan n).state = .held)
    (hi : (s.chan n).walk.inflight = none) (hd : (s.chan n).statusDue = false) : closeBlock n s =
      { s with attn := stuckRaised n s }.modChan n (applyClose (measure (s.chan n)) none) := by
  have close : closeBlock n s = finishClose n (s.chan n) (measure (s.chan n)) .noReference none
      { s with attn := stuckRaised n s } := by
    unfold closeBlock
    dsimp only
    rw [raiseIf_stuck, hi]
  rw [close, finishClose_none hi]
  generalize measure (s.chan n) = m
  have same : (fun c => searchAtClose m.u (applyClose m none c)) (s.chan n) =
      applyClose m none (s.chan n) := if_neg fun ht => by
    have : (s.chan n).state = .training := ht.1
    simp [h] at this
  have advance : advanced n m none { s with attn := stuckRaised n s } =
      { s with attn := stuckRaised n s }.modChan n (applyClose m none) := by
    rw [advanced, modChan_congr (s := { s with attn := stuckRaised n s }) same]
    refine guardAndProgram_held ?_
    rw [modChan_chan_self]
    exact h
  rw [advance]
  refine statusEvent_none ?_ ?_
  · rw [modChan_chan_self]
    exact hd
  · rw [modChan_chan_self]
    rfl

/-- A held channel's starved block is closed by its histories alone, and the channel takes (R25, R49). -/
theorem boundary_held {n : Fin 32} {s : State} (hs : (s.chan n).state = .held)
    (hb : (s.chan n).line.inBlock = true) (hi : (s.chan n).walk.inflight = none)
    (hd : (s.chan n).statusDue = false) : boundary n s =
      take n ({ s with attn := stuckRaised n s }.modChan n
        (blockClosed ∘ applyClose (measure (s.chan n)) none)) := by
  have runs : running (s.chan n) = true := by simp [running, hs]
  have close := closeBlock_held hs hi hd
  have still : running ((closeBlock n s).chan n) = true := by
    rw [close, modChan_chan_self]
    exact runs
  rw [boundary_block runs hb, if_pos still, close, modChan_modChan]

/-- Settles O30: the close by `closeBlock_eq` and `closeBlock_held`, its status write by
`statusEvent_scripted`. -/
theorem boundaryClosesThenTakes : Obligations.BoundaryClosesThenTakes := by
  refine ⟨?_, ?_⟩
  · rintro n s _ _ rfl rfl
    refine ⟨boundary_stopped, boundary_noBlock, fun hs hb hi hd => ?_⟩
    refine ⟨_, boundary_held hs hb hi hd, fun k hk => modChan_chan_ne _ _ _ _ hk, ?_, rfl⟩
    rw [modChan_chan_self]
    show blockClosed (applyClose (measure (s.chan n)) none (s.chan n)) = _
    simp only [applyClose, adapt_held hs]
    rfl
  · intro n s v c m o ref eps fault hc hr hb hd hw hm hnone hsome hnoRef href heps hv
    subst hc hm
    have hbus : ∃ b, (s.bus = [] ∧ b = [] ∨
        ∃ k, s.bus = ErrorAt ((if o = .used then 20 else 0) + k) ∧ b = ErrorAt k) ∧
        (fault = none → b = []) ∧ ∀ k, fault = some k → b = ErrorAt k := by
      cases fault with
      | none => exact ⟨[], .inl ⟨hnone rfl, rfl⟩, fun _ => rfl, fun k h => absurd h (by simp)⟩
      | some k => exact ⟨ErrorAt k, .inr ⟨k, (hsome k rfl).1, rfl⟩, fun h => absurd h (by simp),
          fun j h => by rw [Option.some.inj h]⟩
    obtain ⟨b, hscript, hbnone, hbsome⟩ := hbus
    have close := closeBlock_eq (n := n) hnoRef (fun f hf => by
      rw [memWords_eq_map]
      exact href f hf) heps hscript
    have hv : v = advanced n (measure (s.chan n)) eps { s with attn := stuckRaised n s, bus := [] } := by
      rw [hv]
      rfl
    have pool : (measure (s.chan n)).poolHist =
      enterPool (s.chan n).segs.length (measure (s.chan n)).x (s.chan n).poolHist := rfl
    have op : LineOp n { s with attn := stuckRaised n s, bus := [] } v := by
      rw [hv]
      exact advanced_lineOp eps pool
    have blind := advanced_blind n (measure (s.chan n)) eps
    have vmem : v.mem = s.mem := by rw [hv]; exact blind.mem _
    have vbus : v.bus = [] := by rw [hv]; exact blind.bus _
    have late : advanced n (measure (s.chan n)) eps { s with attn := stuckRaised n s, bus := b } =
        { v with bus := b } := by
      have moved := blind s.mem b { s with attn := stuckRaised n s, bus := [] }
      rw [← hv, State.onMemory, State.onMemory, ← vmem] at moved
      rw [← vmem]
      exact moved
    have hdesc : v.desc n.val = s.desc n.val := by
      unfold State.desc
      rw [op.op.tableBase]
    obtain ⟨w, hwrite⟩ : ∃ w, w = statusEvent n (s.chan n) { v with bus := b } := ⟨_, rfl⟩
    rw [← late] at hwrite
    obtain ⟨form, chan, others, frame, faulted, attn, shown⟩ := statusEvent_scripted (fault := fault) vbus
      (by rw [MemLegal, vmem]; exact hw) hbnone (fun k h => by
        obtain ⟨-, hk, hbase, hne⟩ := hsome k h
        exact ⟨hbsome k h, hk, by rw [op.op.tableBase]; exact hbase, hne.symm⟩) (late ▸ hwrite)
    rw [hdesc, vmem] at frame
    rw [hdesc, op.op.tableBase] at shown
    refine ⟨w, form, chan, fun k hk => (others k hk).trans (op.op.others k hk), frame, faulted, attn,
      fun h hbase hne => shown h hbase hne.symm, closeBlock n s, fun hi => ?_, fun f hf => ?_,
      boundary_block hr hb⟩
    · rw [close, finishClose_none hi, hwrite]
    · rw [close, finishClose_some hf, hwrite]

end Sys2Proof.Machine
end

