-- ==== Sys2Proof/Proofs/Causes.lean ====
section
/-! What every operation of a channel's boundary does to the attention unit and to the bus script: causes only
join those that stand (R166), and an empty script stays empty. -/

namespace Sys2Proof.Machine

/-- Between `s` and `t` causes were raised, none taken away, and no priority changed; an empty bus script
stayed empty. -/
structure EventOp (s t : State) : Prop where
  grows : AttnGrows s.attn t.attn
  idle  : s.bus = [] → t.bus = []

namespace EventOp

variable {n : Fin 32} {s t u : State}

theorem of_eq (ha : t.attn = s.attn) (hb : t.bus = s.bus) : EventOp s t :=
  ⟨ha ▸ .refl _, fun h => hb.trans h⟩

theorem refl : EventOp s s := .of_eq rfl rfl

theorem trans (h : EventOp s t) (g : EventOp t u) : EventOp s u := ⟨h.grows.trans g.grows, g.idle ∘ h.idle⟩

theorem raise (h : EventOp s t) (i : Fin 34) (c : Cause) : EventOp s (raise i c t) :=
  h.trans ⟨.raise i c t.attn, id⟩

theorem raiseIf (h : EventOp s t) (b : Bool) (i : Fin 34) (c : Cause) : EventOp s (raiseIf b i c t) := by
  cases b
  · exact h
  · exact h.raise i c

/-- A change of a channel, which is neither the attention unit's nor the script's. -/
theorem modChan (h : EventOp s t) (f : Channel → Channel) : EventOp s (t.modChan n f) :=
  h.trans (.of_eq rfl rfl)

theorem releaseAll (h : EventOp s t) : EventOp s (releaseAll n t) := h.trans (.of_eq rfl rfl)

theorem bringHolding (h : EventOp s t) (k : Nat) : EventOp s (bringHolding n k t) :=
  h.trans (.of_eq (bringHolding_attn n k t) (bringHolding_bus n k t))

end EventOp

variable {n : Fin 32} {s t : State}

/-! ## Bus accesses -/

theorem busSlot_eventOp : EventOp s (busSlot s).2 := by
  unfold busSlot
  split
  · exact .refl
  · next h => exact ⟨.refl _, fun empty => by simp [h] at empty⟩

theorem readWord_eventOp (a : Word) : EventOp s (readWord a s).2 := by
  have slot := busSlot_eventOp (s := s)
  unfold readWord
  dsimp only
  split <;> exact slot

theorem writeWord_eventOp (a v : Word) : EventOp s (writeWord a v s).2 := by
  have slot := busSlot_eventOp (s := s)
  unfold writeWord
  dsimp only
  split
  · exact slot
  · exact slot.trans (.of_eq rfl rfl)

theorem EventOp.of_readWord {a : Word} {r : Option Word} (h : readWord a s = (r, t)) : EventOp s t := by
  have step := readWord_eventOp (s := s) a
  rwa [h] at step

theorem EventOp.of_writeWord {a v : Word} {r : Bool} (h : writeWord a v s = (r, t)) : EventOp s t := by
  have step := writeWord_eventOp (s := s) a v
  rwa [h] at step

theorem EventOp.of_readWords {k : Nat} {a : Word} {r : Option (List Word)}
    (h : readWords k a s = (r, t)) : EventOp s t := by
  induction k generalizing a r s t with
  | zero =>
    obtain ⟨-, rfl⟩ := Prod.mk.inj h
    exact .refl
  | succ k ih =>
    unfold readWords at h
    split at h
    · next first =>
      obtain ⟨-, rfl⟩ := Prod.mk.inj h
      exact .of_readWord first
    · next first =>
      split at h
      all_goals
        next rest =>
          obtain ⟨-, rfl⟩ := Prod.mk.inj h
          exact (EventOp.of_readWord first).trans (ih rest)

theorem EventOp.of_writeWords {ws : List Word} {a : Word} {r : Bool}
    (h : writeWords ws a s = (r, t)) : EventOp s t := by
  induction ws generalizing a s with
  | nil =>
    obtain ⟨-, rfl⟩ := Prod.mk.inj h
    exact .refl
  | cons w ws ih =>
    unfold writeWords at h
    split at h
    · next first =>
      obtain ⟨-, rfl⟩ := Prod.mk.inj h
      exact .of_writeWord first
    · next first => exact (EventOp.of_writeWord first).trans (ih h)

/-! ## Status writes and entry to FAULT -/

theorem writeDesc_eventOp (k : Nat) (o : Word) (ws : List Word) : EventOp s (writeDesc k o ws s).2 := by
  unfold writeDesc
  split
  · exact .refl
  · split
    · next h => exact .of_writeWords h
    · next h => exact (EventOp.of_writeWords h).raise ..

theorem statusWrite_eventOp : EventOp s (statusWrite n s).2 :=
  (writeDesc_eventOp n.val 128#32 (statusWords (s.chan n))).modChan (n := n) notDue

theorem statusEvent_eventOp (before : Channel) : EventOp s (statusEvent n before s) := by
  unfold statusEvent
  split
  · exact statusWrite_eventOp
  · exact .refl

theorem enterFault_eventOp : EventOp s (enterFault n s) :=
  ((EventOp.refl.releaseAll.modChan _).raise ..).trans statusWrite_eventOp

theorem changeHold_eventOp (f : Channel → Channel) : EventOp s (changeHold n f s) :=
  (EventOp.refl.modChan f).raiseIf ..

/-! ## Search, program and directives -/

theorem startSearch_eventOp : EventOp s (startSearch n s) :=
  ⟨startSearch_grows n s, fun h => (startSearch_bus n s).trans h⟩

theorem placeWindow_eventOp : EventOp s (placeWindow n s) := by
  dsimp only [placeWindow]
  split_ifs
  · exact (EventOp.refl.bringHolding _).modChan _
  · exact ((EventOp.refl.bringHolding _).raise ..).modChan _
  · exact ((EventOp.refl.bringHolding _).raise ..).releaseAll.modChan _

theorem endSearch_eventOp : EventOp s (endSearch n s) := by
  dsimp only [endSearch]
  refine (EventOp.modChan ?_ _).raise ..
  split
  · exact placeWindow_eventOp
  · exact EventOp.refl.releaseAll.modChan _

theorem abandonSearch_eventOp : EventOp s (abandonSearch n s) := by
  unfold abandonSearch
  split
  · exact EventOp.refl.releaseAll.modChan _
  · exact .refl

theorem untrain_eventOp : EventOp s (untrain n s) := EventOp.refl.releaseAll.modChan _

theorem enterPhase_eventOp (p : Nat) : EventOp s (enterPhase n p s) := by
  dsimp only [enterPhase]
  split
  · exact (EventOp.refl.modChan _).trans startSearch_eventOp
  · exact .modChan .refl _

theorem nextPhase_eventOp : EventOp s (nextPhase n s) := by
  dsimp only [nextPhase]
  split
  · exact enterPhase_eventOp _
  · exact (EventOp.refl.modChan _).raise ..

theorem advanceProgram_eventOp (er eu : Nat) : EventOp s (advanceProgram n er eu s) := by
  dsimp only [advanceProgram]
  split_ifs
  · exact ((EventOp.refl.modChan _).trans endSearch_eventOp).trans nextPhase_eventOp
  · exact (EventOp.refl.modChan _).trans nextPhase_eventOp
  · exact .modChan .refl _

theorem backToTraining_eventOp : EventOp s (backToTraining n s) := by
  unfold backToTraining
  split
  · exact (EventOp.refl.modChan _).raise ..
  · exact .modChan .refl _
  all_goals exact .refl

theorem divergenceRestart_eventOp : EventOp s (divergenceRestart n s) :=
  (((untrain_eventOp.trans (enterPhase_eventOp 0)).modChan _).trans backToTraining_eventOp).raise ..

theorem guardAndProgram_eventOp (er eu : Nat) : EventOp s (guardAndProgram n er eu s) := by
  dsimp only [guardAndProgram]
  split
  · refine iteInduction (fun _ => divergenceRestart_eventOp) fun _ => ?_
    exact (EventOp.refl.modChan _).trans (advanceProgram_eventOp er eu)
  · exact iteInduction (fun _ => divergenceRestart_eventOp) fun _ => .modChan .refl _
  all_goals exact .refl

theorem requestSave_eventOp : EventOp s (requestSave n s).2 := by
  dsimp only [requestSave]
  refine EventOp.raiseIf ?_ ..
  exact .of_eq rfl rfl

theorem applyDirective_eventOp (code arg : Nat) : EventOp s (applyDirective n code arg s).2 := by
  unfold applyDirective
  split
  · exact .refl
  · exact changeHold_eventOp _
  · exact changeHold_eventOp _
  · split
    · exact (abandonSearch_eventOp.trans backToTraining_eventOp).trans (enterPhase_eventOp arg)
    · exact .refl
  · exact (untrain_eventOp.trans (enterPhase_eventOp 0)).trans backToTraining_eventOp
  · dsimp only [saveNow]
    split
    · exact requestSave_eventOp
    · exact .refl
  · exact .refl

/-! ## Links and completions -/

theorem followLink_eventOp (a : Word) : EventOp s (followLink n a s).2 := by
  unfold followLink
  split
  · next h => exact (EventOp.of_readWord h).trans enterFault_eventOp
  · next h =>
    split
    · dsimp only
      exact (EventOp.of_readWord h).modChan _
    · dsimp only
      exact (EventOp.of_readWord h).modChan _
    · exact (EventOp.of_readWord h).trans enterFault_eventOp

theorem completeDone_eventOp (f : InFlight) (z u : List Sample) (m : Metrics) :
    EventOp s (completeDone n f z u m s) := by
  unfold completeDone
  split
  · next h => exact (EventOp.of_writeWords h).trans enterFault_eventOp
  · next h =>
    have results := (EventOp.of_writeWords h).modChan (n := n)
      fun c => { c with walk := { c.walk with gapCount := 0 } }
    dsimp only
    split
    · next g => exact (results.trans (.of_writeWord g)).trans enterFault_eventOp
    · next g =>
      exact (((results.trans (.of_writeWord g)).modChan _).trans (followLink_eventOp _)).raiseIf ..

/-! ## Takes -/

theorem starveAndBegin_eventOp : EventOp s (starveAndBegin n s) :=
  ((EventOp.refl.modChan _).raiseIf ..).modChan _

theorem refuseRecord_eventOp (a : Word) (k : Control) : EventOp s (refuseRecord n a k s) := by
  unfold refuseRecord
  split
  · next h => exact (EventOp.of_writeWord h).trans enterFault_eventOp
  · next w h =>
    have linked := (EventOp.of_writeWord h).trans (followLink_eventOp (n := n) a)
    split
    · next g =>
      rw [g] at linked
      exact linked.raiseIf ..
    · next g =>
      rw [g] at linked
      exact (linked.raiseIf k.notify (chanSource n) .blockDone).trans starveAndBegin_eventOp

theorem takeRecord_eventOp (a : Word) (k : Control) : EventOp s (takeRecord n a k s) := by
  unfold takeRecord
  split
  · next h => exact (EventOp.of_writeWord h).trans enterFault_eventOp
  · next h =>
    split
    · next g => exact ((EventOp.of_writeWord h).trans (.of_readWords g)).trans enterFault_eventOp
    · next g =>
      have loaded := (EventOp.of_writeWord h).trans (.of_readWords g)
      exact ((((loaded.modChan _).modChan _).trans (applyDirective_eventOp ..)).modChan _).trans
        (statusEvent_eventOp _)

theorem lookAtRecord_eventOp : EventOp s (lookAtRecord n s) := by
  dsimp only [lookAtRecord]
  split
  · next h => exact (EventOp.of_readWord h).trans enterFault_eventOp
  · next h =>
    split
    · exact (EventOp.of_readWord h).trans starveAndBegin_eventOp
    · split
      · next g => exact ((EventOp.of_readWord h).trans (.of_readWord g)).trans enterFault_eventOp
      · next g =>
        have control := (EventOp.of_readWord h).trans (.of_readWord g)
        split
        · exact control.trans (takeRecord_eventOp ..)
        · exact control.trans (refuseRecord_eventOp ..)

theorem take_eventOp : EventOp s (take n s) := by
  unfold take
  split
  · exact lookAtRecord_eventOp
  · have link := followLink_eventOp (n := n) (s := s) (s.chan n).walk.cursor
    split
    · next h => rwa [h] at link
    · next h =>
      rw [h] at link
      split
      · exact link.trans starveAndBegin_eventOp
      · exact link.trans lookAtRecord_eventOp

/-! ## Closes and boundaries -/

theorem finishClose_eventOp (before : Channel) (m : Measured) (o : RefOutcome)
    (eps : Option (List Sample)) : EventOp s (finishClose n before m o eps s) := by
  have late := ((EventOp.refl.modChan (n := n) (s := s) fun c => searchAtClose m.u (applyClose m eps c)).trans
    (guardAndProgram_eventOp (n := n) m.er m.eu)).trans (statusEvent_eventOp (n := n) before)
  dsimp only [finishClose]
  split
  · exact late
  · exact late.trans (completeDone_eventOp ..)

theorem closeBlock_eventOp : EventOp s (closeBlock n s) := by
  have stuck := EventOp.refl.raiseIf (s := s) ((s.chan n).hist.stuckRun == 199 &&
    (measure (s.chan n)).stuckRun == 200) (chanSource n) .stuck
  dsimp only [closeBlock]
  split
  · exact stuck.trans (finishClose_eventOp ..)
  · split
    · split
      · next h => exact ((stuck.trans (.of_readWords h)).modChan _).trans enterFault_eventOp
      · next h => exact (stuck.trans (.of_readWords h)).trans (finishClose_eventOp ..)
    · exact stuck.trans (finishClose_eventOp ..)

theorem boundary_eventOp : EventOp s (boundary n s) := by
  have closed : EventOp s (if (s.chan n).line.inBlock then (closeBlock n s).modChan n blockClosed else s) :=
    iteInduction (fun _ => closeBlock_eventOp.modChan _) fun _ => .refl
  unfold boundary
  refine iteInduction (fun _ => ?_) fun _ => .refl
  exact iteInduction (fun _ => closed.trans take_eventOp) fun _ => closed

end Sys2Proof.Machine
end

