-- ==== Sys2Proof/Proofs/LineLock.lean ====
section
/-! Proofs about the lock at the eighth spaced sync (R48, R98, R109, R159). -/

namespace Sys2Proof.Machine

/-! ## The lock's step of one channel (R48, R109) -/

/-- A running channel at its turn but for the mark of a due status write: zeroed, LINE gone. -/
def lockedChan (c : Channel) : Channel := removeHoldChan .line (lockChan c)

/-- What every field of a running channel is after its turn. -/
theorem notDue_lockedChan (c : Channel) : notDue (lockedChan c) = Locked c := by
  unfold lockedChan removeHoldChan Locked
  rw [show (lockChan c).state = c.state from rfl]
  by_cases hs : c.state = .held
  · rw [if_pos hs, if_pos hs]
    cases hd : c.holdDirective with
    | true =>
      rw [if_pos (by simp [setHold, lockChan, zeroTakenRun, hd])]
      simp [hs, notDue, setHold, lockChan, zeroTakenRun, -List.reduceReplicate, hd]
      rfl
    | false =>
      rw [if_neg (by simp [setHold, lockChan, zeroTakenRun, hd])]
      simp [hs, notDue, setHold, lockChan, zeroTakenRun, -List.reduceReplicate, hd, leaveHeld]
      refine ⟨?_, rfl⟩
      rcases c.resume with _ | _ | _ <;> rfl
  · rw [if_neg hs, if_neg hs, if_neg (hs ·.1), if_neg (hs ·.1)]
    rfl

/-- The state of a running channel after its turn. -/
theorem lockedChan_state (c : Channel) : (lockedChan c).state =
    if c.state = .held ∧ c.holdDirective = false then
      (if c.resume = some .tracking then .tracking else .training) else c.state :=
  congrArg Channel.state (notDue_lockedChan c)

/-- A channel leaves its state at its turn when LINE is its only hold reason. -/
theorem lockedChan_state_ne (c : Channel) :
    (lockedChan c).state ≠ c.state ↔ c.state = .held ∧ c.holdDirective = false := by
  rw [lockedChan_state]
  by_cases h : c.state = .held ∧ c.holdDirective = false
  · rw [if_pos h, h.1]
    split <;> simp [h.2]
  · simp [h]

theorem pack4_second (b0 b1 b2 b3 : Nat) :
    (pack4 b0 b1 b2 b3).extractLsb' 8 8 = BitVec.ofNat 8 b1 := by
  apply BitVec.eq_of_getLsbD_eq
  intro i hi
  simp only [pack4, wordOfBytes, BitVec.getLsbD_extractLsb', BitVec.getLsbD_append, hi,
    show 8 + i < 16 by omega, show ¬ 8 + i < 8 by omega, show 8 + i - 8 = i by omega, decide_true,
    Bool.true_and, if_true]
  rfl

/-- The words of a channel that leaves HELD, or that loses a LINE it had, are not those it had. -/
theorem statusWords_lockedChan {c : Channel} (hs : c.state = .held)
    (h : c.holdDirective = false ∨ c.holdLine = true) : statusWords c ≠ statusWords (lockedChan c) := by
  intro same
  obtain ⟨first, -⟩ := List.cons.inj same
  have codes := congrArg (BitVec.extractLsb' 0 8) first
  have holds := congrArg (BitVec.extractLsb' 8 8) first
  rw [pack4_low, pack4_low] at codes
  rw [pack4_second, pack4_second] at holds
  have line : (lockedChan c).holdLine = false :=
    (congrArg Channel.holdLine (notDue_lockedChan c)).trans (if_pos hs)
  have directive : (lockedChan c).holdDirective = c.holdDirective :=
    (congrArg Channel.holdDirective (notDue_lockedChan c) :)
  cases hd : c.holdDirective with
  | false =>
    rw [lockedChan_state, if_pos ⟨hs, hd⟩, hs] at codes
    split at codes <;> exact absurd codes (by decide)
  | true =>
    rw [line, directive, hd, h.resolve_left (by simp [hd])] at holds
    exact absurd holds (by decide)

/-- A running channel's turn but for its status write. -/
def lockTurned (n : Fin 32) (s : State) : State :=
  { s.modChan n lockedChan with
    attn := if (s.chan n).state = .held ∧ (s.chan n).holdDirective = false then
      attnRaise (chanSource n) .state s.attn else s.attn }

theorem lockStep_running {n : Fin 32} {s : State} (h : running (s.chan n) = true) :
    lockStep s n = statusEvent n (s.chan n) (lockTurned n s) := by
  have turned : changeHold n (removeHoldChan .line) (s.modChan n lockChan) = lockTurned n s := by
    unfold changeHold lockTurned
    dsimp only
    rw [modChan_chan_self, modChan_modChan, modChan_chan_self]
    have moved : decide ((lockedChan (s.chan n)).state ≠ (s.chan n).state) =
        decide ((s.chan n).state = .held ∧ (s.chan n).holdDirective = false) :=
      decide_eq_decide.2 (lockedChan_state_ne _)
    show raiseIf (decide ((lockedChan (s.chan n)).state ≠ (s.chan n).state)) (chanSource n) .state
      (s.modChan n lockedChan) = _
    rw [moved]
    by_cases hl : (s.chan n).state = .held ∧ (s.chan n).holdDirective = false
    · rw [decide_eq_true hl, if_pos hl]
      rfl
    · rw [decide_eq_false hl, if_neg hl]
      rfl
  rw [lockStep, if_pos h, ← turned]

theorem lockStep_stopped {n : Fin 32} {s : State} (h : running (s.chan n) = false) :
    lockStep s n = s.modChan n lockStopped := by
  rw [lockStep, if_neg (by simp [h])]

/-- A status event takes the mark of a due status write away (R159). -/
theorem statusEvent_chan {n : Fin 32} {s : State} (before : Channel) :
    (statusEvent n before s).chan n = notDue (s.chan n) := by
  unfold statusEvent
  split
  · exact statusWrite_chan
  · next h =>
    rw [Bool.or_eq_true, not_or, Bool.not_eq_true] at h
    rw [notDue, ← h.1]

theorem lockStep_chan {n : Fin 32} {s : State} (h : running (s.chan n) = true) :
    (lockStep s n).chan n = Locked (s.chan n) := by
  rw [lockStep_running h, statusEvent_chan, ← notDue_lockedChan]
  exact congrArg notDue (modChan_chan_self ..)

/-- Of a channel not running the taken run alone may change, to 0 (R98, R109; log 20). -/
theorem lockStopped_eq (c : Channel) : ∃ run, (run = 0 ∨ run = c.walk.takenRun) ∧
    lockStopped c = { c with walk := { c.walk with takenRun := run } } :=
  ⟨_, (ite_eq_or_eq ..).imp id id, rfl⟩

theorem lockStep_eventOp {n : Fin 32} {s : State} : EventOp s (lockStep s n) := by
  unfold lockStep
  split
  · exact ((EventOp.refl.modChan _).trans (changeHold_eventOp _)).trans (statusEvent_eventOp _)
  · exact .modChan .refl _

/-- STATE stands after the turn of a channel that leaves HELD (R48, R166). -/
theorem lockStep_state {n : Fin 32} {s : State} (hs : (s.chan n).state = .held)
    (hd : (s.chan n).holdDirective = false) (hp : s.attn.sources[chanSource n].priority ≠ 0#3) :
    HasCause (lockStep s n).attn (chanSource n) .state := by
  rw [lockStep_running (by simp [running, hs])]
  have attn : (lockTurned n s).attn = attnRaise (chanSource n) .state s.attn := if_pos ⟨hs, hd⟩
  refine (statusEvent_eventOp (n := n) (s.chan n)).grows.cause _ _ ?_
  rw [attn]
  exact hasCause_attnRaise .state hp

/-- The turn of a channel, no access meeting an error. -/
theorem lockStep_lockTurn {n : Fin 32} {s : State} (hbus : s.bus = []) (hw : MemLegal s) :
    LockTurn n s (lockStep s n) := by
  refine ⟨lockStep_lineOp.op.others, fun h => ?_, fun h => ?_⟩
  · rw [lockStep_stopped h, modChan_chan_self]
    exact ⟨rfl, lockStopped_eq _⟩
  · have chan := lockStep_chan h
    obtain ⟨m, form, -, frame, shown⟩ :=
      statusEvent_idle (s := lockTurned n s) (n := n) (s.chan n) hbus hw
    rw [← lockStep_running h] at form
    refine ⟨by rw [form]; rfl, chan, by rw [form]; rfl, fun hb hs hl i hi => ?_, by rw [form]; exact frame⟩
    have turned : (lockTurned n s).chan n = lockedChan (s.chan n) := modChan_chan_self ..
    rw [turned] at shown
    rw [chan, ← notDue_lockedChan, form]
    exact shown hb (statusWords_lockedChan hs hl) i hi

/-! ## The turns in index order -/

theorem turns_eventOp (l : List (Fin 32)) {s : State} : EventOp s (l.foldl lockStep s) := by
  induction l generalizing s with
  | nil => exact .refl
  | cons n l ih => exact lockStep_eventOp.trans ih

theorem turns_memLegal (l : List (Fin 32)) {s : State} (h : MemLegal s) : MemLegal (l.foldl lockStep s) :=
  (AllOp.foldl (fun _ _ => lockStep_lineOp.allOp) l).mem h

theorem turns_others {n : Fin 32} {l : List (Fin 32)} {s : State} (h : n ∉ l) :
    (l.foldl lockStep s).chan n = s.chan n := by
  induction l generalizing s with
  | nil => rfl
  | cons k l ih =>
    obtain ⟨hk, hl⟩ := not_or.1 (mt List.mem_cons.2 h)
    rw [List.foldl_cons, ih hl, lockStep_lineOp.op.others n hk]

/-- Every channel has one turn: the turns before it leave the channel as it was, those after it leave it as
its own left it. -/
theorem turn_within (n : Fin 32) (s : State) : ∃ v, v.chan n = s.chan n ∧ EventOp s v ∧
    EventOp (lockStep v n) (allChans.foldl lockStep s) ∧
    (allChans.foldl lockStep s).chan n = (lockStep v n).chan n := by
  obtain ⟨before, after, order⟩ := List.append_of_mem (mem_allChans n)
  have once := allChans_nodup
  rw [order, List.nodup_append] at once
  obtain ⟨-, later, apart⟩ := once
  refine ⟨before.foldl lockStep s, turns_others fun h => apart n h n List.mem_cons_self rfl,
    turns_eventOp before, ?_, ?_⟩
  · rw [order, List.foldl_append]
    exact turns_eventOp after
  · rw [order, List.foldl_append]
    exact turns_others (List.nodup_cons.1 later).1

/-- The channels below `k` have had their turns. -/
def turnsBefore (k : Nat) (s : State) : State := (allChans.take k).foldl lockStep s

theorem turnsBefore_succ (n : Fin 32) (s : State) :
    turnsBefore (n.val + 1) s = lockStep (turnsBefore n.val s) n := by
  have next : allChans.take (n.val + 1) = allChans.take n.val ++ [n] := by
    rw [List.take_succ_eq_append_getElem (by simp [allChans])]
    simp [allChans]
  rw [turnsBefore, next, List.foldl_append]
  rfl

theorem turnsBefore_all (s : State) : turnsBefore 32 s = allChans.foldl lockStep s := rfl

/-! ## The eighth sync -/

/-- The port at a lock (R109). -/
def lockPort (p : Port) : Port :=
  { p with state := .locked, syncRun := 8, frameCount := 0, framePos := 0, stallArmed := true }

/-- What follows the turns of a lock: LINE_LOCKED, and frame 0 (R109, R111). -/
def lockFrame (s : State) : State := sendFrame (boundary 0 (raise partSource .lineLocked s))

theorem serveFrame_zero (s : State) : serveFrame 0 s = sendFrame (boundary 0 s) := rfl

theorem huntSync_eighth {s : State} (seven : s.port.syncRun = 7) :
    huntSync (frameLength s.port.activeFmt) s =
      lockFrame (allChans.foldl lockStep { s with port := lockPort s.port }) := by
  have run : (if s.port.syncRun = 0 then 1
      else if frameLength s.port.activeFmt = frameLength s.port.activeFmt then s.port.syncRun + 1
      else 1) = 8 := by
    rw [seven, if_neg (by omega), if_pos rfl]
  unfold huntSync
  dsimp only
  rw [run, if_pos (by omega), lock, serveFrame_zero]
  rfl

/-- The whole of a lock (R109). -/
def lockAll (s : State) : State :=
  lockFrame (allChans.foldl lockStep { s with port := lockPort s.port })

/-- What a work under a bus script leaves but for memory and the script is what the work itself leaves. -/
theorem onBus_fields (bus : Bus) (f : State → State) (s : State) :
    (onBus bus f s).port = (f { s with bus := bus }).port ∧
    (onBus bus f s).enabled = (f { s with bus := bus }).enabled ∧
    (onBus bus f s).attn = (f { s with bus := bus }).attn ∧
    ∀ n, (onBus bus f s).chan n = (f { s with bus := bus }).chan n := ⟨rfl, rfl, rfl, fun _ => rfl⟩

/-- Under an empty script a work that leaves it empty is all there is. -/
theorem onBus_idle {f : State → State} {s : State} (h : s.bus = []) (hf : (f s).bus = []) :
    onBus [] f s = f s := by
  have same : { s with bus := [] } = s := by rw [← h]
  have done : ∀ t : State, t.bus = [] →
      { t with mem := t.bus.foldl (fun m b => applyHost b.host m) t.mem, bus := [] } = t := by
    intro t ht
    have emptied : { t with bus := [] } = t := by rw [← ht]
    rw [ht]
    exact emptied
  unfold onBus
  rw [same]
  exact done _ hf

theorem exec_eighthSync {l : LSync} {s : State} (bus : Bus) (hunt : s.port.state = .hunt)
    (seven : s.port.syncRun = 7) (active : ToActive s.port.activeFmt l) :
    exec (.syncInHunt ⟨s.port.activeFmt.slots.toNat * 16 + 4, l⟩ bus) s = .next (onBus bus lockAll s) := by
  have seen : lsyncSampled (frameLength s.port.activeFmt) l { s with bus := bus } =
      lockAll { s with bus := bus } := by
    rw [lsyncSampled_sync (s := { s with bus := bus }) _ active, syncSeen]
    simp only [hunt]
    exact huntSync_eighth (s := { s with bus := bus }) seven
  show Host.Outcome.next (onBus bus (lsyncSampled (frameLength s.port.activeFmt) l) s) = _
  unfold onBus
  rw [seen]

theorem lockFrame_chan {n : Fin 32} {s : State} (hn : n.val ≠ 0) :
    (lockFrame s).chan n = advancePlay (s.chan n) := by
  rw [lockFrame, sendFrame_chan, boundary_boundaryOp.op.others n (fun h => hn (congrArg Fin.val h)),
    raise_chan]

theorem lockFrame_port (s : State) :
    (lockFrame s).port = { s.port with frameOut := (lockFrame s).port.frameOut } := by
  have port : (boundary 0 (raise partSource .lineLocked s)).port = s.port := boundary_boundaryOp.op.port
  rw [← port]
  rfl

theorem lockFrame_enabled (s : State) : (lockFrame s).enabled = s.enabled :=
  boundary_boundaryOp.op.enabled

theorem lockFrame_eventOp (s : State) : EventOp (raise partSource .lineLocked s) (lockFrame s) :=
  boundary_eventOp.trans (.of_eq rfl rfl)

/-- LINE_LOCKED stands, the part source's priority being 7 (R109, R165). -/
theorem lockFrame_lineLocked {s : State} (h : AttnLegal s.attn) :
    HasCause (lockFrame s).attn partSource .lineLocked := by
  refine (lockFrame_eventOp s).grows.cause _ _ (hasCause_attnRaise .lineLocked ?_)
  rw [h.2.1]
  decide

theorem lockFrame_idle {s : State} (h : s.bus = []) : (lockFrame s).bus = [] := (lockFrame_eventOp s).idle h

theorem advancePlay_eq (c : Channel) :
    ∃ p, advancePlay c = { c with line := { c.line with playPos := p } } := by
  unfold advancePlay
  split
  · exact ⟨_, rfl⟩
  · exact ⟨c.line.playPos, rfl⟩

/-- Every channel but channel 0 after a lock is as its own turn left it, one play position on (R109, R112). -/
theorem lockAll_chan {n : Fin 32} {s : State} (hn : n.val ≠ 0) : ∃ v, v.chan n = s.chan n ∧
    AttnGrows s.attn v.attn ∧ AttnGrows (lockStep v n).attn (lockAll s).attn ∧
    (lockAll s).chan n = advancePlay ((lockStep v n).chan n) := by
  obtain ⟨v, before, others, later, chan⟩ := turn_within n { s with port := lockPort s.port }
  refine ⟨v, before, others.grows, ?_, (lockFrame_chan hn).trans (congrArg advancePlay chan)⟩
  exact ((later.raise partSource .lineLocked).trans (lockFrame_eventOp _)).grows

theorem lockAll_port (s : State) :
    (lockAll s).port = { lockPort s.port with frameOut := (lockAll s).port.frameOut } := by
  have steps := (lockSteps_allOp (s := { s with port := lockPort s.port })).port
  have frame := lockFrame_port (allChans.foldl lockStep { s with port := lockPort s.port })
  rw [steps] at frame
  exact frame

theorem lockAll_enabled (s : State) : (lockAll s).enabled = s.enabled :=
  (lockFrame_enabled _).trans (lockSteps_allOp (s := { s with port := lockPort s.port })).enabled

theorem lockAll_lineLocked {s : State} (h : AttnLegal s.attn) :
    HasCause (lockAll s).attn partSource .lineLocked := by
  have legal := (lockSteps_allOp (s := { s with port := lockPort s.port })).attn h
  exact lockFrame_lineLocked legal

/-- Settles O12: every channel's turn by `lockAll_chan`, its effects by `lockStep_chan` and
`lockStep_lockTurn`. -/
theorem eighthSyncLocks : Obligations.EighthSyncLocks := by
  refine ⟨?_, ?_⟩
  · intro l bus s hunt seven active
    obtain ⟨port, enabled, attn, chans⟩ := onBus_fields bus lockAll s
    rw [lockAll_port] at port
    rw [lockAll_enabled] at enabled
    refine ⟨_, exec_eighthSync bus hunt seven active, congrArg Port.state port,
      congrArg Port.frameCount port, congrArg Port.framePos port, congrArg Port.stallArmed port,
      (congrArg Port.activeFmt port :), enabled, fun legal => ?_, fun n hn => ?_⟩
    · rw [attn]
      exact lockAll_lineLocked legal
    · obtain ⟨v, before, others, later, last⟩ := lockAll_chan (s := { s with bus := bus }) hn
      replace before : v.chan n = s.chan n := before
      rw [chans, attn, last]
      refine ⟨fun stopped idle => ?_, fun runs => ?_⟩
      · obtain ⟨run, hrun, form⟩ := lockStopped_eq (s.chan n)
        refine ⟨run, hrun, ?_⟩
        rw [lockStep_stopped (before ▸ stopped), modChan_chan_self, before, ← form]
        exact if_neg (by rw [form]; simp [idle])
      · obtain ⟨p, play⟩ := advancePlay_eq (Locked (s.chan n))
        rw [lockStep_chan (before ▸ runs), before, play]
        refine ⟨rfl, rfl, rfl, rfl, rfl, ⟨rfl, rfl⟩, rfl, rfl, rfl, rfl, rfl, rfl, fun hs => if_pos hs,
          fun hs hd hp => later.cause _ _ (lockStep_state (before ▸ hs) (before ▸ hd) ?_)⟩
        rw [others.priority]
        exact hp
  · intro l s hbus hw hunt seven active
    generalize hu : ({ s with port := lockPort s.port } : State) = u
    have idle : u.bus = [] := by rw [← hu]; exact hbus
    have legal : MemLegal u := by rw [← hu]; exact hw
    have final : lockAll s = lockFrame (turnsBefore 32 u) := by rw [turnsBefore_all, ← hu, lockAll]
    refine ⟨fun k => turnsBefore k u, hu.symm, fun n => ?_, ?_⟩
    · show LockTurn n (turnsBefore n.val u) (turnsBefore (n.val + 1) u)
      rw [turnsBefore_succ]
      exact lockStep_lockTurn ((turns_eventOp _).idle idle) (turns_memLegal _ legal)
    · rw [exec_eighthSync [] hunt seven active, onBus_idle hbus, final]
      · rfl
      · rw [final]
        exact lockFrame_idle ((turns_eventOp (allChans.take 32)).idle idle)

end Sys2Proof.Machine
end

/-! Proofs about what every command keeps: the laws that read the lines of the part alone, by the eleven
operations that the commands are made of (R27, R28, R31, R73 to R75, R105, R117, R173). -/

namespace Sys2Proof.Machine

variable {s t u : State} {n : Fin 32}

/-! ## Laws of the lines -/

/-- ENABLE, the port but for its position and shift out, the channels, the pool and the queue are as they
were. -/
structure SameLines (s t : State) : Prop where
  enabled : t.enabled = s.enabled
  state   : t.port.state = s.port.state
  armed   : t.port.stallArmed = s.port.stallArmed
  format  : t.port.activeFmt = s.port.activeFmt
  chans   : t.chans = s.chans
  pool    : t.pool = s.pool
  pending : t.pending = s.pending

theorem SameLines.refl : SameLines s s := ⟨rfl, rfl, rfl, rfl, rfl, rfl, rfl⟩

theorem SameLines.chan (h : SameLines s t) (n : Fin 32) : t.chan n = s.chan n := by
  unfold State.chan
  rw [h.chans]

/-- A law that reads nothing but the lines, and that each operation which changes them keeps. -/
structure LineLaw (law : State → Prop) : Prop where
  congr     {s t : State} : law s → SameLines s t → law t
  hardReset {s : State} : law s → law (hardwareResetPart s)
  softReset {s : State} : law s → law (softResetPart s)
  enable    {s : State} : s.enabled = false → law s → law (enablePart s)
  restart   {s : State} : s.enabled = true → s.port.state ≠ .off → law s → law (restartLine s)
  stall     {s : State} : s.port.stallArmed = true → law s → law (stallPort s)
  turns     {s : State} : s.port.state = .hunt → law s →
    law (allChans.foldl lockStep { s with port := { s.port with
      state := .locked, frameCount := 0, framePos := 0, stallArmed := true } })
  rearm     {s : State} : s.port.state = .locked → law s →
    law { s with port := { s.port with stallArmed := true } }
  boundary  {s : State} (n : Fin 32) : s.port.state = .locked → law s → law (boundary n s)
  send      {s : State} : law s → law (sendFrame s)
  capture   {s : State} (n : Fin 32) (x : Sample) : law s → law (s.modChan n (captureSample x))
  serve     {s : State} (n : Fin 32) : s.enabled = true → law s → law (serveChannel s n)

namespace LineLaw

variable {law : State → Prop}

/-- A command's work under its bus script. -/
theorem onBus (L : LineLaw law) {f : State → State} (bus : Bus) (hf : ∀ s, law s → law (f s))
    (h : law s) : law (onBus bus f s) :=
  have scripted : law { s with bus := bus } := L.congr h ⟨rfl, rfl, rfl, rfl, rfl, rfl, rfl⟩
  L.congr (hf _ scripted) ⟨rfl, rfl, rfl, rfl, rfl, rfl, rfl⟩

theorem restartLine (L : LineLaw law) (on : s.enabled = true) (h : law s) : law (restartLine s) := by
  by_cases off : s.port.state = .off
  · have idle : Machine.restartLine s = s := by simp only [Machine.restartLine, off]
    rwa [idle]
  · exact L.restart on off h

/-- A write of PART_CONTROL (R163). -/
theorem partControlWrite (L : LineLaw law) (v : Word) (h : law s) : law (partControlWrite v s) := by
  unfold Machine.partControlWrite
  have taken : law (takeControlFields (flag v 4) (v.extractLsb' 8 3) s) :=
    L.congr h ⟨rfl, rfl, rfl, rfl, rfl, rfl, rfl⟩
  generalize takeControlFields (flag v 4) (v.extractLsb' 8 3) s = w at taken ⊢
  unfold controlAction
  split_ifs with reset on off restart enable
  · exact L.softReset taken
  · exact L.softReset taken
  · exact L.restartLine on taken
  · exact taken
  · exact L.enable (by simpa using on) taken
  · exact taken

/-- A write at an offset of the window (R161). -/
theorem registerWrite (L : LineLaw law) (offset v : Word) (h : law s) :
    law (registerWrite offset v s) := by
  unfold Machine.registerWrite
  split_ifs
  · unfold tableBaseWrite
    split
    · exact h
    · exact L.congr h ⟨rfl, rfl, rfl, rfl, rfl, rfl, rfl⟩
  · exact L.partControlWrite v h
  · exact L.congr h ⟨rfl, rfl, rfl, rfl, rfl, rfl, rfl⟩
  · exact L.congr h ⟨rfl, rfl, rfl, rfl, rfl, rfl, rfl⟩
  · exact h

/-- A frame served in LOCKED (R111). -/
theorem serveFrame (L : LineLaw law) (f : Nat) (locked : s.port.state = .locked) (h : law s) :
    law (serveFrame f s) := by
  unfold Machine.serveFrame
  refine L.send ?_
  split
  · exact L.boundary _ locked h
  · exact h

/-- The lock (R109). -/
theorem lock (L : LineLaw law) (hunt : s.port.state = .hunt) (h : law s) : law (lock s) := by
  have turned := L.turns hunt h
  have port := (lockSteps_allOp (s := { s with port := { s.port with
    state := .locked, frameCount := 0, framePos := 0, stallArmed := true } })).port
  unfold Machine.lock
  dsimp only
  generalize allChans.foldl lockStep _ = w at turned port ⊢
  have raised : law (raise partSource .lineLocked w) := L.congr turned ⟨rfl, rfl, rfl, rfl, rfl, rfl, rfl⟩
  exact L.serveFrame 0 (congrArg Port.state port) raised

/-- A frame arrival (R110). -/
theorem acceptFrame (L : LineLaw law) (locked : s.port.state = .locked) (h : law s) :
    law (acceptFrame s) := by
  have counted : law { s with port := { s.port with
      framePos := 0, stallArmed := true, frameCount := nextFrameCount s.port.frameCount } } :=
    L.congr (L.rearm locked h) ⟨rfl, rfl, rfl, rfl, rfl, rfl, rfl⟩
  exact L.serveFrame _ locked counted

/-- A sync by the port state (R106, R108, R110). -/
theorem syncSeen (L : LineLaw law) (clocks : Nat) (h : law s) : law (syncSeen clocks s) := by
  unfold Machine.syncSeen
  split
  · exact h
  · next hunt =>
    have counted : ∀ run, law { s with port := { s.port with syncRun := run, framePos := 0 } } :=
      fun _ => L.congr h ⟨rfl, rfl, rfl, rfl, rfl, rfl, rfl⟩
    unfold huntSync
    exact iteInduction (fun _ => L.lock hunt (counted _)) fun _ => counted _
  · next locked =>
    split
    · exact L.acceptFrame locked h
    · exact L.congr h ⟨rfl, rfl, rfl, rfl, rfl, rfl, rfl⟩

theorem lsyncSampled (L : LineLaw law) (clocks : Nat) (l : LSync) (h : law s) :
    law (lsyncSampled clocks l s) := by
  unfold Machine.lsyncSampled
  split
  · exact L.syncSeen clocks h
  · exact h

theorem frameMissed (L : LineLaw law) (h : law s) : law (frameMissed s) := by
  unfold Machine.frameMissed
  split
  · exact h
  · exact L.congr h ⟨rfl, rfl, rfl, rfl, rfl, rfl, rfl⟩
  · exact L.congr h ⟨rfl, rfl, rfl, rfl, rfl, rfl, rfl⟩

theorem deliverSample (L : LineLaw law) (slot : Nat) (x : Sample) (h : law s) :
    law (deliverSample slot x s) := by
  unfold Machine.deliverSample
  split
  · exact h
  · refine iteInduction (fun _ => h) fun _ => ?_
    have moved : law { s with port := { s.port with framePos := slotEnd s.port.activeFmt slot } } :=
      L.congr h ⟨rfl, rfl, rfl, rfl, rfl, rfl, rfl⟩
    dsimp only
    split
    · exact L.capture _ x moved
    · exact moved

/-- A maintenance visit: the descriptors of the line channels in order; descriptor 32 and the store step do
not reach the lines (R136). -/
theorem visit (L : LineLaw law) (on : s.enabled = true) (h : law s) : law (visit s) := by
  have served : ∀ l : List (Fin 32), law (l.foldl serveChannel s) ∧
      (l.foldl serveChannel s).enabled = true := fun l => by
    induction l using List.reverseRecOn with
    | nil => exact ⟨h, on⟩
    | append_singleton l n ih =>
      rw [List.foldl_concat]
      exact ⟨L.serve n ih.2 ih.1, (serveChannel_visitOp.op.enabled).trans ih.2⟩
  unfold Machine.visit
  have same : ∀ {v w : State}, MaintOp v w → law v → law w := fun g hv =>
    L.congr hv ⟨g.enabled, g.port ▸ rfl, g.port ▸ rfl, g.port ▸ rfl, g.chans, g.pool, g.pending⟩
  refine same storeStep_storeOp.op (iteInduction (fun _ => h) fun _ => ?_)
  exact same serveMaint_storeOp.op (served allChans).1

/-- Every command keeps a law of the lines. -/
theorem exec (L : LineLaw law) (c : Instr) (h : law s) (e : exec c s = .next t) : law t := by
  cases c <;> obtain rfl := Host.Outcome.next.inj e
  case hardwareReset => exact L.hardReset h
  case tableBaseWrite v => exact L.registerWrite 0x00#32 v h
  case lineFormatWrite v => exact L.registerWrite 0x08#32 v h
  case enable v => exact L.onBus _ (fun _ => L.partControlWrite _) h
  case disable v => exact L.onBus _ (fun _ => L.partControlWrite _) h
  case softReset v => exact L.onBus _ (fun _ => L.partControlWrite _) h
  case lineRestart v bus => exact L.onBus bus (fun _ => L.partControlWrite _) h
  case setAttnThreshold t => exact L.congr h ⟨rfl, rfl, rfl, rfl, rfl, rfl, rfl⟩
  case setAttnMode p t => exact L.congr h ⟨rfl, rfl, rfl, rfl, rfl, rfl, rfl⟩
  case claim => exact L.congr h ⟨rfl, rfl, rfl, rfl, rfl, rfl, rfl⟩
  case peek => exact L.congr h ⟨rfl, rfl, rfl, rfl, rfl, rfl, rfl⟩
  case sourceCompletion v => exact L.registerWrite 0x10#32 v h
  case ignoredRegisterWrite offset v => exact L.onBus _ (fun _ => L.registerWrite offset v) h
  case syncInHunt sync bus => exact L.onBus bus (fun _ => L.lsyncSampled _ _) h
  case huntFrameMissed => exact L.frameMissed h
  case frameArrival arrival => exact L.onBus arrival.bus (fun _ => L.lsyncSampled _ _) h
  case syncIgnored sync => exact L.onBus _ (fun _ => L.lsyncSampled _ _) h
  case missingFrame => exact L.frameMissed h
  case sampleDelivery slot lrx => exact L.deliverSample _ _ h
  case stall bus => exact L.onBus bus (fun _ h => iteInduction (fun a => L.stall a h) fun _ => h) h
  case maintenanceVisit bus =>
    exact L.onBus bus (fun _ h => iteInduction (fun a => L.visit a h) fun _ => h) h
  case attnPulseEnd => exact L.congr h ⟨rfl, rfl, rfl, rfl, rfl, rfl, rfl⟩

/-- Every step keeps a law of the lines that does not read the queue. -/
theorem keptByStep (L : LineLaw law) (queue : ∀ s rest, law s → law { s with pending := rest }) :
    KeptByStep law := by
  intro s t h e
  unfold step at e
  split at e
  · obtain rfl := Host.Outcome.next.inj e
    exact h
  · next c rest _ => exact L.exec c (queue s rest h) e

/-- A law that reads the channels, the pool and the queue alone is kept when each channel's own events keep
it. -/
theorem of_chans {law : State → Prop}
    (same : ∀ {s t : State}, law s → t.chans = s.chans → t.pool = s.pool → t.pending = s.pending → law t)
    (atHardReset : ∀ {s : State}, law s → law (hardwareResetPart s))
    (atSoftReset : ∀ {s : State}, law s → law (softResetPart s))
    (atLock : ∀ {s : State} (n : Fin 32), law s → law (lockStep s n))
    (atLoss : ∀ {s : State} (slots : Option Nat) (n : Fin 32), law s → law (loseLine slots s n))
    (atBoundary : ∀ {s : State} (n : Fin 32), law s → law (Machine.boundary n s))
    (atSend : ∀ {s : State}, law s → law (sendFrame s))
    (atCapture : ∀ {s : State} (n : Fin 32) (x : Sample), law s → law (s.modChan n (captureSample x)))
    (atServe : ∀ {s : State} (n : Fin 32), law s → law (serveChannel s n)) : LineLaw law := by
  have turns : ∀ {s : State} {f : State → Fin 32 → State} (_ : ∀ {s : State} n, law s → law (f s n))
      (l : List (Fin 32)), law s → law (l.foldl f s) := fun hf l => by
    intro h
    induction l using List.reverseRecOn with
    | nil => exact h
    | append_singleton l n ih =>
      rw [List.foldl_concat]
      exact hf n ih
  have port : ∀ {s : State} (p : Port), law s → law { s with port := p } := fun _ h => same h rfl rfl rfl
  have lost : ∀ {s : State} (slots : Option Nat), law s → law (lineLost slots s) := fun {s} slots h => by
    have all := turns (atLoss slots) allChans (port (toHunt s.port) h)
    unfold lineLost
    generalize allChans.foldl (loseLine slots) _ = w at all ⊢
    exact same all rfl rfl rfl
  exact {
    congr := fun h g => same h g.chans g.pool g.pending
    hardReset := atHardReset
    softReset := atSoftReset
    enable := fun _ h => same h rfl rfl rfl
    restart := fun {s} _ off h => by
      unfold Machine.restartLine
      dsimp only
      split
      · contradiction
      · exact lost _ (port _ h)
      · exact lost _ (port _ h)
    stall := fun _ h => lost none h
    turns := fun _ h => turns atLock allChans (port _ h)
    rearm := fun _ h => port _ h
    boundary := fun n _ h => atBoundary n h
    send := atSend
    capture := atCapture
    serve := fun n _ h => atServe n h }

end LineLaw

/-! ## Every command completes -/

/-- No command reaches the queue (log 4). -/
theorem pending_lineLaw (p : List Instr) : LineLaw fun s => s.pending = p :=
  .of_chans (fun h _ _ g => g.trans h) id (fun h => softReset_fields.2.2.2.2.2.2.2.2.2.2.trans h)
    (fun _ h => lockStep_lineOp.op.pending.trans h)
    (fun _ _ h => (loseLine_lineOp _).1.op.pending.trans h)
    (fun _ h => boundary_boundaryOp.op.pending.trans h) id (fun _ _ => id)
    (fun _ h => serveChannel_visitOp.op.pending.trans h)

/-- A command leaves no script behind, one that has none an empty one empty (log 1). -/
theorem exec_bus (c : Instr) (e : exec c s = .next t) (h : s.bus = []) : t.bus = [] := by
  cases c <;> obtain rfl := Host.Outcome.next.inj e
  case tableBaseWrite v =>
    unfold tableBaseWrite
    split <;> exact h
  case huntFrameMissed =>
    unfold frameMissed
    split <;> exact h
  case missingFrame =>
    unfold frameMissed
    split <;> exact h
  case sampleDelivery slot lrx =>
    unfold deliverSample
    split
    · exact h
    · dsimp only
      split_ifs
      · exact h
      · split <;> exact h
  case lineFormatWrite => exact h
  case setAttnThreshold => exact h
  case setAttnMode => exact h
  case claim => exact h
  case peek => exact h
  case sourceCompletion => exact h
  case attnPulseEnd => exact h
  all_goals rfl

/-- Settles O2: the queue by `pending_lineLaw`, the script by `exec_bus`. -/
theorem everyCommandCompletes : Obligations.EveryCommandCompletes := by
  intro c s
  have next : ∃ t, exec c s = .next t := by cases c <;> exact ⟨_, rfl⟩
  obtain ⟨t, e⟩ := next
  exact ⟨t, e, (pending_lineLaw s.pending).exec c rfl e, exec_bus c e⟩

end Sys2Proof.Machine

/-! Proofs about the laws that every step keeps of the channels, the pool and the port (R27, R28, R31, R73,
R75, R105, R117, R173), and that the reset state meets every law. -/

namespace Sys2Proof.Machine

variable {s t : State} {n : Fin 32}

/-! ## After a hardware reset -/

theorem reset_poolLegal (s : State) : PoolLegal (hardwareResetPart s) := by
  intro x
  have none_held : ∀ k : Fin 32, ((hardwareResetPart s).chan k).segs.count x = 0 := fun k => by
    rw [hardwareReset_chan]
    rfl
  simp only [none_held, Finset.sum_const_zero, add_zero, hardwareReset_pool]
  split
  · next h => exact List.count_eq_one_of_mem List.nodup_range (List.mem_range.2 h)
  · next h => exact List.count_eq_zero_of_not_mem (mt List.mem_range.1 h)

theorem reset_historyLegal (s : State) : HistoryLegal (hardwareResetPart s) := fun n => by
  rw [hardwareReset_chan]
  rfl

theorem reset_holdingLegal (s : State) : HoldingLegal (hardwareResetPart s) := fun n => by
  rw [hardwareReset_chan]
  exact ⟨fun _ => rfl, fun runs => absurd runs (by decide)⟩

theorem reset_slotLegal (s : State) : SlotLegal (hardwareResetPart s) := by
  have stopped : ∀ n, running ((hardwareResetPart s).chan n) = false := fun n => by
    rw [hardwareReset_chan]
    rfl
  refine ⟨fun _ => stopped, fun n runs => ?_, fun n _ _ runs => ?_⟩ <;>
    exact absurd (runs.symm.trans (stopped n)) (by decide)

theorem reset_inflightLegal (s : State) : InflightLegal (hardwareResetPart s) := fun n _ _ f _ hf _ => by
  rw [hardwareReset_chan] at hf
  cases hf

/-- A channel in CLOSED or FAULT without hold reasons or a resume state keeps R27 under any port. -/
theorem chanLegal_stopped {b : Bool} {c : Channel} (hs : c.state = .closed ∨ c.state = .fault)
    (hd : c.holdDirective = false) (hl : c.holdLine = false) (hr : c.resume = none) : ChanLegal b c := by
  rcases hs with hs | hs <;> simp [ChanLegal, hs, hd, hl, hr]

theorem reset_lifeLegal (s : State) : LifeLegal (hardwareResetPart s) := by
  refine ⟨⟨fun _ => rfl, fun _ => rfl⟩, ⟨fun h => Bool.noConfusion h, fun h => PortState.noConfusion h⟩,
    fun _ n => ?_, fun n => ?_⟩
  · rw [hardwareReset_chan]
    rfl
  · rw [hardwareReset_chan]
    exact chanLegal_stopped (.inl rfl) rfl rfl rfl

theorem reset_attnLegal : AttnLegal Attn.reset := by
  have empty : ∀ i : Fin 34, Attn.reset.sources[i].causes = 0#16 := fun i => by rw [reset_source]
  exact ⟨fun _ => (anyClaimable_empty empty).symm, rfl, fun i _ => empty i⟩

theorem reset_storeLegal : StoreLegal State.reset := by
  have free : ∀ i, (entryAt State.reset.store i).state = .free := fun i => by
    rw [show State.reset.store = Store.reset from rfl, entryAt_reset]
    rfl
  refine ⟨fun i _ _ hi => absurd (free i) hi, fun i => ⟨fun moving => ?_, fun target => ?_⟩,
    List.nodup_nil, fun i => ⟨fun listed => absurd listed List.not_mem_nil, fun used => absurd (free i) used⟩⟩
  · rw [inTransfer, free i] at moving
    exact absurd moving (by decide)
  · exact absurd target.2 (by decide)

theorem hardwareResetPart_reset : hardwareResetPart .reset = .reset := by
  unfold hardwareResetPart
  generalize State.reset = s
  rfl

/-- Settles O5: each law by its lemma about the reset state. -/
theorem resetIsLegal : Obligations.ResetIsLegal := by
  have pool := reset_poolLegal .reset
  have hist := reset_historyLegal .reset
  have holding := reset_holdingLegal .reset
  have life := reset_lifeLegal .reset
  have slot := reset_slotLegal .reset
  have inflight := reset_inflightLegal .reset
  rw [hardwareResetPart_reset] at pool hist holding life slot inflight
  exact ⟨⟨List.Pairwise.nil, fun _ h => absurd h List.not_mem_nil⟩, pool, hist, holding, reset_attnLegal,
    life, slot, inflight, reset_storeLegal, fun h => absurd rfl h, fun h => absurd h (by decide)⟩

/-! ## The pool and its history (R73, R75) -/

theorem captureSample_walk (x : Sample) (c : Channel) : (captureSample x c).walk = c.walk := rfl

theorem softResetPart_segs (n : Fin 32) : ((softResetPart s).chan n).segs = [] := by
  rw [softReset_chan]
  rfl

theorem sendFrame_segs (n : Fin 32) : ((sendFrame s).chan n).segs = (s.chan n).segs := by
  rw [sendFrame_chan, (advancePlay_fields _).2.2.2.2.2.2.1]

/-- A received sample reaches the line buffer of its channel alone (R113). -/
theorem modChan_captureSample (n k : Fin 32) (x : Sample) : ∃ l,
    (s.modChan n (captureSample x)).chan k = { s.chan k with line := l } := by
  rw [modChan_chan]
  split
  · next e => exact ⟨_, by rw [e]; rfl⟩
  · exact ⟨(s.chan k).line, rfl⟩

theorem poolLegal_lineLaw : LineLaw PoolLegal := by
  have all : ∀ {s t : State}, AllOp s t → PoolLegal s → PoolLegal t := fun h => h.pool
  refine .of_chans (fun h chans pool _ => poolLegal_of_eq pool (fun k => ?_) h)
    (fun _ => reset_poolLegal _) (fun {s} h => ?_) (fun _ => all lockStep_lineOp.allOp)
    (fun _ _ => all (loseLine_lineOp _).1.allOp) (fun _ => all boundary_boundaryOp.allOp)
    (fun {s} h => ?_) (fun {s} n x h => ?_) (fun _ h => serveChannel_visitOp.op.pool h)
  · simp only [State.chan, chans]
  · refine poolLegal_of_eq (s := releaseEvery s) (softReset_pool.trans (releaseEvery_spec s).2.1.symm)
      (fun k => ?_) (releaseEvery_allOp.pool h)
    rw [softResetPart_segs, (releaseEvery_spec s).2.2]
    rfl
  · exact poolLegal_of_eq (s := s) (t := sendFrame s) rfl sendFrame_segs h
  · refine poolLegal_of_eq (s := s) (modChan_pool ..) (fun k => ?_) h
    obtain ⟨l, e⟩ := modChan_captureSample (s := s) n k x
    rw [e]

theorem historyLegal_lineLaw : LineLaw HistoryLegal := by
  have all : ∀ {s t : State}, AllOp s t → HistoryLegal s → HistoryLegal t := fun h => h.hist
  refine .of_chans (fun h chans _ _ k => ?_) (fun _ => reset_historyLegal _) (fun h k => ?_)
    (fun _ => all lockStep_lineOp.allOp) (fun _ _ => all (loseLine_lineOp _).1.allOp)
    (fun _ => all boundary_boundaryOp.allOp) (fun h k => ?_) (fun n x h k => ?_) (fun n h k => ?_)
  · rw [State.chan, chans]
    exact h k
  · rw [softReset_chan]
    rfl
  · obtain ⟨-, -, -, -, -, -, segs, hist⟩ := advancePlay_fields (State.chan _ k)
    rw [sendFrame_chan, segs, hist]
    exact h k
  · rw [modChan_chan]
    split
    · exact h n
    · exact h k
  · by_cases hk : k = n
    · subst hk
      exact serveChannel_visitOp.op.hist (h k)
    · rw [serveChannel_visitOp.op.others k hk]
      exact h k

/-! ## Records in flight (R173) -/

/-- Records in flight stay of one channel each when each is one that was there. -/
theorem inflightLegal_of_flies (h : InflightLegal s)
    (flies : ∀ k f, (t.chan k).walk.inflight = some f →
      ∃ g, (s.chan k).walk.inflight = some g ∧ g.addr = f.addr) : InflightLegal t := by
  intro i k hik f g hf hg
  obtain ⟨f', hf', ef⟩ := flies i f hf
  obtain ⟨g', hg', eg⟩ := flies k g hg
  rw [← ef, ← eg]
  exact h i k hik f' g' hf' hg'

theorem inflightLegal_lineLaw : LineLaw InflightLegal := by
  have all : ∀ {s t : State}, AllOp s t → InflightLegal s → InflightLegal t := fun h => h.flies
  have same : ∀ {s t : State}, InflightLegal s →
      (∀ k, (t.chan k).walk.inflight = (s.chan k).walk.inflight) → InflightLegal t := fun h e =>
    inflightLegal_of_flies h fun k f hf => ⟨f, e k ▸ hf, rfl⟩
  refine .of_chans (fun h chans _ _ => same h fun k => ?_) (fun _ => reset_inflightLegal _)
    (fun _ i _ _ f _ hf => ?_) (fun _ => all lockStep_lineOp.allOp)
    (fun _ _ => all (loseLine_lineOp _).1.allOp) (fun _ => all boundary_boundaryOp.allOp)
    (fun h => same h fun k => ?_) (fun n x h => same h fun k => ?_)
    (fun n h => inflightLegal_of_flies h fun k f hf => ?_)
  · simp only [State.chan, chans]
  · rw [softReset_chan] at hf
    cases hf
  · rw [sendFrame_chan, (advancePlay_fields _).2.2.2.2.2.1]
  · rw [modChan_chan]
    split
    · next e => rw [e, captureSample_walk]
    · rfl
  · by_cases hk : k = n
    · subst hk
      exact serveChannel_visitOp.flies f hf
    · rw [serveChannel_visitOp.op.others k hk] at hf
      exact ⟨f, hf, rfl⟩

/-! ## Timeslots (R31) -/

/-- A timeslot that `slotTaken` does not find is no other running channel's. -/
theorem slotTaken_false {k : Nat} (h : slotTaken s n k = false) (j : Fin 32) (hj : j ≠ n)
    (runs : running (s.chan j) = true) : (s.chan j).timeslot ≠ some k := by
  have := List.any_eq_false.1 h j (List.mem_finRange j)
  simpa [hj, runs] using this

/-- The channels' part of the timeslot law, for a slot count. -/
def SlotsApart (slots : Nat) (s : State) : Prop :=
  (∀ n, running (s.chan n) = true → ∃ k, (s.chan n).timeslot = some k ∧ k < slots) ∧
    ∀ n k, n ≠ k → running (s.chan n) = true → running (s.chan k) = true →
      (s.chan n).timeslot ≠ (s.chan k).timeslot

/-- Channels that run on, on the timeslots that they had, keep them apart. -/
theorem SlotsApart.mono {a b : Nat} (h : SlotsApart a s)
    (runs : ∀ n, running (t.chan n) = true → running (s.chan n) = true)
    (slot : ∀ n, running (t.chan n) = true → (t.chan n).timeslot = (s.chan n).timeslot)
    (inside : ∀ n k, running (t.chan n) = true → (s.chan n).timeslot = some k → k < a → k < b) :
    SlotsApart b t := by
  refine ⟨fun n r => ?_, fun n k hnk rn rk => ?_⟩
  · obtain ⟨k, hk, hlt⟩ := h.1 n (runs n r)
    exact ⟨k, (slot n r).trans hk, inside n k r hk hlt⟩
  · rw [slot n rn, slot k rk]
    exact h.2 n k hnk (runs n rn) (runs k rk)

theorem SlotsApart.of_allOp {a : Nat} (h : SlotsApart a s) (op : AllOp s t) : SlotsApart a t :=
  h.mono op.runs op.slot fun _ _ _ _ => id

/-- The timeslot law of an enabled part is that its channels are apart. -/
theorem slotLegal_on (on : s.enabled = true) :
    SlotLegal s ↔ SlotsApart s.port.activeFmt.slots.toNat s :=
  ⟨And.right, fun h => ⟨fun off => absurd (off.symm.trans on) (by decide), h⟩⟩

theorem slotLegal_stopped (h : ∀ n, running (s.chan n) = false) : SlotLegal s := by
  refine ⟨fun _ => h, fun n runs => ?_, fun n _ _ runs => ?_⟩ <;>
    exact absurd (runs.symm.trans (h n)) (by decide)

/-- The same channels, or channels that run on where they ran, on a part as it was. -/
theorem slotLegal_of_runs (h : SlotLegal s) (enabled : t.enabled = s.enabled)
    (format : t.port.activeFmt = s.port.activeFmt)
    (runs : ∀ n, running (t.chan n) = true → running (s.chan n) = true)
    (slot : ∀ n, running (t.chan n) = true → (t.chan n).timeslot = (s.chan n).timeslot) : SlotLegal t := by
  refine ⟨fun off n => ?_, ?_⟩
  · have stopped := h.1 (enabled.symm.trans off) n
    by_contra r
    exact absurd ((runs n (by simpa using r)).symm.trans stopped) (by decide)
  · rw [format]
    exact SlotsApart.mono h.2 runs slot fun _ _ _ _ => id

theorem slotLegal_of_allOp (h : SlotLegal s) (op : AllOp s t) : SlotLegal t :=
  slotLegal_of_runs h op.enabled (op.port ▸ rfl) op.runs op.slot

theorem slotLegal_lost (slots : Option Nat) (h : SlotLegal s) : SlotLegal (lineLost slots s) := by
  have started : SlotLegal { s with port := toHunt s.port } := h
  have lost := slotLegal_of_allOp started (loseLines_allOp slots)
  unfold lineLost
  generalize allChans.foldl (loseLine slots) _ = w at lost ⊢
  exact lost

/-- A restart leaves no running channel outside the format that it latches (R31, R116). -/
theorem slotLegal_restart (on : s.enabled = true) (h : SlotLegal s) :
    SlotLegal (lineLost (some s.port.pendingFmt.slots.toNat) { s with port := latchFormat s.port }) := by
  have op := loseLines_allOp (s := { s with port := toHunt (latchFormat s.port) })
    (some s.port.pendingFmt.slots.toNat)
  have inside := lost_chans_inside (s := { s with port := toHunt (latchFormat s.port) })
    (k := s.port.pendingFmt.slots.toNat)
  unfold lineLost
  dsimp only
  generalize allChans.foldl (loseLine (some s.port.pendingFmt.slots.toNat)) _ = w at op inside ⊢
  have onW : w.enabled = true := op.enabled.trans on
  have format : w.port.activeFmt = s.port.pendingFmt := congrArg Port.activeFmt op.port
  have apart : SlotsApart s.port.pendingFmt.slots.toNat w := by
    refine SlotsApart.mono h.2 op.runs op.slot fun n k r hk _ => ?_
    have := inside n r
    simp only [slotOutside, chan_with_port, hk, decide_eq_false_iff_not] at this
    omega
  exact (slotLegal_on (s := raise partSource .lineLost w) onW).2 (format ▸ apart)

/-- A descriptor served gives a timeslot only below the slot count, and to no second channel (R30, R31). -/
theorem slotLegal_serve (on : s.enabled = true) (h : SlotLegal s) : SlotLegal (serveChannel s n) := by
  have op := serveChannel_visitOp (n := n) (s := s)
  generalize serveChannel s n = t at op ⊢
  rw [slotLegal_on on] at h
  rw [slotLegal_on (op.op.enabled.trans on), op.op.port]
  have away : ∀ k, k ≠ n → running (t.chan k) = true → running (t.chan n) = true →
      (t.chan k).timeslot ≠ (t.chan n).timeslot := fun k hk rk rn => by
    rw [op.op.others k hk] at rk ⊢
    rcases op.slot rn with ⟨r, e⟩ | ⟨slot, e, -, free⟩
    · rw [e]
      exact h.2 k n hk rk r
    · rw [e]
      exact slotTaken_false free k hk rk
  refine ⟨fun k r => ?_, fun i k hik ri rk => ?_⟩
  · by_cases hk : k = n
    · subst hk
      rcases op.slot r with ⟨r', e⟩ | ⟨slot, e, lt, -⟩
      · rw [e]
        exact h.1 k r'
      · exact ⟨slot, e, lt⟩
    · rw [op.op.others k hk] at r ⊢
      exact h.1 k r
  · by_cases hi : i = n
    · subst hi
      exact (away k hik.symm rk ri).symm
    · by_cases hk : k = n
      · subst hk
        exact away i hik ri rk
      · rw [op.op.others i hi] at ri ⊢
        rw [op.op.others k hk] at rk ⊢
        exact h.2 i k hik ri rk

theorem advancePlay_running (c : Channel) : running (advancePlay c) = running c := by
  unfold running
  rw [(advancePlay_fields c).1]

theorem slotLegal_lineLaw : LineLaw SlotLegal where
  congr h g := slotLegal_of_runs h g.enabled g.format (fun n => by rw [g.chan]; exact id)
    fun n _ => by rw [g.chan]
  hardReset _ := reset_slotLegal _
  softReset _ := slotLegal_stopped fun n => by
    rw [softReset_chan]
    rfl
  enable off h := slotLegal_stopped (h.1 off)
  restart {s} on off h := by
    unfold restartLine
    dsimp only
    split
    · contradiction
    · exact slotLegal_restart on h
    · exact slotLegal_restart on h
  stall _ h := slotLegal_lost none h
  turns {s} _ h := by
    have op := lockSteps_allOp (s := { s with port := { s.port with
      state := .locked, frameCount := 0, framePos := 0, stallArmed := true } })
    have started : SlotLegal { s with port := { s.port with
      state := .locked, frameCount := 0, framePos := 0, stallArmed := true } } := h
    exact slotLegal_of_allOp started op
  rearm _ h := h
  boundary _ _ h := slotLegal_of_allOp h boundary_boundaryOp.allOp
  send h := slotLegal_of_runs h rfl rfl (fun n => by rw [sendFrame_chan, advancePlay_running]; exact id)
    fun n _ => by rw [sendFrame_chan, (advancePlay_fields _).2.2.2.2.1]
  capture n x h := slotLegal_of_allOp h
    (LineOp.quiet (n := n) rfl rfl rfl rfl rfl rfl rfl rfl).allOp
  serve _ on h := slotLegal_serve on h

/-- Settles O59: both laws by the operations that `LineLaw` names. -/
theorem channelsShareNothing : Obligations.ChannelsShareNothing :=
  ⟨slotLegal_lineLaw.keptByStep fun _ _ => id, inflightLegal_lineLaw.keptByStep fun _ _ => id⟩

/-! ## The lifecycle (R27, R28, R105, R117) -/

theorem not_enabled_iff {b : Bool} : ¬ b = false ↔ b = true := by simp

/-- The lifecycle laws of an enabled part whose port is not OFF. -/
theorem lifeLegal_on (on : s.enabled = true) (active : s.port.state ≠ .off)
    (armed : s.port.stallArmed = true ↔ s.port.state = .locked)
    (chans : ∀ n, ChanLegal (s.port.state == .locked) (s.chan n)) : LifeLegal s :=
  ⟨⟨fun off => absurd (off.symm.trans on) (by decide), fun off => absurd off active⟩, armed,
    fun off => absurd (off.symm.trans on) (by decide), chans⟩

theorem LifeLegal.on_of_active (h : LifeLegal s) (active : s.port.state ≠ .off) : s.enabled = true := by
  by_contra off
  exact active (h.1.1 (by simpa using off))

theorem LifeLegal.chan_true (h : LifeLegal s) (n : Fin 32) : ChanLegal true (s.chan n) :=
  ⟨fun _ => rfl, (h.2.2.2 n).2⟩

/-- The line lost leaves the lifecycle laws, whatever format was latched (R115, R116). -/
theorem lifeLegal_lost (slots : Option Nat) (on : s.enabled = true)
    (h : ∀ n, ChanLegal true (s.chan n)) : LifeLegal (lineLost slots s) := by
  have op := loseLines_allOp (s := { s with port := toHunt s.port }) slots
  have chans := lost_chans_legal (s := { s with port := toHunt s.port }) slots h
  unfold lineLost
  generalize allChans.foldl (loseLine slots) _ = w at op chans ⊢
  have port : (raise partSource .lineLost w).port = toHunt s.port := op.port
  refine lifeLegal_on (op.enabled.trans on) ?_ ?_ fun n => ?_ <;> rw [port]
  · exact fun off => PortState.noConfusion off
  · exact ⟨fun a => Bool.noConfusion a, fun l => PortState.noConfusion l⟩
  · exact chans n

theorem lifeLegal_lineLaw : LineLaw LifeLegal where
  congr h g := by
    unfold LifeLegal
    rw [g.enabled, g.state, g.armed]
    simp only [g.chan]
    exact h
  hardReset _ := reset_lifeLegal _
  softReset {s} _ := by
    obtain ⟨enabled, -, port, -⟩ := softReset_fields (s := s)
    have closed : ∀ n, ((softResetPart s).chan n).state = .closed := fun n => by
      rw [softReset_chan]
      rfl
    refine ⟨⟨fun _ => by rw [port]; rfl, fun _ => enabled⟩, ?_, fun _ => closed, fun n => ?_⟩
    · rw [port]
      exact ⟨fun a => absurd a (by simp [softResetPort]), fun l => by simp [softResetPort] at l⟩
    · rw [softReset_chan]
      exact chanLegal_stopped (.inl rfl) rfl rfl rfl
  enable {s} off h := by
    have unarmed : s.port.stallArmed = false := by
      by_contra armed
      have locked := h.2.1.1 (by simpa using armed)
      exact absurd ((h.1.1 off).symm.trans locked) (by decide)
    refine lifeLegal_on rfl (fun x => PortState.noConfusion x)
      ⟨fun a => absurd (unarmed.symm.trans a) (by decide), fun l => PortState.noConfusion l⟩ fun n => ?_
    exact legal_of_not_running (by rw [running, show ((enablePart s).chan n).state = .closed from
      h.2.2.1 off n]) (h.chan_true n)
  restart {s} on off h := by
    unfold restartLine
    dsimp only
    split
    · contradiction
    · exact lifeLegal_lost _ on h.chan_true
    · exact lifeLegal_lost _ on h.chan_true
  stall {s} armed h := by
    refine lifeLegal_lost none (h.on_of_active fun off => ?_) h.chan_true
    exact absurd ((h.2.1.1 armed).symm.trans off) (by decide)
  turns {s} hunt h := by
    have on : s.enabled = true := h.on_of_active (by rw [hunt]; decide)
    have op := lockSteps_allOp (s := { s with port := { s.port with
      state := .locked, frameCount := 0, framePos := 0, stallArmed := true } })
    have chans := lock_chans_legal (s := { s with port := { s.port with
      state := .locked, frameCount := 0, framePos := 0, stallArmed := true } }) h.chan_true
    generalize allChans.foldl lockStep _ = w at op chans ⊢
    refine lifeLegal_on (op.enabled.trans on) ?_ ?_ fun n => ?_ <;> rw [op.port]
    · exact fun off => PortState.noConfusion off
    · exact ⟨fun _ => rfl, fun _ => rfl⟩
    · exact chans n
  rearm {s} locked h := by
    refine ⟨h.1, ⟨fun _ => locked, fun _ => rfl⟩, h.2.2⟩
  boundary {s} n locked h := by
    have on : s.enabled = true := h.on_of_active (by rw [locked]; decide)
    have op := boundary_boundaryOp (n := n) (s := s)
    generalize boundary n s = t at op ⊢
    refine lifeLegal_on (op.op.enabled.trans on) ?_ ?_ fun k => ?_ <;> rw [op.op.port]
    · rw [locked]; decide
    · exact h.2.1
    · rw [locked]
      by_cases hk : k = n
      · subst hk
        exact op.legal (h.chan_true k)
      · rw [op.op.others k hk]
        exact h.chan_true k
  send {s} h := by
    refine ⟨h.1, h.2.1, fun off n => ?_, fun n => ?_⟩ <;> rw [sendFrame_chan]
    · rw [(advancePlay_fields _).1]
      exact h.2.2.1 off n
    · obtain ⟨e1, e2, e3, e4, -⟩ := advancePlay_fields (s.chan n)
      have legal := h.2.2.2 n
      unfold ChanLegal at legal ⊢
      rw [e1, e2, e3, e4]
      exact legal
  capture {s} n x h := by
    refine ⟨h.1, h.2.1, fun off k => ?_, fun k => ?_⟩ <;> rw [modChan_chan] <;> split
    · exact h.2.2.1 off n
    · exact h.2.2.1 off k
    · exact h.2.2.2 n
    · exact h.2.2.2 k
  serve {s} n on h := by
    have op := serveChannel_visitOp (n := n) (s := s)
    generalize serveChannel s n = t at op ⊢
    have active : s.port.state ≠ .off := fun off => absurd ((h.1.2 off).symm.trans on) (by decide)
    refine lifeLegal_on (op.op.enabled.trans on) ?_ ?_ fun k => ?_ <;> rw [op.op.port]
    · exact active
    · exact h.2.1
    · by_cases hk : k = n
      · subst hk
        exact op.legal (h.2.2.2 k)
      · rw [op.op.others k hk]
        exact h.2.2.2 k

/-- Settles O58: the lifecycle laws by the operations that `LineLaw` names. -/
theorem lifecycleLawKept : Obligations.LifecycleLawKept := lifeLegal_lineLaw.keptByStep fun _ _ => id

end Sys2Proof.Machine

/-! Proofs about what a channel holds of the pool: every operation of its events keeps R74 (R32, R58 to R60,
R67, R68, R74). -/

namespace Sys2Proof.Machine

variable {s t u : State} {n : Fin 32}

/-! ## The fields that R74 reads -/

/-- What R74 reads of a channel is as it was. -/
structure SameHolding (c d : Channel) : Prop where
  runs     : running d = running c
  segs     : d.segs = c.segs
  dmin     : d.dmin = c.dmin
  dmax     : d.dmax = c.dmax
  sweeping : d.search.sweeping = c.search.sweeping
  delay    : d.filt.delay = c.filt.delay
  lfEff    : d.filt.lfEff = c.filt.lfEff
  lf       : d.filt.lf = c.filt.lf

theorem SameHolding.legal {c d : Channel} (g : SameHolding c d) (h : HoldsLegally c) : HoldsLegally d := by
  unfold HoldsLegally at *
  rw [g.runs, g.segs, g.dmin, g.dmax, g.sweeping, g.delay, g.lfEff, g.lf]
  exact h

/-- The far canceller is off and nothing is held, or it is on with enough for its window and at most the
placement target (R67, R68, R74). -/
def Placed (c : Channel) : Prop :=
  (c.filt.delay = 0 → c.segs = []) ∧
    (c.filt.delay ≠ 0 → c.filt.delay + c.filt.lfEff + 39 ≤ 32 * c.segs.length ∧
      c.segs.length ≤ segsFor (c.filt.delay + c.filt.lf - 1))

/-- A channel that does not sweep and whose window is placed holds what it may. -/
theorem Placed.legal {c : Channel} (h : Placed c) (dmin : 64 ≤ c.dmin) (idle : c.search.sweeping = false)
    (runs : running c = true) : HoldsLegally c :=
  ⟨fun stopped => absurd (stopped.symm.trans runs) (by decide), fun _ => ⟨dmin, fun _ => h.1,
    fun sweeping => absurd (idle.symm.trans sweeping) (by decide), h.2⟩⟩

theorem holdsLegally_stopped {c : Channel} (stopped : running c = false) (h : c.segs = []) :
    HoldsLegally c := ⟨fun _ => h, fun runs => absurd (stopped.symm.trans runs) (by decide)⟩

/-- Nothing held and the far canceller off: the channel holds what it may, sweeping or not. -/
theorem holdsLegally_empty {c d : Channel} (h : HoldsLegally c) (runs : running d = running c)
    (dmin : d.dmin = c.dmin) (segs : d.segs = []) (delay : d.filt.delay = 0) : HoldsLegally d := by
  refine ⟨fun _ => segs, fun r => ⟨dmin ▸ (h.2 (runs ▸ r)).1, fun _ _ => segs, fun _ => ?_,
    fun on => absurd delay on⟩⟩
  rw [segs]
  exact Nat.zero_le _

/-! ## Operations that keep R74 -/

/-- An operation of channel `n`'s event keeps what the channel may hold. -/
def HoldOp (n : Fin 32) (s t : State) : Prop := HoldsLegally (s.chan n) → HoldsLegally (t.chan n)

namespace HoldOp

theorem refl : HoldOp n s s := id

theorem trans (h : HoldOp n s t) (g : HoldOp n t u) : HoldOp n s u := g ∘ h

theorem of_same (h : SameHolding (s.chan n) (t.chan n)) : HoldOp n s t := h.legal

/-- Memory, script, causes, store and maintenance unit are no concern of a holding. -/
theorem of_maintMem (h : MaintMem s t) : HoldOp n s t := by
  unfold HoldOp State.chan
  rw [h.op.chans]
  exact id

theorem raise (i : Fin 34) (c : Cause) : HoldOp n s (raise i c s) := id

theorem raiseIf (b : Bool) (i : Fin 34) (c : Cause) : HoldOp n s (raiseIf b i c s) :=
  of_maintMem (.raiseIf b i c)

/-- A change of the channel that R74 does not read. -/
theorem quiet {f : Channel → Channel} (h : ∀ c, SameHolding c (f c)) : HoldOp n s (s.modChan n f) := by
  unfold HoldOp
  rw [modChan_chan_self]
  exact (h _).legal

theorem of_readWord {a : Word} {r : Option Word} (h : readWord a s = (r, t)) : HoldOp n s t :=
  of_maintMem (.of_readWord h)

theorem of_readWords {k : Nat} {a : Word} {r : Option (List Word)} (h : readWords k a s = (r, t)) :
    HoldOp n s t := of_maintMem (.of_readWords h)

theorem of_writeWord {a v : Word} {r : Bool} (h : writeWord a v s = (r, t)) : HoldOp n s t :=
  of_maintMem (.of_writeWord h)

theorem of_writeWords {ws : List Word} {a : Word} {r : Bool} (h : writeWords ws a s = (r, t)) :
    HoldOp n s t := of_maintMem (.of_writeWords h)

end HoldOp

theorem SameHolding.rfl' {c d : Channel} (h : d.state = c.state) (h1 : d.segs = c.segs)
    (h2 : d.dmin = c.dmin) (h3 : d.dmax = c.dmax) (h4 : d.search = c.search) (h5 : d.filt = c.filt) :
    SameHolding c d := by
  refine ⟨by unfold running; rw [h], h1, h2, h3, by rw [h4], by rw [h5], by rw [h5], by rw [h5]⟩

/-- A change of the channel that leaves state, segments, delay bounds, search and filters alone. -/
theorem HoldOp.fields {f : Channel → Channel} (h : ∀ c, (f c).state = c.state ∧ (f c).segs = c.segs ∧
    (f c).dmin = c.dmin ∧ (f c).dmax = c.dmax ∧ (f c).search = c.search ∧ (f c).filt = c.filt) :
    HoldOp n s (s.modChan n f) :=
  .quiet fun c => by
    obtain ⟨h0, h1, h2, h3, h4, h5⟩ := h c
    exact .rfl' h0 h1 h2 h3 h4 h5

/-! ## Status writes, FAULT and hold reasons -/

theorem statusWrite_holdOp : HoldOp n s (statusWrite n s).2 :=
  .of_same (by rw [statusWrite_chan]; exact .rfl' rfl rfl rfl rfl rfl rfl)

theorem statusEvent_holdOp (c : Channel) : HoldOp n s (statusEvent n c s) :=
  .of_same (by rw [statusEvent_chan]; exact .rfl' rfl rfl rfl rfl rfl rfl)

/-- A channel in FAULT holds nothing (R38, R74). -/
theorem enterFault_holdOp : HoldOp n s (enterFault n s) := fun _ => by
  rw [enterFault_chan]
  exact holdsLegally_stopped rfl rfl

theorem addHoldChan_sameHolding (r : HoldReason) (c : Channel) : SameHolding c (addHoldChan r c) := by
  unfold addHoldChan
  cases hs : c.state <;> cases r <;>
    exact ⟨by simp [running, setHold, hs], rfl, rfl, rfl, rfl, rfl, rfl, rfl⟩

theorem removeHoldChan_sameHolding (r : HoldReason) (c : Channel) : SameHolding c (removeHoldChan r c) := by
  have set : SameHolding c (setHold r false c) := by
    cases r <;> exact .rfl' rfl rfl rfl rfl rfl rfl
  unfold removeHoldChan
  split_ifs with held more
  · exact set
  · refine ⟨?_, set.segs, set.dmin, set.dmax, set.sweeping, set.delay, set.lfEff, set.lf⟩
    unfold leaveHeld running
    rw [held]
    rcases (setHold r false c).resume with _ | _ | _ <;> rfl
  · exact .rfl' rfl rfl rfl rfl rfl rfl

theorem changeHold_holdOp {f : Channel → Channel} (h : ∀ c, SameHolding c (f c)) :
    HoldOp n s (changeHold n f s) := (HoldOp.quiet h).trans (.raiseIf _ _ _)

/-! ## Searches (R58 to R60, R65 to R71) -/

/-- A search start leaves a running channel with nothing, or sweeping with at most the search target. -/
theorem startSearch_holdOp (runs : running (s.chan n) = true) : HoldOp n s (startSearch n s) := fun h => by
  obtain ⟨c, rfl, delay, dmin, idle, sweeping⟩ := startSearch_holds n s
  have still : running ((startSearch n s).chan n) = true := startSearch_stillOp.same.running.trans runs
  exact ⟨fun stopped => absurd (stopped.symm.trans still) (by decide), fun _ =>
    ⟨dmin ▸ (h.2 runs).1, fun i _ => idle i, sweeping, fun on => absurd delay on⟩⟩

/-- A placement changes filters, segments and their history alone. -/
theorem placeWindow_chan (n : Fin 32) (s : State) : ∃ l p f, (placeWindow n s).chan n =
    { s.chan n with segs := l, poolHist := p, filt := f } := by
  obtain ⟨l, p, held, -⟩ := bringHolding_spec n
    (segsFor (placedDelay (s.chan n).dmin (s.chan n).search.bestLag + (s.chan n).filt.lf - 1)) s
  dsimp only [placeWindow]
  generalize bringHolding n _ _ = b at held ⊢
  split_ifs
  · exact ⟨l, p, _, by rw [modChan_chan_self, held]⟩
  · exact ⟨l, p, _, by rw [modChan_chan_self, raise_chan, held]⟩
  · exact ⟨[], [], _, by rw [modChan_chan_self, releaseAll_chan_self, raise_chan, held]⟩

/-- An ended search leaves its channel with a placed window, or with nothing (R67, R68, R74). -/
theorem endSearch_holdOp (runs : running (s.chan n) = true) : HoldOp n s (endSearch n s) := fun h => by
  have dmin := (h.2 runs).1
  dsimp only [endSearch]
  rw [raise_chan, modChan_chan_self]
  split
  · obtain ⟨c, rfl, placed⟩ := placeWindow_holds (s := s) (n := n) (by omega)
    obtain ⟨l, p, f, form⟩ := placeWindow_chan n s
    refine Placed.legal (c := { (placeWindow n s).chan n with search := _, statusDue := true })
      placed ?_ rfl ?_
    · rw [form]
      exact dmin
    · rw [form]
      exact runs
  · rw [modChan_chan_self, releaseAll_chan_self]
    exact holdsLegally_empty h rfl rfl rfl rfl

theorem abandonSearch_holdOp : HoldOp n s (abandonSearch n s) := by
  unfold abandonSearch
  split
  · intro h
    rw [modChan_chan_self, releaseAll_chan_self]
    exact holdsLegally_empty h rfl rfl rfl rfl
  · exact .refl

/-! ## Program and directives -/

theorem untrain_holdOp : HoldOp n s (untrain n s) := fun h => by
  rw [untrain, modChan_chan_self, releaseAll_chan_self]
  exact holdsLegally_empty h rfl rfl rfl rfl

theorem enterPhase_holdOp (p : Nat) (runs : running (s.chan n) = true) : HoldOp n s (enterPhase n p s) := by
  have entered : HoldOp n s
      (s.modChan n fun c => { c with phaseIndex := p, blockCount := 0, earlyRun := 0 }) :=
    .fields fun _ => ⟨rfl, rfl, rfl, rfl, rfl, rfl⟩
  dsimp only [enterPhase]
  split
  · exact entered.trans (startSearch_holdOp (by rw [modChan_chan_self]; exact runs))
  · exact entered

theorem running_of_training {c : Channel} (h : c.state = .training) : running c = true := by
  rw [running, h]

theorem running_of_tracking {c : Channel} (h : c.state = .tracking) : running c = true := by
  rw [running, h]

theorem nextPhase_holdOp (training : (s.chan n).state = .training) : HoldOp n s (nextPhase n s) := by
  have runs := running_of_training training
  dsimp only [nextPhase]
  split
  · exact enterPhase_holdOp _ runs
  · refine HoldOp.trans (HoldOp.of_same ?_) (.raise _ _)
    rw [modChan_chan_self]
    exact ⟨by rw [runs]; rfl, rfl, rfl, rfl, rfl, rfl, rfl, rfl⟩

theorem advanceProgram_holdOp (er eu : Nat) (training : (s.chan n).state = .training) :
    HoldOp n s (advanceProgram n er eu s) := by
  dsimp only [advanceProgram]
  generalize hv : s.modChan n (fun c =>
    { c with blockCount := c.blockCount + 1, earlyRun := nextEarlyRun c er eu }) = v
  have counted : HoldOp n s v := hv ▸ .fields fun _ => ⟨rfl, rfl, rfl, rfl, rfl, rfl⟩
  have still : (v.chan n).state = .training := by rw [← hv, modChan_chan_self]; exact training
  split_ifs
  · exact (counted.trans (endSearch_holdOp (running_of_training still))).trans
      (nextPhase_holdOp (endSearch_stillOp.same.state.trans still))
  · exact counted.trans (nextPhase_holdOp still)
  · exact counted

theorem backToTraining_sameHolding : SameHolding (s.chan n) ((backToTraining n s).chan n) := by
  unfold backToTraining
  split
  · next tracking =>
    rw [raise_chan, modChan_chan_self]
    exact ⟨by rw [running_of_tracking tracking]; rfl, rfl, rfl, rfl, rfl, rfl, rfl, rfl⟩
  · rw [modChan_chan_self]
    exact .rfl' rfl rfl rfl rfl rfl rfl
  all_goals exact .rfl' rfl rfl rfl rfl rfl rfl

theorem untrain_enterPhase_holdOp (runs : running (s.chan n) = true) :
    HoldOp n s (enterPhase n 0 (untrain n s)) :=
  untrain_holdOp.trans (enterPhase_holdOp 0 (untrain_stillOp.same.running.trans runs))

theorem divergenceRestart_holdOp (runs : running (s.chan n) = true) :
    HoldOp n s (divergenceRestart n s) := by
  unfold divergenceRestart
  refine HoldOp.trans (HoldOp.trans ((untrain_enterPhase_holdOp runs).trans ?_)
    (.of_same backToTraining_sameHolding)) (.raise _ _)
  exact .fields fun _ => ⟨rfl, rfl, rfl, rfl, rfl, rfl⟩

theorem guardAndProgram_holdOp (er eu : Nat) : HoldOp n s (guardAndProgram n er eu s) := by
  have counted : ∀ run, HoldOp n s (s.modChan n fun c => { c with divRun := run }) := fun _ =>
    .fields fun _ => ⟨rfl, rfl, rfl, rfl, rfl, rfl⟩
  dsimp only [guardAndProgram]
  split
  · next training =>
    refine iteInduction (fun _ => divergenceRestart_holdOp (running_of_training training)) fun _ => ?_
    exact (counted _).trans (advanceProgram_holdOp er eu (by rw [modChan_chan_self]; exact training))
  · next tracking =>
    exact iteInduction (fun _ => divergenceRestart_holdOp (running_of_tracking tracking))
      fun _ => counted _
  all_goals exact .refl

theorem applyDirective_holdOp (code arg : Nat) (runs : running (s.chan n) = true) :
    HoldOp n s (applyDirective n code arg s).2 := by
  unfold applyDirective
  split
  · exact .refl
  · exact changeHold_holdOp (addHoldChan_sameHolding _)
  · exact changeHold_holdOp (removeHoldChan_sameHolding _)
  · split
    · refine (abandonSearch_holdOp.trans (.of_same backToTraining_sameHolding)).trans
        (enterPhase_holdOp arg ?_)
      rw [backToTraining_sameHolding.runs, abandonSearch_stillOp.same.running, runs]
    · exact .refl
  · exact (untrain_enterPhase_holdOp runs).trans (.of_same backToTraining_sameHolding)
  · dsimp only [saveNow]
    split
    · refine HoldOp.trans (HoldOp.of_same ?_) (.raiseIf _ _ _)
      rw [modChan_chan_self]
      exact .rfl' rfl rfl rfl rfl rfl rfl
    · exact .refl
  · exact .refl

/-! ## Links, completions and takes -/

/-- A change of the walker or of the line buffers alone. -/
theorem walkLine_holdOp {f : Channel → Channel}
    (h : ∀ c, ∃ w l, f c = { c with walk := w, line := l }) : HoldOp n s (s.modChan n f) :=
  .fields fun c => by
    obtain ⟨w, l, e⟩ := h c
    rw [e]
    exact ⟨rfl, rfl, rfl, rfl, rfl, rfl⟩

theorem followLink_holdOp (a : Word) : HoldOp n s (followLink n a s).2 := by
  unfold followLink
  split
  · next h => exact (HoldOp.of_readWord h).trans enterFault_holdOp
  · next h =>
    split
    · exact (HoldOp.of_readWord h).trans (walkLine_holdOp fun c => ⟨_, c.line, rfl⟩)
    · exact (HoldOp.of_readWord h).trans (walkLine_holdOp fun c => ⟨_, c.line, rfl⟩)
    · exact (HoldOp.of_readWord h).trans enterFault_holdOp

theorem completeDone_holdOp (f : InFlight) (z w : List Sample) (m : Metrics) :
    HoldOp n s (completeDone n f z w m s) := by
  unfold completeDone
  split
  · next h => exact (HoldOp.of_writeWords h).trans enterFault_holdOp
  · next h =>
    have results := (HoldOp.of_writeWords (n := n) h).trans
      (walkLine_holdOp (f := fun c => { c with walk := { c.walk with gapCount := 0 } })
        fun c => ⟨_, c.line, rfl⟩)
    dsimp only
    split
    · next g => exact (results.trans (.of_writeWord g)).trans enterFault_holdOp
    · next g =>
      exact (((results.trans (.of_writeWord g)).trans (walkLine_holdOp fun c => ⟨_, c.line, rfl⟩)).trans
        (followLink_holdOp _)).trans (.raiseIf _ _ _)

theorem writeEarlyCode_holdOp (f : InFlight) (code : Word) : HoldOp n s (writeEarlyCode n f code s).2 := by
  unfold writeEarlyCode
  split
  · next h => exact .of_writeWord h
  · next h =>
    have gap := (HoldOp.of_writeWord (n := n) h).trans
      (walkLine_holdOp (f := fun c => { c with walk := { c.walk with gapCount := 0 } })
        fun c => ⟨_, c.line, rfl⟩)
    dsimp only
    split
    · next g => exact gap.trans (.of_writeWord g)
    · next g => exact (gap.trans (.of_writeWord g)).trans (walkLine_holdOp fun c => ⟨_, c.line, rfl⟩)

theorem completeLineLost_holdOp (f : InFlight) (r : Bool) : HoldOp n s (completeLineLost n f r s) := by
  have early := writeEarlyCode_holdOp (n := n) (s := s) f dispLineLost
  unfold completeLineLost
  split
  · next h =>
    rw [h] at early
    exact early.trans enterFault_holdOp
  · next h =>
    rw [h] at early
    cases r
    · exact early.trans (.raiseIf _ _ _)
    · exact (early.trans (followLink_holdOp _)).trans (.raiseIf _ _ _)

theorem starveAndBegin_holdOp : HoldOp n s (starveAndBegin n s) :=
  ((walkLine_holdOp fun _ => ⟨_, _, rfl⟩).trans (.raiseIf _ _ _)).trans
    (walkLine_holdOp fun c => ⟨c.walk, _, rfl⟩)

theorem refuseRecord_holdOp (a : Word) (k : Control) : HoldOp n s (refuseRecord n a k s) := by
  unfold refuseRecord
  split
  · next h => exact (HoldOp.of_writeWord h).trans enterFault_holdOp
  · next w h =>
    have linked := (HoldOp.of_writeWord (n := n) h).trans (followLink_holdOp a)
    split
    · next g =>
      rw [g] at linked
      exact linked.trans (.raiseIf _ _ _)
    · next g =>
      rw [g] at linked
      exact (linked.trans (.raiseIf _ _ _)).trans starveAndBegin_holdOp

theorem takeRecord_holdOp (a : Word) (k : Control) (runs : running (s.chan n) = true) :
    HoldOp n s (takeRecord n a k s) := by
  unfold takeRecord
  split
  · next h => exact (HoldOp.of_writeWord h).trans enterFault_holdOp
  · next h =>
    split
    · next g => exact ((HoldOp.of_writeWord h).trans (.of_readWords g)).trans enterFault_holdOp
    · next ws v g =>
      have still : running (v.chan n) = true := by
        rw [(StillOp.of_readWords g).same.running, (StillOp.of_writeWord h).same.running, runs]
      have loaded := (((HoldOp.of_writeWord (n := n) h).trans (.of_readWords g)).trans
        (walkLine_holdOp (f := loadTaken a k (unpackSamples ws)) fun _ => ⟨_, _, rfl⟩)).trans
        (walkLine_holdOp (f := beginBlock) fun c => ⟨c.walk, _, rfl⟩)
      refine ((loaded.trans (applyDirective_holdOp k.dirCode k.dirArg ?_)).trans ?_).trans (statusEvent_holdOp _)
      · rw [modChan_chan_self, modChan_chan_self]
        exact still
      · exact walkLine_holdOp fun c => ⟨_, c.line, rfl⟩

theorem lookAtRecord_holdOp (runs : running (s.chan n) = true) : HoldOp n s (lookAtRecord n s) := by
  dsimp only [lookAtRecord]
  split
  · next h => exact (HoldOp.of_readWord h).trans enterFault_holdOp
  · next h =>
    split
    · exact (HoldOp.of_readWord h).trans starveAndBegin_holdOp
    · split
      · next g => exact ((HoldOp.of_readWord h).trans (.of_readWord g)).trans enterFault_holdOp
      · next g =>
        have control := (HoldOp.of_readWord (n := n) h).trans (.of_readWord g)
        split
        · refine control.trans (takeRecord_holdOp _ _ ?_)
          rw [(StillOp.of_readWord g).same.running, (StillOp.of_readWord h).same.running, runs]
        · exact control.trans (refuseRecord_holdOp _ _)

/-- A link that leads on leaves the channel running. -/
theorem followLink_running {a : Word} (h : followLink n a s = (true, t)) :
    running (t.chan n) = running (s.chan n) := by
  unfold followLink at h
  split at h
  · exact absurd (Prod.mk.inj h).1 (by decide)
  · next g =>
    split at h
    · rw [← (Prod.mk.inj h).2, modChan_chan_self, ← (StillOp.of_readWord g).same.running]
      rfl
    · rw [← (Prod.mk.inj h).2, modChan_chan_self, ← (StillOp.of_readWord g).same.running]
      rfl
    · exact absurd (Prod.mk.inj h).1 (by decide)

theorem take_holdOp (runs : running (s.chan n) = true) : HoldOp n s (take n s) := by
  unfold take
  split
  · exact lookAtRecord_holdOp runs
  · have link := followLink_holdOp (n := n) (s := s) (s.chan n).walk.cursor
    split
    · next h => rwa [h] at link
    · next h =>
      rw [h] at link
      split
      · exact link.trans starveAndBegin_holdOp
      · exact link.trans (lookAtRecord_holdOp ((followLink_running h).trans runs))

/-! ## Closes and boundaries -/

theorem searchBlock_sweeping (x : List Sample) (c : Channel) :
    (searchBlock x c).search.sweeping = c.search.sweeping := by
  unfold searchBlock
  dsimp only
  generalize windowLags _ _ _ = lags
  induction lags using List.reverseRecOn with
  | nil => rfl
  | append_singleton lags l ih =>
    rw [List.foldl_concat]
    exact ih

/-- The updates of a close leave lengths, delay and far taps in use alone (R24). -/
theorem applyClose_holdOp (m : Measured) (eps : Option (List Sample)) :
    HoldOp n s (s.modChan n fun c => searchAtClose m.u (applyClose m eps c)) := by
  refine .quiet fun c => ?_
  unfold searchAtClose
  split
  · exact ⟨rfl, rfl, rfl, rfl, searchBlock_sweeping _ _, rfl, rfl, rfl⟩
  · exact ⟨rfl, rfl, rfl, rfl, rfl, rfl, rfl, rfl⟩

theorem finishClose_holdOp (before : Channel) (m : Measured) (o : RefOutcome)
    (eps : Option (List Sample)) : HoldOp n s (finishClose n before m o eps s) := by
  have late := ((applyClose_holdOp (n := n) (s := s) m eps).trans
    (guardAndProgram_holdOp m.er m.eu)).trans (statusEvent_holdOp before)
  dsimp only [finishClose]
  split
  · exact late
  · exact late.trans (completeDone_holdOp _ _ _ _)

theorem closeBlock_holdOp : HoldOp n s (closeBlock n s) := by
  have stuck := HoldOp.raiseIf (n := n) (s := s) ((s.chan n).hist.stuckRun == 199 &&
    (measure (s.chan n)).stuckRun == 200) (chanSource n) .stuck
  dsimp only [closeBlock]
  split
  · exact stuck.trans (finishClose_holdOp _ _ _ _)
  · split
    · split
      · next h =>
        refine ((stuck.trans (.of_readWords h)).trans ?_).trans enterFault_holdOp
        exact HoldOp.fields fun _ => ⟨rfl, rfl, rfl, rfl, rfl, rfl⟩
      · next h => exact (stuck.trans (.of_readWords h)).trans (finishClose_holdOp _ _ _ _)
    · exact stuck.trans (finishClose_holdOp _ _ _ _)

theorem boundary_holdOp : HoldOp n s (boundary n s) := by
  cases runs : running (s.chan n) with
  | false => rw [boundary_stopped runs]; exact .refl
  | true =>
    cases block : (s.chan n).line.inBlock with
    | false => rw [boundary_noBlock runs block]; exact take_holdOp runs
    | true =>
      have closed : HoldOp n s ((closeBlock n s).modChan n blockClosed) :=
        closeBlock_holdOp.trans (walkLine_holdOp fun c => ⟨c.walk, _, rfl⟩)
      rw [boundary_block runs block]
      split
      · next still =>
        refine closed.trans (take_holdOp ?_)
        rw [modChan_chan_self]
        exact still
      · exact closed

/-! ## Locks and losses of the line -/

theorem lockStep_holdOp : HoldOp n s (lockStep s n) := by
  unfold lockStep
  split
  · have zeroed : HoldOp n s (s.modChan n lockChan) := .fields fun _ => ⟨rfl, rfl, rfl, rfl, rfl, rfl⟩
    exact (zeroed.trans (changeHold_holdOp (removeHoldChan_sameHolding .line))).trans
      (statusEvent_holdOp (s.chan n))
  · exact walkLine_holdOp fun c => ⟨_, c.line, rfl⟩

theorem loseLine_holdOp (slots : Option Nat) : HoldOp n s (loseLine slots s n) := by
  unfold loseLine
  dsimp only
  split
  · have ended : HoldOp n s (s.modChan n endBlock) := walkLine_holdOp fun c => ⟨c.walk, _, rfl⟩
    have dropped : HoldOp n s (dropRecord n (!slotOutside slots (s.chan n)) (s.modChan n endBlock)) := by
      refine ended.trans ?_
      unfold dropRecord
      split
      · exact completeLineLost_holdOp _ _
      · exact .refl
    split_ifs
    · exact dropped
    · exact dropped.trans enterFault_holdOp
    · exact (dropped.trans (changeHold_holdOp (addHoldChan_sameHolding _))).trans (statusEvent_holdOp _)
  · exact .refl

/-! ## Requests at a visit -/

theorem readOpen_maintMem {r : Option (OpenReq × List Phase)} (h : readOpen n s = (r, t)) :
    MaintMem s t := by
  unfold readOpen at h
  split at h
  · next g =>
    rw [← (Prod.mk.inj h).2]
    exact .of_readWords g
  · next g =>
    dsimp only at h
    split at h
    · rw [← (Prod.mk.inj h).2]
      exact .of_readWords g
    · split at h
      all_goals
        next g' =>
          rw [← (Prod.mk.inj h).2]
          exact (MaintMem.of_readWords g).trans (.of_readWords g')

/-- The pool's answer to a loaded D changes filters, segments and their history alone. -/
theorem requestForProfile_chan (n : Fin 32) (s : State) : ∃ l p f, (requestForProfile n s).chan n =
    { s.chan n with segs := l, poolHist := p, filt := f } := by
  obtain ⟨l, p, held, -⟩ := bringHolding_spec n
    (segsFor ((s.chan n).filt.delay + (s.chan n).filt.lf - 1)) s
  dsimp only [requestForProfile]
  generalize bringHolding n _ _ = b at held ⊢
  split_ifs
  · exact ⟨_, _, _, rfl⟩
  · exact ⟨l, p, _, held⟩
  · exact ⟨[], [], _, by rw [raise_chan, modChan_chan_self, releaseAll_chan_self, held]⟩

/-- The lookup of an OPEN leaves a channel that held nothing with a placed window, or with nothing. -/
theorem consultStore_placed (segs : (s.chan n).segs = []) (off : (s.chan n).filt.delay = 0) :
    Placed ((consultStore n s).chan n) ∧ ∃ l p f o, (consultStore n s).chan n =
      { s.chan n with segs := l, poolHist := p, filt := f, profileOutcome := o } := by
  have empty : Placed (s.chan n) := ⟨fun _ => segs, fun on => absurd off on⟩
  unfold consultStore
  dsimp only
  split
  · split
    · rw [modChan_chan_self]
      exact ⟨empty, _, _, _, _, rfl⟩
    · next o i found =>
      obtain ⟨-, -, -, -, -, lf, -⟩ := lookup_some found
      obtain ⟨v, hv⟩ : ∃ v, v = { s with store := touch i s.store }.modChan n fun c =>
        { c with profileOutcome := o, filt := loadEntry (entryAt s.store i) c.filt } := ⟨_, rfl⟩
      have chan : v.chan n = { s.chan n with
          profileOutcome := o, filt := loadEntry (entryAt s.store i) (s.chan n).filt } := by
        rw [hv]
        exact modChan_chan_self _ _ _
      rw [← hv]
      obtain ⟨l, p, f, form⟩ := requestForProfile_chan n v
      refine ⟨?_, l, p, f, o, by rw [form, chan]⟩
      by_cases hd : (v.chan n).filt.delay = 0
      · have same : requestForProfile n v = v := if_pos hd
        rw [same]
        exact ⟨fun _ => by rw [chan]; exact segs, fun on => absurd hd on⟩
      · have taps : (v.chan n).filt.lfEff = (v.chan n).filt.lf := by
          rw [chan] at hd ⊢
          unfold loadEntry at hd ⊢
          dsimp only at hd ⊢
          split at hd
          · exact absurd rfl hd
          · next e =>
            rw [if_neg e]
            exact lf
        obtain ⟨c, rfl, placed⟩ := requestForProfile_holds (by rw [chan]; exact segs) taps
        exact placed
  · exact ⟨empty, _, _, _, _, rfl⟩

theorem startState_running (b : Bool) (rs : RunState) (c : Channel) :
    running (startState b rs c) = true := by
  cases b <;> cases rs <;> rfl

/-- An accepted OPEN leaves a channel that held nothing with what it may hold (R32, R33, R58, R74). -/
theorem acceptOpen_holds (r : OpenReq) (phases : List Phase) (segs : (s.chan n).segs = []) :
    HoldsLegally ((acceptOpen n r phases s).chan n) := by
  unfold acceptOpen
  obtain ⟨v, hv⟩ : ∃ v, v = (copyPriority (chanSource n) r.priority s).modChan n (openedChan r phases) :=
    ⟨_, rfl⟩
  have chan : v.chan n = openedChan r phases (s.chan n) := by
    rw [hv]
    exact modChan_chan_self _ _ _
  rw [← hv]
  obtain ⟨placed, l, p, f, o, form⟩ := consultStore_placed (s := v) (n := n) (by rw [chan]; exact segs)
    (by rw [chan]; rfl)
  generalize consultStore n v = w at placed form ⊢
  unfold startChannel
  generalize startPosition (w.chan n) = start
  obtain ⟨q, rs⟩ := start
  obtain ⟨x, hx⟩ : ∃ x, x = w.modChan n fun c =>
    { startState (w.port.state == .locked) rs c with phaseIndex := q } := ⟨_, rfl⟩
  have started : x.chan n =
      { startState (w.port.state == .locked) rs (w.chan n) with phaseIndex := q } := by
    rw [hx, modChan_chan_self]
  have runs : running (x.chan n) = true := by
    rw [started]
    exact startState_running _ rs (w.chan n)
  have dmin : 64 ≤ (w.chan n).dmin := by
    rw [form, chan]
    show 64 ≤ clampDelay r.dmin
    rw [clampDelay_eq]
    omega
  have idle : (w.chan n).search.sweeping = false := by
    rw [form, chan]
    rfl
  have legal : HoldsLegally (x.chan n) := by
    rw [started] at runs ⊢
    cases hl : (w.port.state == .locked) <;> rw [hl] at runs <;>
      exact Placed.legal (c := { startState _ rs (w.chan n) with phaseIndex := q }) placed dmin idle runs
  dsimp only
  rw [← hx]
  cases rs
  · exact enterPhase_holdOp q runs legal
  · exact legal

theorem serveOpen_holdOp : HoldOp n s (serveOpen n s) := by
  unfold serveOpen
  split
  · next h => exact .of_maintMem ((readOpen_maintMem h).trans (.raise _ _))
  · next r phases v h =>
    have read : HoldOp n s v := .of_maintMem (readOpen_maintMem h)
    split
    · exact read.trans (.of_maintMem (answer_maintMem _ _ _))
    · next passed =>
      obtain ⟨closed, -, -⟩ := openRefusal_none passed
      have opened : HoldOp n v (acceptOpen n r phases v) := fun held => by
        refine acceptOpen_holds r phases (held.1 ?_)
        rw [running, eq_of_beq closed]
      have shown : ∀ w, HoldOp n w (openStatus n w).2 := fun w => by
        have status := statusWrite_holdOp (n := n) (s := w)
        unfold openStatus
        split
        · next g => rwa [g] at status
        · next g =>
          rw [g] at status
          exact status.trans (.of_maintMem (writeDesc_maintMem _ _ _))
      exact ((read.trans opened).trans (shown _)).trans (.of_maintMem (answerAfter_maintMem _ _ _ _))

theorem serveClose_holdOp : HoldOp n s (serveClose n s) := by
  have tail : ∀ v : State, (HoldsLegally (s.chan n) → (v.chan n).segs = []) → HoldOp n s
      (answerAfter (chanDesc n) (chanSource n) respClosed
        (statusWrite n (v.modChan n (leaveRunning .closed)))) := fun v empty held => by
    have closed : HoldsLegally ((v.modChan n (leaveRunning .closed)).chan n) := by
      rw [modChan_chan_self]
      exact holdsLegally_stopped rfl (empty held)
    exact HoldOp.of_maintMem (answerAfter_maintMem _ _ _ _) (statusWrite_holdOp closed)
  have run : HoldOp n s (match completeClosed n s with
      | (true, s) => answerAfter (chanDesc n) (chanSource n) respClosed
          (statusWrite n (closeChan n (saveAtClose n s)))
      | (false, s) => answerAfter (chanDesc n) (chanSource n) respClosed
          (statusWrite n ((faultEffects n s).modChan n (leaveRunning .closed)))) := by
    split
    · exact tail _ fun _ => by rw [releaseAll_chan_self]
    · exact tail _ fun _ => by rw [faultEffects_chan]; rfl
  unfold serveClose
  split
  · exact .of_maintMem (answer_maintMem _ _ _)
  · next fault => exact tail s fun held => held.1 (by rw [running, fault])
  all_goals exact run

theorem serveChannel_holdOp : HoldOp n s (serveChannel s n) := by
  unfold serveChannel
  split
  · next h => exact .of_maintMem ((MaintMem.of_readWord h).trans (.raise _ _))
  · next h =>
    have read := HoldOp.of_readWord (n := n) h
    split
    · exact read
    · exact read.trans serveOpen_holdOp
    · exact read.trans serveClose_holdOp
    · exact read.trans (.of_maintMem (answer_maintMem _ _ _))

/-! ## Every command -/

/-- One channel's event keeps every channel's holding. -/
theorem HoldOp.all (h : HoldOp n s t) (others : ∀ k, k ≠ n → t.chan k = s.chan k) (g : HoldingLegal s) :
    HoldingLegal t := fun k => by
  by_cases hk : k = n
  · subst hk
    exact h (g k)
  · rw [others k hk]
    exact g k

theorem holdingLegal_lineLaw : LineLaw HoldingLegal := by
  refine .of_chans (fun h chans _ _ k => ?_) (fun _ => reset_holdingLegal _) (fun _ k => ?_)
    (fun _ => lockStep_holdOp.all lockStep_lineOp.op.others)
    (fun _ _ => (loseLine_holdOp _).all (loseLine_lineOp _).1.op.others)
    (fun _ => boundary_holdOp.all boundary_boundaryOp.op.others) (fun h k => ?_)
    (fun n x h k => ?_) (fun _ => serveChannel_holdOp.all serveChannel_visitOp.op.others)
  · rw [State.chan, chans]
    exact h k
  · rw [softReset_chan]
    exact holdsLegally_stopped rfl rfl
  · rw [sendFrame_chan]
    obtain ⟨p, e⟩ := advancePlay_eq (State.chan _ k)
    rw [e]
    exact h k
  · obtain ⟨l, e⟩ := modChan_captureSample (s := _) n k x
    rw [e]
    exact h k

/-- Settles O56: the pool, its history and the holdings by the operations that `LineLaw` names. -/
theorem poolConserved : Obligations.PoolConserved :=
  ⟨poolLegal_lineLaw.keptByStep fun _ _ => id, historyLegal_lineLaw.keptByStep fun _ _ => id,
    holdingLegal_lineLaw.keptByStep fun _ _ => id⟩

end Sys2Proof.Machine

/-! Proofs about the checks of an OPEN (R30, R153, R156). -/

namespace Sys2Proof.Machine

/-! ## The conditions in arithmetic terms -/

/-- A multiple of 4 by its two low bits (R88). -/
theorem aligned_iff (a : Word) : aligned a = true ↔ a.toNat % 4 = 0 := by
  rw [aligned, beq_iff_eq, ← BitVec.toNat_inj]
  simp [BitVec.extractLsb'_toNat]

theorem onGrid_iff (n top : Nat) : onGrid n top = true ↔ n % 8 = 0 ∧ 8 ≤ n ∧ n ≤ top := by
  simp [onGrid, and_assoc]

/-- The grid of near and equalizer lengths, listed (R30 condition 3). -/
theorem onGrid_64_iff (n : Nat) : onGrid n 64 = true ↔ n ∈ [8, 16, 24, 32, 40, 48, 56, 64] := by
  simp only [onGrid_iff, List.mem_cons, List.not_mem_nil, or_false]
  omega

/-- The far lengths, listed: 0 or on the grid up to 128 (R30 condition 3). -/
theorem farLength_iff (n : Nat) : (n == 0 || onGrid n 128) = true ↔
    n ∈ [0, 8, 16, 24, 32, 40, 48, 56, 64, 72, 80, 88, 96, 104, 112, 120, 128] := by
  simp only [Bool.or_eq_true, beq_iff_eq, onGrid_iff, List.mem_cons, List.not_mem_nil, or_false]
  omega

theorem lengthsOk_iff (ln lf le : Nat) : lengthsOk ln lf le = true ↔
    ln ∈ [8, 16, 24, 32, 40, 48, 56, 64] ∧
      lf ∈ [0, 8, 16, 24, 32, 40, 48, 56, 64, 72, 80, 88, 96, 104, 112, 120, 128] ∧
      le ∈ [8, 16, 24, 32, 40, 48, 56, 64] := by
  rw [← onGrid_64_iff, ← farLength_iff, ← onGrid_64_iff]
  simp only [lengthsOk, Bool.and_eq_true, and_assoc]

/-! ## The checks in order -/

/-- The rows of R30 as a chain of tests, each of a condition that fails. -/
theorem openRefusal_eq (closed taken : Bool) (slots : Nat) (r : OpenReq) (phases : List Phase) :
    openRefusal closed slots taken r phases =
      if closed = false then some ⟨3, 0⟩
      else if ¬ (r.timeslot < slots ∧ taken = false) then some ⟨5, 0⟩
      else if ¬ lengthsOk r.ln r.lf r.le = true then some ⟨6, 3⟩
      else if r.le ≤ r.cursor then some ⟨6, 4⟩
      else if ¬ (1 ≤ r.progLen ∧ r.progLen ≤ 8) then some ⟨7, 1⟩
      else if ¬ (r.lf = 0 → ∀ p ∈ phases, p.search = false) then some ⟨7, 2⟩
      else if ¬ (r.firstRecord ≠ 0#32 ∧ r.firstRecord.toNat % 4 = 0) then some ⟨8, 0⟩
      else none := by
  unfold openRefusal
  refine if_congr (by simp) rfl (if_congr ?_ rfl (if_congr (by simp) rfl (if_congr Iff.rfl rfl
    (if_congr ?_ rfl (if_congr ?_ rfl (if_congr ?_ rfl rfl))))))
  · cases taken <;> simp
  · simp only [Bool.or_eq_true, beq_iff_eq, decide_eq_true_eq]
    omega
  · simp [List.any_eq_true]
  · rw [← aligned_iff]
    cases aligned r.firstRecord <;> simp

/-- Settles O38: the rows of `openRefusal_eq` in turn; at the first condition that fails, and where none
does, every clause is decided. -/
theorem openChecksInOrder : Obligations.OpenChecksInOrder := by
  intro closed taken slots r phases slotOk lengths count search address out
  have form : out = _ := openRefusal_eq closed taken slots r phases
  simp only [lengthsOk_iff] at form
  change out = if closed = false then some ⟨3, 0⟩ else if ¬ slotOk then some ⟨5, 0⟩
    else if ¬ lengths then some ⟨6, 3⟩ else if r.le ≤ r.cursor then some ⟨6, 4⟩
    else if ¬ count then some ⟨7, 1⟩ else if ¬ search then some ⟨7, 2⟩
    else if ¬ address then some ⟨8, 0⟩ else none at form
  clear_value out
  subst form
  rcases Nat.lt_or_ge r.cursor r.le with inside | outside
  · have := Nat.not_le.2 inside
    split_ifs <;> simp [*]
  · have := Nat.not_lt.2 outside
    split_ifs <;> simp [*]

end Sys2Proof.Machine

/-! Proofs about a counted close and the training program (R41 to R45, R49, R55), and about the directives of a
taken record (R47, R48, R50 to R54). -/

namespace Sys2Proof.Machine

variable {n : Fin 32} {s : State}

/-! ## A counted close (R41 to R45, R55) -/

/-- The block closed with these energies counts for the divergence guard (R55). -/
abbrev Diverges (c : Channel) (er eu : Nat) : Prop := c.guard = true ∧ 2 * er < eu ∧ c.rf ≤ er / 256

theorem guard_and_divergent (c : Channel) (er eu : Nat) :
    (c.guard && divergent c er eu) = decide (Diverges c er eu) := by
  unfold divergent reported
  rw [Bool.eq_iff_iff]
  simp

/-- The divergence run after a close (R55). -/
def nextDivRun (c : Channel) (er eu : Nat) : Nat := if Diverges c er eu then c.divRun + 1 else 0

/-- A close that does not restart: in TRACKING the divergence run alone, in TRAINING the program too (R55). -/
theorem guardAndProgram_counted {er eu : Nat}
    (h : ¬ ((s.chan n).guard = true ∧ 2 * er < eu ∧ (s.chan n).rf ≤ er / 256 ∧ 7 ≤ (s.chan n).divRun)) :
    ((s.chan n).state = .tracking → guardAndProgram n er eu s =
      s.modChan n fun c => { c with divRun := nextDivRun (s.chan n) er eu }) ∧
    ((s.chan n).state = .training → guardAndProgram n er eu s = advanceProgram n er eu
      (s.modChan n fun c => { c with divRun := nextDivRun (s.chan n) er eu })) := by
  have noRestart : ((s.chan n).guard && decide (8 ≤ nextDivRun (s.chan n) er eu)) = false := by
    rw [Bool.and_eq_false_iff, decide_eq_false_iff_not, nextDivRun]
    by_cases hd : Diverges (s.chan n) er eu
    · right
      rw [if_pos hd]
      exact fun h8 => h ⟨hd.1, hd.2.1, hd.2.2, by omega⟩
    · right
      rw [if_neg hd]
      omega
  have run : (if ((s.chan n).guard && divergent (s.chan n) er eu) = true then (s.chan n).divRun + 1 else 0) =
      nextDivRun (s.chan n) er eu := by
    rw [guard_and_divergent, nextDivRun]
    exact if_congr decide_eq_true_iff rfl rfl
  constructor
  all_goals
    intro hs
    unfold guardAndProgram
    simp only [hs, run, noRestart, Bool.false_eq_true, if_false]

/-- The channel after the counts of a close in TRAINING (R41, R42, R55). -/
def countedChan (c : Channel) (er eu : Nat) : Channel :=
  { c with blockCount := c.blockCount + 1, earlyRun := nextEarlyRun c er eu, divRun := nextDivRun c er eu }

theorem phaseEnds_iff (c : Channel) : phaseEnds c = true ↔
    c.blockCount = (currentPhase c).duration ∨ c.earlyRun = (currentPhase c).runK ∨
      ((currentPhase c).search = true ∧
        (c.search.sweeping = false ∨ c.search.sweepLen ≤ c.search.nextBlock)) := by
  simp [phaseEnds, sweepComplete, or_assoc]

/-- A close in TRAINING that does not restart: the phase goes on, or it ends, its search first (R43, R65). -/
theorem guardAndProgram_training {er eu : Nat} (hs : (s.chan n).state = .training)
    (h : ¬ ((s.chan n).guard = true ∧ 2 * er < eu ∧ (s.chan n).rf ≤ er / 256 ∧ 7 ≤ (s.chan n).divRun)) :
    guardAndProgram n er eu s =
      let u := s.modChan n fun _ => countedChan (s.chan n) er eu
      if phaseEnds (countedChan (s.chan n) er eu) = true then
        nextPhase n (if (s.chan n).search.sweeping = true then endSearch n u else u)
      else u := by
  rw [(guardAndProgram_counted h).2 hs, advanceProgram, modChan_modChan]
  rw [modChan_congr (g := fun _ => countedChan (s.chan n) er eu) rfl]
  dsimp only
  rw [modChan_chan_self]
  rfl

/-- Settles O31: the close in one form (`guardAndProgram_training`), then the end of the phase by cases. -/
theorem countedCloseAdvancesProgram : Obligations.CountedCloseAdvancesProgram := by
  refine ⟨?_, ?_⟩
  · rintro n er eu s c rfl
    exact ⟨fun hs h => ((guardAndProgram_counted h).1 hs).trans (modChan_congr rfl), guardAndProgram_held⟩
  · rintro n er eu s c p d rfl hs rfl h hd ends
    replace hd : d = countedChan (s.chan n) er eu := hd
    have ending : phaseEnds d = true ↔ ends := by subst hd; exact phaseEnds_iff (countedChan (s.chan n) er eu)
    have form := guardAndProgram_training hs h
    rw [← hd] at form
    have phase : d.phaseIndex = (s.chan n).phaseIndex ∧ d.progLen = (s.chan n).progLen ∧
        d.program = (s.chan n).program := by rw [hd]; exact ⟨rfl, rfl, rfl⟩
    obtain ⟨index, len, program⟩ := phase
    clear_value ends
    clear hd
    refine ⟨fun hn => ?_, fun he hq hlt => ⟨_, rfl, ?_⟩, fun he hq hle => ?_, fun he hq => ?_⟩
    · rw [form, if_neg (mt ending.1 hn)]
    · rw [form, if_pos (ending.2 he), hq]
      simp only [Bool.false_eq_true, if_false, nextPhase, modChan_chan_self, index, len, if_pos hlt, enterPhase,
        modChan_modChan, currentPhase, Function.comp_def, program]
    · rw [form, if_pos (ending.2 he), hq]
      simp only [Bool.false_eq_true, if_false, nextPhase, modChan_chan_self, index, len,
        if_neg (Nat.not_lt.2 hle), modChan_modChan, Function.comp_def]
    · rw [form, if_pos (ending.2 he), hq, if_pos rfl]

/-! ## Directives (R45, R47, R48, R50 to R54) -/

/-- A change of hold reasons that keeps the state raises nothing (R29). -/
theorem changeHold_same {f : Channel → Channel} (h : (f (s.chan n)).state = (s.chan n).state) :
    changeHold n f s = s.modChan n f := by
  simp [changeHold, raiseIf_eq, h]

/-- A change of hold reasons that changes the state raises STATE (R29). -/
theorem changeHold_changed {f : Channel → Channel} (h : (f (s.chan n)).state ≠ (s.chan n).state) :
    changeHold n f s = raise (chanSource n) .state (s.modChan n f) := by
  simp [changeHold, raiseIf_eq, h]

/-- FREEZE of a channel that trains or tracks: HELD, with the state left as resume state (R47). -/
theorem freeze_running (h : (s.chan n).state = .training ∨ (s.chan n).state = .tracking) :
    changeHold n (addHoldChan .directive) s = raise (chanSource n) .state (s.modChan n fun c =>
      { c with state := .held, resume := resumeOf c, holdDirective := true }) := by
  have form : addHoldChan .directive (s.chan n) =
      { s.chan n with state := .held, resume := resumeOf (s.chan n), holdDirective := true } := by
    rcases h with h | h <;> simp [addHoldChan, setHold, resumeOf, h]
  have left : (addHoldChan .directive (s.chan n)).state ≠ (s.chan n).state := by
    rcases h with h | h <;> simp [form, h]
  rw [changeHold_changed left]
  exact congrArg _ (modChan_congr form)

theorem freeze_held (h : (s.chan n).state = .held) : changeHold n (addHoldChan .directive) s =
    s.modChan n fun c => { c with holdDirective := true } := by
  have form : addHoldChan .directive (s.chan n) = { s.chan n with holdDirective := true } := by
    simp [addHoldChan, setHold, h]
  rw [changeHold_same (by rw [form])]
  exact modChan_congr form

/-- THAW of a channel held by the directive alone: it goes on in its resume state (R48). -/
theorem thaw_resumes {rs : RunState} (h : (s.chan n).state = .held) (hl : (s.chan n).holdLine = false)
    (hr : (s.chan n).resume = some rs) : changeHold n (removeHoldChan .directive) s =
      raise (chanSource n) .state (s.modChan n fun c =>
        { c with state := rs.toState, resume := none, holdDirective := false }) := by
  have form : removeHoldChan .directive (s.chan n) =
      { s.chan n with state := rs.toState, resume := none, holdDirective := false } := by
    simp [removeHoldChan, setHold, leaveHeld, h, hl, hr]
  have left : (removeHoldChan .directive (s.chan n)).state ≠ (s.chan n).state := by
    cases rs <;> simp [form, h, RunState.toState]
  rw [changeHold_changed left]
  exact congrArg _ (modChan_congr form)

theorem thaw_keepsHeld (h : (s.chan n).state = .held) (hl : (s.chan n).holdLine = true) :
    changeHold n (removeHoldChan .directive) s = s.modChan n fun c => { c with holdDirective := false } := by
  have form : removeHoldChan .directive (s.chan n) = { s.chan n with holdDirective := false } := by
    simp [removeHoldChan, setHold, h, hl]
  rw [changeHold_same (by rw [form])]
  exact modChan_congr form

theorem thaw_notHeld (h : (s.chan n).state ≠ .held) : changeHold n (removeHoldChan .directive) s = s := by
  have form : removeHoldChan .directive (s.chan n) = s.chan n := if_neg h
  rw [changeHold_same (by rw [form]), modChan_eq_self form]

/-- A channel sent back to training: TRACKING is left, and in HELD the resume state is TRAINING (R52, R53). -/
def retrained (c : Channel) : Channel :=
  { c with
    state := if c.state = .tracking then .training else c.state
    resume := if c.state = .held then some .training else c.resume }

theorem retrained_eq_self {c : Channel} (ht : c.state ≠ .tracking) (hh : c.state ≠ .held) :
    retrained c = c := by
  rw [retrained, if_neg ht, if_neg hh]

/-- The return to training in one form, with STATE where TRACKING is left. -/
theorem backToTraining_eq : backToTraining n s = { s.modChan n retrained with
    attn := if (s.chan n).state = .tracking then attnRaise (chanSource n) .state s.attn else s.attn } := by
  unfold backToTraining
  split
  next hs =>
    rw [modChan_congr (f := retrained) (g := fun c => { c with state := .training }) (by
      simp [retrained, hs]), if_pos hs]
    rfl
  next hs =>
    rw [modChan_congr (f := retrained) (g := fun c => { c with resume := some .training }) (by
      simp [retrained, hs]), if_neg (by simp [hs])]
    rfl
  all_goals
    rename_i hs
    rw [modChan_eq_self (retrained_eq_self (by simp [hs]) (by simp [hs])), if_neg (by simp [hs])]

/-- A phase entered, with the search of a search phase (R45, R58). -/
theorem enterPhase_eq (p : Nat) : enterPhase n p s =
    let u := s.modChan n fun c => { c with phaseIndex := p, blockCount := 0, earlyRun := 0 }
    if ((s.chan n).program.getD p Phase.blank).search = true then startSearch n u else u := by
  simp only [enterPhase, currentPhase, modChan_chan_self]

/-- The state that RETRAIN to phase `p` leaves before any search of that phase (R52). -/
def retrainedTo (n : Fin 32) (p : Nat) (s : State) : State :=
  (backToTraining n (abandonSearch n s)).modChan n fun c =>
    { c with phaseIndex := p, blockCount := 0, earlyRun := 0 }

theorem abandonSearch_idle (h : (s.chan n).search.sweeping = false) : abandonSearch n s = s := by
  simp [abandonSearch, h]

/-- A search in progress abandoned: no result, nothing held, the far canceller off (R71). -/
theorem abandonSearch_sweeping (h : (s.chan n).search.sweeping = true) : abandonSearch n s =
    (releaseAll n s).modChan n fun c =>
      { c with filt := farOff c.filt, statusDue := true, search := { c.search with sweeping := false } } := by
  simp [abandonSearch, h]

theorem abandonSearch_program : ((abandonSearch n s).chan n).program = (s.chan n).program := by
  unfold abandonSearch
  split
  · rw [modChan_chan_self, releaseAll_chan_self]
  · rfl

theorem retrain_eq (p : Nat) : retrain n p s =
    if ((s.chan n).program.getD p Phase.blank).search = true then startSearch n (retrainedTo n p s)
    else retrainedTo n p s := by
  have program : ((backToTraining n (abandonSearch n s)).chan n).program = (s.chan n).program := by
    rw [backToTraining_eq, chan_with_attn, modChan_chan_self, ← abandonSearch_program]
    rfl
  rw [retrain, enterPhase_eq, program]
  rfl

theorem retrainedTo_chan (p : Nat) : (retrainedTo n p s).chan n =
    { retrained ((abandonSearch n s).chan n) with phaseIndex := p, blockCount := 0, earlyRun := 0 } := by
  rw [retrainedTo, modChan_chan_self, backToTraining_eq, chan_with_attn, modChan_chan_self]

theorem retrainedTo_others (p : Nat) (k : Fin 32) (h : k ≠ n) :
    (retrainedTo n p s).chan k = (abandonSearch n s).chan k := by
  rw [retrainedTo, modChan_chan_ne _ _ _ _ h, backToTraining_eq, chan_with_attn, modChan_chan_ne _ _ _ _ h]

theorem retrainedTo_attn (p : Nat) : (retrainedTo n p s).attn =
    if ((abandonSearch n s).chan n).state = .tracking then
      attnRaise (chanSource n) .state (abandonSearch n s).attn else (abandonSearch n s).attn := by
  rw [retrainedTo, modChan_attn, backToTraining_eq]

theorem restart_eq : restart n s = backToTraining n (restartedSearching n s) := by
  rw [restart, enterPhase_untrain]

/-- A save requested: its outcome, the store after it, and PROFILE when it is refused (R123 to R125). -/
theorem requestSave_eq {o : SaveOutcome} {st : Store}
    (h : (o, st) = saveProfileTo s.store (s.chan n).routeTag (s.chan n).filt) : requestSave n s =
      (o, raiseIf (o != .saved) (chanSource n) .profile
        ({ s with store := st }.modChan n fun c => { c with lastSave := o, statusDue := true })) := by
  unfold requestSave
  dsimp only
  rw [← h]

theorem tracks_iff (c : Channel) :
    tracks c = true ↔ c.state = .tracking ∨ (c.state = .held ∧ c.resume = some .tracking) := by
  simp [tracks]

/-- Settles O33: each directive by the lemma that gives its state in one form. -/
theorem directivesAct : Obligations.DirectivesAct := by
  rintro n arg s c rfl
  refine ⟨rfl, fun code hc => ?_, fun h => if_neg (Nat.not_lt.2 h),
    fun h => by rw [← freeze_running h]; rfl, fun h => by rw [← freeze_held h]; rfl,
    fun rs h hl hr => by rw [← thaw_resumes h hl hr]; rfl, fun h hl => by rw [← thaw_keepsHeld h hl]; rfl,
    fun h => ?_, fun hp hq => ?_, fun hp hq => ?_, fun hr => ?_, fun h => ?_, fun ht hs => ?_⟩
  · obtain ⟨k, rfl⟩ := Nat.exists_eq_add_of_le hc
    rw [Nat.add_comm]
    rfl
  · rw [show (applyDirective n 2 arg s).2 = s from thaw_notHeld h]
    exact ⟨rfl, rfl⟩
  · have same := abandonSearch_idle hq
    refine ⟨retrainedTo n arg s, ?_, ?_, fun k hk => ?_, ?_, ?_⟩
    · rw [← retrain_eq]
      exact if_pos hp
    · rw [retrainedTo, same, backToTraining_eq]
      rfl
    · rw [retrainedTo_others _ _ hk, same]
    · rw [retrainedTo_chan, same]
      rfl
    · rw [retrainedTo_attn, same]
  · have form := abandonSearch_sweeping hq
    refine ⟨retrainedTo n arg s, true, ?_, ?_, fun k hk => ?_, ?_, ?_⟩
    · rw [← retrain_eq]
      exact if_pos hp
    · rw [retrainedTo_chan, form, modChan_chan_self, releaseAll_chan_self]
      rfl
    · rw [retrainedTo_others _ _ hk, form, modChan_chan_ne _ _ _ _ hk]
      exact shrink_chan_ne _ _ _ _ hk
    · rw [retrainedTo, backToTraining_eq, form]
      rfl
    · rw [retrainedTo_attn, form, modChan_chan_self, releaseAll_chan_self]
      rfl
  · obtain ⟨l, p, q, hv⟩ := restartedSearching_chan (n := n) (s := s)
    rw [restarted_chan] at hv
    refine ⟨restarted n s, restartedSearching n s, restart n s, true, rfl, rfl, restarted_others,
      restarted_chan, rfl, ?_, ?_, fun k hk => ?_, ?_⟩
    · rw [restart_eq, backToTraining_eq]
      rfl
    · rw [restart_eq, backToTraining_eq, hv]
    · rw [restart_eq, backToTraining_eq, chan_with_attn, modChan_chan_ne _ _ _ _ hk]
    · rw [restart_eq, backToTraining_eq, chan_with_attn, modChan_chan_self, retrained, hv]
  · have stays : ¬ ((s.chan n).routeTag ≠ 0#32 ∧ tracks (s.chan n) = true) := by
      rw [tracks_iff]
      rintro ⟨tag, tracking⟩
      rcases h with h | ⟨h1, h2⟩
      · exact tag h
      · exact tracking.elim h1 h2
    simp only [applyDirective, saveNow, if_neg stays]
  · have saves : (s.chan n).routeTag ≠ 0#32 ∧ tracks (s.chan n) = true := ⟨ht, (tracks_iff _).2 hs⟩
    obtain ⟨⟨o, st⟩, saved⟩ : ∃ r, r = saveProfileTo s.store (s.chan n).routeTag (s.chan n).filt := ⟨_, rfl⟩
    refine ⟨o, (requestSave n s).2, true, ?_, ?_, ?_, ?_⟩
    · simp only [applyDirective, saveNow, if_pos saves, requestSave_eq saved]
    · rw [requestSave_eq saved, raiseIf_store]
      exact saved
    · rw [requestSave_eq saved, raiseIf_chan, modChan_chan_self]
      rfl
    · rw [requestSave_eq saved, raiseIf_attn]
      cases o <;> rfl

end Sys2Proof.Machine

/-! Proofs about a soft reset (R28, R80, R105, R132, R134, R137, R164). -/

namespace Sys2Proof.Machine

variable {s : State}

/-! ## The transfers that a soft reset ends (R132, R134) -/

/-- An entry whose transfer, if there is one, is ended early (R132). -/
def abandoned (e : Entry) : Entry :=
  match e.state with
  | .importing => { e with state := .free, tag := 0#32 }
  | .exporting => { e with state := .valid }
  | .valid => e
  | .free => e

theorem abandoned_idle {e : Entry} (h : e.state = .valid ∨ e.state = .free) : abandoned e = e := by
  rcases h with h | h <;> simp only [abandoned, h]

theorem abandoned_exporting {e : Entry} (h : e.state = .exporting) :
    abandoned e = { e with state := .valid } := by simp only [abandoned, h]

theorem abandoned_importing {e : Entry} (h : e.state = .importing) :
    abandoned e = { e with state := .free, tag := 0#32 } := by simp only [abandoned, h]

theorem abandonEntry_entry (i j : Fin 48) (st : Store) : entryAt (abandonEntry i st) j =
    if j = i then abandoned (entryAt st i) else entryAt st j := by
  have self : entryAt st j = if j = i then entryAt st i else entryAt st j := by
    split
    · next h => rw [h]
    · rfl
  cases h : (entryAt st i).state <;> simp only [abandonEntry, abandoned, h]
  case importing => exact entryAt_setEntry ..
  case exporting => exact entryAt_setEntry ..
  all_goals exact self

/-- An entry that was importing leaves the recency order; any other keeps its place (R132). -/
theorem abandonEntry_recency (i : Fin 48) (st : Store) : (abandonEntry i st).recency =
    st.recency.filter fun j => !(j == i && (entryAt st i).state == .importing) := by
  cases h : (entryAt st i).state <;> simp only [abandonEntry, h]
  case importing =>
    refine List.filter_congr fun j _ => ?_
    rw [beq_self_eq_true, Bool.and_true]
    rfl
  all_goals
    symm
    refine List.filter_eq_self.2 fun j _ => ?_
    rw [Bool.not_eq_true', Bool.and_eq_false_iff]
    exact .inr rfl

/-- Listed entries abandoned in turn: each by itself, the rest of the order kept. -/
theorem abandonList_spec (l : List (Fin 48)) (hl : l.Nodup) (st : Store) :
    (∀ j, entryAt (l.foldl (fun st i => abandonEntry i st) st) j =
      if j ∈ l then abandoned (entryAt st j) else entryAt st j) ∧
    (l.foldl (fun st i => abandonEntry i st) st).recency =
      st.recency.filter fun j => !(decide (j ∈ l) && (entryAt st j).state == .importing) := by
  induction l generalizing st with
  | nil => exact ⟨fun _ => rfl, (List.filter_eq_self.2 fun _ _ => rfl).symm⟩
  | cons a l ih =>
    obtain ⟨fresh, hl⟩ := List.nodup_cons.1 hl
    obtain ⟨entries, order⟩ := ih hl (abandonEntry a st)
    have later : ∀ j ∈ l, entryAt (abandonEntry a st) j = entryAt st j := fun j hj => by
      rw [abandonEntry_entry, if_neg (ne_of_mem_of_not_mem hj fresh)]
    rw [List.foldl_cons]
    refine ⟨fun j => ?_, ?_⟩
    · rw [entries]
      by_cases hj : j ∈ l
      · rw [if_pos hj, later j hj, if_pos (List.mem_cons_of_mem a hj)]
      · rw [if_neg hj, abandonEntry_entry]
        by_cases ha : j = a
        · rw [if_pos ha, ha, if_pos List.mem_cons_self]
        · rw [if_neg ha, if_neg (by simp [ha, hj])]
    · rw [order, abandonEntry_recency, List.filter_filter]
      refine List.filter_congr fun j _ => ?_
      by_cases hj : j ∈ l
      · have ne : j ≠ a := ne_of_mem_of_not_mem hj fresh
        simp [later j hj, hj, ne]
      · by_cases ha : j = a <;> simp [ha, hj, fresh]

theorem softResetStore_entry (st : Store) (i : Fin 48) :
    entryAt (softResetStore st) i = abandoned (entryAt st i) :=
  ((abandonList_spec _ (List.nodup_finRange 48) st).1 i).trans (if_pos (List.mem_finRange i))

theorem softResetStore_recency (st : Store) : (softResetStore st).recency =
    st.recency.filter fun i => (entryAt st i).state != .importing := by
  rw [softResetStore, (abandonList_spec _ (List.nodup_finRange 48) st).2]
  refine List.filter_congr fun j _ => ?_
  rw [decide_eq_true (List.mem_finRange j), Bool.true_and]
  rfl

/-! ## The command -/

/-- The mode and threshold fields that SOFT_RESET writes leave the sources as they are (R169). -/
theorem attnControl_sources (pulse : Bool) (t : BitVec 3) (free : Bool) (a : Attn) :
    (attnControl pulse t free a).sources = a.sources := by
  unfold attnControl
  dsimp only
  split
  · rfl
  · rw [settlePin_sources]

/-- What SOFT_RESET writes: the attention fields, then the reset (R163, R164). -/
def softResetWrite (v : Word) (s : State) : State :=
  softResetPart (takeControlFields (v.getLsbD 4) (v.extractLsb' 8 3) s)

/-- SOFT_RESET takes the fields as SET_ATTN_MODE does, then resets the part (R163). -/
theorem exec_softReset (v : Word) (s : State) : exec (.softReset v) s = .next (onBus [] (softResetWrite v) s) := by
  have mode : flag (softResetWord v) 4 = v.getLsbD 4 := by simp [flag, softResetWord]
  have reset : flag (softResetWord v) 1 = true := by simp [flag, softResetWord]
  have threshold : (softResetWord v).extractLsb' 8 3 = v.extractLsb' 8 3 := by
    unfold softResetWord
    ext i hi
    simp [BitVec.getLsbD_or]
    interval_cases i <;> simp
  have write : partControlWrite (softResetWord v) = softResetWrite v := by
    funext s
    rw [partControlWrite, mode, threshold, reset]
    rfl
  show Host.Outcome.next (onBus [] (partControlWrite (softResetWord v)) s) = _
  rw [write]

/-- A legal pool whose segments are all free has 1024 of them (R73). -/
theorem PoolLegal.length_of_empty (h : PoolLegal s) (he : ∀ n, (s.chan n).segs = []) :
    s.pool.length = 1024 := by
  have perm : s.pool.Perm (List.range 1024) := by
    rw [List.perm_iff_count]
    intro x
    have := h x
    simp only [he, List.count_nil, Finset.sum_const_zero, Nat.add_zero] at this
    rw [this, List.nodup_range.count]
    simp only [List.mem_range]
  rw [perm.length_eq, List.length_range]

theorem onBus_pool (bus : Bus) (f : State → State) (s : State) :
    (onBus bus f s).pool = (f { s with bus := bus }).pool := rfl

/-- Settles O6: the command in one form (`exec_softReset`), then field by field. -/
theorem softResetEffects : Obligations.SoftResetEffects := by
  refine ⟨fun v s hb => ?_, fun v s => ?_⟩
  · have form := exec_softReset v s
    obtain ⟨enabled, base, port, store, maint, attn, data, mem, bus, -, -⟩ :=
      softReset_fields (s := takeControlFields (v.getLsbD 4) (v.extractLsb' 8 3) s)
    have chan := fun n => softReset_chan (s := takeControlFields (v.getLsbD 4) (v.extractLsb' 8 3) s) n
    have idle : onBus [] (softResetWrite v) s = softResetWrite v s := onBus_idle hb (bus.trans hb)
    rw [idle, softResetWrite] at form
    generalize softResetPart (takeControlFields (v.getLsbD 4) (v.extractLsb' 8 3) s) = t at *
    refine ⟨_, t, rfl, form, enabled, base, mem, data, port, chan, maint, fun i => ?_, ?_, ?_⟩
    · have entry : entryAt t.store i = abandoned (entryAt s.store i) := by
        rw [store]
        exact softResetStore_entry _ i
      rw [entry]
      exact ⟨abandoned_idle, abandoned_exporting, abandoned_importing⟩
    · rw [store]
      exact softResetStore_recency _
    · rw [attn]
      refine ⟨rfl, rfl, rfl, fun i => ?_⟩
      have sources : (takeControlFields (v.getLsbD 4) (v.extractLsb' 8 3) s).attn.sources = s.attn.sources :=
        attnControl_sources ..
      rw [attnSoftReset, sources]
      simp
  · have chan := (onBus_fields [] (softResetWrite v) s).2.2.2
    have empty : ∀ n, ((softResetWrite v { s with bus := [] }).chan n).segs = [] := softResetPart_segs
    have pool : (softResetWrite v { s with bus := [] }).pool =
        s.pool ++ allChans.flatMap fun n => (s.chan n).segs.reverse := softReset_pool
    refine ⟨_, exec_softReset v s, (onBus_pool ..).trans pool, fun n => ?_, fun h => ?_⟩
    · rw [chan]
      exact empty n
    · rw [onBus_pool]
      refine PoolLegal.length_of_empty ?_ empty
      exact poolLegal_lineLaw.softReset (s := takeControlFields _ _ { s with bus := [] }) h

end Sys2Proof.Machine

/-! Proofs about the take of a boundary: starved boundaries, refused records and taken records (R88 to R92,
R159, R160, R173). -/

namespace Sys2Proof.Machine

variable {n : Fin 32} {s : State}

/-! ## Links (R88) -/

/-- The channel with its cursor moved by the link of the record at `a`. -/
def walkedFrom (a link : Word) (c : Channel) : Channel :=
  { c with walk := { c.walk with cursor := if link = 0#32 then a else link,
                                 mode := if link = 0#32 then .watching else .atRecord } }

/-- A link read without an error, zero or a multiple of 4: the cursor moves by it. -/
theorem followLink_walks {a link : Word} (hb : s.bus = []) (hl : link = memWord s.mem (a + 4#32))
    (h : link.toNat % 4 = 0) : followLink n a s = (true, s.modChan n (walkedFrom a link)) := by
  unfold followLink linkStep
  rw [readWord_nil _ hb, ← hl]
  by_cases h0 : link = 0#32
  · subst h0
    rfl
  · dsimp only
    rw [if_neg h0, if_pos ((aligned_iff link).2 h)]
    exact congrArg (Prod.mk true) (modChan_congr (by rw [walkedFrom, if_neg h0, if_neg h0]))

/-- A link read without an error, and misaligned: the channel enters FAULT. -/
theorem followLink_misaligned {a : Word} (hb : s.bus = [])
    (h : (memWord s.mem (a + 4#32)).toNat % 4 ≠ 0) : followLink n a s = (false, enterFault n s) := by
  have h0 : memWord s.mem (a + 4#32) ≠ 0#32 := fun e => h (by rw [e]; rfl)
  unfold followLink linkStep
  rw [readWord_nil _ hb]
  dsimp only
  rw [if_neg h0, if_neg (mt (aligned_iff _).1 h)]

/-! ## Starved boundaries (R90, R173) -/

theorem starveAndBegin_starved : StarvedBoundary n s (starveAndBegin n s) := by
  unfold starveAndBegin starve
  refine ⟨?_, fun k hk => ?_, ?_, ?_⟩
  · cases (s.chan n).walk.starvReported <;> rfl
  · rw [modChan_chan_ne _ _ _ _ hk, raiseIf_chan, modChan_chan_ne _ _ _ _ hk]
  · rw [modChan_chan_self, raiseIf_chan, modChan_chan_self, beginBlock, countUp_eq]
  · rw [modChan_attn, raiseIf_attn]
    cases (s.chan n).walk.starvReported <;> rfl

theorem heldByOther_eq_true {a : Word} {k : Fin 32} {f : InFlight} (hk : k ≠ n)
    (hf : (s.chan k).walk.inflight = some f) (ha : f.addr = a) : heldByOther s n a = true :=
  List.any_eq_true.2 ⟨k, mem_allChans k, by simp [hk, hf, ha]⟩

/-- A record that is not POSTED, or in flight for another channel, starves the boundary (R89, R90, R173). -/
theorem lookAtRecord_starves (hb : s.bus = []) (h : memWord s.mem (s.chan n).walk.cursor ≠ 1#32 ∨
      ∃ k f, k ≠ n ∧ (s.chan k).walk.inflight = some f ∧ f.addr = (s.chan n).walk.cursor) :
    lookAtRecord n s = starveAndBegin n s := by
  have unposted : (decide (memWord s.mem (s.chan n).walk.cursor ≠ dispPosted) ||
      heldByOther s n (s.chan n).walk.cursor) = true := by
    rw [Bool.or_eq_true, decide_eq_true_eq]
    refine h.imp id ?_
    rintro ⟨k, f, hk, hf, ha⟩
    exact heldByOther_eq_true hk hf ha
  unfold lookAtRecord
  dsimp only
  rw [readWord_nil _ hb]
  exact if_pos unposted

theorem take_atRecord (h : (s.chan n).walk.mode = .atRecord) : take n s = lookAtRecord n s := by
  rw [take, h]

/-- A watched record whose link leads nowhere yet: the boundary is starved (R88, R89). -/
theorem take_watches_on (hb : s.bus = []) (hm : (s.chan n).walk.mode = .watching)
    (h : memWord s.mem ((s.chan n).walk.cursor + 4#32) = 0#32) : take n s = starveAndBegin n s := by
  have walks := followLink_walks (n := n) hb h.symm (by rfl)
  have same : walkedFrom (s.chan n).walk.cursor 0#32 (s.chan n) = s.chan n := by
    rw [walkedFrom, if_pos rfl, if_pos rfl, ← hm]
  rw [modChan_eq_self same] at walks
  simp only [take, hm, walks]

/-- A watched record whose link leads on: the take is that of the next record (R88, R89). -/
theorem take_walks_on {link : Word} (hb : s.bus = []) (hm : (s.chan n).walk.mode = .watching)
    (hl : link = memWord s.mem ((s.chan n).walk.cursor + 4#32)) (h0 : link ≠ 0#32)
    (h : link.toNat % 4 = 0) : take n s = take n (s.modChan n fun c =>
      { c with walk := { c.walk with cursor := link, mode := .atRecord } }) := by
  have walks := followLink_walks (n := n) hb hl h
  rw [modChan_congr (g := fun c => { c with walk := { c.walk with cursor := link, mode := .atRecord } })
    (by rw [walkedFrom, if_neg h0, if_neg h0])] at walks
  have atRecord : ((s.modChan n fun c =>
      { c with walk := { c.walk with cursor := link, mode := .atRecord } }).chan n).walk.mode = .atRecord := by
    rw [modChan_chan_self]
  rw [take_atRecord atRecord]
  simp only [take, hm, walks, atRecord]

/-- A watched record with a misaligned link: the channel enters FAULT (R38, R88). -/
theorem take_misaligned (hb : s.bus = []) (hm : (s.chan n).walk.mode = .watching)
    (h : (memWord s.mem ((s.chan n).walk.cursor + 4#32)).toNat % 4 ≠ 0) : take n s = enterFault n s := by
  simp only [take, hm, followLink_misaligned hb h]

/-- Settles O17: the look at a record that is not POSTED, and the three links of a watched one. -/
theorem takeWithoutRecordStarves : Obligations.TakeWithoutRecordStarves := by
  refine ⟨fun n s hb hm h => ?_, ?_⟩
  · rw [take_atRecord hm, lookAtRecord_starves hb h]
    exact starveAndBegin_starved
  · rintro n s _ hb hm rfl
    refine ⟨fun h => ?_, fun h0 h => take_walks_on hb hm rfl h0 h, fun h hw => ?_⟩
    · rw [take_watches_on hb hm h]
      exact starveAndBegin_starved
    · rw [take_misaligned hb hm h]
      exact enterFault_idle hb hw

/-! ## Looks at a record under an empty script (R89, R91) -/

/-- A look at a record that may be taken: a take or a refusal, by its declared length (R89, R91). -/
theorem lookAtRecord_idle (hb : s.bus = []) (ht : Takeable s n (s.chan n).walk.cursor) {ctl : Word}
    (hc : ctl = memWord s.mem ((s.chan n).walk.cursor + 8#32)) :
    (Fits ctl → lookAtRecord n s = takeRecord n (s.chan n).walk.cursor (decodeControl ctl) s) ∧
    (¬ Fits ctl → lookAtRecord n s = refuseRecord n (s.chan n).walk.cursor (decodeControl ctl) s) := by
  obtain ⟨posted, free⟩ := ht
  have form : lookAtRecord n s = if (decodeControl ctl).declLen =
      recordLength (decodeControl ctl).refPresent (decodeControl ctl).residWanted then
        takeRecord n (s.chan n).walk.cursor (decodeControl ctl) s
      else refuseRecord n (s.chan n).walk.cursor (decodeControl ctl) s := by
    unfold lookAtRecord
    simp only [readWord_nil _ hb, posted, heldByOther_eq_false free, hc]
    rfl
  rw [form]
  exact ⟨fun hf => if_pos ((fits_iff ctl).1 hf), fun hf => if_neg (mt (fits_iff ctl).2 hf)⟩

/-! ## Refused records (R91, R95) -/

/-- A word written leaves a word at another offset of the same record as it was. -/
theorem memWord_memSetWord_offset (a v : Word) {m : Memory} (h : m.wf) {o p : Nat}
    (ho : o + 4 ≤ 2 ^ 32) (hp : p + 4 ≤ 2 ^ 32) (hne : o + 4 ≤ p ∨ p + 4 ≤ o) :
    memWord (memSetWord m (a + BitVec.ofNat 32 o) v) (a + BitVec.ofNat 32 p) =
      memWord m (a + BitVec.ofNat 32 p) :=
  memWord_memSetWords_apart [v] _ _ h (apart_offsets a hp ho hne.symm)

/-- A word written at the start of a record leaves the record's other words. -/
theorem memWord_memSetWord_first (a v : Word) {m : Memory} (h : m.wf) {p : Nat} (hp : p + 4 ≤ 2 ^ 32)
    (h4 : 4 ≤ p) : memWord (memSetWord m a v) (a + BitVec.ofNat 32 p) = memWord m (a + BitVec.ofNat 32 p) := by
  have apart := memWord_memSetWord_offset a v h (o := 0) (by omega) hp (.inl (by omega))
  rwa [BitVec.add_zero] at apart

/-- The state behind the write of REFUSED. -/
def markedRefused (a : Word) (s : State) : State := { s with mem := memSetWord s.mem a dispRefused }

/-- A record refused, its link 0 or a multiple of 4: the cursor moves, then the boundary is starved. -/
theorem refuseRecord_starves {a : Word} {k : Control} (hb : s.bus = []) (hw : MemLegal s)
    (h : (memWord s.mem (a + 4#32)).toNat % 4 = 0) : refuseRecord n a k s =
      starveAndBegin n (notifyDone n k.notify
        ((markedRefused a s).modChan n (walkedFrom a (memWord s.mem (a + 4#32))))) := by
  have link : memWord s.mem (a + 4#32) = memWord (markedRefused a s).mem (a + 4#32) :=
    (memWord_memSetWord_first a _ hw (by omega) (by omega)).symm
  have walks := followLink_walks (n := n) (s := markedRefused a s) hb link h
  unfold refuseRecord
  rw [writeWord_nil _ _ hb]
  dsimp only
  rw [show { s with mem := memSetWord s.mem a dispRefused } = markedRefused a s from rfl, walks]

/-- A record refused at a misaligned link: the channel enters FAULT, and NOTIFY still raises BLOCK_DONE. -/
theorem refuseRecord_misaligned {a : Word} {k : Control} (hb : s.bus = []) (hw : MemLegal s)
    (h : (memWord s.mem (a + 4#32)).toNat % 4 ≠ 0) : refuseRecord n a k s =
      notifyDone n k.notify (enterFault n (markedRefused a s)) := by
  have link : memWord (markedRefused a s).mem (a + 4#32) = memWord s.mem (a + 4#32) :=
    memWord_memSetWord_first a _ hw (by omega) (by omega)
  have fault := followLink_misaligned (n := n) (s := markedRefused a s) hb (by rw [link]; exact h)
  unfold refuseRecord
  rw [writeWord_nil _ _ hb]
  dsimp only
  rw [show { s with mem := memSetWord s.mem a dispRefused } = markedRefused a s from rfl, fault]

/-- A completed record's NOTIFY in one form (R95). -/
theorem notifyDone_eq (b : Bool) : notifyDone n b s =
    { s with attn := if b = true then attnRaise (chanSource n) .blockDone s.attn else s.attn } := by
  cases b <;> rfl

/-- A word that a frame of bytes does not touch reads as before. -/
theorem memWord_of_frame {m m' : Memory} {a b : Word} {len : Nat} (ha : Apart a 4 b len)
    (h : ∀ x, Outside b len x → memRead m x = memRead m' x) : memWord m a = memWord m' a :=
  memWord_congr fun k hk => h _ (ha k hk)

/-- Settles O19: the record is marked, and its link decides between a starved boundary and FAULT. -/
theorem mismatchedRecordRefused : Obligations.MismatchedRecordRefused := by
  rintro n s _ _ _ hb hw hm rfl hp free rfl rfl hfit
  have look := (lookAtRecord_idle hb ⟨hp, free⟩ rfl).2 hfit
  have marked : MemLegal (markedRefused (s.chan n).walk.cursor s) := memSetWord_wf _ _ hw
  have frame : ∀ x, Outside (s.chan n).walk.cursor 4 x →
      memRead (markedRefused (s.chan n).walk.cursor s).mem x = memRead s.mem x :=
    fun x hx => memRead_memWriteBytes_ne _ _ hw x hx
  have refused : memWord (markedRefused (s.chan n).walk.cursor s).mem (s.chan n).walk.cursor = 4#32 :=
    memWord_memSetWord _ _ hw
  rw [take_atRecord hm, look]
  refine ⟨fun hl => ?_, fun hl => ?_⟩
  · rw [refuseRecord_misaligned hb hw hl, notifyDone_eq]
    have fault := enterFault_idle (n := n) (s := markedRefused (s.chan n).walk.cursor s) hb marked
    exact ⟨_, _, rfl, refused, frame, fault, rfl,
      fun apart => (memWord_of_frame apart fault.2.2.2.2).trans refused⟩
  · rw [refuseRecord_starves hb hw hl]
    generalize hu : notifyDone n _ _ = u
    obtain ⟨form, -, after, causes⟩ := starveAndBegin_starved (n := n) (s := u)
    rw [notifyDone_eq] at hu
    have chan : u.chan n = walkedFrom (s.chan n).walk.cursor
        (memWord s.mem ((s.chan n).walk.cursor + 4#32)) (s.chan n) := by
      rw [← hu]
      exact modChan_chan_self ..
    have attn : u.attn = if (decodeControl (memWord s.mem ((s.chan n).walk.cursor + 8#32))).notify = true then
        attnRaise (chanSource n) .blockDone s.attn else s.attn := by rw [← hu]; rfl
    have mem : u.mem = (markedRefused (s.chan n).walk.cursor s).mem := by rw [← hu]; rfl
    generalize starveAndBegin n u = t at *
    have kept : t.mem = u.mem := by rw [form]
    rw [kept, mem, after, causes, chan]
    exact ⟨refused, frame, rfl, rfl, rfl, _, rfl, fun h => (if_pos h).trans attn,
      fun h => (if_neg (by simp [walkedFrom, h])).trans (congrArg _ attn)⟩

/-! ## Taken records (R92, R159) -/

section
variable (m : Memory) (b : Bus)

theorem changeHold_onMemory (f : Channel → Channel) :
    changeHold n f (s.onMemory m b) = (changeHold n f s).onMemory m b := by
  unfold changeHold
  dsimp only
  rw [modChan_onMemory]
  exact raiseIf_onMemory ..

theorem retrain_onMemory (p : Nat) : retrain n p (s.onMemory m b) = (retrain n p s).onMemory m b := by
  have abandon : abandonSearch n (s.onMemory m b) = (abandonSearch n s).onMemory m b := by
    unfold abandonSearch
    rw [onMemory_chan]
    split <;> rfl
  rw [retrain, retrain, abandon, backToTraining_onMemory, enterPhase_onMemory]

theorem requestSave_onMemory : requestSave n (s.onMemory m b) =
    ((requestSave n s).1, (requestSave n s).2.onMemory m b) := by
  obtain ⟨⟨o, st⟩, saved⟩ : ∃ r, r = saveProfileTo s.store (s.chan n).routeTag (s.chan n).filt := ⟨_, rfl⟩
  rw [requestSave_eq saved, requestSave_eq (s := s.onMemory m b) saved]
  cases o <;> rfl

theorem saveNow_onMemory : saveNow n (s.onMemory m b) = ((saveNow n s).1, (saveNow n s).2.onMemory m b) := by
  unfold saveNow
  dsimp only
  rw [onMemory_chan, requestSave_onMemory]
  split <;> rfl

/-- A directive neither reads nor changes memory and the script. -/
theorem applyDirective_onMemory (code arg : Nat) : applyDirective n code arg (s.onMemory m b) =
    ((applyDirective n code arg s).1, (applyDirective n code arg s).2.onMemory m b) := by
  unfold applyDirective
  split
  · rfl
  · rw [changeHold_onMemory]
  · rw [changeHold_onMemory]
  · rw [onMemory_chan, retrain_onMemory]
    split <;> rfl
  · simp only [restart, untrain_onMemory, enterPhase_onMemory, backToTraining_onMemory]
  · rw [saveNow_onMemory]
  · rfl

end

theorem applyDirective_mem (code arg : Nat) : (applyDirective n code arg s).2.mem = s.mem :=
  congrArg (fun r => r.2.mem) (applyDirective_onMemory (n := n) (s := s) s.mem s.bus code arg)

theorem applyDirective_bus (code arg : Nat) : (applyDirective n code arg s).2.bus = s.bus :=
  congrArg (fun r => r.2.bus) (applyDirective_onMemory (n := n) (s := s) s.mem s.bus code arg)

theorem changeHold_inflight {f : Channel → Channel} (h : (f (s.chan n)).walk = (s.chan n).walk) :
    ((changeHold n f s).chan n).walk.inflight = (s.chan n).walk.inflight := by
  rw [changeHold_chan, h]

theorem addHoldChan_walk (r : HoldReason) (c : Channel) : (addHoldChan r c).walk = c.walk := by
  unfold addHoldChan
  cases r <;> split <;> rfl

theorem removeHoldChan_walk (r : HoldReason) (c : Channel) : (removeHoldChan r c).walk = c.walk := by
  unfold removeHoldChan
  cases r <;> split_ifs <;> rfl

theorem backToTraining_inflight :
    ((backToTraining n s).chan n).walk.inflight = (s.chan n).walk.inflight := by
  rw [backToTraining_eq, chan_with_attn, modChan_chan_self]
  rfl

/-- A directive leaves the record in flight as it is. -/
theorem applyDirective_inflight (code arg : Nat) :
    ((applyDirective n code arg s).2.chan n).walk.inflight = (s.chan n).walk.inflight := by
  unfold applyDirective
  split
  · rfl
  · exact changeHold_inflight (addHoldChan_walk ..)
  · exact changeHold_inflight (removeHoldChan_walk ..)
  · split
    · exact (enterPhase_stillOp _).same.inflight.trans
        (backToTraining_inflight.trans abandonSearch_stillOp.same.inflight)
    · rfl
  · exact backToTraining_inflight.trans (untrain_stillOp.trans (enterPhase_stillOp 0)).same.inflight
  · exact saveNow_stillOp.same.inflight
  · rfl

/-- The state of a take before its directive acts (R92 steps 1 to 4). -/
def takenState (n : Fin 32) (a : Word) (k : Control) (s : State) : State :=
  { s with mem := memSetWord s.mem a dispTaken }.modChan n
    (beginBlock ∘ loadTaken a k (unpackSamples (memWords 20 (a + 16#32) s.mem)))

/-- Words of a record behind its first are read as they were before the mark. -/
theorem memWords_marked (a v : Word) {m : Memory} (h : m.wf) :
    memWords 20 (a + 16#32) (memSetWord m a v) = memWords 20 (a + 16#32) m := by
  simp only [memWords_eq_map]
  refine List.map_congr_left fun i hi => ?_
  have hi := List.mem_range.1 hi
  rw [show (16#32 : Word) = BitVec.ofNat 32 16 from rfl, add_ofNat_ofNat]
  exact memWord_memSetWord_first a v h (by omega) (by omega)

/-- The directive of a taken record applied, and its report kept (R92 step 5). -/
def directed (n : Fin 32) (k : Control) (v : State) : State :=
  (applyDirective n k.dirCode k.dirArg v).2.modChan n (keepReport (applyDirective n k.dirCode k.dirArg v).1)

theorem directed_kept (k : Control) (v : State) : (directed n k v).mem = v.mem ∧
    (directed n k v).bus = v.bus ∧ (directed n k v).tableBase = v.tableBase ∧
    ∀ j, j ≠ n → (directed n k v).chan j = v.chan j := by
  have op := (applyDirective_lineOp (n := n) (s := v) k.dirCode k.dirArg).op
  refine ⟨applyDirective_mem .., applyDirective_bus .., op.tableBase, fun j hj => ?_⟩
  rw [directed, modChan_chan_ne _ _ _ _ hj, op.others j hj]

/-- Without a directive the report changes nothing. -/
theorem directed_none {a : Word} {k : Control} {v : State} (h : k.dirCode = 0)
    (hv : (v.chan n).walk.inflight = some (takenRecord a k)) : directed n k v = v := by
  unfold directed
  rw [h]
  refine modChan_eq_self ?_
  show keepReport ⟨false, .none⟩ (v.chan n) = v.chan n
  rw [keepReport, hv, Option.map_some]
  exact congrArg (fun f => { v.chan n with walk := { (v.chan n).walk with inflight := f } }) hv.symm

/-- A take whose accesses meet no error, up to its status write (R92, R159). -/
theorem takeRecord_made {a : Word} {k : Control} {b : Bus} (hw : MemLegal s)
    (hb : s.bus = [] ∧ b = [] ∨ ∃ j, s.bus = ErrorAt (21 + j) ∧ b = ErrorAt j) {v : State}
    (hv : v = takenState n a k { s with bus := [] }) : takeRecord n a k s =
      statusEvent n (v.chan n) { directed n k v with bus := b } := by
  have accesses : ∃ b', writeWord a dispTaken s =
        (true, { s with mem := memSetWord s.mem a dispTaken, bus := b' }) ∧
      readWords 20 (a + 16#32) { s with mem := memSetWord s.mem a dispTaken, bus := b' } =
        (some (memWords 20 (a + 16#32) s.mem),
          { s with mem := memSetWord s.mem a dispTaken, bus := b }) := by
    rw [← memWords_marked a dispTaken hw]
    rcases hb with ⟨hs, rfl⟩ | ⟨j, hs, rfl⟩
    · exact ⟨[], by rw [writeWord_nil _ _ hs, ← hs], readWords_nil 20 _ rfl⟩
    · refine ⟨ErrorAt (20 + j), writeWord_errorAt_succ _ _ (by rw [hs]; congr 1; omega), ?_⟩
      rw [readWords_errorAt_before 20 _ rfl (by omega)]
      simp only [Nat.add_sub_cancel_left]
  obtain ⟨b', mark, samples⟩ := accesses
  have moved := applyDirective_onMemory (n := n) (s := v) v.mem b k.dirCode k.dirArg
  have onto : v.onMemory v.mem b = ({ s with mem := memSetWord s.mem a dispTaken, bus := b }.modChan n
      (beginBlock ∘ loadTaken a k (unpackSamples (memWords 20 (a + 16#32) s.mem)))) := by
    rw [hv]
    rfl
  have mem := applyDirective_mem (n := n) (s := v) k.dirCode k.dirArg
  unfold takeRecord
  rw [mark]
  dsimp only
  rw [samples]
  dsimp only
  rw [modChan_modChan, ← onto, moved, ← mem]
  rfl

theorem unpackSamples_length (ws : List Word) : (unpackSamples ws).length = 2 * ws.length := by
  induction ws with
  | nil => rfl
  | cons w ws ih => simp only [unpackSamples, List.length_cons, ih]; omega

/-- The two samples of a word stand at an even place and behind it (R83). -/
theorem unpackSamples_getD (ws : List Word) (i : Nat) (hi : i < ws.length) :
    (unpackSamples ws).getD (2 * i) 0#16 = (ws.getD i 0#32).extractLsb' 0 16 ∧
    (unpackSamples ws).getD (2 * i + 1) 0#16 = (ws.getD i 0#32).extractLsb' 16 16 := by
  induction ws generalizing i with
  | nil => simp at hi
  | cons w ws ih =>
    cases i with
    | zero => exact ⟨rfl, rfl⟩
    | succ i => exact ih i (by simpa using hi)

theorem memWords_length (k : Nat) (a : Word) (m : Memory) : (memWords k a m).length = k := by
  simp [memWords_eq_map]

theorem memWords_getD (k : Nat) (a : Word) (m : Memory) (i : Nat) (hi : i < k) :
    (memWords k a m).getD i 0#32 = memWord m (a + BitVec.ofNat 32 (4 * i)) := by
  simp [memWords_eq_map, hi]

/-- The channel of a take before its directive acts. -/
theorem takenState_chan (a : Word) (k : Control) : (takenState n a k s).chan n =
    beginBlock (loadTaken a k (unpackSamples (memWords 20 (a + 16#32) s.mem)) (s.chan n)) :=
  modChan_chan_self ..

theorem takenState_others (a : Word) (k : Control) (j : Fin 32) (h : j ≠ n) :
    (takenState n a k s).chan j = s.chan j := modChan_chan_ne _ _ _ _ h

/-- The take of a record whose declared length fits, up to its status write: `w` is the state of the take but
for that write (R89, R92, R159). -/
theorem take_made {ctl : Word} {b : Bus} {v : State} (hw : MemLegal s) (hm : (s.chan n).walk.mode = .atRecord)
    (ht : Takeable s n (s.chan n).walk.cursor) (hc : ctl = memWord s.mem ((s.chan n).walk.cursor + 8#32))
    (hf : Fits ctl) (hb : s.bus = [] ∧ b = [] ∨ ∃ j, s.bus = ErrorAt (23 + j) ∧ b = ErrorAt j)
    (hv : v = takenState n (s.chan n).walk.cursor (decodeControl ctl) { s with bus := [] }) :
    take n s = statusEvent n (v.chan n) { directed n (decodeControl ctl) v with bus := b } := by
  rw [take_atRecord hm]
  rcases hb with ⟨hs, rfl⟩ | ⟨j, hs, rfl⟩
  · rw [(lookAtRecord_idle hs ht hc).1 hf]
    exact takeRecord_made hw (.inl ⟨hs, rfl⟩) hv
  · have hs : s.bus = ErrorAt (21 + j + 2) := by rw [hs]; congr 1; omega
    rw [(lookAtRecord_errorAt hs ht hc).1 hf]
    exact takeRecord_made (s := { s with bus := ErrorAt (21 + j) }) hw (.inr ⟨j, rfl, rfl⟩) hv

/-- Settles O18: the take but for its status write is `take_made`, the write `statusEvent_scripted`. -/
theorem takeLoadsRecord : Obligations.TakeLoadsRecord := by
  rintro n s v u w t _ ctl code arg report hw hdue hm rfl hp free hctl rfl rfl hfit hv happ hwdef rfl
  have taken : v = takenState n (s.chan n).walk.cursor (decodeControl ctl) { s with bus := [] } := by
    rw [hv, ← countUp_eq, ← memWords_eq_map]
    rfl
  clear hv
  have vchan := takenState_chan (n := n) (s := { s with bus := [] }) (s.chan n).walk.cursor (decodeControl ctl)
  have vothers := takenState_others (n := n) (s := { s with bus := [] }) (s.chan n).walk.cursor
    (decodeControl ctl)
  have vmem : v.mem = memSetWord s.mem (s.chan n).walk.cursor 2#32 := by rw [taken]; rfl
  have vbase : v.tableBase = s.tableBase := by rw [taken]; rfl
  have vbus : v.bus = [] := by rw [taken]; rfl
  have vwords : statusWords (v.chan n) = statusWords (s.chan n) := by rw [taken, vchan]; rfl
  rw [← taken] at vchan vothers
  have applied : applyDirective n (decodeControl ctl).dirCode (decodeControl ctl).dirArg v = (report, u) :=
    happ.symm
  have inflight := applyDirective_inflight (n := n) (s := v) (decodeControl ctl).dirCode
    (decodeControl ctl).dirArg
  have wform : w = directed n (decodeControl ctl) v := by
    rw [applied, vchan] at inflight
    rw [directed, applied, hwdef]
    exact modChan_congr (by rw [keepReport, inflight]; rfl)
  obtain ⟨wmem, wbus, wbase, wothers⟩ := directed_kept (n := n) (decodeControl ctl) v
  rw [← wform] at wmem wbus wbase wothers
  rw [vbus] at wbus
  rw [vbase] at wbase
  have made := fun b hb => take_made (b := b) hw hm ⟨hp, free⟩ hctl hfit hb taken
  rw [← wform] at made
  have wdesc : w.desc n.val = s.desc n.val := by unfold State.desc; rw [wbase]
  have wlegal : MemLegal w := by rw [MemLegal, wmem, vmem]; exact memSetWord_wf _ _ hw
  refine ⟨?_, fun x hx => ?_, ?_, fun i hi => ?_, fun hs => ?_, fun k hk hs hb hne => ?_⟩
  · rw [vmem]
    exact memWord_memSetWord _ _ hw
  · rw [vmem]
    exact memRead_memWriteBytes_ne _ _ hw x hx
  · rw [vchan]
    exact (unpackSamples_length _).trans (by rw [memWords_length])
  · rw [vchan, ← memWords_getD 20 _ _ i hi]
    exact unpackSamples_getD _ i (by rw [memWords_length]; exact hi)
  · have event : take n s = statusEvent n (v.chan n) w := by
      rw [made [] (.inl ⟨hs, rfl⟩), ← wbus]
    obtain ⟨form, chan, others, frame, -, attn, shown⟩ := statusEvent_scripted (fault := none) (b := []) wbus wlegal
      (fun _ => rfl) (fun k h => absurd h (by simp)) (before := v.chan n) rfl
    have event' : take n s = statusEvent n (v.chan n) { w with bus := [] } := made [] (.inl ⟨hs, rfl⟩)
    rw [← event'] at form chan others frame attn shown
    generalize take n s = t at *
    have quiet : statusWords (w.chan n) = statusWords (s.chan n) → (w.chan n).statusDue = false → t = w :=
      fun hsame hd => by rw [event, statusEvent_none hd (vwords.trans hsame.symm)]
    refine ⟨fun h0 => ?_, ?_, fun k hk => (others k hk).trans ((wothers k hk).trans (vothers k hk)), chan,
      fun hb hne i hi => ?_, quiet, fun x hx => ?_⟩
    · have same : w = v := wform.trans (directed_none h0 (by rw [vchan]; rfl))
      rw [quiet (by rw [same, vwords]) (by rw [same, vchan]; exact hdue), same]
    · rw [form, attn rfl]
    · rw [chan]
      have desc : t.desc n.val = w.desc n.val := by rw [form]; rfl
      rw [desc]
      exact shown rfl (by rw [wbase]; exact hb) (by rw [vwords]; exact hne.symm) i hi
    · rw [frame x (by rw [wdesc]; exact hx), wmem]
  · have event : take n s = statusEvent n (v.chan n) { w with bus := ErrorAt k } := made _ (.inr ⟨k, hs, rfl⟩)
    rw [event]
    have faulted := statusEvent_faulted (s := { w with bus := ErrorAt k }) (before := v.chan n) rfl hk
      (by rw [← wbase] at hb; exact hb) wlegal (by rw [vwords]; exact hne.symm)
    have empty : { w with bus := [] } = w := by rw [← wbus]
    rw [← empty]
    exact faulted

end Sys2Proof.Machine

/-! Proofs about completions of line records: with LINE_LOST or CLOSED (R96, R97) and with DONE (R94), and the bus
error at each of their accesses (R103). -/

namespace Sys2Proof.Machine

variable {n : Fin 32} {s : State}

/-! ## The layout of a record (R83, R85) -/

/-- Offset of the outputs in a record. -/
def outputAt (f : InFlight) : Nat := if f.refPresent then 176 else 96

/-- Offset of the gap word in a record. -/
def gapOffset (f : InFlight) : Nat := outputAt f + (if f.residWanted then 160 else 80) + 24

theorem output_address (f : InFlight) :
    f.addr + (if f.refPresent then 176#32 else 96#32) = f.addr + BitVec.ofNat 32 (outputAt f) := by
  unfold outputAt
  split <;> rfl

theorem gapWordAt_eq (f : InFlight) : gapWordAt f = f.addr + BitVec.ofNat 32 (gapOffset f) := by
  unfold gapWordAt gapOffset
  rw [output_address, BitVec.ofNat_add, BitVec.ofNat_add, ← BitVec.add_assoc, ← BitVec.add_assoc]
  split <;> rfl

/-- The gap word is where the metrics block has it. -/
theorem metrics_gapWord (f : InFlight) :
    f.addr + metricsOffset f.refPresent f.residWanted + 24#32 = gapWordAt f := by
  unfold metricsOffset residOffset outputOffset gapWordAt
  cases f.refPresent <;> cases f.residWanted <;> simp [BitVec.add_assoc]

theorem outputAt_bounds (f : InFlight) : 96 ≤ outputAt f ∧ outputAt f ≤ 176 := by
  unfold outputAt
  split <;> omega

theorem gapOffset_bounds (f : InFlight) : 200 ≤ gapOffset f ∧ gapOffset f ≤ 360 := by
  have := outputAt_bounds f
  unfold gapOffset
  split <;> omega

/-- A word written leaves every byte outside it alone. -/
theorem memRead_memSetWord_ne (a v : Word) {m : Memory} (h : m.wf) (x : Nat) (hx : Outside a 4 x) :
    memRead (memSetWord m a v) x = memRead m x := memRead_memWriteBytes_ne _ a h x hx

/-! ## The gap word and an early completion code (R96, R97, R99) -/

/-- Memory with the gap word written. -/
def gapMemory (f : InFlight) (gap : Nat) (m : Memory) : Memory := memSetWord m (gapWordAt f) (pack2 gap 0)

/-- Memory with the gap word and the completion code written. -/
def earlyMemory (f : InFlight) (gap : Nat) (code : Word) (m : Memory) : Memory :=
  memSetWord (gapMemory f gap m) f.addr code

section
variable {f : InFlight} {gap : Nat} {code : Word} {m : Memory}

theorem gapMemory_wf (h : m.wf) : (gapMemory f gap m).wf := memSetWord_wf _ _ h

theorem earlyMemory_wf (h : m.wf) : (earlyMemory f gap code m).wf := memSetWord_wf _ _ (gapMemory_wf h)

theorem pack2_toNat (g : Nat) (h : g ≤ 65535) : (pack2 g 0).toNat = g := by
  rw [pack2, BitVec.toNat_append, BitVec.toNat_ofNat, BitVec.toNat_ofNat]
  simp
  omega

theorem gapMemory_gap (h : m.wf) (hg : gap ≤ 65535) :
    (memWord (gapMemory f gap m) (gapWordAt f)).toNat = gap := by
  rw [gapMemory, memWord_memSetWord _ _ h, pack2_toNat gap hg]

theorem gapMemory_frame (h : m.wf) (x : Nat) (hx : Outside (gapWordAt f) 4 x) :
    memRead (gapMemory f gap m) x = memRead m x := memRead_memSetWord_ne _ _ h x hx

theorem earlyMemory_code (h : m.wf) : memWord (earlyMemory f gap code m) f.addr = code :=
  memWord_memSetWord _ _ (gapMemory_wf h)

theorem earlyMemory_gap (h : m.wf) (hg : gap ≤ 65535) :
    (memWord (earlyMemory f gap code m) (gapWordAt f)).toNat = gap := by
  have bounds := gapOffset_bounds f
  have kept := memWord_memSetWord_first f.addr code (gapMemory_wf (f := f) (gap := gap) h) (p := gapOffset f)
    (by omega) (by omega)
  rw [← gapWordAt_eq] at kept
  rw [earlyMemory, kept, gapMemory_gap h hg]

theorem earlyMemory_frame (h : m.wf) (x : Nat) (ha : Outside f.addr 4 x) (hx : Outside (gapWordAt f) 4 x) :
    memRead (earlyMemory f gap code m) x = memRead m x :=
  (memRead_memSetWord_ne _ _ (gapMemory_wf h) x ha).trans (gapMemory_frame h x hx)

/-- The link word stands. -/
theorem earlyMemory_link (h : m.wf) :
    memWord (earlyMemory f gap code m) (f.addr + 4#32) = memWord m (f.addr + 4#32) := by
  have bounds := gapOffset_bounds f
  have gapKept := memWord_memSetWord_offset f.addr (pack2 gap 0) h (o := gapOffset f) (p := 4) (by omega)
    (by omega) (.inr (by omega))
  rw [← gapWordAt_eq] at gapKept
  exact (memWord_memSetWord_first f.addr code (gapMemory_wf h) (p := 4) (by omega) (by omega)).trans gapKept

end

/-- The channel with its gap count told (R99). -/
def gapTold (c : Channel) : Channel := { c with walk := { c.walk with gapCount := 0 } }

/-- The channel with its record completed: gap count 0, nothing in flight (R94, R96, R97, R99). -/
def completed (c : Channel) : Channel := { c with walk := { c.walk with inflight := none, gapCount := 0 } }

/-- The state behind a gap word. -/
def gapWritten (n : Fin 32) (f : InFlight) (s : State) : State :=
  { s with mem := gapMemory f (s.chan n).walk.gapCount s.mem, bus := [] }.modChan n gapTold

/-- The state behind an early completion code. -/
def earlyCompleted (n : Fin 32) (f : InFlight) (code : Word) (s : State) : State :=
  { s with mem := earlyMemory f (s.chan n).walk.gapCount code s.mem, bus := [] }.modChan n completed

theorem writeEarlyCode_made {f : InFlight} {code : Word} {b : Bus}
    (hb : s.bus = [] ∧ b = [] ∨ ∃ j, s.bus = ErrorAt (j + 2) ∧ b = ErrorAt j) :
    writeEarlyCode n f code s = (true, { earlyCompleted n f code s with bus := b }) := by
  have accesses : ∃ b', (∀ a v, writeWord a v s = (true, { s with mem := memSetWord s.mem a v, bus := b' })) ∧
      ∀ a v (u : State), u.bus = b' → writeWord a v u = (true, { u with mem := memSetWord u.mem a v, bus := b }) := by
    rcases hb with ⟨hs, rfl⟩ | ⟨j, hs, rfl⟩
    · exact ⟨[], fun a v => by rw [writeWord_nil _ _ hs, ← hs], fun a v u hu => by rw [writeWord_nil _ _ hu, ← hu]⟩
    · exact ⟨ErrorAt (j + 1), fun a v => writeWord_errorAt_succ _ _ hs, fun a v u => writeWord_errorAt_succ _ _⟩
  obtain ⟨b', first, second⟩ := accesses
  unfold writeEarlyCode
  rw [first, metrics_gapWord]
  dsimp only
  rw [second _ _ _ rfl]
  dsimp only
  refine congrArg (Prod.mk true) ?_
  show { (s.modChan n gapTold).modChan n clearInflight with
    mem := earlyMemory f (s.chan n).walk.gapCount code s.mem, bus := b } = _
  rw [modChan_modChan]
  rfl

/-- The gap word meets the error: nothing is written. -/
theorem writeEarlyCode_gap_error {f : InFlight} {code : Word} (h : s.bus = ErrorAt 0) :
    writeEarlyCode n f code s = (false, { s with bus := [] }) := by
  unfold writeEarlyCode
  rw [writeWord_errorAt_zero _ _ h]

/-- The code meets the error: the gap word stands, and the gap count is 0. -/
theorem writeEarlyCode_code_error {f : InFlight} {code : Word} (h : s.bus = ErrorAt 1) :
    writeEarlyCode n f code s = (false, gapWritten n f s) := by
  unfold writeEarlyCode
  rw [writeWord_errorAt_succ _ _ h, metrics_gapWord]
  dsimp only
  rw [writeWord_errorAt_zero _ _ rfl]
  rfl

theorem gapWritten_legal {f : InFlight} (h : MemLegal s) : MemLegal (gapWritten n f s) := gapMemory_wf h

theorem earlyCompleted_legal {f : InFlight} {code : Word} (h : MemLegal s) :
    MemLegal (earlyCompleted n f code s) := earlyMemory_wf h

theorem chan_of_chans {t : State} (h : t.chans = s.chans) (k : Fin 32) : t.chan k = s.chan k := by
  unfold State.chan
  rw [h]

/-- A state whose script was empty, with its script used up. -/
theorem script_empty (hb : s.bus = []) (m : Memory) (c : Vector Channel 32) (a : Attn) :
    { s with bus := [], mem := m, chans := c, attn := a } = { s with mem := m, chans := c, attn := a } := by
  rw [← hb]

/-- The record behind an early completion code: code and gap word, and no other byte of memory changed. -/
theorem earlyCompleted_memory {f : InFlight} {code : Word} (hw : MemLegal s) :
    memWord (earlyCompleted n f code s).mem f.addr = code ∧
    ((s.chan n).walk.gapCount ≤ 65535 →
      (memWord (earlyCompleted n f code s).mem (gapWordAt f)).toNat = (s.chan n).walk.gapCount) ∧
    ∀ x, Outside f.addr 4 x → Outside (gapWordAt f) 4 x →
      memRead (earlyCompleted n f code s).mem x = memRead s.mem x :=
  ⟨earlyMemory_code hw, earlyMemory_gap hw, earlyMemory_frame hw⟩

theorem earlyCompleted_chan {f : InFlight} {code : Word} :
    (earlyCompleted n f code s).chan n = completed (s.chan n) := modChan_chan_self ..

theorem earlyCompleted_others {f : InFlight} {code : Word} (k : Fin 32) (h : k ≠ n) :
    (earlyCompleted n f code s).chan k = s.chan k := modChan_chan_ne _ _ _ _ h

/-! ## The end of a completion: link, then NOTIFY (R88, R95) -/

/-- A link read without an error, zero or a multiple of 4. -/
theorem completion_walks {a : Word} (b : Bool) (hb : s.bus = []) (h : (memWord s.mem (a + 4#32)).toNat % 4 = 0) :
    notifyDone n b (followLink n a s).2 = { s.modChan n (walkedFrom a (memWord s.mem (a + 4#32))) with
      attn := if b = true then attnRaise (chanSource n) .blockDone s.attn else s.attn } := by
  rw [followLink_walks hb rfl h, notifyDone_eq]
  rfl

/-- A link read that meets an error, or finds a misaligned link: FAULT, and NOTIFY still raises BLOCK_DONE
(R95, R103). -/
theorem completion_faults {f : InFlight} {b : Bus} (hs : s.bus = []) (hw : MemLegal s) (h : b = ErrorAt 0 ∨
      (b = [] ∧ (memWord s.mem (f.addr + 4#32)).toNat % 4 ≠ 0)) :
    ∃ w, FaultEntered n s w ∧ notifyDone n f.notify (followLink n f.addr { s with bus := b }).2 =
      { w with attn := Notified n f w.attn } := by
  have empty : { s with bus := [] } = s := by rw [← hs]
  have fault : (followLink n f.addr { s with bus := b }).2 = enterFault n s := by
    rcases h with rfl | ⟨rfl, link⟩
    · unfold followLink
      rw [readWord_errorAt_zero _ rfl]
      exact congrArg (enterFault n) empty
    · rw [empty, followLink_misaligned hs link]
  refine ⟨_, enterFault_idle hs hw, ?_⟩
  rw [fault, notifyDone_eq]
  rfl

/-! ## Completions with LINE_LOST and CLOSED -/

theorem completeLineLost_made {f : InFlight} {b : Bus} (readLink : Bool)
    (hb : s.bus = [] ∧ b = [] ∨ ∃ j, s.bus = ErrorAt (j + 2) ∧ b = ErrorAt j) :
    completeLineLost n f readLink s = notifyDone n f.notify
      (if readLink then (followLink n f.addr { earlyCompleted n f dispLineLost s with bus := b }).2
        else { earlyCompleted n f dispLineLost s with bus := b }) := by
  unfold completeLineLost
  rw [writeEarlyCode_made hb]

/-- A completion with LINE_LOST under an empty script whose link, when it is read, is no misaligned one (R97). -/
theorem completeLineLost_idle {f : InFlight} {readLink : Bool} (hb : s.bus = []) (hw : MemLegal s)
    (h : readLink = true → (memWord s.mem (f.addr + 4#32)).toNat % 4 = 0) : completeLineLost n f readLink s =
      { (earlyCompleted n f dispLineLost s).modChan n
          (if readLink then walkedFrom f.addr (memWord s.mem (f.addr + 4#32)) else id) with
        attn := if f.notify = true then attnRaise (chanSource n) .blockDone s.attn else s.attn } := by
  rw [completeLineLost_made readLink (.inl ⟨hb, rfl⟩)]
  have link : memWord (earlyCompleted n f dispLineLost s).mem (f.addr + 4#32) = memWord s.mem (f.addr + 4#32) :=
    earlyMemory_link hw
  cases readLink
  · rw [if_neg Bool.false_ne_true, if_neg Bool.false_ne_true, notifyDone_eq, modChan_eq_self rfl]
    rfl
  · have walks := completion_walks (n := n) (s := earlyCompleted n f dispLineLost s) (a := f.addr) f.notify rfl
      (by rw [link]; exact h rfl)
    rw [link] at walks
    exact walks

/-- A LINE_LOST whose link read meets the error, or whose link is misaligned (R95, R97, R103). -/
theorem completeLineLost_link_faults {f : InFlight} (hw : MemLegal s) (h : s.bus = ErrorAt 2 ∨
      (s.bus = [] ∧ (memWord s.mem (f.addr + 4#32)).toNat % 4 ≠ 0)) :
    ∃ w, FaultEntered n (earlyCompleted n f dispLineLost s) w ∧
      completeLineLost n f true s = { w with attn := Notified n f w.attn } := by
  have link : memWord (earlyCompleted n f dispLineLost s).mem (f.addr + 4#32) = memWord s.mem (f.addr + 4#32) :=
    earlyMemory_link hw
  rcases h with h | ⟨h, hl⟩
  · rw [completeLineLost_made true (.inr ⟨0, h, rfl⟩), if_pos rfl]
    exact completion_faults rfl (earlyCompleted_legal hw) (.inl rfl)
  · rw [completeLineLost_made true (.inl ⟨h, rfl⟩), if_pos rfl]
    exact completion_faults rfl (earlyCompleted_legal hw) (.inr ⟨rfl, by rw [link]; exact hl⟩)

/-- A completion with CLOSED reads no link (R96). -/
theorem completeClosed_made {f : InFlight} {b : Bus} (hf : (s.chan n).walk.inflight = some f)
    (hb : s.bus = [] ∧ b = [] ∨ ∃ j, s.bus = ErrorAt (j + 2) ∧ b = ErrorAt j) : completeClosed n s =
      (true, { earlyCompleted n f dispClosed s with
        bus := b
        attn := if f.notify = true then attnRaise (chanSource n) .blockDone s.attn else s.attn }) := by
  unfold completeClosed
  rw [hf]
  dsimp only
  rw [writeEarlyCode_made hb]
  dsimp only
  rw [notifyDone_eq]
  rfl

theorem completeClosed_missed {f : InFlight} {u : State} (hf : (s.chan n).walk.inflight = some f)
    (h : writeEarlyCode n f dispClosed s = (false, u)) : completeClosed n s = (false, u) := by
  unfold completeClosed
  rw [hf]
  dsimp only
  rw [h]

theorem completeClosed_none (h : (s.chan n).walk.inflight = none) : completeClosed n s = (true, s) := by
  unfold completeClosed
  rw [h]

/-- Settles O22: the two completions under an empty script, and each access of theirs under an error. -/
theorem earlyCompletions : Obligations.EarlyCompletions := by
  refine ⟨?_, fun n s hb hw hg => ⟨completeClosed_none, fun f hf => ?_⟩, ?_⟩
  · rintro n f readLink s _ hb hw rfl hl hg
    obtain ⟨code, gap, frame⟩ := earlyCompleted_memory (n := n) (f := f) (code := dispLineLost) hw
    rw [completeLineLost_idle hb hw fun _ => hl]
    refine ⟨_, gapWordAt f, rfl, rfl, code, gap hg, frame, rfl, fun k hk => ?_, ?_⟩
    · rw [chan_with_attn, modChan_chan_ne _ _ _ _ hk, earlyCompleted_others k hk]
    · rw [chan_with_attn, modChan_chan_self, earlyCompleted_chan]
      cases readLink <;> rfl
  · obtain ⟨code, gap, frame⟩ := earlyCompleted_memory (n := n) (f := f) (code := dispClosed) hw
    rw [completeClosed_made hf (.inl ⟨hb, rfl⟩)]
    have chan := chan_of_chans (s := earlyCompleted n f dispClosed s) (t := { earlyCompleted n f dispClosed s with
      bus := [], attn := if f.notify = true then attnRaise (chanSource n) .blockDone s.attn else s.attn }) rfl
    refine ⟨_, gapWordAt f, rfl, rfl, code, gap hg, frame, script_empty hb _ _ _, fun k hk => ?_, ?_⟩
    · rw [chan, earlyCompleted_others k hk]
    · rw [chan, earlyCompleted_chan]
      rfl
  · rintro n f readLink s t codeMissed hw hg rfl hmissed
    have missed : codeMissed (gapWritten n f s) := (hmissed _).2
      ⟨rfl, fun j hj => modChan_chan_ne _ _ _ _ hj, modChan_chan_self .., gapMemory_gap hw hg, gapMemory_frame hw⟩
    refine ⟨fun h => ?_, fun h => ⟨_, missed, ?_⟩, fun hr h => ?_, fun hf => ⟨fun h => ?_, fun h => ?_⟩⟩
    · rw [completeLineLost, writeEarlyCode_gap_error h]
      exact enterFault_idle rfl hw
    · rw [completeLineLost, writeEarlyCode_code_error h]
      exact enterFault_idle rfl (gapWritten_legal hw)
    · subst hr
      obtain ⟨code, gap, frame⟩ := earlyCompleted_memory (n := n) (f := f) (code := dispLineLost) hw
      obtain ⟨w, fault, form⟩ := completeLineLost_link_faults (n := n) hw h
      exact ⟨_, w, rfl, earlyCompleted_others, earlyCompleted_chan, code, gap hg, frame, fault, form⟩
    · exact completeClosed_missed hf (writeEarlyCode_gap_error h)
    · exact ⟨_, completeClosed_missed hf (writeEarlyCode_code_error h), missed⟩

end Sys2Proof.Machine

/-! Proofs about a completion with DONE and the bus error at each of its accesses (R83, R85, R94, R99, R103). -/

namespace Sys2Proof.Machine

variable {n : Fin 32} {s : State}

/-! ## The words of a result (R83, R85) -/

/-- The pairs of samples that words carry, the older sample low (R83). -/
theorem packSamples_even (k : Nat) (l : List Sample) (h : l.length = 2 * k) :
    (packSamples l).length = k ∧ ∀ i < k, (packSamples l).getD i 0#32 =
      l.getD (2 * i + 1) 0#16 ++ l.getD (2 * i) 0#16 := by
  induction k generalizing l with
  | zero =>
    obtain rfl := List.length_eq_zero_iff.1 h
    exact ⟨rfl, fun i hi => absurd hi (by omega)⟩
  | succ k ih =>
    match l, h with
    | x :: y :: rest, h =>
      obtain ⟨len, words⟩ := ih rest (by simpa [Nat.mul_succ] using h)
      refine ⟨by rw [packSamples, List.length_cons, len], fun i hi => ?_⟩
      cases i with
      | zero => rfl
      | succ i => exact words i (by omega)

/-- The number of residual words of a record. -/
def residCount (f : InFlight) : Nat := if f.residWanted then 20 else 0

theorem metrics_words_length (m : Metrics) : m.words.length = 8 := rfl

section
variable {f : InFlight} {z u : List Sample} {m : Metrics}

theorem residWords_length (hu : u.length = 40) :
    (if f.residWanted = true then packSamples u else []).length = residCount f := by
  unfold residCount
  split
  · exact (packSamples_even 20 u hu).1
  · rfl

theorem resultWords_length (hz : z.length = 40) (hu : u.length = 40) :
    (resultWords f z u m).length = 28 + residCount f := by
  rw [resultWords, List.length_append, List.length_append, (packSamples_even 20 z hz).1, residWords_length hu,
    metrics_words_length]
  omega

theorem resultWords_output (hz : z.length = 40) (i : Nat) (hi : i < 20) :
    (resultWords f z u m).getD i 0#32 = z.getD (2 * i + 1) 0#16 ++ z.getD (2 * i) 0#16 := by
  obtain ⟨len, words⟩ := packSamples_even 20 z hz
  rw [resultWords, List.append_assoc, List.getD_append _ _ _ _ (by omega), words i hi]

theorem resultWords_resid (hz : z.length = 40) (hu : u.length = 40) (hr : f.residWanted = true) (i : Nat)
    (hi : i < 20) : (resultWords f z u m).getD (20 + i) 0#32 =
      u.getD (2 * i + 1) 0#16 ++ u.getD (2 * i) 0#16 := by
  obtain ⟨lenZ, -⟩ := packSamples_even 20 z hz
  obtain ⟨lenU, words⟩ := packSamples_even 20 u hu
  rw [resultWords, List.append_assoc, List.getD_append_right _ _ _ _ (by omega), lenZ, Nat.add_sub_cancel_left,
    if_pos hr, List.getD_append _ _ _ _ (by omega), words i hi]

theorem resultWords_metrics (hz : z.length = 40) (hu : u.length = 40) (i : Nat) :
    (resultWords f z u m).getD (20 + residCount f + i) 0#32 = m.words.getD i 0#32 := by
  obtain ⟨lenZ, -⟩ := packSamples_even 20 z hz
  have len : (packSamples z ++ if f.residWanted = true then packSamples u else []).length =
      20 + residCount f := by rw [List.length_append, lenZ, residWords_length hu]
  rw [resultWords, List.getD_append_right _ _ _ _ (by omega), len, Nat.add_sub_cancel_left]

end

/-! ## Memory behind the results and behind DONE -/

/-- Where the results of a record stand (R83). -/
def resultsAt (f : InFlight) : Word := f.addr + BitVec.ofNat 32 (outputAt f)

theorem resultsAt_eq (f : InFlight) : f.addr + outputOffset f.refPresent = resultsAt f := output_address f

/-- Memory with the results and DONE written. -/
def doneMemory (f : InFlight) (ws : List Word) (m : Memory) : Memory :=
  memSetWord (memSetWords ws (resultsAt f) m) f.addr dispDone

section
variable {f : InFlight} {ws : List Word} {m : Memory}

theorem doneMemory_wf (h : m.wf) : (doneMemory f ws m).wf := memSetWord_wf _ _ (memSetWords_wf _ _ h)

theorem doneMemory_done (h : m.wf) : memWord (doneMemory f ws m) f.addr = 3#32 :=
  memWord_memSetWord _ _ (memSetWords_wf _ _ h)

theorem doneMemory_result (h : m.wf) (hl : ws.length ≤ 48) (i : Nat) (hi : i < ws.length) :
    memWord (doneMemory f ws m) (resultsAt f + BitVec.ofNat 32 (4 * i)) = ws.getD i 0#32 := by
  have bounds := outputAt_bounds f
  have kept := memWord_memSetWord_first f.addr dispDone (memSetWords_wf ws (resultsAt f) h)
    (p := outputAt f + 4 * i) (by omega) (by omega)
  rw [← add_ofNat_ofNat] at kept
  exact kept.trans (memWord_memSetWords ws _ h (by omega) i hi)

/-- The link word stands. -/
theorem doneMemory_link (h : m.wf) (hl : ws.length ≤ 48) :
    memWord (doneMemory f ws m) (f.addr + 4#32) = memWord m (f.addr + 4#32) := by
  have bounds := outputAt_bounds f
  have apart := apart_offsets f.addr (a := 4) (la := 4) (b := outputAt f) (lb := 4 * ws.length) (by omega)
    (by omega) (.inl (by omega))
  exact (memWord_memSetWord_first f.addr dispDone (memSetWords_wf _ _ h) (p := 4) (by omega) (by omega)).trans
    (memWord_memSetWords_apart ws _ _ h apart)

theorem doneMemory_frame (h : m.wf) (x : Nat) (ha : Outside f.addr 4 x)
    (hx : Outside (resultsAt f) (4 * ws.length) x) : memRead (doneMemory f ws m) x = memRead m x :=
  (memRead_memSetWord_ne _ _ (memSetWords_wf _ _ h) x ha).trans (memRead_memSetWords_ne ws _ h x hx)

end

/-- The first words of a run written: each reads back, and no other byte is changed. -/
theorem memSetWords_take {ws : List Word} {a : Word} {m : Memory} {k : Nat} (h : m.wf) (hk : k ≤ ws.length)
    (hl : 4 * k ≤ 2 ^ 32) :
    (∀ i < k, memWord (memSetWords (ws.take k) a m) (a + BitVec.ofNat 32 (4 * i)) = ws.getD i 0#32) ∧
    ∀ x, Outside a (4 * k) x → memRead (memSetWords (ws.take k) a m) x = memRead m x := by
  have len : (ws.take k).length = k := List.length_take_of_le hk
  refine ⟨fun i hi => ?_, fun x hx => memRead_memSetWords_ne _ _ h x (by rw [len]; exact hx)⟩
  rw [memWord_memSetWords _ _ h (by rw [len]; exact hl) i (by rw [len]; exact hi)]
  simp only [List.getD_eq_getElem?_getD, List.getElem?_take_of_lt hi]

/-! ## The completion (R94, R99) -/

/-- The state behind the results of a record. -/
def resultsWritten (n : Fin 32) (f : InFlight) (ws : List Word) (s : State) : State :=
  { s with mem := memSetWords ws (resultsAt f) s.mem, bus := [] }.modChan n gapTold

/-- The state behind DONE. -/
def doneWritten (n : Fin 32) (f : InFlight) (ws : List Word) (s : State) : State :=
  { s with mem := doneMemory f ws s.mem, bus := [] }.modChan n completed

theorem doneWritten_legal {f : InFlight} {ws : List Word} (h : MemLegal s) :
    MemLegal (doneWritten n f ws s) := doneMemory_wf h

theorem doneWritten_chan {f : InFlight} {ws : List Word} :
    (doneWritten n f ws s).chan n = completed (s.chan n) := modChan_chan_self ..

theorem doneWritten_others {f : InFlight} {ws : List Word} (k : Fin 32) (h : k ≠ n) :
    (doneWritten n f ws s).chan k = s.chan k := modChan_chan_ne _ _ _ _ h

section
variable {f : InFlight} {z u : List Sample} {m : Metrics}

/-- A completion whose writes meet no error, up to its link read (R94). -/
theorem completeDone_made {b : Bus}
    (hb : s.bus = [] ∧ b = [] ∨
      ∃ j, s.bus = ErrorAt (j + ((resultWords f z u m).length + 1)) ∧ b = ErrorAt j) :
    completeDone n f z u m s = notifyDone n f.notify
      (followLink n f.addr { doneWritten n f (resultWords f z u m) s with bus := b }).2 := by
  have accesses : ∃ b', writeWords (resultWords f z u m) (resultsAt f) s =
        (true, { s with mem := memSetWords (resultWords f z u m) (resultsAt f) s.mem, bus := b' }) ∧
      ∀ a v (u : State), u.bus = b' → writeWord a v u = (true, { u with mem := memSetWord u.mem a v, bus := b }) := by
    rcases hb with ⟨hs, rfl⟩ | ⟨j, hs, rfl⟩
    · exact ⟨[], by rw [writeWords_nil _ _ hs, ← hs], fun a v u hu => by rw [writeWord_nil _ _ hu, ← hu]⟩
    · refine ⟨ErrorAt (j + 1), ?_, fun a v u => writeWord_errorAt_succ _ _⟩
      rw [writeWords_errorAt_before _ _ hs (by omega), show j + ((resultWords f z u m).length + 1) -
        (resultWords f z u m).length = j + 1 by omega]
  obtain ⟨b', results, done⟩ := accesses
  unfold completeDone
  rw [resultsAt_eq, results]
  dsimp only
  rw [done _ _ _ rfl]
  dsimp only
  refine congrArg (fun v => notifyDone n f.notify (followLink n f.addr v).2) ?_
  show { (s.modChan n gapTold).modChan n clearInflight with
    mem := doneMemory f (resultWords f z u m) s.mem, bus := b } = _
  rw [modChan_modChan]
  rfl

/-- A result word that is not written: the words before it stand, and the channel enters FAULT (R103). -/
theorem completeDone_result_error {k : Nat} (h : s.bus = ErrorAt k) (hk : k < (resultWords f z u m).length) :
    completeDone n f z u m s = enterFault n
      { s with mem := memSetWords ((resultWords f z u m).take k) (resultsAt f) s.mem, bus := [] } := by
  unfold completeDone
  rw [resultsAt_eq, writeWords_errorAt_reached _ _ h hk]

/-- DONE that is not written: the results stand, the gap count is 0, and the channel enters FAULT (R99, R103). -/
theorem completeDone_mark_error (h : s.bus = ErrorAt (resultWords f z u m).length) :
    completeDone n f z u m s = enterFault n (resultsWritten n f (resultWords f z u m) s) := by
  unfold completeDone
  rw [resultsAt_eq, writeWords_errorAt_before _ _ h (Nat.le_refl _)]
  dsimp only
  rw [writeWord_errorAt_zero _ _ (by rw [modChan_bus, Nat.sub_self])]
  rfl

end

/-- Settles O20: the completion under an empty script (`completeDone_made`), and each access under an error. -/
theorem completionWritesResults : Obligations.CompletionWritesResults := by
  refine ⟨?_, ?_⟩
  · rintro n f z u m s _ hb hw hz hu rfl hl
    have len := resultWords_length (f := f) (m := m) hz hu
    have short : (resultWords f z u m).length ≤ 48 := by rw [len, residCount]; split <;> omega
    have link : memWord (doneWritten n f (resultWords f z u m) s).mem (f.addr + 4#32) =
        memWord s.mem (f.addr + 4#32) := doneMemory_link hw short
    have result := doneMemory_result (f := f) (ws := resultWords f z u m) hw short
    have form : completeDone n f z u m s = _ := (completeDone_made (.inl ⟨hb, rfl⟩)).trans
      (completion_walks (s := doneWritten n f (resultWords f z u m) s) (a := f.addr) f.notify rfl
        (by rw [link]; exact hl))
    rw [link] at form
    generalize completeDone n f z u m s = t at form ⊢
    have mem : t.mem = doneMemory f (resultWords f z u m) s.mem := by rw [form]; rfl
    have chan : t.chan n = walkedFrom f.addr (memWord s.mem (f.addr + 4#32)) (completed (s.chan n)) := by
      rw [form, chan_with_attn, modChan_chan_self, doneWritten_chan]
    have offset : ∀ a i, resultsAt f + BitVec.ofNat 32 (4 * a) + BitVec.ofNat 32 (4 * i) =
        resultsAt f + BitVec.ofNat 32 (4 * (a + i)) := fun a i => by rw [add_ofNat_ofNat, Nat.mul_add]
    refine ⟨t, resultsAt f, rfl, (output_address f).symm, ?_, fun i hi => ?_, fun hr i hi => ?_, fun i hi => ?_,
      fun x ha hx => ?_, ?_, fun k hk => ?_, chan⟩
    · rw [mem]
      exact doneMemory_done hw
    · rw [mem, result i (by omega), resultWords_output hz i hi]
    · have wide : residCount f = 20 := if_pos hr
      rw [mem, show (80#32 : Word) = BitVec.ofNat 32 (4 * 20) from rfl, offset, result _ (by omega),
        resultWords_resid hz hu hr i hi]
    · have area : (if f.residWanted = true then 160#32 else 80#32) = BitVec.ofNat 32 (4 * (20 + residCount f)) := by
        unfold residCount
        split <;> rfl
      rw [mem, area, offset, result _ (by omega), resultWords_metrics hz hu]
    · rw [mem]
      refine doneMemory_frame hw x ha ?_
      have area : 4 * (resultWords f z u m).length = if f.residWanted = true then 192 else 112 := by
        rw [len, residCount]
        split <;> rfl
      rw [area]
      exact hx
    · rw [form]
      exact script_empty hb _ _ _
    · rw [form, chan_with_attn, modChan_chan_ne _ _ _ _ hk, doneWritten_others k hk]
  · rintro n f z u m s t k out ws hw hz hu rfl hout hws
    obtain rfl : out = resultsAt f := hout.trans (output_address f)
    obtain rfl : ws = resultWords f z u m := hws
    have len := resultWords_length (f := f) (m := m) hz hu
    have short : (resultWords f z u m).length ≤ 48 := by rw [len, residCount]; split <;> omega
    refine ⟨fun hk h => ?_, fun h => ?_, fun h => ?_⟩
    · obtain ⟨words, frame⟩ := memSetWords_take (a := resultsAt f) hw (Nat.le_of_lt hk) (by omega)
      rw [completeDone_result_error h hk]
      have legal := memSetWords_wf ((resultWords f z u m).take k) (resultsAt f) hw
      exact ⟨{ s with mem := memSetWords ((resultWords f z u m).take k) (resultsAt f) s.mem, bus := [] }, rfl,
        words, frame, enterFault_idle rfl legal⟩
    · rw [completeDone_mark_error h]
      have words := memWord_memSetWords (resultWords f z u m) (resultsAt f) hw (by omega)
      have frame := memRead_memSetWords_ne (resultWords f z u m) (resultsAt f) hw
      have legal : MemLegal (resultsWritten n f (resultWords f z u m) s) := memSetWords_wf _ _ hw
      exact ⟨resultsWritten n f (resultWords f z u m) s, rfl, fun j hj => modChan_chan_ne _ _ _ _ hj,
        modChan_chan_self .., words, frame, enterFault_idle rfl legal⟩
    · have link : memWord (doneWritten n f (resultWords f z u m) s).mem (f.addr + 4#32) =
          memWord s.mem (f.addr + 4#32) := doneMemory_link hw short
      obtain ⟨w, fault, form⟩ : ∃ w, FaultEntered n (doneWritten n f (resultWords f z u m) s) w ∧
          completeDone n f z u m s = { w with attn := Notified n f w.attn } := by
        rcases h with h | ⟨h, hl⟩
        · rw [completeDone_made (.inr ⟨0, by rw [h, Nat.zero_add], rfl⟩)]
          exact completion_faults rfl (doneWritten_legal hw) (.inl rfl)
        · rw [completeDone_made (.inl ⟨h, rfl⟩)]
          exact completion_faults rfl (doneWritten_legal hw) (.inr ⟨rfl, by rw [link]; exact hl⟩)
      have marked := doneMemory_done (f := f) (ws := resultWords f z u m) hw
      have words := doneMemory_result (f := f) (ws := resultWords f z u m) hw short
      have frame := doneMemory_frame (f := f) (ws := resultWords f z u m) hw
      exact ⟨_, w, rfl, doneWritten_others, doneWritten_chan, marked, words, frame, fault, form⟩

end Sys2Proof.Machine

/-! Proofs about an accepted OPEN that hits a profile (R32 to R35, R122, R165). -/

namespace Sys2Proof.Machine

variable {n : Fin 32} {s : State} {r : OpenReq} {phases : List Phase} {e : Entry}

/-! ## The load (R33) -/

/-- The channel of an OPEN with an entry's profile loaded, before the pool is asked (R33). -/
def loadedChan (r : OpenReq) (phases : List Phase) (e : Entry) (c : Channel) : Channel :=
  { openedChan r phases c with profileOutcome := .hit, filt := loadEntry e (openedChan r phases c).filt }

/-- The part with an entry's profile loaded, before the pool is asked (R33, R121). -/
def loadedPart (n : Fin 32) (r : OpenReq) (phases : List Phase) (i : Fin 48) (s : State) : State :=
  { copyPriority (chanSource n) r.priority s with store := touch i s.store }.modChan n
    (loadedChan r phases (entryAt s.store i))

/-- A lookup that hits loads its entry, which becomes the most recent, and the pool is asked (R33). -/
theorem consultStore_hit {i : Fin 48} (ht : r.tag ≠ 0#32) (hu : r.useProfile = true)
    (hl : lookup s.store r.tag r.ln r.lf r.le = (.hit, some i)) :
    consultStore n ((copyPriority (chanSource n) r.priority s).modChan n (openedChan r phases)) =
      requestForProfile n (loadedPart n r phases i s) := by
  let u := (copyPriority (chanSource n) r.priority s).modChan n (openedChan r phases)
  have chan : u.chan n = openedChan r phases (s.chan n) := modChan_chan_self ..
  have found : lookup u.store (u.chan n).routeTag (u.chan n).filt.ln (u.chan n).filt.lf (u.chan n).filt.le =
      (.hit, some i) := by
    rw [chan]
    exact hl
  have uses : (u.chan n).routeTag ≠ 0#32 ∧ (u.chan n).useProfile = true := by
    rw [chan]
    exact ⟨ht, hu⟩
  show consultStore n u = _
  unfold consultStore
  dsimp only
  rw [if_pos uses, found]
  dsimp only
  rw [modChan_with_store, modChan_modChan]
  rfl

/-- The lengths of a loaded profile are those asked for (R122). -/
theorem loadedChan_lengths (c : Channel) : (loadedChan r phases e c).filt.ln = r.ln ∧
    (loadedChan r phases e c).filt.lf = r.lf ∧ (loadedChan r phases e c).filt.le = r.le ∧
    (loadedChan r phases e c).filt.delay = e.delay := by
  unfold loadedChan loadEntry
  dsimp only
  split
  · next h => exact ⟨rfl, rfl, rfl, h.symm⟩
  · exact ⟨rfl, rfl, rfl, rfl⟩

/-- The pool's answer to a loaded D, of a channel that holds nothing (R33). -/
theorem requestForProfile_eq {want : Nat} (hs : (s.chan n).segs = [])
    (hw : want = segsFor ((s.chan n).filt.delay + (s.chan n).filt.lf - 1)) :
    ((s.chan n).filt.delay = 0 → requestForProfile n s = s) ∧
    ((s.chan n).filt.delay ≠ 0 → want ≤ s.pool.length → requestForProfile n s = grant n want s) ∧
    ((s.chan n).filt.delay ≠ 0 → s.pool.length < want → requestForProfile n s =
      raise (chanSource n) .poolShort ((releaseAll n (grant n want s)).modChan n fun c =>
        { c with filt := farOff c.filt })) := by
  have pos : 0 < want := by rw [hw, segsFor]; omega
  have bring : bringHolding n want s = grant n want s := by
    simp only [bringHolding, hs, List.length_nil, if_neg (Nat.not_lt_zero want), if_pos pos, Nat.sub_zero]
  have held : ((grant n want s).chan n).segs.length = min want s.pool.length := by
    rw [grant_chan_self, addSegs, hs, List.nil_append, List.length_take]
  unfold requestForProfile
  dsimp only
  rw [← hw, bring, held]
  refine ⟨fun h => if_pos h, fun h hp => ?_, fun h hp => ?_⟩
  · rw [if_neg h, if_pos (by omega)]
  · rw [if_neg h, if_neg (by omega)]

/-- The filters of a loaded profile but for the far canceller, which the pool decides (R33). -/
structure LoadedAs (r : OpenReq) (e : Entry) (f : Filters) : Prop where
  ln     : f.ln = r.ln
  lf     : f.lf = r.lf
  le     : f.le = r.le
  hn     : f.hn = e.coefs.take r.ln
  g      : f.g = (e.coefs.drop (r.ln + r.lf)).take r.le
  cursor : f.cursorTap = e.cursor

theorem LoadedAs.farOff {f : Filters} (h : LoadedAs r e f) : LoadedAs r e (farOff f) := ⟨h.1, h.2, h.3, h.4, h.5, h.6⟩

theorem loadedChan_loadedAs (he : e.ln = r.ln ∧ e.lf = r.lf ∧ e.le = r.le) (c : Channel) :
    LoadedAs r e (loadedChan r phases e c).filt := by
  obtain ⟨ln, lf, le⟩ := he
  unfold loadedChan loadEntry
  rw [ln, lf, le]
  dsimp only
  split <;> exact ⟨rfl, rfl, rfl, rfl, rfl, rfl⟩

theorem loadedChan_farOff (h : e.delay = 0) (c : Channel) : (loadedChan r phases e c).filt.lfEff = 0 := by
  unfold loadedChan loadEntry
  dsimp only
  rw [if_pos h]
  rfl

theorem loadedChan_farOn (he : e.ln = r.ln ∧ e.lf = r.lf ∧ e.le = r.le) (h : e.delay ≠ 0) (c : Channel) :
    (loadedChan r phases e c).filt.lfEff = r.lf ∧
      (loadedChan r phases e c).filt.hf = (e.coefs.drop r.ln).take r.lf := by
  obtain ⟨ln, lf, -⟩ := he
  unfold loadedChan loadEntry
  dsimp only
  rw [if_neg h, ln, lf]
  exact ⟨rfl, rfl⟩

/-- The channel of a hit OPEN once the pool has answered: its filters, segments and pool history apart, it is as
the OPEN configured it (R33). -/
def hitChan (r : OpenReq) (phases : List Phase) (f : Filters) (l : List Nat) (p : List Sample) (c : Channel) :
    Channel :=
  { openedChan r phases c with profileOutcome := .hit, filt := f, segs := l, poolHist := p }

/-- What the load of an entry leaves in channel and part, by the entry's D and the pool (R33). -/
structure HitLoaded (n : Fin 32) (r : OpenReq) (phases : List Phase) (i : Fin 48) (want : Nat) (s u : State)
    (f : Filters) (l : List Nat) (p : List Sample) : Prop where
  chan   : u.chan n = hitChan r phases f l p (s.chan n)
  filt   : LoadedAs r (entryAt s.store i) f
  hist   : (s.chan n).poolHist = [] → p = List.replicate (32 * l.length) 0#16
  store  : u.store = touch i s.store
  leaves : OpenLeaves n r.priority ((entryAt s.store i).delay ≠ 0 ∧ s.pool.length < want) s u
  off    : (entryAt s.store i).delay = 0 → f.delay = 0 ∧ f.lfEff = 0 ∧ l = [] ∧ u.pool = s.pool
  whole  : (entryAt s.store i).delay ≠ 0 → want ≤ s.pool.length →
    f.delay = (entryAt s.store i).delay ∧ f.lfEff = r.lf ∧
      f.hf = ((entryAt s.store i).coefs.drop r.ln).take r.lf ∧ l = s.pool.take want ∧
      u.pool = s.pool.drop want
  short  : (entryAt s.store i).delay ≠ 0 → s.pool.length < want →
    f.delay = 0 ∧ f.lfEff = 0 ∧ f.hf = List.replicate r.lf 0#24 ∧ l = [] ∧ u.pool = s.pool.reverse ∧
      (r.priority ≠ 0#3 → HasCause u.attn (chanSource n) .poolShort)

theorem loadedPart_chan (i : Fin 48) :
    (loadedPart n r phases i s).chan n = loadedChan r phases (entryAt s.store i) (s.chan n) :=
  modChan_chan_self ..

theorem loadedPart_others (i : Fin 48) (k : Fin 32) (h : k ≠ n) :
    (loadedPart n r phases i s).chan k = s.chan k := modChan_chan_ne _ _ _ _ h

/-- A grant that falls short changes holdings and pool, and raises POOL_SHORT. -/
theorem releasedGrant_form (n : Fin 32) (want : Nat) (u : State) : ∃ c p,
    raise (chanSource n) .poolShort ((releaseAll n (grant n want u)).modChan n fun c =>
      { c with filt := farOff c.filt }) =
      { u with chans := c, pool := p, attn := attnRaise (chanSource n) .poolShort u.attn } := ⟨_, _, rfl⟩

/-- The load of an entry that the lookup hits, by cases of the pool's answer. -/
theorem hit_loaded {i : Fin 48} {want : Nat} (hs : (s.chan n).segs = [])
    (hl : lookup s.store r.tag r.ln r.lf r.le = (.hit, some i))
    (hw : want = segsFor ((entryAt s.store i).delay + r.lf - 1)) :
    ∃ f l p, HitLoaded n r phases i want s (requestForProfile n (loadedPart n r phases i s)) f l p := by
  obtain ⟨-, -, -, -, lengths⟩ := lookup_some hl
  have chan := loadedPart_chan (n := n) (r := r) (phases := phases) (s := s) i
  have others := loadedPart_others (n := n) (r := r) (phases := phases) (s := s) i
  obtain ⟨-, lf, -, delay⟩ := loadedChan_lengths (r := r) (phases := phases) (e := entryAt s.store i) (s.chan n)
  have filt := loadedChan_loadedAs (phases := phases) lengths (s.chan n)
  have holds : ((loadedPart n r phases i s).chan n).segs = [] := by
    rw [chan]
    exact hs
  obtain ⟨off, whole, short⟩ := requestForProfile_eq (want := want) holds (by rw [chan, lf, delay]; exact hw)
  rw [chan, delay] at off whole short
  by_cases h0 : (entryAt s.store i).delay = 0
  · rw [off h0]
    refine ⟨_, [], (s.chan n).poolHist, ⟨?_, filt, id, rfl, ?_, fun _ => ?_, fun h => absurd h0 h,
      fun h => absurd h0 h⟩⟩
    · rw [chan, hitChan, ← hs]
      rfl
    · exact ⟨rfl, others, _, attnSetPriority_copied .., fun h => absurd h0 h.1, fun _ => rfl⟩
    · exact ⟨delay.trans h0, loadedChan_farOff h0 _, rfl, rfl⟩
  · obtain ⟨lfEff, hf⟩ := loadedChan_farOn (phases := phases) lengths h0 (s.chan n)
    rcases Nat.lt_or_ge s.pool.length want with hp | hp
    · rw [short h0 hp]
      have drained : (s.pool.drop want) = [] := List.drop_eq_nil_of_le (Nat.le_of_lt hp)
      have taken : (s.pool.take want) = s.pool := List.take_of_length_le (Nat.le_of_lt hp)
      refine ⟨_, [], [], ⟨?_, filt.farOff, fun _ => rfl, rfl, ?_, fun h => absurd h h0,
        fun _ h => absurd h (by omega), fun _ _ => ⟨rfl, rfl, ?_, rfl, ?_, fun hr => ?_⟩⟩⟩
      · rw [raise_chan, modChan_chan_self, releaseAll_chan_self, grant_chan_self, chan]
        rfl
      · refine ⟨?_, fun k hk => ?_, _, attnSetPriority_copied .., fun _ => ?_, fun h => absurd ⟨h0, hp⟩ h⟩
        · obtain ⟨c, p, form⟩ := releasedGrant_form n want (loadedPart n r phases i s)
          rw [form]
          rfl
        · rw [raise_chan, modChan_chan_ne _ _ _ _ hk]
          exact (shrink_chan_ne _ _ _ _ hk).trans ((grant_chan_ne _ _ _ _ hk).trans (others k hk))
        · rfl
      · exact congrArg (List.replicate · 0#24) lf
      · show (s.pool.drop want) ++ (((grant n want (loadedPart n r phases i s)).chan n).segs.drop 0).reverse = _
        rw [grant_chan_self, addSegs, holds, drained]
        exact congrArg List.reverse taken
      · refine hasCause_attnRaise _ ?_
        obtain ⟨-, -, sources, -⟩ := attnSetPriority_copied (chanSource n) r.priority s.attn
        show (attnSetPriority (chanSource n) r.priority s.attn).sources[chanSource n].priority ≠ 0#3
        rw [sources, if_pos rfl]
        exact hr
    · rw [whole h0 hp]
      refine ⟨_, s.pool.take want, (s.chan n).poolHist ++ List.replicate (32 * (s.pool.take want).length) 0#16,
        ⟨?_, filt, fun h => by rw [h, List.nil_append], rfl, ?_, fun h => absurd h h0, fun _ _ => ?_,
        fun _ h => absurd h (by omega)⟩⟩
      · rw [grant_chan_self, addSegs, holds, chan]
        rfl
      · refine ⟨rfl, fun k hk => ?_, _, attnSetPriority_copied .., fun h => absurd h.2 (by omega), fun _ => rfl⟩
        rw [grant_chan_ne _ _ _ _ hk, others k hk]
      · exact ⟨delay, lfEff, hf, rfl, rfl⟩

/-! ## The start (R34, R35) -/

/-- The channel as an OPEN starts it, before any search of the phase it starts at (R34). -/
def startedChan (locked : Bool) (rs : RunState) (p : Nat) (c : Channel) : Channel :=
  { startState locked rs c with phaseIndex := p, blockCount := 0, earlyRun := 0 }

theorem startedChan_fields (locked : Bool) (rs : RunState) (p : Nat) (c : Channel) :
    (startedChan locked rs p c).filt = c.filt ∧ (startedChan locked rs p c).segs = c.segs ∧
    (startedChan locked rs p c).poolHist = c.poolHist ∧
    (startedChan locked rs p c).profileOutcome = c.profileOutcome ∧
    (startedChan locked rs p c).phaseIndex = p := by
  cases locked <;> exact ⟨rfl, rfl, rfl, rfl, rfl⟩

/-- The start of an opened channel in one form (R34, R35). -/
theorem startChannel_eq {p : Nat} {rs : RunState} (h : startPosition (s.chan n) = (p, rs))
    (hb : (s.chan n).blockCount = 0) (he : (s.chan n).earlyRun = 0) : startChannel n s =
      let t := s.modChan n (startedChan (s.port.state == .locked) rs p)
      if rs = .training ∧ ((s.chan n).program.getD p Phase.blank).search = true then startSearch n t else t := by
  unfold startChannel
  rw [h]
  dsimp only
  cases rs with
  | training =>
    dsimp only
    rw [enterPhase_eq, modChan_modChan, modChan_chan_self]
    have program : (startState (s.port.state == .locked) .training (s.chan n)).program = (s.chan n).program := by
      cases s.port.state == .locked <;> rfl
    simp only [program, true_and]
    rfl
  | tracking =>
    rw [if_neg fun h => RunState.noConfusion h.1]
    refine modChan_congr ?_
    cases s.port.state == .locked <;> simp [startedChan, startState, hb, he]

theorem warm_clampPhase (p : Phase) : (clampPhase p).warm = p.warm := rfl

/-- The lowest warm phase of an effective program is that of the program read. -/
theorem findIdx_warm {p : Nat} (hp : (phases.getD p Phase.blank).warm = true)
    (hq : ∀ q < p, (phases.getD q Phase.blank).warm = false) :
    (phases.map clampPhase).findIdx? Phase.warm = some p := by
  have inside : p < phases.length := by
    by_contra h
    rw [List.getD_eq_default _ _ (by omega)] at hp
    exact Bool.noConfusion hp
  rw [List.findIdx?_eq_some_iff_getElem]
  refine ⟨by simpa using inside, ?_, fun q hlt => ?_⟩
  · rw [List.getD_eq_getElem _ _ inside] at hp
    simpa [warm_clampPhase] using hp
  · have := hq q hlt
    rw [List.getD_eq_getElem _ _ (by omega)] at this
    simpa [warm_clampPhase] using this

theorem findIdx_warm_none (h : ∀ p ∈ phases, p.warm = false) :
    (phases.map clampPhase).findIdx? Phase.warm = none := by
  rw [List.findIdx?_eq_none_iff]
  intro x hx
  obtain ⟨p, hp, rfl⟩ := List.mem_map.1 hx
  exact h p hp

section
variable {f : Filters} {l : List Nat} {h : List Sample} {c : Channel}

theorem startPosition_warm {p : Nat} (hp : (phases.getD p Phase.blank).warm = true)
    (hq : ∀ q < p, (phases.getD q Phase.blank).warm = false) :
    startPosition (hitChan r phases f l h c) = (p, .training) := by
  have found : (hitChan r phases f l h c).program.findIdx? Phase.warm = some p := findIdx_warm hp hq
  rw [startPosition, if_pos (show (hitChan r phases f l h c).profileOutcome = .hit from rfl), found]

theorem startPosition_noWarm (hp : ∀ p ∈ phases, p.warm = false) :
    startPosition (hitChan r phases f l h c) = (r.progLen - 1, .tracking) := by
  have found : (hitChan r phases f l h c).program.findIdx? Phase.warm = none := findIdx_warm_none hp
  rw [startPosition, if_pos (show (hitChan r phases f l h c).profileOutcome = .hit from rfl), found]
  rfl

/-- The configuration is not in state, phase, holding and coefficients. -/
theorem Configured.refit {locked : Prop} {d : Channel} (hd : Configured r phases locked d) (x : ChanState)
    (rs : Option RunState) (p : Nat) (o : LookupOutcome) (l : List Nat) (h : List Sample)
    (hf : f.ln = d.filt.ln ∧ f.lf = d.filt.lf ∧ f.le = d.filt.le) : Configured r phases locked
      { d with state := x, resume := rs, phaseIndex := p, profileOutcome := o, filt := f, segs := l,
               poolHist := h } := by
  obtain ⟨ln, lf, le⟩ := hf
  unfold Configured at hd ⊢
  dsimp only at hd ⊢
  rw [ln, lf, le]
  exact hd

/-- A hit OPEN configures its channel as a cold one does (R32, R34). -/
theorem hitChan_configured (hf : LoadedAs r e f) (locked : Bool) (rs : RunState) (p : Nat) :
    Configured r phases (locked = true) (startedChan locked rs p (hitChan r phases f l h c)) := by
  have cold := coldChan_configured (r := r) (phases := phases) (o := .hit) locked c
  have lengths : f.ln = (coldChan r phases .hit locked c).filt.ln ∧
      f.lf = (coldChan r phases .hit locked c).filt.lf ∧ f.le = (coldChan r phases .hit locked c).filt.le := by
    rw [coldChan_filt]
    exact ⟨hf.ln, hf.lf, hf.le⟩
  cases locked
  · exact cold.refit .held (some rs) p .hit l h lengths
  · exact cold.refit rs.toState none p .hit l h lengths

end

/-- What is left of the rest of the part is not touched by a change of the channel (R32, R33). -/
theorem OpenLeaves.modChan {q : BitVec 3} {short : Prop} {u : State} (h : OpenLeaves n q short s u)
    (f : Channel → Channel) : OpenLeaves n q short s (u.modChan n f) := by
  obtain ⟨form, others, causes⟩ := h
  refine ⟨?_, fun k hk => (modChan_chan_ne _ _ _ _ hk).trans (others k hk), causes⟩
  rw [form]
  rfl

theorem program_search (p : Nat) :
    ((phases.map clampPhase).getD p Phase.blank).search = (phases.getD p Phase.blank).search := by
  simp only [List.getD_eq_getElem?_getD, List.getElem?_map]
  cases phases[p]? <;> rfl

/-- Settles O40: the load (`hit_loaded`), then the start of the loaded channel (`startChannel_eq`). -/
theorem hitOpenLoadsProfile : Obligations.HitOpenLoadsProfile := by
  rintro n r phases s i _ want ht hu hs hl rfl hw -
  obtain ⟨f, l, h, loaded⟩ := hit_loaded (n := n) (phases := phases) hs hl hw
  have accept : acceptOpen n r phases s = startChannel n (requestForProfile n (loadedPart n r phases i s)) :=
    congrArg (startChannel n) (consultStore_hit ht hu hl)
  generalize requestForProfile n (loadedPart n r phases i s) = u at loaded accept
  obtain ⟨p, rs, start⟩ : ∃ p rs, startPosition (u.chan n) = (p, rs) := ⟨_, _, rfl⟩
  have port : u.port = s.port := by rw [loaded.leaves.1]
  have form := startChannel_eq start (by rw [loaded.chan]; rfl) (by rw [loaded.chan]; rfl)
  rw [port, loaded.chan] at form
  have locked : (s.port.state = .locked) = ((s.port.state == .locked) = true) := by rw [beq_iff_eq]
  have chan : (u.modChan n (startedChan (s.port.state == .locked) rs p)).chan n =
      startedChan (s.port.state == .locked) rs p (hitChan r phases f l h (s.chan n)) := by
    rw [modChan_chan_self, loaded.chan]
  rw [loaded.chan] at start
  obtain ⟨filt, segs, hist, outcome, phase⟩ := startedChan_fields (s.port.state == .locked) rs p
    (hitChan r phases f l h (s.chan n))
  refine ⟨u.modChan n (startedChan (s.port.state == .locked) rs p), _, chan.symm, ?_⟩
  rw [filt, segs, hist, outcome, phase]
  simp only [ne_eq, locked]
  generalize (s.port.state == .locked) = b at form
  refine ⟨hitChan_configured loaded.filt b rs p, loaded.leaves.modChan _, loaded.hist, fun hb => by rw [hb]; rfl,
    rfl, loaded.filt.hn, loaded.filt.g, loaded.filt.cursor, loaded.off, loaded.whole, loaded.short,
    congrArg Store.recency loaded.store, fun k => (congrArg (entryAt · k) loaded.store).trans (touch_entry i k _), fun q hq hlow => ?_,
    fun hnone => ?_⟩
  · obtain ⟨rfl, rfl⟩ := Prod.mk.inj (start.symm.trans (startPosition_warm hq hlow))
    have searches : RunState.training = .training ∧
        ((hitChan r phases f l h (s.chan n)).program.getD p Phase.blank).search = true ↔
        (phases.getD p Phase.blank).search = true :=
      (and_iff_right rfl).trans (iff_of_eq (congrArg (· = true) (program_search p)))
    refine ⟨rfl, (accept.trans form).trans (if_congr searches rfl rfl), fun hb => by rw [hb]; rfl,
      fun hb => by rw [Bool.eq_false_of_not_eq_true hb]; exact ⟨rfl, rfl⟩⟩
  · obtain ⟨rfl, rfl⟩ := Prod.mk.inj (start.symm.trans (startPosition_noWarm hnone))
    exact ⟨rfl, (accept.trans form).trans (if_neg fun h => RunState.noConfusion h.1), fun hb => by rw [hb]; rfl,
      fun hb => by rw [Bool.eq_false_of_not_eq_true hb]; exact ⟨rfl, rfl⟩⟩

end Sys2Proof.Machine

/-! Proofs about the loss of the line at a stall and at a line restart (R97, R107, R115, R116, R159). -/

namespace Sys2Proof.Machine

variable {n : Fin 32} {s t : State}

/-! ## The channel at a loss of the line, under any bus script -/

theorem readWord_chan {a : Word} {r : Option Word} (h : readWord a s = (r, t)) (k : Fin 32) :
    t.chan k = s.chan k := by
  obtain ⟨m, b, e, -⟩ := readWord_spec s a
  rw [h] at e
  rw [show t = _ from e]
  rfl

theorem writeWord_chan {a v : Word} {r : Bool} (h : writeWord a v s = (r, t)) (k : Fin 32) :
    t.chan k = s.chan k := by
  obtain ⟨m, b, e, -⟩ := writeWord_spec s a v
  rw [h] at e
  rw [show t = _ from e]
  rfl

/-- A channel that has entered FAULT, in what a loss of the line says of it (R38). -/
structure Stopped (d : Channel) : Prop where
  state    : d.state = .fault
  timeslot : d.timeslot = none
  segs     : d.segs = []
  silent   : SilentLine d.line
  ended    : d.line.inBlock = false
  forgot   : d.walk.inflight = none

theorem enterFault_stopped : Stopped ((enterFault n s).chan n) := by
  rw [enterFault_chan]
  exact ⟨rfl, rfl, rfl, ⟨rfl, rfl⟩, rfl, rfl⟩

theorem Stopped.not_running {d : Channel} (h : Stopped d) : running d = false := by
  rw [running, h.state]

/-- The channel behind a completion: its walker alone has moved on, with nothing in flight (R97, R99). -/
def Released (c d : Channel) : Prop :=
  ∃ w, d = { c with walk := w } ∧ w.inflight = none ∧ w.takenRun = c.walk.takenRun

theorem followLink_outcome (a : Word) : Stopped ((followLink n a s).2.chan n) ∨
    ∃ cur mode, (followLink n a s).2.chan n =
      { s.chan n with walk := { (s.chan n).walk with cursor := cur, mode := mode } } := by
  unfold followLink
  split
  · exact .inl enterFault_stopped
  · next read =>
    split
    · exact .inr ⟨_, _, by rw [modChan_chan_self, readWord_chan read]⟩
    · exact .inr ⟨_, _, by rw [modChan_chan_self, readWord_chan read]⟩
    · exact .inl enterFault_stopped

theorem writeEarlyCode_chan {f : InFlight} {code : Word} (h : writeEarlyCode n f code s = (true, t)) :
    t.chan n = completed (s.chan n) := by
  unfold writeEarlyCode at h
  split at h
  · exact absurd (congrArg Prod.fst h) Bool.false_ne_true
  · next first =>
    dsimp only at h
    split at h
    · exact absurd (congrArg Prod.fst h) Bool.false_ne_true
    · next second =>
      obtain ⟨-, rfl⟩ := Prod.mk.inj h
      rw [modChan_chan_self, writeWord_chan second, modChan_chan_self, writeWord_chan first]
      rfl

/-- A completion with LINE_LOST, whatever the script brings: FAULT, or the record released (R97, R103). -/
theorem completeLineLost_outcome (f : InFlight) (readLink : Bool) :
    Stopped ((completeLineLost n f readLink s).chan n) ∨
      Released (s.chan n) ((completeLineLost n f readLink s).chan n) := by
  unfold completeLineLost
  split
  · exact .inl enterFault_stopped
  · next u code =>
    have chan := writeEarlyCode_chan code
    dsimp only
    rw [show ∀ b v, (notifyDone n b v).chan n = v.chan n from fun b v => raiseIf_chan ..]
    split
    · refine (followLink_outcome f.addr).imp id ?_
      rintro ⟨cur, mode, form⟩
      exact ⟨{ (completed (s.chan n)).walk with cursor := cur, mode := mode }, by rw [form, chan]; rfl, rfl, rfl⟩
    · exact .inr ⟨(completed (s.chan n)).walk, chan, rfl, rfl⟩

/-- The record in flight dropped, whatever the script brings: FAULT, only with a record, or the record released. -/
theorem dropRecord_outcome (readLink : Bool) :
    (Stopped ((dropRecord n readLink s).chan n) ∧ (s.chan n).walk.inflight ≠ none) ∨
      (Released (s.chan n) ((dropRecord n readLink s).chan n) ∧
        ((s.chan n).walk.inflight = none → ((dropRecord n readLink s).chan n).walk = (s.chan n).walk)) := by
  unfold dropRecord
  split
  · next f hf =>
    have flies : (s.chan n).walk.inflight ≠ none := by rw [hf]; exact Option.some_ne_none f
    exact (completeLineLost_outcome f readLink).imp (⟨·, flies⟩) (⟨·, fun h => absurd h flies⟩)
  · next hf => exact .inr ⟨⟨(s.chan n).walk, rfl, hf, rfl⟩, fun _ => rfl⟩

/-- LINE added to a running channel (R47). -/
theorem addHoldChan_line {c : Channel} (h : running c = true) :
    addHoldChan .line c = { c with state := .held, resume := resumeOf c, holdLine := true } := by
  unfold addHoldChan resumeOf
  unfold running at h
  split at h <;> simp_all [setHold]

theorem slotOutside_iff (slots : Option Nat) (c : Channel) :
    slotOutside slots c = true ↔ OutsideFormat slots c := by
  unfold slotOutside OutsideFormat
  split
  · next k m _ hm => simp [hm]
  · next h =>
    refine iff_of_false Bool.false_ne_true ?_
    rintro ⟨k, m, hk, hm, -⟩
    exact h k m hk hm

/-- A channel held by the loss of the line (R47, R115). -/
structure HeldByLoss (c d : Channel) : Prop where
  state     : d.state = .held
  line      : d.holdLine = true
  directive : d.holdDirective = c.holdDirective
  resume    : d.resume = resumeOf c
  keeps     : LineLossKeeps c d
  taken     : d.walk.takenRun = c.walk.takenRun
  walk      : c.walk.inflight = none → d.walk = c.walk
  silent    : SilentLine d.line
  ended     : d.line.inBlock = false
  forgot    : d.walk.inflight = none

/-- What a loss of the line makes of a running channel, whatever the script brings (R115, R116). -/
def Lost (slots : Option Nat) (c d : Channel) : Prop :=
  (OutsideFormat slots c ∧ Stopped d) ∨
    (¬ OutsideFormat slots c ∧ (HeldByLoss c d ∨ (Stopped d ∧ c.walk.inflight ≠ none)))

theorem held_by_loss {c e : Channel} (hr : running c = true) (he : Released (endBlock c) e)
    (hw : c.walk.inflight = none → e.walk = c.walk) : HeldByLoss c (notDue (addHoldChan .line e)) := by
  obtain ⟨w, rfl, flies, taken⟩ := he
  have runs : running { endBlock c with walk := w } = true := hr
  rw [addHoldChan_line runs]
  exact ⟨rfl, rfl, rfl, rfl, ⟨rfl, rfl, rfl, rfl, rfl, rfl, rfl, rfl, rfl, rfl, rfl, rfl⟩, taken, hw, ⟨rfl, rfl⟩, rfl,
    flies⟩

/-- The turn of a running channel: its record dropped, then FAULT outside the format, else LINE. -/
theorem loseLine_running {slots : Option Nat} (hr : running (s.chan n) = true) : loseLine slots s n =
    let u := dropRecord n (!slotOutside slots (s.chan n)) (s.modChan n endBlock)
    if running (u.chan n) = false then u
    else if slotOutside slots (s.chan n) = true then enterFault n u
    else statusEvent n (s.chan n) (changeHold n (addHoldChan .line) u) := by
  unfold loseLine
  rw [if_pos hr]
  simp only [Bool.not_eq_true']

theorem loseLine_stopped {slots : Option Nat} (hr : running (s.chan n) = false) : loseLine slots s n = s :=
  if_neg (by rw [hr]; exact Bool.false_ne_true)

/-- The turn of a running channel, whatever the script brings (R115, R116). -/
theorem loseLine_lost (slots : Option Nat) (hr : running (s.chan n) = true) :
    Lost slots (s.chan n) ((loseLine slots s n).chan n) := by
  have block : (s.modChan n endBlock).chan n = endBlock (s.chan n) := modChan_chan_self ..
  have dropped := dropRecord_outcome (n := n) (s := s.modChan n endBlock) (!slotOutside slots (s.chan n))
  rw [loseLine_running hr]
  rw [block] at dropped
  dsimp only
  generalize dropRecord n (!slotOutside slots (s.chan n)) (s.modChan n endBlock) = u at dropped ⊢
  unfold Lost
  rw [← slotOutside_iff]
  rcases dropped with ⟨stopped, flies⟩ | ⟨released, idle⟩
  · rw [if_pos stopped.not_running]
    by_cases ho : slotOutside slots (s.chan n) = true
    · exact .inl ⟨ho, stopped⟩
    · exact .inr ⟨ho, .inr ⟨stopped, flies⟩⟩
  · have runs : running (u.chan n) = true := by
      obtain ⟨w, form, -⟩ := released
      rw [form]
      exact hr
    rw [if_neg (by rw [runs]; exact Bool.noConfusion)]
    split_ifs with ho
    · exact .inl ⟨ho, enterFault_stopped⟩
    · rw [statusEvent_chan, changeHold_chan]
      exact .inr ⟨ho, .inl (held_by_loss hr released idle)⟩

/-- Every channel behind a loss of the line: not reached, or lost (R115, R116). -/
theorem loseLines_lost (slots : Option Nat) (k : Fin 32) :
    (running (s.chan k) = false → (allChans.foldl (loseLine slots) s).chan k = s.chan k) ∧
    (running (s.chan k) = true → Lost slots (s.chan k) ((allChans.foldl (loseLine slots) s).chan k)) := by
  refine ⟨fun h => ?_, fun h => ?_⟩
  · refine foldl_each (P := (· = s.chan k)) (Q := (· = s.chan k)) (fun _ _ j hj => (loseLine_lineOp slots).1.op.others j hj)
      (fun u n hn => ?_) _ allChans_nodup k (mem_allChans k) rfl
    rw [loseLine_stopped (by rw [hn]; exact h), hn]
  · refine foldl_each (P := (· = s.chan k)) (Q := Lost slots (s.chan k))
      (fun _ _ j hj => (loseLine_lineOp slots).1.op.others j hj) (fun u n hn => ?_) _ allChans_nodup k (mem_allChans k) rfl
    rw [← hn]
    exact loseLine_lost slots (by rw [hn]; exact h)

/-- A loss of the line, channel by channel, and what else it leaves (R115, R116). -/
theorem lineLost_effects (slots : Option Nat) :
    (lineLost slots s).port = toHunt s.port ∧ (lineLost slots s).enabled = s.enabled ∧
    (AttnLegal s.attn → HasCause (lineLost slots s).attn partSource .lineLost) ∧
    ∀ k, (running (s.chan k) = false → (lineLost slots s).chan k = s.chan k) ∧
      (running (s.chan k) = true → Lost slots (s.chan k) ((lineLost slots s).chan k)) := by
  have op := loseLines_allOp (s := { s with port := toHunt s.port }) slots
  have lost := loseLines_lost (s := { s with port := toHunt s.port }) slots
  unfold lineLost
  generalize allChans.foldl (loseLine slots) { s with port := toHunt s.port } = t at op lost ⊢
  refine ⟨op.port, op.enabled, fun h => hasCause_attnRaise _ ?_, fun k => ?_⟩
  · rw [(op.attn h).2.1]
    decide
  · rw [raise_chan]
    exact lost k

/-- What a stall says of a running channel (R115). -/
theorem Lost.stalled {c d : Channel} (h : Lost none c d) : SilentLine d.line ∧ d.line.inBlock = false ∧
    d.walk.inflight = none ∧ (d.state = .held ∨ (d.state = .fault ∧ c.walk.inflight ≠ none)) ∧
    (d.state = .held → d.holdLine = true ∧ d.holdDirective = c.holdDirective ∧ d.resume = resumeOf c ∧
      LineLossKeeps c d ∧ d.walk.takenRun = c.walk.takenRun ∧ (c.walk.inflight = none → d.walk = c.walk)) := by
  rcases h with ⟨⟨k, m, none, -⟩, -⟩ | ⟨-, held | ⟨stopped, flies⟩⟩
  · exact absurd none.symm (Option.some_ne_none k)
  · exact ⟨held.silent, held.ended, held.forgot, .inl held.state, fun _ =>
      ⟨held.line, held.directive, held.resume, held.keeps, held.taken, held.walk⟩⟩
  · refine ⟨stopped.silent, stopped.ended, stopped.forgot, .inr ⟨stopped.state, flies⟩, fun held => ?_⟩
    rw [stopped.state] at held
    exact ChanState.noConfusion held

/-- What a line restart says of a running channel (R116). -/
theorem Lost.restarted {c d : Channel} {slots : Nat} (h : Lost (some slots) c d) :
    SilentLine d.line ∧ d.line.inBlock = false ∧ d.walk.inflight = none ∧
    (∀ k, c.timeslot = some k → slots ≤ k → d.state = .fault ∧ d.timeslot = none ∧ d.segs = []) ∧
    (∀ k, c.timeslot = some k → k < slots →
      (d.state = .held ∧ d.holdLine = true ∧ d.holdDirective = c.holdDirective ∧ d.resume = resumeOf c ∧
        LineLossKeeps c d ∧ (c.walk.inflight = none → d.walk = c.walk)) ∨
      (d.state = .fault ∧ c.walk.inflight ≠ none)) := by
  rcases h with ⟨⟨_, m, same, slot, above⟩, stopped⟩ | ⟨inside, cases⟩
  · refine ⟨stopped.silent, stopped.ended, stopped.forgot, fun _ _ _ => ⟨stopped.state, stopped.timeslot, stopped.segs⟩,
      fun k hk below => ?_⟩
    obtain rfl := Option.some.inj same
    rw [slot, Option.some_inj] at hk
    omega
  · have within : ∀ k, c.timeslot = some k → ¬ slots ≤ k := fun k hk h => inside ⟨slots, k, rfl, hk, h⟩
    rcases cases with held | ⟨stopped, flies⟩
    · exact ⟨held.silent, held.ended, held.forgot, fun k hk h => absurd h (within k hk), fun _ _ _ =>
        .inl ⟨held.state, held.line, held.directive, held.resume, held.keeps, held.walk⟩⟩
    · exact ⟨stopped.silent, stopped.ended, stopped.forgot, fun k hk h => absurd h (within k hk), fun _ _ _ =>
        .inr ⟨stopped.state, flies⟩⟩

/-! ## The commands -/

/-- Under a bus script a work counts by its effect on the state under that script. -/
theorem onBus_congr {f g : State → State} {bus : Bus} (h : f { s with bus := bus } = g { s with bus := bus }) :
    onBus bus f s = onBus bus g s := by
  unfold onBus
  rw [h]

/-- STALL with the timer armed (R115). -/
theorem exec_stall (bus : Bus) (h : s.port.stallArmed = true) :
    exec (.stall bus) s = .next (onBus bus (lineLost none) s) :=
  congrArg Host.Outcome.next (onBus_congr (if_pos h))

/-- STALL with the timer not armed does nothing (log 6). -/
theorem exec_stall_unarmed (bus : Bus) (h : s.port.stallArmed = false) :
    exec (.stall bus) s = .next (onBus bus id s) :=
  congrArg Host.Outcome.next (onBus_congr (if_neg (ne_true_of_eq_false h)))

/-- The part at a LINE_RESTART when the line is lost: the fields of its word taken, the pending format latched
(R107, R163). -/
def relatched (v : Word) (s : State) : State :=
  { takeControlFields (v.getLsbD 4) (v.extractLsb' 8 3) s with port := latchFormat s.port }

theorem relatched_chan (v : Word) (s : State) (k : Fin 32) : (relatched v s).chan k = s.chan k := chan_of_chans rfl k

/-- What LINE_RESTART of a part out of OFF does (R116). -/
def lineRestartWrite (v : Word) (s : State) : State :=
  lineLost (some s.port.pendingFmt.slots.toNat) (relatched v s)

theorem restartLine_eq (h : s.port.state ≠ .off) : restartLine s =
    lineLost (some s.port.pendingFmt.slots.toNat) { s with port := latchFormat s.port } := by
  unfold restartLine
  split
  · next off => exact absurd off h
  · rfl
  · rfl

/-- LINE_RESTART takes the attention fields as SET_ATTN_MODE does, then restarts the line (R163). -/
theorem exec_lineRestart (v : Word) (bus : Bus) (he : s.enabled = true) (h : s.port.state ≠ .off) :
    exec (.lineRestart v bus) s = .next (onBus bus (lineRestartWrite v) s) := by
  have mode : flag (lineRestartWord v) 4 = v.getLsbD 4 := by simp [flag, lineRestartWord]
  have enable : flag (lineRestartWord v) 0 = true := by simp [flag, lineRestartWord]
  have reset : flag (lineRestartWord v) 1 = false := by simp [flag, lineRestartWord]
  have restart : flag (lineRestartWord v) 2 = true := by simp [flag, lineRestartWord]
  have threshold : (lineRestartWord v).extractLsb' 8 3 = v.extractLsb' 8 3 := by
    unfold lineRestartWord
    ext i hi
    simp [BitVec.getLsbD_or]
    interval_cases i <;> simp
  have write : partControlWrite (lineRestartWord v) { s with bus := bus } =
      lineRestartWrite v { s with bus := bus } := by
    rw [partControlWrite, mode, enable, reset, restart, threshold, controlAction]
    have enabled : (takeControlFields (v.getLsbD 4) (v.extractLsb' 8 3) { s with bus := bus }).enabled = true := he
    rw [if_neg Bool.false_ne_true, if_pos enabled]
    exact restartLine_eq h
  exact congrArg Host.Outcome.next (onBus_congr write)

end Sys2Proof.Machine

/-! Proofs about a loss of the line under an empty bus script: each channel's turn, in index order (R97, R115, R116,
R159). -/

namespace Sys2Proof.Machine

variable {n : Fin 32} {s t : State}

/-! ## The turn of a channel under an empty script (R97, R115, R116, R159) -/

/-- The walker behind its record dropped (R88, R97, R99). -/
def droppedWalk (readLink : Bool) (m : Memory) (w : Walker) : Walker :=
  match w.inflight with
  | none => w
  | some f =>
    if readLink then WalkedOn f (memWord m (f.addr + 4#32)) w else { w with inflight := none, gapCount := 0 }

/-- The attention unit behind the record of a channel dropped: BLOCK_DONE by NOTIFY (R95). -/
def droppedAttn (n : Fin 32) (s : State) : Attn :=
  match (s.chan n).walk.inflight with
  | none => s.attn
  | some f => Notified n f s.attn

/-- The record in flight of a channel, when there is one, told LINE_LOST and its gap count, and no other byte
changed (R97). -/
def RecordTold (n : Fin 32) (s : State) (m : Memory) : Prop :=
  (∀ f, (s.chan n).walk.inflight = some f → memWord m f.addr = dispLineLost ∧
    ((s.chan n).walk.gapCount ≤ 65535 → (memWord m (gapWordAt f)).toNat = (s.chan n).walk.gapCount)) ∧
  ∀ x, (∀ f, (s.chan n).walk.inflight = some f → Outside f.addr 4 x ∧ Outside (gapWordAt f) 4 x) →
    memRead m x = memRead s.mem x

theorem recordTold_none (h : (s.chan n).walk.inflight = none) : RecordTold n s s.mem :=
  ⟨fun f hf => by rw [h] at hf; exact absurd hf.symm (Option.some_ne_none f), fun _ _ => rfl⟩

theorem recordTold_early {f : InFlight} (hf : (s.chan n).walk.inflight = some f) (hw : MemLegal s) :
    RecordTold n s (earlyMemory f (s.chan n).walk.gapCount dispLineLost s.mem) := by
  refine ⟨fun g hg => ?_, fun x hx => earlyMemory_frame hw x (hx f hf).1 (hx f hf).2⟩
  rw [hf] at hg
  obtain rfl := Option.some.inj hg
  exact ⟨earlyMemory_code hw, earlyMemory_gap hw⟩

theorem apart_first {a b : Word} {len : Nat} (h : Apart a 368 b len) : Apart a 4 b len :=
  fun k hk => h k (by omega)

theorem apart_gapWord {f : InFlight} {b : Word} {len : Nat} (h : Apart f.addr 368 b len) :
    Apart (gapWordAt f) 4 b len := by
  intro k hk
  have bounds := gapOffset_bounds f
  have within := h (gapOffset f + k) (by omega)
  rwa [BitVec.ofNat_add, ← BitVec.add_assoc, ← gapWordAt_eq] at within

/-- A status write behind it leaves the record as it was told, when the two lie apart. -/
theorem RecordTold.behind {m m' : Memory} {a : Word} (h : RecordTold n s m)
    (frame : ∀ x, Outside a 24 x → memRead m' x = memRead m x) :
    (∀ f, (s.chan n).walk.inflight = some f → Apart f.addr 368 a 24 → memWord m' f.addr = 6#32 ∧
      ((s.chan n).walk.gapCount ≤ 65535 → (memWord m' (gapWordAt f)).toNat = (s.chan n).walk.gapCount)) ∧
    (∀ x, Outside a 24 x →
      (∀ f, (s.chan n).walk.inflight = some f → Outside f.addr 4 x ∧ Outside (gapWordAt f) 4 x) →
      memRead m' x = memRead s.mem x) := by
  obtain ⟨told, kept⟩ := h
  refine ⟨fun f hf clear => ?_, fun x hx hrec => (frame x hx).trans (kept x hrec)⟩
  rw [memWord_of_frame (apart_first clear) frame, memWord_of_frame (apart_gapWord clear) frame]
  exact told f hf

/-- A channel behind its block ended and its record dropped. -/
def droppedChan (readLink : Bool) (m : Memory) (c : Channel) : Channel :=
  { c with line := EndedLine, walk := droppedWalk readLink m c.walk }

theorem droppedChan_none {readLink : Bool} {m : Memory} {c : Channel} (h : c.walk.inflight = none) :
    droppedChan readLink m c = endBlock c := by
  rw [droppedChan, droppedWalk, h]
  rfl

theorem droppedChan_some {readLink : Bool} {m : Memory} {c : Channel} {f : InFlight} (h : c.walk.inflight = some f) :
    droppedChan readLink m c = (if readLink then walkedFrom f.addr (memWord m (f.addr + 4#32)) else id)
      (completed (endBlock c)) := by
  rw [droppedChan, droppedWalk, h]
  cases readLink <;> rfl

/-- The state behind the block of a running channel ended and its record dropped: `m` is the memory. -/
def droppedState (n : Fin 32) (readLink : Bool) (m : Memory) (s : State) : State :=
  { s.modChan n (droppedChan readLink s.mem) with mem := m, attn := droppedAttn n s }

theorem droppedState_chan {readLink : Bool} {m : Memory} :
    (droppedState n readLink m s).chan n = droppedChan readLink s.mem (s.chan n) := modChan_chan_self ..

theorem droppedState_running {readLink : Bool} {m : Memory} (h : running (s.chan n) = true) :
    ¬ running ((droppedState n readLink m s).chan n) = false := by
  rw [droppedState_chan]
  exact ne_false_of_eq_true h

/-- No record in flight: the block alone ends, whatever the script brings. -/
theorem dropRecord_none {readLink : Bool} (h : (s.chan n).walk.inflight = none) :
    dropRecord n readLink (s.modChan n endBlock) = droppedState n readLink s.mem s := by
  have idle : ((s.modChan n endBlock).chan n).walk.inflight = none := by
    rw [modChan_chan_self]
    exact h
  have form : s.modChan n endBlock = s.modChan n (droppedChan readLink s.mem) :=
    (modChan_congr (droppedChan_none h)).symm
  unfold dropRecord droppedState droppedAttn
  rw [idle, h]
  exact form

/-- A record dropped whose link, when it is read, is no misaligned one. -/
theorem dropRecord_idle {readLink : Bool} (hb : s.bus = []) (hw : MemLegal s)
    (hl : readLink = true → ∀ f, (s.chan n).walk.inflight = some f → (memWord s.mem (f.addr + 4#32)).toNat % 4 = 0) :
    ∃ m, m.wf ∧ RecordTold n s m ∧ dropRecord n readLink (s.modChan n endBlock) =
      droppedState n readLink m s := by
  cases hf : (s.chan n).walk.inflight with
  | none => exact ⟨_, hw, recordTold_none hf, dropRecord_none hf⟩
  | some f =>
    have block : (s.modChan n endBlock).chan n = endBlock (s.chan n) := modChan_chan_self ..
    have flies : (endBlock (s.chan n)).walk.inflight = some f := hf
    unfold dropRecord droppedState droppedAttn
    rw [block, flies, hf]
    dsimp only
    refine ⟨_, earlyMemory_wf hw, recordTold_early hf hw, ?_⟩
    have idle := completeLineLost_idle (n := n) (s := s.modChan n endBlock) (f := f) hb hw (fun h => hl h f hf)
    rw [earlyCompleted, block] at idle
    have walks : (((s.modChan n endBlock).modChan n completed).modChan n
        (if readLink then walkedFrom f.addr (memWord s.mem (f.addr + 4#32)) else id)) =
        s.modChan n (droppedChan readLink s.mem) := by
      rw [modChan_modChan, modChan_modChan]
      exact modChan_congr (droppedChan_some hf).symm
    refine idle.trans (Eq.trans ?_ (script_empty hb _ (s.modChan n (droppedChan readLink s.mem)).chans _))
    rw [← walks]
    rfl

/-- A running channel as a loss of the line leaves it, its record's link no misaligned one. -/
def lostChan (m : Memory) (c : Channel) : Channel :=
  { c with state := .held, resume := resumeOf c, holdLine := true, line := EndedLine,
           walk := droppedWalk true m c.walk }

/-- The state behind the turn of a running channel that the loss of the line holds, but for its status write: STATE
when it was not HELD (R47). -/
def lostState (n : Fin 32) (m : Memory) (s : State) : State :=
  { s.modChan n (lostChan s.mem) with
    mem := m
    attn := if (s.chan n).state = .held then droppedAttn n s
      else attnRaise (chanSource n) .state (droppedAttn n s) }

theorem lostState_chan {m : Memory} : (lostState n m s).chan n = lostChan s.mem (s.chan n) := modChan_chan_self ..

/-- LINE joins the holds of a running channel whose record is dropped: STATE when it was not HELD (R47). -/
theorem lost_held {m : Memory} (hr : running (s.chan n) = true) :
    changeHold n (addHoldChan .line) (droppedState n true m s) = lostState n m s := by
  have runs : running (droppedChan true s.mem (s.chan n)) = true := hr
  have holds : addHoldChan .line (droppedChan true s.mem (s.chan n)) = lostChan s.mem (s.chan n) := by
    rw [addHoldChan_line runs]
    rfl
  have held : State.modChan n (addHoldChan .line) (droppedState n true m s) =
      { s.modChan n (lostChan s.mem) with mem := m, attn := droppedAttn n s } := by
    show { (s.modChan n (droppedChan true s.mem)).modChan n (addHoldChan .line) with
      mem := m, attn := droppedAttn n s } = _
    rw [modChan_modChan, modChan_congr (g := lostChan s.mem) holds]
  unfold lostState
  by_cases h : (s.chan n).state = .held
  · rw [if_pos h, changeHold_same, held]
    rw [droppedState_chan, holds]
    exact h.symm
  · rw [if_neg h, changeHold_changed, held]
    · rfl
    · rw [droppedState_chan, holds]
      exact fun same => h same.symm

/-- LINE shows in the status area: of a channel not HELD the state changes, of one HELD without LINE the hold
reasons (R158). -/
theorem statusWords_lost {m : Memory} {c : Channel} (h : c.state ≠ .held ∨ c.holdLine = false) :
    statusWords c ≠ statusWords (lostChan m c) := by
  intro same
  obtain ⟨first, -⟩ := List.cons.inj same
  have codes := congrArg (BitVec.extractLsb' 0 8) first
  have holds := congrArg (BitVec.extractLsb' 8 8) first
  rw [pack4_low, pack4_low, show (lostChan m c).state = .held from rfl] at codes
  rw [pack4_second, pack4_second, show (lostChan m c).holdLine = true from rfl,
    show (lostChan m c).holdDirective = c.holdDirective from rfl] at holds
  rcases h with h | h
  · revert codes h
    cases c.state <;> decide
  · revert holds
    rw [h]
    cases c.holdDirective <;> decide

section
variable {slots : Option Nat}

/-- What a turn says of memory behind its record and its status write. -/
def TurnMemory (n : Fin 32) (s : State) (m : Memory) : Prop :=
  ∃ told, RecordTold n s told ∧ ∀ x, Outside (s.desc n.val + 128#32) 24 x → memRead m x = memRead told x

/-- The turn of a running channel that the loss of the line holds, whatever the script brings to its status write. -/
theorem loseLine_turned {m : Memory} (hr : running (s.chan n) = true) (inside : slotOutside slots (s.chan n) = false)
    (dropped : dropRecord n true (s.modChan n endBlock) = droppedState n true m s) :
    loseLine slots s n = statusEvent n (s.chan n) (lostState n m s) := by
  rw [loseLine_running hr, inside]
  dsimp only
  rw [Bool.not_false, dropped, if_neg (droppedState_running hr), if_neg Bool.false_ne_true, lost_held hr]

/-- The turn of a running channel that the loss of the line holds. -/
theorem loseLine_held (hb : s.bus = []) (hw : MemLegal s) (hr : running (s.chan n) = true)
    (inside : slotOutside slots (s.chan n) = false)
    (hl : ∀ f, (s.chan n).walk.inflight = some f → (memWord s.mem (f.addr + 4#32)).toNat % 4 = 0) :
    ∃ m, TurnMemory n s m ∧ loseLine slots s n = (lostState n m s).modChan n notDue ∧
      (s.tableBase ≠ 0#24 → ((s.chan n).state ≠ .held ∨ (s.chan n).holdLine = false) →
        StatusShown n (loseLine slots s n)) := by
  obtain ⟨told, legal, tells, dropped⟩ := dropRecord_idle (n := n) (readLink := true) hb hw (fun _ => hl)
  obtain ⟨m, form, -, frame, shown⟩ := statusEvent_idle (s := lostState n told s) (n := n) (s.chan n) hb legal
  rw [lostState_chan] at shown
  rw [loseLine_turned hr inside dropped]
  refine ⟨m, ⟨told, tells, frame⟩, form, fun base change i hi => ?_⟩
  rw [statusEvent_chan, lostState_chan, form]
  exact shown base (statusWords_lost change) i hi

/-- The turn of a running channel whose record has a misaligned link. -/
theorem loseLine_misaligned {f : InFlight} (hb : s.bus = []) (hw : MemLegal s) (hr : running (s.chan n) = true)
    (inside : slotOutside slots (s.chan n) = false) (hf : (s.chan n).walk.inflight = some f)
    (hl : (memWord s.mem (f.addr + 4#32)).toNat % 4 ≠ 0) : TurnMemory n s (loseLine slots s n).mem ∧
    loseLine slots s n = { s with
      mem := (loseLine slots s n).mem
      chans := (loseLine slots s n).chans
      pool := s.pool ++ (s.chan n).segs.reverse
      attn := Notified n f (attnRaise (chanSource n) .fault s.attn) } ∧
    (loseLine slots s n).chan n = Faulted { s.chan n with walk := { (s.chan n).walk with gapCount := 0 } } ∧
    (s.tableBase ≠ 0#24 → StatusShown n (loseLine slots s n)) := by
  obtain ⟨w, fault, form⟩ := completeLineLost_link_faults (s := s.modChan n endBlock) (f := f) (n := n) hw (.inr ⟨hb, hl⟩)
  have flies : ((s.modChan n endBlock).chan n).walk.inflight = some f := by
    rw [modChan_chan_self]
    exact hf
  have dropped : dropRecord n true (s.modChan n endBlock) = { w with attn := Notified n f w.attn } := by
    rw [← form, dropRecord, flies]
  have lost : loseLine slots s n = { w with attn := Notified n f w.attn } := by
    rw [loseLine_running hr, inside]
    dsimp only
    rw [Bool.not_false, dropped, if_pos]
    rw [chan_with_attn, fault.2.1]
    rfl
  obtain ⟨left, chan, -, shown, frame⟩ := fault
  rw [earlyCompleted_chan, modChan_chan_self] at chan left
  rw [earlyCompleted, modChan_chan_self] at frame
  rw [lost]
  refine ⟨⟨_, recordTold_early hf hw, frame⟩, ?_, chan, shown⟩
  have idle : (earlyCompleted n f dispLineLost (s.modChan n endBlock)).bus = s.bus := hb.symm
  rw [left, idle]
  rfl

/-- The turn of a running channel outside the format. -/
theorem loseLine_faulted (hb : s.bus = []) (hw : MemLegal s) (hr : running (s.chan n) = true)
    (outside : slotOutside slots (s.chan n) = true) : TurnMemory n s (loseLine slots s n).mem ∧
    ∃ m, FaultEntered n (droppedState n false m s) (loseLine slots s n) := by
  obtain ⟨told, legal, tells, dropped⟩ := dropRecord_idle (n := n) (readLink := false) hb hw
    (fun h => absurd h Bool.false_ne_true)
  have lost : loseLine slots s n = enterFault n (droppedState n false told s) := by
    rw [loseLine_running hr, outside]
    dsimp only
    rw [Bool.not_true, dropped, if_neg (droppedState_running hr), if_pos rfl]
  have fault := enterFault_idle (n := n) (s := droppedState n false told s) hb legal
  rw [← lost] at fault
  refine ⟨⟨told, tells, ?_⟩, told, fault⟩
  obtain ⟨-, -, -, -, frame⟩ := fault
  exact frame

theorem loseLine_lostTurn (hb : s.bus = []) (hw : MemLegal s) : LostTurn slots n s (loseLine slots s n) := by
  refine ⟨loseLine_stopped, fun hr => ?_⟩
  have others := fun k hk => (loseLine_lineOp (s := s) (n := n) slots).1.op.others k hk
  by_cases outside : slotOutside slots (s.chan n) = true
  · have out := (slotOutside_iff _ _).1 outside
    obtain ⟨⟨told, tells, frame⟩, m, form, chan, -, shown, -⟩ := loseLine_faulted hb hw hr outside
    obtain ⟨record, kept⟩ := tells.behind frame
    have pool := congrArg State.pool form
    have attn := congrArg State.attn form
    generalize loseLine slots s n = t at *
    rw [droppedState_chan] at chan pool form
    refine ⟨by rw [pool, attn]; exact form, others, record, kept, fun h => absurd out h, fun h => absurd out h,
      fun _ => ⟨pool, ?_, attn, shown⟩⟩
    rw [chan, droppedChan, droppedWalk]
    cases (s.chan n).walk.inflight <;> rfl
  · have inside := mt (slotOutside_iff _ _).2 outside
    rw [Bool.not_eq_true] at outside
    by_cases hl : ∀ f, (s.chan n).walk.inflight = some f → (memWord s.mem (f.addr + 4#32)).toNat % 4 = 0
    · obtain ⟨m, ⟨told, tells, frame⟩, form, shown⟩ := loseLine_held hb hw hr outside hl
      obtain ⟨record, kept⟩ := tells.behind frame
      generalize loseLine slots s n = t at *
      subst form
      refine ⟨rfl, others, record, kept, fun _ _ => ⟨rfl, ?_, rfl, shown⟩, fun _ f hf h => absurd (hl f hf) h,
        fun h => absurd h inside⟩
      rw [modChan_chan_self, lostState_chan]
      rfl
    · push Not at hl
      obtain ⟨f, hf, hl⟩ := hl
      obtain ⟨⟨told, tells, frame⟩, form, chan, shown⟩ := loseLine_misaligned hb hw hr outside hf hl
      obtain ⟨record, kept⟩ := tells.behind frame
      have pool := congrArg State.pool form
      have attn := congrArg State.attn form
      generalize loseLine slots s n = t at *
      refine ⟨by rw [pool, attn]; exact form, others, record, kept, fun _ h => absurd (h f hf) hl, fun _ g hg _ => ?_,
        fun h => absurd h inside⟩
      rw [hf] at hg
      obtain rfl := Option.some.inj hg
      exact ⟨pool, chan, attn, shown⟩

theorem loseLine_idle (hb : s.bus = []) (hw : MemLegal s) : (loseLine slots s n).bus = [] := by
  obtain ⟨stopped, turn⟩ := loseLine_lostTurn (slots := slots) (n := n) hb hw
  cases hr : running (s.chan n) with
  | false => rw [stopped hr, hb]
  | true => exact (congrArg State.bus (turn hr).1).trans hb

theorem loseLines_idle (l : List (Fin 32)) {s : State} (hb : s.bus = []) (hw : MemLegal s) :
    (l.foldl (loseLine slots) s).bus = [] ∧ MemLegal (l.foldl (loseLine slots) s) := by
  induction l generalizing s with
  | nil => exact ⟨hb, hw⟩
  | cons k l ih => exact ih (loseLine_idle hb hw) ((loseLine_lineOp slots).1.op.mem hw)

/-- The channels below `k` have had their turns of a loss of the line. -/
def lossBefore (slots : Option Nat) (k : Nat) (s : State) : State := (allChans.take k).foldl (loseLine slots) s

theorem lossBefore_succ (n : Fin 32) (s : State) :
    lossBefore slots (n.val + 1) s = loseLine slots (lossBefore slots n.val s) n := by
  have next : allChans.take (n.val + 1) = allChans.take n.val ++ [n] := by
    rw [List.take_succ_eq_append_getElem (by simp [allChans])]
    simp [allChans]
  rw [lossBefore, next, List.foldl_append]
  rfl

theorem lossBefore_lostTurn (n : Fin 32) (hb : s.bus = []) (hw : MemLegal s) :
    LostTurn slots n (lossBefore slots n.val s) (lossBefore slots (n.val + 1) s) := by
  obtain ⟨idle, legal⟩ := loseLines_idle (slots := slots) (allChans.take n.val) hb hw
  rw [lossBefore_succ]
  exact loseLine_lostTurn idle legal

/-- A loss of the line is the turns in index order, then LINE_LOST (R115, R116). -/
theorem lineLost_turns (slots : Option Nat) (s : State) : lineLost slots s =
    raise partSource .lineLost (lossBefore slots 32 { s with port := toHunt s.port }) := rfl

theorem lineLost_idle (hb : s.bus = []) (hw : MemLegal s) : (lineLost slots s).bus = [] := by
  rw [lineLost_turns, raise_bus, lossBefore]
  exact (loseLines_idle (slots := slots) (s := { s with port := toHunt s.port }) (allChans.take 32) hb hw).1

end

/-- Settles O15: each channel's outcome by `lineLost_effects`, its turn by `loseLine_lostTurn`. -/
theorem stallHoldsRunningChannels : Obligations.StallHoldsRunningChannels := by
  refine ⟨fun bus s => ?_, fun s hb hw armed => ?_⟩
  · cases armed : s.port.stallArmed with
    | false => exact ⟨_, exec_stall_unarmed bus armed, fun _ => ⟨rfl, rfl, rfl⟩, fun h => absurd h Bool.false_ne_true⟩
    | true =>
      obtain ⟨port, -, attn, chans⟩ := onBus_fields bus (lineLost none) s
      obtain ⟨hunts, -, told, lost⟩ := lineLost_effects (s := { s with bus := bus }) none
      refine ⟨_, exec_stall bus armed, fun h => absurd h.symm Bool.false_ne_true, fun _ => ⟨port.trans hunts, ?_, ?_⟩⟩
      · rw [attn]
        exact told
      · intro n
        rw [chans]
        exact ⟨(lost n).1, fun hr => ((lost n).2 hr).stalled⟩
  · refine ⟨fun k => lossBefore none k { s with port := toHunt s.port }, rfl,
      fun n => lossBefore_lostTurn (s := { s with port := toHunt s.port }) n hb hw, ?_⟩
    rw [exec_stall [] armed, onBus_idle hb (lineLost_idle hb hw), lineLost_turns]
    rfl

/-- Settles O16: the fields of the word as `exec_lineRestart` has them, then as at a stall. -/
theorem lineRestartHoldsOrFaults : Obligations.LineRestartHoldsOrFaults := by
  refine ⟨fun v bus s he hp => ?_, fun v s hb hw he hp => ?_⟩
  · obtain ⟨port, enabled, attn, chans⟩ := onBus_fields bus (lineRestartWrite v) s
    obtain ⟨hunts, stays, told, lost⟩ := lineLost_effects (s := relatched v { s with bus := bus })
      (some s.port.pendingFmt.slots.toNat)
    refine ⟨_, exec_lineRestart v bus he hp, enabled.trans (stays.trans he), port.trans hunts, fun legal => ?_,
      fun n => ?_⟩
    · rw [attn]
      exact told (attnControl_legal legal)
    · obtain ⟨stopped, runs⟩ := lost n
      rw [relatched_chan, chan_with_bus] at stopped runs
      have chan : (onBus bus (lineRestartWrite v) s).chan n = (lineLost (some s.port.pendingFmt.slots.toNat)
        (relatched v { s with bus := bus })).chan n := chans n
      rw [chan]
      generalize (lineLost _ _).chan n = d at *
      exact ⟨stopped, fun hr => (runs hr).restarted⟩
  · have idle : (lineRestartWrite v s).bus = [] := lineLost_idle (s := relatched v s) hb hw
    refine ⟨_, fun k => lossBefore (some s.port.pendingFmt.slots.toNat) k
        { relatched v s with port := toHunt (relatched v s).port }, rfl, rfl,
      fun n => lossBefore_lostTurn (s := { relatched v s with port := toHunt (relatched v s).port }) n hb hw, ?_⟩
    rw [exec_lineRestart v [] he hp, onBus_idle hb idle, lineRestartWrite, lineLost_turns]
    rfl

end Sys2Proof.Machine

/-! Proofs about the words the part writes: what it writes it reads back, and each field stands where its table has
it (R83, R85, R145, R154, R158, R161). -/

namespace Sys2Proof.Machine

/-! ## Fields of a word as numbers -/

theorem append_toNat {a b : Nat} (x : BitVec a) (y : BitVec b) : (x ++ y).toNat = x.toNat * 2 ^ b + y.toNat := by
  rw [BitVec.toNat_append, ← Nat.shiftLeft_add_eq_or_of_lt y.isLt, Nat.shiftLeft_eq]

theorem pack4_toNat (b0 b1 b2 b3 : Nat) : (pack4 b0 b1 b2 b3).toNat =
    b0 % 256 + 256 * (b1 % 256) + 65536 * (b2 % 256) + 16777216 * (b3 % 256) := by
  simp only [pack4, wordOfBytes, append_toNat, BitVec.toNat_ofNat]
  omega

theorem pack2_value (h0 h1 : Nat) : (pack2 h0 h1).toNat = h0 % 65536 + 65536 * (h1 % 65536) := by
  simp only [pack2, append_toNat, BitVec.toNat_ofNat]
  omega

theorem pack2_low {h0 : Nat} (h1 : Nat) (h : h0 < 65536) : ((pack2 h0 h1).extractLsb' 0 16).toNat = h0 := by
  rw [BitVec.extractLsb'_toNat, Nat.shiftRight_eq_div_pow, pack2_value]
  omega

theorem pack2_high (h0 : Nat) {h1 : Nat} (h : h1 < 65536) : ((pack2 h0 h1).extractLsb' 16 16).toNat = h1 := by
  rw [BitVec.extractLsb'_toNat, Nat.shiftRight_eq_div_pow, pack2_value]
  omega

theorem extract_toNat (w : Word) (lo len : Nat) : (w.extractLsb' lo len).toNat = w.toNat / 2 ^ lo % 2 ^ len := by
  rw [BitVec.extractLsb'_toNat, Nat.shiftRight_eq_div_pow]

theorem bitNat_le (b : Bool) : bitNat b ≤ 1 := by cases b <;> decide

/-- A flag stands at the bit where the word as a number has it. -/
theorem bit_of_toNat {w : Word} {i : Nat} {b : Bool} (h : w.toNat / 2 ^ i % 2 = bitNat b) : w.getLsbD i = b := by
  rw [← BitVec.testBit_toNat, Nat.testBit_eq_decide_div_mod_eq, h]
  cases b <;> rfl

/-- A field of a packed word as bits: equal when equal as a number. -/
theorem extract_eq {w : Word} {lo len : Nat} {x : BitVec len} (h : w.toNat / 2 ^ lo % 2 ^ len = x.toNat) :
    w.extractLsb' lo len = x := BitVec.eq_of_toNat_eq ((extract_toNat ..).trans h)

section
variable (b0 b1 b2 b3 : Nat)

theorem pack4_third : (pack4 b0 b1 b2 b3).extractLsb' 16 8 = BitVec.ofNat 8 b2 := by
  refine extract_eq ?_
  rw [pack4_toNat, BitVec.toNat_ofNat]
  omega

theorem pack4_fourth : (pack4 b0 b1 b2 b3).extractLsb' 24 8 = BitVec.ofNat 8 b3 := by
  refine extract_eq ?_
  rw [pack4_toNat, BitVec.toNat_ofNat]
  omega

end

theorem ofNat8_toNat {b : Nat} (h : b < 256) : (BitVec.ofNat 8 b).toNat = b := Nat.mod_eq_of_lt h

/-! ## What is written reads back -/

theorem unpack_packSamples (k : Nat) (xs : List Sample) (h : xs.length = 2 * k) :
    unpackSamples (packSamples xs) = xs := by
  induction k generalizing xs with
  | zero =>
    obtain rfl := List.length_eq_zero_iff.1 h
    rfl
  | succ k ih =>
    match xs, h with
    | x :: y :: rest, h =>
      have low : (y ++ x : Word).extractLsb' 0 16 = x := by
        refine extract_eq ?_
        rw [append_toNat]
        omega
      have high : (y ++ x : Word).extractLsb' 16 16 = y := by
        refine extract_eq ?_
        rw [append_toNat]
        omega
      rw [packSamples, unpackSamples, low, high, ih rest (by simpa [Nat.mul_succ] using h)]

theorem decode_phaseWords (p : Phase) (hn : p.nearShift < 256) (hf : p.farShift < 256) (he : p.eqShift < 256)
    (hd : p.duration < 4096) (ht : p.target < 16) (hk : p.runK < 16) : decodePhases (phaseWords p) = [p] := by
  obtain ⟨search, near, far, eq, warm, nearShift, farShift, eqShift, duration, target, runK⟩ := p
  have s := bitNat_le search
  have n := bitNat_le near
  have f := bitNat_le far
  have e := bitNat_le eq
  have w := bitNat_le warm
  simp only [phaseWords, decodePhases, decodePhase, flag, field, extract_toNat, List.cons.injEq, and_true,
    Phase.mk.injEq]
  refine ⟨bit_of_toNat ?_, bit_of_toNat ?_, bit_of_toNat ?_, bit_of_toNat ?_, bit_of_toNat ?_, ?_⟩
  all_goals
    simp only [pack4_toNat] at *
    omega

theorem decode_imageHeader (e : Entry) (hn : e.ln ≤ 64) (hf : e.lf ≤ 128) (he : e.le ≤ 64) (hc : e.cursor < 256)
    (hd : e.delay ≤ 4992) : decodeHeader ((imageBody e).take 4) =
      { format := 1, count := 4 + (e.ln + e.lf + e.le) + 1, tag := e.tag, ln := e.ln, lf := e.lf,
        le := e.le, cursor := e.cursor, delay := e.delay, pinned := e.pinned } := by
  have pinned := bitNat_le e.pinned
  have length : imageLength e = 4 + (e.ln + e.lf + e.le) + 1 := rfl
  simp only [imageBody, decodeHeader, flag, field, extract_toNat, Header.mk.injEq]
  refine ⟨?_, ?_, rfl, ?_, ?_, ?_, ?_, ?_, bit_of_toNat ?_⟩
  all_goals
    simp only [List.cons_append, List.take_succ_cons, List.getD_cons_zero, List.getD_cons_succ, pack4_toNat,
      pack2_value]
    omega

/-- A coefficient stands sign-extended behind the header (R148). -/
theorem imageBody_coef (e : Entry) (j : Nat) (hj : j < e.coefs.length) :
    (imageBody e).getD (4 + j) 0#32 = (e.coefs.getD j 0#24).signExtend 32 := by
  simp [imageBody, Nat.add_comm 4 j, hj]

theorem entriesInUse_card (st : Store) :
    entriesInUse st = (Finset.univ.filter fun i : Fin 48 => (entryAt st i).state ≠ .free).card := by
  have list : (List.finRange 48).filter (fun i => (entryAt st i).state != .free) =
      (List.finRange 48).filter (fun i => decide ((entryAt st i).state ≠ .free)) :=
    List.filter_congr fun i _ => by cases (entryAt st i).state <;> rfl
  have nodup := (List.nodup_finRange 48).filter (fun i => decide ((entryAt st i).state ≠ .free))
  rw [entriesInUse, list, ← List.toFinset_card_of_nodup nodup]
  congr 1
  ext i
  simp

/-- PART_STATUS as a number (R161). -/
theorem partStatus_toNat (s : State) (hp : s.pool.length ≤ 1024) : (partStatus s).toNat =
    bitNat s.enabled + 2 * s.port.state.code + 8 * s.maint.chain.code +
      32 * bitNat (s.port.activeFmt.slots == .n32) + 256 * entriesInUse s.store + 65536 * s.pool.length ∧
    s.port.state.code < 4 ∧ s.maint.chain.code < 4 ∧ entriesInUse s.store ≤ 48 := by
  have enabled := bitNat_le s.enabled
  have slots := bitNat_le (s.port.activeFmt.slots == .n32)
  have port : s.port.state.code < 4 := by cases s.port.state <;> decide
  have chain : s.maint.chain.code < 4 := by cases s.maint.chain <;> decide
  have used : entriesInUse s.store ≤ 48 := (List.length_filter_le ..).trans (by simp)
  refine ⟨?_, port, chain, used⟩
  rw [partStatus, BitVec.toNat_ofNat, Nat.mod_eq_of_lt (by omega)]

theorem partStatus_fields (s : State) (hp : s.pool.length ≤ 1024) :
    (partStatus s).getLsbD 0 = s.enabled ∧ ((partStatus s).extractLsb' 1 2).toNat = s.port.state.code ∧
    ((partStatus s).extractLsb' 3 2).toNat = s.maint.chain.code ∧
    ((partStatus s).getLsbD 5 = true ↔ s.port.activeFmt.slots = .n32) ∧
    ((partStatus s).extractLsb' 8 6).toNat = entriesInUse s.store ∧
    ((partStatus s).extractLsb' 16 11).toNat = s.pool.length := by
  obtain ⟨value, port, chain, used⟩ := partStatus_toNat s hp
  have enabled := bitNat_le s.enabled
  have slots := bitNat_le (s.port.activeFmt.slots == .n32)
  have slotBit : (partStatus s).getLsbD 5 = (s.port.activeFmt.slots == .n32) := bit_of_toNat (by omega)
  simp only [extract_toNat]
  refine ⟨bit_of_toNat (by omega), by omega, by omega, ?_, by omega, by omega⟩
  rw [slotBit, beq_iff_eq]

/-- The flags of a metrics block stand at their bits (R85). -/
theorem metrics_flags (m : Metrics) (b2 b3 : Nat) :
    (pack4 m.flags 0 b2 b3).getLsbD 0 = m.overload ∧ (pack4 m.flags 0 b2 b3).getLsbD 1 = m.stuck ∧
    (pack4 m.flags 0 b2 b3).getLsbD 2 = m.held ∧ (pack4 m.flags 0 b2 b3).getLsbD 3 = m.searching ∧
    (pack4 m.flags 0 b2 b3).getLsbD 4 = m.rejected ∧ (pack4 m.flags 0 b2 b3).getLsbD 5 = m.nearAdapted ∧
    (pack4 m.flags 0 b2 b3).getLsbD 6 = m.farAdapted ∧ (pack4 m.flags 0 b2 b3).getLsbD 7 = m.eqAdapted := by
  have overload := bitNat_le m.overload
  have stuck := bitNat_le m.stuck
  have held := bitNat_le m.held
  have searching := bitNat_le m.searching
  have rejected := bitNat_le m.rejected
  have near := bitNat_le m.nearAdapted
  have far := bitNat_le m.farAdapted
  have eq := bitNat_le m.eqAdapted
  refine ⟨bit_of_toNat ?_, bit_of_toNat ?_, bit_of_toNat ?_, bit_of_toNat ?_, bit_of_toNat ?_, bit_of_toNat ?_,
    bit_of_toNat ?_, bit_of_toNat ?_⟩
  all_goals
    rw [pack4_toNat, Metrics.flags]
    omega

/-- The hold reasons stand at bits 8 and 9 of the first word of a status area (R158). -/
theorem status_holds (c : Channel) (b0 b2 b3 : Nat) :
    (pack4 b0 (bitNat c.holdDirective + 2 * bitNat c.holdLine) b2 b3).getLsbD 8 = c.holdDirective ∧
    (pack4 b0 (bitNat c.holdDirective + 2 * bitNat c.holdLine) b2 b3).getLsbD 9 = c.holdLine ∧
    (pack4 b0 (bitNat c.holdDirective + 2 * bitNat c.holdLine) b2 b3).extractLsb' 10 6 = 0#6 := by
  have directive := bitNat_le c.holdDirective
  have line := bitNat_le c.holdLine
  have clear : (0#6).toNat = 0 := rfl
  refine ⟨bit_of_toNat ?_, bit_of_toNat ?_, extract_eq ?_⟩
  all_goals
    rw [pack4_toNat]
    omega

/-- Settles O54: round trips by name, then each field of the packed words as a number. -/
theorem wordLayouts : Obligations.WordLayouts := by
  refine ⟨fun xs h => unpack_packSamples (xs.length / 2) xs (by omega), decode_phaseWords, decode_imageHeader,
    fun e j hj => ?_, fun s w hw hp => ?_, ?_, ?_⟩
  · rw [imageBody_coef e j hj]
    refine ⟨?_, BitVec.toInt_signExtend_of_le (by omega)⟩
    ext i hi
    rw [BitVec.getElem_setWidth, BitVec.getLsbD_signExtend, if_pos hi, decide_eq_true (by omega), Bool.true_and,
      BitVec.getLsbD_eq_getElem]
  · obtain rfl : w = partStatus s := hw
    rw [← entriesInUse_card]
    exact partStatus_fields s hp
  · intro m w hw hex her heu hee hclip hphase hsearch hgap hdelay hlag hlf
    obtain ⟨overload, stuck, held, searching, rejected, near, far, eq⟩ :=
      metrics_flags m m.save.code m.searchCode
    have w4 : w 4 = pack4 m.clip m.outcome.code m.state.code m.phase := hw 4
    have w5 : w 5 = pack4 m.flags 0 m.save.code m.searchCode := hw 5
    have w6 : w 6 = pack2 m.gap m.delay := hw 6
    have w7 : w 7 = pack2 m.bestLag m.lfEff := hw 7
    rw [hw 0, hw 1, hw 2, hw 3, w4, w5, w6, w7]
    refine ⟨rfl, Nat.mod_eq_of_lt hex, Nat.mod_eq_of_lt her, Nat.mod_eq_of_lt heu, Nat.mod_eq_of_lt hee, ?_, ?_, ?_, ?_,
      overload, stuck, held, searching, rejected, near, far, eq, pack4_second .., ?_, ?_, ?_, ?_, ?_, ?_, ?_⟩
    · rw [pack4_low, ofNat8_toNat (by omega)]
    · rw [pack4_second]
      cases m.outcome <;> rfl
    · rw [pack4_third]
      cases m.state <;> rfl
    · rw [pack4_fourth, ofNat8_toNat (by omega)]
    · rw [pack4_third]
      cases m.save <;> rfl
    · rw [pack4_fourth, ofNat8_toNat (by omega)]
    · exact pack2_low _ (by omega)
    · exact pack2_high _ (by omega)
    · exact pack2_low _ (by omega)
    · rw [extract_toNat, pack2_value]
      omega
    · refine extract_eq ?_
      rw [pack2_value, show (0#8).toNat = 0 from rfl]
      omega
  · intro c w hw hphase hlf hdelay hsegs hdiv hcur hmin hmax hratio hnear hfar heq
    obtain ⟨directive, line, clear⟩ := status_holds c c.state.code (resumeCode c.resume) c.phaseIndex
    have w0 : w 0 = pack4 c.state.code (bitNat c.holdDirective + 2 * bitNat c.holdLine) (resumeCode c.resume)
      c.phaseIndex := hw 0
    have w1 : w 1 = pack4 (bitNat (c.filt.lfEff != 0)) c.filt.lfEff (c.filt.delay % 256) (c.filt.delay / 256) := hw 1
    have w2 : w 2 = pack2 c.segs.length c.divCount := hw 2
    have w3 : w 3 = pack4 c.profileOutcome.code c.lastSave.code c.filt.cursorTap 0 := hw 3
    have w4 : w 4 = pack2 c.dmin c.dmax := hw 4
    have w5 : w 5 = pack4 c.ratio c.trackNear c.trackFar c.trackEq := hw 5
    rw [w0, w1, w2, w3, w4, w5]
    refine ⟨rfl, ?_, directive, line, clear, ?_, ?_, ?_, ?_, ?_, ?_, ?_, ?_, ?_, ?_, ?_, ?_, ?_, ?_, ?_, ?_, ?_⟩
    · rw [pack4_low]
      cases c.state <;> rfl
    · rw [pack4_third]
      rcases c.resume with _ | _ | _ <;> rfl
    · rw [pack4_fourth, ofNat8_toNat (by omega)]
    · rw [pack4_low]
      by_cases h : c.filt.lfEff = 0 <;> simp [h, bitNat]
    · rw [pack4_second, ofNat8_toNat (by omega)]
    · rw [extract_toNat, pack4_toNat]
      omega
    · exact pack2_low _ (by omega)
    · exact pack2_high _ (by omega)
    · rw [pack4_low]
      cases c.profileOutcome <;> rfl
    · rw [pack4_second]
      cases c.lastSave <;> rfl
    · rw [pack4_third, ofNat8_toNat (by omega)]
    · exact pack4_fourth ..
    · rw [extract_toNat, pack2_value]
      omega
    · rw [extract_toNat, pack2_value]
      omega
    · rw [pack4_low, ofNat8_toNat (by omega)]
    · rw [pack4_second, ofNat8_toNat (by omega)]
    · rw [pack4_third, ofNat8_toNat (by omega)]
    · rw [pack4_fourth, ofNat8_toNat (by omega)]

end Sys2Proof.Machine

/-! Proofs about bus errors at status writes that answer no request (R159, R160): of a channel's status write at the
end of an event, at an entry to FAULT, at a lock and at a stall; of descriptor 32's status area. -/

namespace Sys2Proof.Machine

variable {n : Fin 32} {s t u : State} {j k : Nat}

/-! ## Channels' status writes -/

/-- The mark of a due status write plays no part in what a faulted status write says. -/
theorem StatusFaulted.of_notDue (h : StatusFaulted n k u t) : StatusFaulted n k (u.modChan n notDue) t := by
  obtain ⟨form, chan, others, words, frame⟩ := h
  have turned : (u.modChan n notDue).chan n = notDue (u.chan n) := modChan_chan_self ..
  refine ⟨form, by rw [turned]; exact chan, fun j hj => ?_, fun i hi => ?_, frame⟩
  · rw [others j hj, modChan_chan_ne _ _ _ _ hj]
  · rw [turned]
    exact words i hi

/-- A status event that is due, or changes the words, whose write meets the error at its word `k` (R160). -/
theorem statusEvent_reached {before : Channel} (h : s.bus = ErrorAt k) (hk : k < 6) (hb : s.tableBase ≠ 0#24)
    (hw : MemLegal s) (due : (s.chan n).statusDue = true ∨ statusWords before ≠ statusWords (s.chan n)) :
    StatusFaulted n k { s with bus := [] } (statusEvent n before s) := by
  have called : ((s.chan n).statusDue || statusWords before != statusWords (s.chan n)) = true := by
    rw [Bool.or_eq_true]
    exact due.imp id bne_iff_ne.2
  rw [statusEvent, if_pos called]
  exact statusWrite_faulted h hb hk hw

/-- An entry to FAULT whose status write meets the error: the entry stands (R38, R160). -/
theorem enterFault_reached (h : s.bus = ErrorAt k) (hk : k < 6) (hb : s.tableBase ≠ 0#24) (hw : MemLegal s) :
    ∃ v, v = { s with
        bus := [], chans := v.chans, pool := s.pool ++ (s.chan n).segs.reverse
        attn := attnRaise (chanSource n) .fault s.attn } ∧
      v.chan n = Faulted (s.chan n) ∧ (∀ j, j ≠ n → v.chan j = s.chan j) ∧ StatusFaulted n k v (enterFault n s) := by
  have fault := statusWrite_faulted (n := n) (s := faultEffects n s) h hb hk hw
  refine ⟨({ faultEffects n s with bus := [] }).modChan n notDue, rfl, ?_, fun j hj => ?_, fault.of_notDue⟩
  · rw [modChan_chan_self, chan_with_bus, faultEffects_chan]
    rfl
  · rw [modChan_chan_ne _ _ _ _ hj, chan_with_bus]
    exact (faultEffects_lineOp (s := s)).op.others j hj

/-- A lock's turn of a channel whose status write meets the error (R48, R109, R160). -/
theorem lockStep_reached (h : s.bus = ErrorAt k) (hk : k < 6) (hb : s.tableBase ≠ 0#24) (hw : MemLegal s)
    (hs : (s.chan n).state = .held) (hl : (s.chan n).holdDirective = false ∨ (s.chan n).holdLine = true) :
    ∃ v, v = { s with
        bus := [], chans := v.chans
        attn := if (s.chan n).holdDirective = false then attnRaise (chanSource n) .state s.attn else s.attn } ∧
      v.chan n = Locked (s.chan n) ∧ (∀ j, j ≠ n → v.chan j = s.chan j) ∧ StatusFaulted n k v (lockStep s n) := by
  have chan : (lockTurned n s).chan n = lockedChan (s.chan n) := modChan_chan_self ..
  have fault := statusEvent_reached (n := n) (s := lockTurned n s) (before := s.chan n) h hk hb hw
    (.inr (by rw [chan]; exact statusWords_lockedChan hs hl))
  rw [← lockStep_running (by simp [running, hs])] at fault
  refine ⟨({ lockTurned n s with bus := [] }).modChan n notDue, ?_, ?_, fun j hj => ?_, fault.of_notDue⟩
  · have told : (lockTurned n s).attn =
        if (s.chan n).holdDirective = false then attnRaise (chanSource n) .state s.attn else s.attn :=
      if_congr (and_iff_right hs) rfl rfl
    rw [← told]
    rfl
  · rw [modChan_chan_self, chan_with_bus, chan, notDue_lockedChan]
  · rw [modChan_chan_ne _ _ _ _ hj, chan_with_bus]
    exact modChan_chan_ne _ _ _ _ hj

/-! ## A stall that holds one channel -/

/-- Under a script that a work uses up, and that brings no host write behind it, the work is all there is. -/
theorem onBus_used {f : State → State} {bus : Bus} (h : (f { s with bus := bus }).bus = []) :
    onBus bus f s = f { s with bus := bus } := by
  have done : ∀ t : State, t.bus = [] →
      { t with mem := t.bus.foldl (fun m b => applyHost b.host m) t.mem, bus := [] } = t := by
    intro t ht
    have emptied : { t with bus := [] } = t := by rw [← ht]
    rw [ht]
    exact emptied
  exact done _ h

theorem loseLines_stopped {slots : Option Nat} (l : List (Fin 32)) (h : ∀ j ∈ l, running (s.chan j) = false) :
    l.foldl (loseLine slots) s = s := by
  induction l with
  | nil => rfl
  | cons j l ih =>
    rw [List.foldl_cons, loseLine_stopped (h j List.mem_cons_self)]
    exact ih fun i hi => h i (List.mem_cons_of_mem j hi)

/-- With one channel running, its turn is all of the turns. -/
theorem loseLines_single {slots : Option Nat} (h : ∀ j, j ≠ n → running (s.chan j) = false) :
    allChans.foldl (loseLine slots) s = loseLine slots s n := by
  obtain ⟨before, after, order⟩ := List.append_of_mem (mem_allChans n)
  have once := allChans_nodup
  rw [order, List.nodup_append] at once
  obtain ⟨-, later, apart⟩ := once
  rw [order, List.foldl_append, loseLines_stopped before fun j hj => h j (apart j hj n List.mem_cons_self),
    List.foldl_cons, loseLines_stopped after fun j hj => ?_]
  have other : j ≠ n := fun e => (List.nodup_cons.1 later).1 (e ▸ hj)
  rw [(loseLine_lineOp slots).1.op.others j other]
  exact h j other

theorem lostState_attn {m : Memory} (hs : (s.chan n).state ≠ .held) (hf : (s.chan n).walk.inflight = none) :
    (lostState n m s).attn = attnRaise (chanSource n) .state s.attn := by
  rw [lostState, droppedAttn, hf]
  exact if_neg hs

/-- A stall whose one status write meets the error: the channel is held (R115, R160). -/
theorem stall_reached (hk : k < 6) (hb : s.tableBase ≠ 0#24) (hw : MemLegal s) (armed : s.port.stallArmed = true)
    (hr : running (s.chan n) = true) (hs : (s.chan n).state ≠ .held) (hf : (s.chan n).walk.inflight = none)
    (h : ∀ j, j ≠ n → running (s.chan j) = false) : ∃ t,
      StatusFaulted n k ((lostState n s.mem { s with port := toHunt s.port, bus := [] }).modChan n notDue) t ∧
      exec (.stall (ErrorAt k)) s = .next { t with attn := attnRaise partSource .lineLost t.attn } := by
  generalize hu : ({ s with port := toHunt s.port, bus := ErrorAt k } : State) = u
  have chan : ∀ j, u.chan j = s.chan j := fun j => by rw [← hu]; rfl
  have bus : u.bus = ErrorAt k := by rw [← hu]
  have dropped : dropRecord n true (u.modChan n endBlock) = droppedState n true u.mem u :=
    dropRecord_none (by rw [chan]; exact hf)
  have turn := loseLine_turned (slots := none) (by rw [chan]; exact hr) rfl dropped
  have fault := statusEvent_reached (s := lostState n u.mem u) (n := n) (before := u.chan n) bus hk
    (by rw [← hu]; exact hb) (by rw [← hu]; exact hw)
    (.inr (by rw [lostState_chan, chan]; exact statusWords_lost (.inl hs)))
  rw [← turn] at fault
  have all : lineLost none { s with bus := ErrorAt k } = raise partSource .lineLost (loseLine none u n) := by
    have single := loseLines_single (s := u) (slots := none) fun j hj => by rw [chan]; exact h j hj
    rw [← single, ← hu]
    rfl
  refine ⟨loseLine none u n, ?_, ?_⟩
  · rw [← hu]
    rw [← hu] at fault
    exact fault.of_notDue
  · have used : (lineLost none { s with bus := ErrorAt k }).bus = [] := by
      rw [all]
      exact congrArg State.bus fault.1
    rw [exec_stall _ armed, onBus_used used, all]
    rfl

/-! ## Descriptor 32's status area -/

/-- Memory after words of descriptor 32's status area before the error at write `j` (log 15). -/
def maintMemory (j : Nat) (s : State) : Memory :=
  if j = 1 then descMemory 32 128#32 [maintWord s.maint] s else s.mem

theorem maintWord_eq (m : Maint) :
    pack4 m.chain.code (directiveCode m.inflight) (m.position % 256) (m.position / 256) = maintWord m := by
  refine BitVec.eq_of_toNat_eq ?_
  simp only [maintWord, pack4_toNat, append_toNat, BitVec.toNat_ofNat]
  omega

theorem writeHalf_errorAt_zero {a : Word} {v : BitVec 16} (h : s.bus = ErrorAt 0) :
    writeHalf a v s = (false, { s with bus := [] }) := by
  simp [writeHalf, busSlot_errorAt_zero h]

/-- A status write of descriptor 32 that meets the error at its write `j` (R151, R160). -/
theorem maintStatus_reached (h : s.bus = ErrorAt j) (hj : j < 2) (hb : s.tableBase ≠ 0#24) :
    (maintStatus s).2 = { s with
      bus := [], mem := maintMemory j s, attn := attnRaise partSource .tableFault s.attn } := by
  unfold maintStatus maintMemory
  dsimp only
  rw [maintWord_eq]
  obtain rfl | rfl : j = 0 ∨ j = 1 := by omega
  · rw [writeDesc_errorAt_reached _ _ _ h hb (by simp)]
    have none : descMemory 32 128#32 ([maintWord s.maint].take 0) s = s.mem := ite_self _
    rw [none]
    rfl
  · rw [writeDesc_errorAt_before _ _ _ h hb (by simp)]
    dsimp only
    rw [if_neg hb, writeHalf_errorAt_zero rfl]
    rfl

/-- What the status area of descriptor 32 shows of a status write that meets the error at its write `j`. -/
theorem maintMemory_shown (hb : s.tableBase ≠ 0#24) (hw : MemLegal s) :
    (j = 1 → memWord (maintMemory j s) (s.desc 32 + 128#32) = maintWord s.maint) ∧
    ∀ x, Outside (s.desc 32 + 128#32) (4 * j) x → memRead (maintMemory j s) x = memRead s.mem x := by
  unfold maintMemory
  refine ⟨fun h => ?_, fun x hx => ?_⟩
  · rw [if_pos h]
    exact memWord_descMemory_single 32 128#32 _ hw hb
  · split
    · next h => exact memRead_descMemory _ _ _ hw x (by rw [h] at hx; exact hx)
    · rfl

/-- A status write of descriptor 32 that meets the error at its write `j`, in what is shown and what is left. -/
theorem maintStatus_told {v : State} (hj : j < 2) (h : s.bus = ErrorAt j) (hb : s.tableBase ≠ 0#24) (hw : MemLegal s)
    (ht : t = (maintStatus s).2) (hv : v = { s with bus := [] }) :
    ((j = 1 → memWord t.mem (s.desc 32 + 128#32) = maintWord v.maint) ∧
      ∀ x, Outside (s.desc 32 + 128#32) (4 * j) x → memRead t.mem x = memRead v.mem x) ∧
    t = { v with mem := t.mem, attn := attnRaise partSource .tableFault v.attn } := by
  rw [ht, hv, maintStatus_reached h hj hb]
  exact ⟨maintMemory_shown hb hw, rfl⟩

/-- The store step that finds no record (R141). -/
theorem storeStep_waits (h : s.bus = ErrorAt (1 + j))
    (hc : s.maint.chain = .walking) (hf : s.maint.inflight = none) (hm : s.maint.mode = .atRecord)
    (hp : memWord s.mem s.maint.cursor ≠ 1#32) : storeStep s = (maintStatus
      { s with bus := ErrorAt j, maint := { s.maint with chain := .waiting } }).2 := by
  rw [Nat.add_comm] at h
  unfold storeStep workStore findStore
  rw [hc, hf, hm]
  dsimp only
  rw [lookAtStore, readWord_errorAt_succ _ h]
  dsimp only
  have unposted : ¬ memWord s.mem s.maint.cursor = dispPosted := hp
  rw [if_neg unposted, waitStore, if_neg]
  rw [hc]
  exact ChainState.noConfusion

/-- Memory behind a store record's result, count and DONE (R142). -/
def storeDoneMemory (a : Word) (r : StoreResult) (count : Nat) (m : Memory) : Memory :=
  memSetWord (memSetWords [BitVec.ofNat 32 r.code, BitVec.ofNat 32 count] (a + 20#32) m) a dispDone

theorem storeDoneMemory_words {a : Word} {r : StoreResult} {count : Nat} {m : Memory} (h : m.wf) :
    (storeDoneMemory a r count m).wf ∧ memWord (storeDoneMemory a r count m) a = 3#32 ∧
    memWord (storeDoneMemory a r count m) (a + 20#32) = BitVec.ofNat 32 r.code ∧
    memWord (storeDoneMemory a r count m) (a + 24#32) = BitVec.ofNat 32 count ∧
    memWord (storeDoneMemory a r count m) (a + 4#32) = memWord m (a + 4#32) ∧
    ∀ x, Outside a 4 x → Outside (a + 20#32) 8 x → memRead (storeDoneMemory a r count m) x = memRead m x := by
  have wf := memSetWords_wf [BitVec.ofNat 32 r.code, BitVec.ofNat 32 count] (a + 20#32) h
  have kept := memRead_memSetWords_ne [BitVec.ofNat 32 r.code, BitVec.ofNat 32 count] (a + 20#32) h
  have code := memWord_memSetWords [BitVec.ofNat 32 r.code, BitVec.ofNat 32 count] (a + 20#32) h (by simp) 0 (by simp)
  have number := memWord_memSetWords [BitVec.ofNat 32 r.code, BitVec.ofNat 32 count] (a + 20#32) h (by simp) 1 (by simp)
  rw [Nat.mul_zero, BitVec.add_zero] at code
  rw [add_ofNat_ofNat] at number
  have link := memWord_memSetWords_apart [BitVec.ofNat 32 r.code, BitVec.ofNat 32 count] (a + 20#32) (a + 4#32) h
    (apart_offsets a (a := 4) (la := 4) (b := 20) (lb := 8) (by omega) (by omega) (.inl (by omega)))
  unfold storeDoneMemory
  generalize memSetWords [BitVec.ofNat 32 r.code, BitVec.ofNat 32 count] (a + 20#32) m = told at *
  refine ⟨memSetWord_wf _ _ wf, memWord_memSetWord _ _ wf, ?_, ?_, ?_, fun x ha hr => ?_⟩
  · rw [memWord_memSetWord_first a dispDone wf (p := 20) (by omega) (by omega)]
    exact code
  · rw [memWord_memSetWord_first a dispDone wf (p := 24) (by omega) (by omega)]
    exact number
  · rw [memWord_memSetWord_first a dispDone wf (p := 4) (by omega) (by omega)]
    exact link
  · exact (memRead_memSetWord_ne _ _ wf x ha).trans (kept x hr)

/-- The state behind a store record completed, but for its status write (R88, R142). -/
def storeDone (a : Word) (notify : Bool) (r : StoreResult) (count : Nat) (s : State) : State :=
  { s with
    bus := []
    mem := storeDoneMemory a r count s.mem
    maint := { Emptied s.maint with
      cursor := if memWord s.mem (a + 4#32) = 0#32 then a else memWord s.mem (a + 4#32)
      mode := if memWord s.mem (a + 4#32) = 0#32 then .watching else .atRecord }
    attn := if notify = true ∨ r ≠ .ok then attnRaise maintSource .storeDone s.attn else s.attn }

/-- A store record completed up to its status write, whose error comes there (R88, R142). -/
theorem completeStore_reached {a : Word} {notify : Bool} {r : StoreResult} {count : Nat} (hw : MemLegal s)
    (h : s.bus = ErrorAt (4 + j)) (hl : (memWord s.mem (a + 4#32)).toNat % 4 = 0) :
    completeStore a notify r count s = (maintStatus { storeDone a notify r count s with bus := ErrorAt j }).2 := by
  have link : memWord (storeDoneMemory a r count s.mem) (a + 4#32) = memWord s.mem (a + 4#32) := by
    obtain ⟨-, -, -, -, link, -⟩ := storeDoneMemory_words (a := a) (r := r) (count := count) hw
    exact link
  have results := writeWords_errorAt_before [BitVec.ofNat 32 r.code, BitVec.ofNat 32 count] (a + 20#32) h
    (show 2 ≤ 4 + j by omega)
  rw [show 4 + j - [BitVec.ofNat 32 r.code, BitVec.ofNat 32 count].length = j + 1 + 1 from
    (by omega : 4 + j - 2 = j + 1 + 1)] at results
  unfold completeStore
  dsimp only
  rw [results]
  dsimp only
  rw [writeWord_errorAt_succ _ _ rfl]
  dsimp only
  rw [readWord_errorAt_succ _ rfl]
  dsimp only
  rw [show memWord (memSetWord _ a dispDone) (a + 4#32) = _ from link]
  have told : ∀ u : State, raiseIf (notify || r != .ok) maintSource .storeDone u = { u with
      attn := if notify = true ∨ r ≠ .ok then attnRaise maintSource .storeDone u.attn else u.attn } := by
    intro u
    by_cases hn : notify = true ∨ r ≠ .ok
    · rw [if_pos hn, raiseIf, if_pos]
      · rfl
      · simpa using hn
    · rw [if_neg hn, raiseIf, if_neg]
      simpa using hn
  unfold linkStep storeDone
  by_cases h0 : memWord s.mem (a + 4#32) = 0#32
  · rw [if_pos h0, if_pos h0, if_pos h0]
    exact congrArg (fun u => (maintStatus u).2) (told _)
  · rw [if_neg h0, if_neg h0, if_neg h0, if_pos ((aligned_iff _).2 hl)]
    exact congrArg (fun u => (maintStatus u).2) (told _)

/-- Settles O50: each event in the form of its effects and its status write, the write by `statusWrite_faulted` and
`maintStatus_told`. -/
theorem statusWriteFaults : Obligations.StatusWriteFaults := by
  refine ⟨?_, ?_, ?_⟩
  · rintro n before s _ k h hk hb hw rfl
    exact ⟨statusEvent_reached h hk hb hw, enterFault_reached h hk hb hw, lockStep_reached h hk hb hw⟩
  · intro n s k hbus hk hb hw armed hr hs hf h
    obtain ⟨t, fault, run⟩ := stall_reached hk hb hw armed hr hs hf h
    have attn : (lostState n s.mem { s with port := toHunt s.port, bus := [] }).attn =
        attnRaise (chanSource n) .state s.attn :=
      lostState_attn (s := { s with port := toHunt s.port, bus := [] }) hs hf
    refine ⟨_, t, ?_, fun j hj => ?_, ?_, fault, run⟩
    · rw [← attn, ← hbus]
      rfl
    · rw [modChan_chan_ne _ _ _ _ hj]
      exact modChan_chan_ne _ _ _ _ hj
    · rw [modChan_chan_self, lostState_chan]
      show notDue (lostChan s.mem (s.chan n)) = _
      rw [lostChan, droppedWalk, hf]
      rfl
  · rintro s _ j shown hw hb hj rfl hshown
    refine ⟨?_, ?_, ?_⟩
    · intro t ht h hc hf hm hp
      rw [storeStep_waits h hc hf hm hp] at ht
      obtain ⟨shows, form⟩ := maintStatus_told (s := { s with
        bus := ErrorAt j, maint := { s.maint with chain := .waiting } }) hj rfl hb hw ht rfl
      exact ⟨_, rfl, (hshown _ _).2 shows, form⟩
    · rintro t a _ notify r count ht h rfl hl
      rw [completeStore_reached hw h hl] at ht
      obtain ⟨legal, done, code, number, -, frame⟩ := storeDoneMemory_words (a := a) (r := r) (count := count) hw
      obtain ⟨shows, form⟩ := maintStatus_told (s := { storeDone a notify r count s with bus := ErrorAt j })
        (v := storeDone a notify r count s) hj rfl hb legal ht rfl
      exact ⟨storeDone a notify r count s, rfl, done, code, number, frame, (hshown _ _).2 shows, form⟩
    · intro t ht h
      obtain ⟨shows, form⟩ := maintStatus_told (s := raise maintSource .storeFault { s with
        store := abandonTarget s.maint.target s.store
        maint := { clearTransfer s.maint with chain := .faulted } }) hj h hb hw ht rfl
      exact ⟨_, rfl, (hshown _ _).2 shows, form⟩

end Sys2Proof.Machine

/-! Proofs about an OPEN of a CLOSED channel served at a visit: its words read, its answer, its status write, and the
bus error at each of its accesses (R30, R153 to R160). -/

namespace Sys2Proof.Machine

variable {n : Fin 32} {s t : State}

/-! ## Words written in one run -/

/-- Words written one run behind another are one run. -/
theorem writeWords_append (as bs : List Word) (a : Word) (s : State) : writeWords (as ++ bs) a s =
    if (writeWords as a s).1 = true then writeWords bs (a + BitVec.ofNat 32 (4 * as.length)) (writeWords as a s).2
    else writeWords as a s := by
  induction as generalizing a s with
  | nil =>
    rw [List.nil_append, writeWords, if_pos rfl]
    exact congrArg (writeWords bs · s) (BitVec.add_zero a).symm
  | cons w as ih =>
    have step : a + 4#32 + BitVec.ofNat 32 (4 * as.length) = a + BitVec.ofNat 32 (4 * (w :: as).length) := by
      rw [add_ofNat_ofNat, List.length_cons, Nat.mul_succ, Nat.add_comm]
    rw [List.cons_append, writeWords, writeWords]
    split
    · rfl
    · rw [ih, step]

theorem writeWord_modChan (a v : Word) (f : Channel → Channel) : writeWord a v (s.modChan n f) =
    ((writeWord a v s).1, (writeWord a v s).2.modChan n f) := by
  cases hb : s.bus with
  | nil =>
    rw [writeWord_nil _ _ hb, writeWord_nil _ _ (s := s.modChan n f) hb]
    rfl
  | cons slot rest =>
    unfold writeWord
    rw [busSlot_cons hb, busSlot_cons (s := s.modChan n f) hb]
    dsimp only
    cases slot.err <;> rfl

/-- Accesses do not look at the channels. -/
theorem writeWords_modChan (ws : List Word) (a : Word) (f : Channel → Channel) : writeWords ws a (s.modChan n f) =
    ((writeWords ws a s).1, (writeWords ws a s).2.modChan n f) := by
  induction ws generalizing a s with
  | nil => rfl
  | cons w ws ih =>
    rw [writeWords, writeWords, writeWord_modChan]
    rcases writeWord a w s with ⟨made, u⟩
    cases made
    · rfl
    · exact ih _

theorem writeDesc_modChan (k : Nat) (o : Word) (ws : List Word) (f : Channel → Channel) :
    writeDesc k o ws (s.modChan n f) = ((writeDesc k o ws s).1, (writeDesc k o ws s).2.modChan n f) := by
  unfold writeDesc
  rw [modChan_tableBase]
  split
  · rfl
  · rw [show (s.modChan n f).desc k = s.desc k from rfl, writeWords_modChan]
    rcases writeWords ws (s.desc k + o) s with ⟨made, u⟩
    cases made <;> rfl

theorem writeDesc_chan (k : Nat) (o : Word) (ws : List Word) (j : Fin 32) :
    (writeDesc k o ws s).2.chan j = s.chan j := by
  obtain ⟨m, b, form, -⟩ := writeWords_spec (s := s) ws (s.desc k + o)
  unfold writeDesc
  split
  · rfl
  · rcases hw : writeWords ws (s.desc k + o) s with ⟨made, u⟩
    rw [hw] at form
    obtain rfl : u = { s with mem := m, bus := b } := form
    cases made <;> rfl

theorem writeDesc_append (k : Nat) (o : Word) (as bs : List Word) (s : State) : writeDesc k o (as ++ bs) s =
    if (writeDesc k o as s).1 = true then writeDesc k (o + BitVec.ofNat 32 (4 * as.length)) bs (writeDesc k o as s).2
    else writeDesc k o as s := by
  obtain ⟨m, b, form, -⟩ := writeWords_spec (s := s) as (s.desc k + o)
  unfold writeDesc
  by_cases hb : s.tableBase = 0#24
  · rw [if_pos hb, if_pos hb]
    exact (if_pos hb).symm
  · rw [if_neg hb, if_neg hb, writeWords_append]
    rcases hw : writeWords as (s.desc k + o) s with ⟨made, u⟩
    rw [hw] at form
    obtain rfl : u = { s with mem := m, bus := b } := form
    cases made
    · rfl
    · dsimp only
      rw [if_pos rfl, if_pos rfl, if_neg hb, ← BitVec.add_assoc]
      rfl

/-- The status write of an accepted OPEN is one run of words (R159). -/
theorem openStatus_eq : openStatus n s = writeDesc n.val 128#32
    (statusWords (s.chan n) ++ effectiveProgram (s.chan n).program) (s.modChan n notDue) := by
  have chan := writeDesc_chan (s := s) n.val 128#32 (statusWords (s.chan n)) n
  rw [writeDesc_append, writeDesc_modChan]
  unfold openStatus statusWrite
  rcases hd : writeDesc n.val 128#32 (statusWords (s.chan n)) s with ⟨made, u⟩
  rw [hd] at chan
  cases made
  · rfl
  · dsimp only at chan ⊢
    rw [if_pos rfl, modChan_chan_self, chan]
    rfl

/-- The effective program in a status area: eight entries, 0 beyond the program's (R158). -/
theorem effectiveProgram_eq (p : List Phase) : effectiveProgram p =
    (List.range 16).map fun i => (p.flatMap phaseWords).getD i 0#32 := by
  unfold effectiveProgram
  generalize p.flatMap phaseWords = ws
  refine List.ext_getElem? fun i => ?_
  rw [List.getElem?_take, List.getElem?_map]
  split
  · next h =>
    rw [List.getElem?_range h, Option.map_some, List.getD_eq_getElem?_getD]
    rcases Nat.lt_or_ge i ws.length with inside | beyond
    · rw [List.getElem?_append_left inside, List.getElem?_eq_getElem inside]
      rfl
    · rw [List.getElem?_append_right beyond, List.getElem?_replicate_of_lt (by omega), List.getElem?_eq_none beyond]
      rfl
  · next h => simp [Nat.not_lt.1 h]

/-! ## An answer behind a status write (R155, R159, R160) -/

section
variable {d : Fin 33} {src : Fin 34} {r : Response} {ws : List Word}

/-- Memory behind a status write and its answer. -/
def answeredMemory (d : Nat) (ws : List Word) (r : Response) (s : State) : Memory :=
  answerMemory d r { s with mem := descMemory d 128#32 ws s }

theorem statusAnswer_idle (h : s.bus = []) : answerAfter d src r (writeDesc d.val 128#32 ws s) =
    { s with mem := answeredMemory d.val ws r s, attn := attnRaise src .requestDone s.attn } := by
  rw [writeDesc_idle _ _ _ h, answerAfter, if_pos rfl,
    answer_idle (s := { s with mem := descMemory d.val 128#32 ws s }) _ _ _ h]
  rfl

theorem answeredMemory_shown (d : Nat) (r : Response) (hw : MemLegal s) (hb : s.tableBase ≠ 0#24)
    (hl : ws.length ≤ 32) :
    memWord (answeredMemory d ws r s) (s.desc d) = 0#32 ∧
    memWord (answeredMemory d ws r s) (s.desc d + 4#32) = r.word ∧
    (∀ i < ws.length, memWord (answeredMemory d ws r s) (s.desc d + 128#32 + BitVec.ofNat 32 (4 * i)) =
      ws.getD i 0#32) ∧
    ∀ x, Outside (s.desc d) 8 x → Outside (s.desc d + 128#32) (4 * ws.length) x →
      memRead (answeredMemory d ws r s) x = memRead s.mem x := by
  have legal : MemLegal { s with mem := descMemory d 128#32 ws s } := descMemory_wf _ _ _ hw
  refine ⟨answerMemory_request d r legal hb, answerMemory_response d r legal hb, fun i hi => ?_, fun x ha hx => ?_⟩
  · have offset : s.desc d + 128#32 + BitVec.ofNat 32 (4 * i) = s.desc d + BitVec.ofNat 32 (128 + 4 * i) :=
      add_ofNat_ofNat ..
    have kept := (answerMemory_other d r legal (128 + 4 * i) (by omega) (by omega)).trans
      (memWord_descMemory_apart d (offset := 4) (len := 1) [r.word] legal rfl (128 + 4 * i) (by omega) (by omega)
        (.inr (by omega)))
    have word := memWord_descMemory d 128#32 ws hw hb (by omega) i hi
    rw [offset] at word ⊢
    exact kept.trans word
  · exact (memRead_answerMemory d r legal x ha).trans (memRead_descMemory d _ _ hw x hx)

/-- What stands behind a status write and its answer, no access meeting an error (R155, R159). -/
theorem statusAnswered (bus : s.bus = []) (hw : MemLegal s) (hb : s.tableBase ≠ 0#24) (hl : ws.length ≤ 32)
    (h : t = answerAfter d src r (writeDesc d.val 128#32 ws s)) :
    t = { s with mem := t.mem, attn := attnRaise src .requestDone s.attn } ∧
    memWord t.mem (s.desc d.val) = 0#32 ∧ memWord t.mem (s.desc d.val + 4#32) = r.word ∧
    (∀ i < ws.length, memWord t.mem (s.desc d.val + 128#32 + BitVec.ofNat 32 (4 * i)) = ws.getD i 0#32) ∧
    ∀ x, Outside (s.desc d.val) 8 x → Outside (s.desc d.val + 128#32) (4 * ws.length) x →
      memRead t.mem x = memRead s.mem x := by
  have shown := answeredMemory_shown d.val r hw hb hl
  rw [h, statusAnswer_idle bus]
  exact ⟨rfl, shown⟩

/-- A status write and the answer behind it, the error at their write `j` (R160). -/
theorem statusAnswer_faulted {j : Nat} (h : s.bus = ErrorAt j) (hl : ws.length ≤ 32) (hj : j < ws.length + 2)
    (hw : MemLegal s) (hb : s.tableBase ≠ 0#24) :
    AnswerFaulted d.val ws r.word j { s with bus := [] } (answerAfter d src r (writeDesc d.val 128#32 ws s)) := by
  rcases Nat.lt_or_ge j ws.length with early | late
  · have len : min j ws.length = j := by omega
    have taken : (ws.take j).length = j := by rw [List.length_take]; omega
    rw [writeDesc_errorAt_reached _ _ _ h hb early]
    refine ⟨rfl, fun i hi => ?_, fun hlt => absurd hlt (by omega), ?_, fun x hx _ => ?_⟩
    · rw [len] at hi
      have word := memWord_descMemory d.val 128#32 (ws.take j) hw hb (by omega) i (by omega)
      rw [List.getD_eq_getElem?_getD, List.getElem?_take_of_lt hi, ← List.getD_eq_getElem?_getD] at word
      exact word
    · have kept := memWord_descMemory_apart d.val (offset := 128) (len := j) (ws.take j) hw taken 0 (by omega) (by omega)
        (.inl (by omega))
      rw [desc_zero] at kept
      exact kept
    · exact memRead_descMemory d.val _ _ hw x (by rw [taken]; rwa [len] at hx)
  · obtain ⟨i, rfl⟩ : ∃ i, j = i + ws.length := ⟨j - ws.length, by omega⟩
    have len : min (i + ws.length) ws.length = ws.length := by omega
    have legal : MemLegal { s with mem := descMemory d.val 128#32 ws s } := descMemory_wf _ _ _ hw
    rw [writeDesc_errorAt_before _ _ _ h hb late, Nat.add_sub_cancel, answerAfter, if_pos rfl]
    obtain ⟨form, -, response, request, frame⟩ := answer_faulted d src r
      (s := { s with mem := descMemory d.val 128#32 ws s, bus := ErrorAt i }) rfl (by omega) legal hb
    generalize answer d src r { s with mem := descMemory d.val 128#32 ws s, bus := ErrorAt i } = t at *
    refine ⟨form, fun k hk => ?_, fun hlt => response (by simp; omega), ?_, fun x hx hr => ?_⟩
    · rw [len] at hk
      have kept : memWord t.mem (s.desc d.val + 128#32 + BitVec.ofNat 32 (4 * k)) =
          memWord (descMemory d.val 128#32 ws s) (s.desc d.val + 128#32 + BitVec.ofNat 32 (4 * k)) := by
        have offset : s.desc d.val + 128#32 + BitVec.ofNat 32 (4 * k) =
          s.desc d.val + BitVec.ofNat 32 (128 + 4 * k) := add_ofNat_ofNat ..
        rw [offset]
        exact memWord_congr fun b hb => frame _ (fun _ h0 => absurd h0 (by simp)) fun _ =>
          apart_offsets (s.desc d.val) (b := 4) (lb := 4) (by omega) (by omega) (.inr (by omega)) b hb
      exact kept.trans (memWord_descMemory d.val 128#32 ws hw hb (by omega) k hk)
    · have kept := memWord_descMemory_apart d.val (offset := 128) (len := ws.length) ws hw rfl 0 (by omega) (by omega)
        (.inl (by omega))
      rw [desc_zero] at kept
      exact request.trans kept
    · refine (frame x (fun _ h0 => absurd h0 (by simp)) fun h0 => hr ?_).trans ?_
      · simp at h0; omega
      · exact memRead_descMemory d.val _ _ hw x (by rwa [len] at hx)

end

end Sys2Proof.Machine

/-! Proofs about an OPEN of a CLOSED channel served at a visit: the words it reads, its refusals, and its effects
shown and answered (R30, R153 to R160). -/

namespace Sys2Proof.Machine

variable {n : Fin 32} {s t : State} {r : OpenReq} {phases : List Phase}

/-! ## The words of an OPEN (R153 to R155) -/

/-- The configuration that the descriptor's words hold. -/
def openRequest (n : Fin 32) (s : State) : OpenReq := decodeOpen (memWords 9 (s.desc n.val + 8#32) s.mem)

/-- The program that the descriptor's words hold, read when its length is 1 to 8. -/
def openPhases (n : Fin 32) (s : State) : List Phase :=
  if 1 ≤ openLength n s ∧ openLength n s ≤ 8 then
    decodePhases (memWords (2 * openLength n s) (s.desc n.val + 44#32) s.mem)
  else []

/-- The words of an OPEN read, no access of theirs meeting an error: `b` is what is left of the script. -/
theorem readOpen_made {b : Bus} (h : s.bus = [] ∧ b = [] ∨ ∃ j, s.bus = ErrorAt (openReads n s + j) ∧ b = ErrorAt j) :
    readOpen n s = (some (openRequest n s, openPhases n s), { s with bus := b }) := by
  have progLen : (openRequest n s).progLen = openLength n s := decodeOpen_progLen
  have reads : ∃ c, readWords 9 (s.desc n.val + 8#32) s = (some (memWords 9 (s.desc n.val + 8#32) s.mem), { s with bus := c }) ∧
      (1 ≤ openLength n s ∧ openLength n s ≤ 8 → readWords (2 * openLength n s) (s.desc n.val + 44#32) { s with bus := c } =
        (some (memWords (2 * openLength n s) (s.desc n.val + 44#32) s.mem), { s with bus := b })) ∧
      (¬ (1 ≤ openLength n s ∧ openLength n s ≤ 8) → c = b) := by
    rcases h with ⟨hs, rfl⟩ | ⟨j, hs, rfl⟩
    · exact ⟨[], by rw [readWords_nil _ _ hs, ← hs], fun _ => readWords_nil _ _ rfl, fun _ => rfl⟩
    · refine ⟨_, readWords_errorAt_before 9 _ hs (by unfold openReads; omega), fun hl => ?_, fun hl => ?_⟩
      · have left : openReads n s + j - 9 - 2 * openLength n s = j := by
          rw [openReads, if_pos hl]
          omega
        have second := readWords_errorAt_before (s := { s with bus := ErrorAt (openReads n s + j - 9) })
          (2 * openLength n s) (s.desc n.val + 44#32) rfl (by rw [openReads, if_pos hl]; omega)
        rw [left] at second
        exact second
      · rw [openReads, if_neg hl]
        congr 1
        omega
  obtain ⟨c, first, second, last⟩ := reads
  unfold readOpen openPhases
  rw [first]
  dsimp only
  rw [show decodeOpen _ = openRequest n s from rfl, progLen,
    show State.desc { s with bus := c } n.val = s.desc n.val from rfl]
  by_cases hl : 1 ≤ openLength n s ∧ openLength n s ≤ 8
  · rw [if_neg (by rw [openLength_out]; exact not_not.2 hl), second hl, if_pos hl]
  · rw [if_pos ((openLength_out _).2 hl), last hl, if_neg hl]

/-- The configuration, word by word (R153). -/
theorem openRequest_eq (w : Nat → Word) (hw : ∀ i, w i = memWord s.mem (s.desc n.val + 8#32 + BitVec.ofNat 32 (4 * i))) :
    openRequest n s = {
          firstRecord := w 0, tag := w 1,
          timeslot := ((w 2).extractLsb' 0 8).toNat, ln := ((w 2).extractLsb' 8 8).toNat,
          lf := ((w 2).extractLsb' 16 8).toNat, le := ((w 2).extractLsb' 24 8).toNat,
          cursor := ((w 3).extractLsb' 0 8).toNat, priority := (w 3).extractLsb' 8 3,
          useProfile := (w 3).getLsbD 16, saveProfile := (w 3).getLsbD 17, guard := (w 3).getLsbD 18,
          tf := (w 4).toNat, rf := (w 5).toNat,
          dmin := ((w 6).extractLsb' 0 16).toNat, dmax := ((w 6).extractLsb' 16 16).toNat,
          ratio := ((w 7).extractLsb' 0 8).toNat, trackNear := ((w 7).extractLsb' 8 8).toNat,
          trackFar := ((w 7).extractLsb' 16 8).toNat, trackEq := ((w 7).extractLsb' 24 8).toNat,
          progLen := ((w 8).extractLsb' 0 8).toNat } := by
  obtain rfl : w = fun i => memWord s.mem (s.desc n.val + 8#32 + BitVec.ofNat 32 (4 * i)) := funext hw
  rw [openRequest, memWords_eq_map]
  rfl

/-- The program, word by word (R154). -/
theorem openPhases_eq (w : Nat → Word) (hw : ∀ i, w i = memWord s.mem (s.desc n.val + 8#32 + BitVec.ofNat 32 (4 * i))) :
    openPhases n s = if 1 ≤ openLength n s ∧ openLength n s ≤ 8 then
      decodePhases ((List.range (2 * openLength n s)).map fun j => w (9 + j)) else [] := by
  have words : (fun i => memWord s.mem (s.desc n.val + 44#32 + BitVec.ofNat 32 (4 * i))) = fun j => w (9 + j) := by
    funext j
    rw [hw, add_ofNat_ofNat (s.desc n.val) 44, add_ofNat_ofNat (s.desc n.val) 8]
    congr 3
    omega
  rw [openPhases, memWords_eq_map, words]

/-! ## The refusals (R30, R156) -/

theorem slotTaken_iff (s : State) (n : Fin 32) (slot : Nat) : slotTaken s n slot = true ↔
    ∃ k, k ≠ n ∧ running (s.chan k) = true ∧ (s.chan k).timeslot = some slot := by
  simp [slotTaken, allChans, and_assoc]

/-- A response's word, code and reason each in their byte (R156). -/
theorem response_word {q : Response} (hc : q.code < 256) (hr : q.reason < 256) :
    q.word = BitVec.ofNat 32 (q.code + 256 * q.reason) := by
  refine BitVec.eq_of_toNat_eq ?_
  rw [Response.word, pack4_toNat, BitVec.toNat_ofNat]
  omega

theorem openRefusal_word {closed taken : Bool} {slots : Nat} {q : Response}
    (h : openRefusal closed slots taken r phases = some q) : q.word = BitVec.ofNat 32 (q.code + 256 * q.reason) := by
  rw [openRefusal_eq] at h
  split_ifs at h <;> obtain rfl := Option.some.inj h <;> rfl

theorem opened_word (o : LookupOutcome) : (respOpened o).word = BitVec.ofNat 32 (1 + 256 * o.code) := by
  cases o <;> rfl

/-! ## The effects of an OPEN make no access -/

theorem requestForProfile_onMemory (m : Memory) (b : Bus) (s : State) :
    requestForProfile n (s.onMemory m b) = (requestForProfile n s).onMemory m b := by
  simp only [requestForProfile, onMemory_chan, bringHolding_onMemory, releaseAll_onMemory, modChan_onMemory,
    raise_onMemory]
  split_ifs <;> rfl

theorem consultStore_onMemory (m : Memory) (b : Bus) (s : State) :
    consultStore n (s.onMemory m b) = (consultStore n s).onMemory m b := by
  unfold consultStore
  dsimp only
  rw [onMemory_chan, show (s.onMemory m b).store = s.store from rfl]
  split
  · split
    · rfl
    · next o i _ =>
      have loaded := requestForProfile_onMemory (n := n) m b ({ s with store := touch i s.store }.modChan n fun c =>
        { c with profileOutcome := o, filt := loadEntry (entryAt s.store i) c.filt })
      exact loaded
  · rfl

theorem startChannel_onMemory (m : Memory) (b : Bus) (s : State) :
    startChannel n (s.onMemory m b) = (startChannel n s).onMemory m b := by
  unfold startChannel
  rw [onMemory_chan]
  rcases startPosition (s.chan n) with ⟨p, rs⟩
  dsimp only
  rw [modChan_onMemory, show (s.onMemory m b).port = s.port from rfl]
  cases rs
  · exact enterPhase_onMemory ..
  · rfl

theorem acceptOpen_blind (n : Fin 32) (r : OpenReq) (phases : List Phase) : Blind (acceptOpen n r phases) := by
  intro m b s
  unfold acceptOpen
  rw [← startChannel_onMemory, ← consultStore_onMemory]
  rfl

/-- The script plays no part in the effects of an OPEN. -/
theorem acceptOpen_bus (b : Bus) (s : State) : acceptOpen n r phases { s with bus := b } =
    { acceptOpen n r phases { s with bus := [] } with bus := b } := by
  have blind := acceptOpen_blind n r phases s.mem b { s with bus := [] }
  have mem := (acceptOpen_blind n r phases).mem { s with bus := [] }
  generalize acceptOpen n r phases { s with bus := [] } = u at blind mem ⊢
  replace mem : u.mem = s.mem := mem
  refine blind.trans ?_
  show { u with mem := s.mem, bus := b } = _
  rw [← mem]

/-! ## An OPEN served (R30, R155) -/

/-- The words of an accepted OPEN's status write: the dynamic words, then the effective program (R159). -/
def openWords (c : Channel) : List Word := statusWords c ++ effectiveProgram c.program

theorem openWords_length (c : Channel) : (openWords c).length = 22 := by
  rw [openWords, List.length_append, statusWords_length, effectiveProgram_eq, List.length_map, List.length_range]

theorem openWords_program (c : Channel) (i : Nat) (hi : i < 16) :
    (openWords c).getD (6 + i) 0#32 = (c.program.flatMap phaseWords).getD i 0#32 := by
  rw [openWords, List.getD_append_right _ _ _ _ (by rw [statusWords_length]; omega), statusWords_length,
    Nat.add_sub_cancel_left, effectiveProgram_eq, List.getD_eq_getElem?_getD, List.getElem?_map,
    List.getElem?_range hi]
  rfl

/-- What the checks of an OPEN say of the part as it stands (R30). -/
def openAnswer (n : Fin 32) (s : State) : Option Response :=
  openRefusal ((s.chan n).state == .closed) s.port.activeFmt.slots.toNat
    (slotTaken s n (openRequest n s).timeslot) (openRequest n s) (openPhases n s)

section
variable {b : Bus} (h : s.bus = [] ∧ b = [] ∨ ∃ j, s.bus = ErrorAt (openReads n s + j) ∧ b = ErrorAt j)
include h

theorem serveOpen_refused {q : Response} (hq : openAnswer n s = some q) :
    serveOpen n s = answer (chanDesc n) (chanSource n) q { s with bus := b } := by
  replace hq : openRefusal ((State.chan { s with bus := b } n).state == .closed) s.port.activeFmt.slots.toNat
    (slotTaken { s with bus := b } n (openRequest n s).timeslot) (openRequest n s) (openPhases n s) = _ := hq
  unfold serveOpen
  rw [readOpen_made h]
  dsimp only
  rw [hq]

theorem serveOpen_accepted {u : State} (hq : openAnswer n s = none)
    (hu : u = acceptOpen n (openRequest n s) (openPhases n s) { s with bus := b }) :
    serveOpen n s = answerAfter (chanDesc n) (chanSource n) (respOpened (u.chan n).profileOutcome)
      (writeDesc n.val 128#32 (openWords (u.chan n)) (u.modChan n notDue)) := by
  replace hq : openRefusal ((State.chan { s with bus := b } n).state == .closed) s.port.activeFmt.slots.toNat
    (slotTaken { s with bus := b } n (openRequest n s).timeslot) (openRequest n s) (openPhases n s) = _ := hq
  unfold serveOpen
  rw [readOpen_made h]
  dsimp only
  rw [hq, openStatus_eq, hu]
  rfl

end

/-- The part as an OPEN that passes its checks leaves it, without regard to the script (R32 to R35). -/
def openedPart (n : Fin 32) (s : State) : State := acceptOpen n (openRequest n s) (openPhases n s) { s with bus := [] }

theorem openedPart_kept (hq : openAnswer n s = none) : (openedPart n s).tableBase = s.tableBase ∧
    (openedPart n s).port = s.port ∧ (openedPart n s).mem = s.mem ∧ (openedPart n s).bus = [] := by
  obtain ⟨-, slot, free⟩ := openRefusal_none hq
  have op := (acceptOpen_visitOp (s := { s with bus := [] }) (n := n) (phases := openPhases n s) slot free).op
  have blind := acceptOpen_blind n (openRequest n s) (openPhases n s)
  exact ⟨op.tableBase, op.port, blind.mem _, blind.bus _⟩

/-- What stands behind the status write and answer of an accepted OPEN, no access meeting an error. -/
theorem openAnswered {u : State} {q : Response} (bus : u.bus = []) (legal : MemLegal u) (base : u.tableBase ≠ 0#24)
    (h : t = answerAfter (chanDesc n) (chanSource n) q
      (writeDesc n.val 128#32 (openWords (u.chan n)) (u.modChan n notDue))) :
    t = { u.modChan n notDue with mem := t.mem, attn := attnRaise (chanSource n) .requestDone u.attn } ∧
    t.chan n = notDue (u.chan n) ∧ memWord t.mem (u.desc n.val) = 0#32 ∧
    memWord t.mem (u.desc n.val + 4#32) = q.word ∧
    (∀ i < 22, memWord t.mem (u.desc n.val + 128#32 + BitVec.ofNat 32 (4 * i)) = (openWords (u.chan n)).getD i 0#32) ∧
    ∀ x, Outside (u.desc n.val) 8 x → Outside (u.desc n.val + 128#32) 88 x → memRead t.mem x = memRead u.mem x := by
  have len := openWords_length (u.chan n)
  obtain ⟨form, request, response, words, frame⟩ := statusAnswered (d := chanDesc n) (s := u.modChan n notDue) bus legal
    base (by rw [len]; omega) h
  rw [len] at words frame
  refine ⟨form, ?_, request, response, words, frame⟩
  rw [form]
  exact modChan_chan_self ..

/-- An OPEN served up to its answer, whose script has its error behind the words read. -/
theorem serveChannel_open {j : Nat} (hbus : s.bus = ErrorAt (openReads n s + j + 1)) (code : requestCode n s = 1) :
    serveChannel s n = serveOpen n { s with bus := ErrorAt (openReads n s + j) } :=
  (serveChannel_by_code (readWord_errorAt_succ (s.desc n.val) hbus)).2.1 code

/-- A refused OPEN whose answer meets the error (R160). -/
theorem serveChannel_open_refused {q : Response} {j : Nat} (hbus : s.bus = ErrorAt (openReads n s + j + 1))
    (code : requestCode n s = 1) (hq : openAnswer n s = some q) (hj : j < 2) (hw : MemLegal s) (hb : s.tableBase ≠ 0#24) :
    AnswerFaulted n.val [] q.word j { s with bus := [] } (serveChannel s n) := by
  rw [serveChannel_open hbus code,
    serveOpen_refused (s := { s with bus := ErrorAt (openReads n s + j) }) (.inr ⟨j, rfl, rfl⟩) hq]
  exact answer_faulted (s := { s with bus := ErrorAt j }) (chanDesc n) _ q rfl hj hw hb

/-- An accepted OPEN whose status write or answer meets the error (R160). -/
theorem serveChannel_open_accepted {j : Nat} (hbus : s.bus = ErrorAt (openReads n s + j + 1))
    (code : requestCode n s = 1) (hq : openAnswer n s = none) (hj : j < 24) (hw : MemLegal s) (hb : s.tableBase ≠ 0#24) :
    AnswerFaulted n.val (openWords ((openedPart n s).chan n)) (respOpened ((openedPart n s).chan n).profileOutcome).word j
      ((openedPart n s).modChan n notDue) (serveChannel s n) := by
  obtain ⟨base, -, mem, bus⟩ := openedPart_kept hq
  have scripted := acceptOpen_bus (n := n) (r := openRequest n s) (phases := openPhases n s) (ErrorAt j) s
  have form := serveOpen_accepted (s := { s with bus := ErrorAt (openReads n s + j) }) (.inr ⟨j, rfl, rfl⟩) hq
    (u := { openedPart n s with bus := ErrorAt j }) scripted.symm
  rw [← serveChannel_open hbus code] at form
  rw [form]
  generalize openedPart n s = u at *
  have empty : ({ u with bus := [] } : State) = u := by rw [← bus]
  have fault := statusAnswer_faulted (d := chanDesc n) (src := chanSource n)
    (r := respOpened (u.chan n).profileOutcome) (ws := openWords (u.chan n)) (j := j)
    (s := ({ u with bus := ErrorAt j }).modChan n notDue) rfl (by rw [openWords_length]; omega)
    (by rw [openWords_length]; omega) (show u.mem.wf by rw [mem]; exact hw) (by rw [modChan_tableBase]; rw [base]; exact hb)
  rw [show ({ ({ u with bus := ErrorAt j } : State).modChan n notDue with bus := [] } : State) =
    ({ u with bus := [] } : State).modChan n notDue from rfl, empty] at fault
  exact fault

/-- Settles O42: the words read, the checks, then the answer behind the status write (`openAnswered`), or the access
that meets the error. -/
theorem openServedAtVisit : Obligations.OpenServedAtVisit := by
  intro n s t w r phases taken hw hb hs hcode hwords hr hphases htaken ht
  obtain rfl : r = openRequest n s := hr.trans (openRequest_eq w hwords).symm
  have length : (openRequest n s).progLen = openLength n s := decodeOpen_progLen
  rw [length] at hphases
  obtain rfl : phases = openPhases n s := hphases.trans (openPhases_eq w hwords).symm
  have code : requestCode n s = 1 := congrArg BitVec.toNat hcode
  have isTaken : taken = slotTaken s n (openRequest n s).timeslot := by
    rw [Bool.eq_iff_iff, slotTaken_iff, htaken]
  have refusal : openRefusal true s.port.activeFmt.slots.toNat taken (openRequest n s) (openPhases n s) =
      openAnswer n s := by
    rw [openAnswer, isTaken, hs]
    rfl
  rw [refusal]
  refine ⟨fun hbus => ?_, fun k reads hbus hreads => ?_⟩
  · have empty : { s with bus := [] } = s := by rw [← hbus]
    have serves := (serveChannel_by_code (readWord_nil (s.desc n.val) hbus)).2.1 code
    have others := (serveChannel_visitOp (s := s) (n := n)).op.others
    have port := (serveChannel_visitOp (s := s) (n := n)).op.port
    rw [← ht] at others port serves
    cases hq : openAnswer n s with
    | some q =>
      have form := serveOpen_refused (.inl ⟨hbus, rfl⟩) hq
      rw [empty, answer_idle _ _ _ hbus, ← serves] at form
      subst form
      refine ⟨answerMemory_request _ _ hw hb, others, port, fun q' hq' => ?_, fun h => absurd h.symm (Option.some_ne_none q).symm⟩
      obtain rfl := Option.some.inj hq'
      exact ⟨(answerMemory_response _ _ hw hb).trans (openRefusal_word hq), rfl, memRead_answerMemory _ _ hw⟩
    | none =>
      obtain ⟨base, -, mem, bus⟩ := openedPart_kept hq
      have form := serveOpen_accepted (.inl ⟨hbus, rfl⟩) hq (u := openedPart n s) rfl
      have accepted : openedPart n s = acceptOpen n (openRequest n s) (openPhases n s) s := by rw [openedPart, empty]
      rw [← serves] at form
      rw [← accepted]
      generalize openedPart n s = u at *
      obtain ⟨form, chan, request, response, words, frame⟩ := openAnswered (n := n) (u := u) bus
        (show u.mem.wf by rw [mem]; exact hw) (by rw [base]; exact hb) form
      have desc : u.desc n.val = s.desc n.val := by rw [State.desc, base, State.desc]
      rw [desc] at request response words frame
      rw [mem] at frame
      refine ⟨request, others, port, fun _ h => absurd h.symm (Option.some_ne_none _), fun _ =>
        ⟨u, rfl, chan, ?_, ?_, ?_, response.trans (opened_word _), fun i hi => ?_, fun i hi => ?_, frame⟩⟩
      · rw [form]
        rfl
      · rw [form]
        rfl
      · rw [form]
      · rw [words i (by omega), openWords, List.getD_append _ _ _ _ (by rw [statusWords_length]; exact hi), chan]
        rfl
      · have offset : s.desc n.val + 152#32 + BitVec.ofNat 32 (4 * i) =
            s.desc n.val + 128#32 + BitVec.ofNat 32 (4 * (6 + i)) := by
          rw [add_ofNat_ofNat (s.desc n.val) 152, add_ofNat_ofNat (s.desc n.val) 128]
          congr 2
          omega
        rw [offset, words (6 + i) (by omega), openWords_program _ i hi, chan]
        rfl
  · rw [length] at hreads
    obtain rfl : reads = openReads n s := hreads
    rw [ht]
    refine ⟨fun hk => ?_, fun q hq hlt hle => ?_, fun hq hlt hle => ⟨_, rfl, ?_⟩⟩
    · cases k with
      | zero => exact serveChannel_request_faulted hbus
      | succ i => exact serveChannel_open_faulted hbus code hk
    · obtain ⟨j, rfl⟩ : ∃ j, k = openReads n s + j + 1 := ⟨k - openReads n s - 1, by omega⟩
      rw [show openReads n s + j + 1 - openReads n s - 1 = j by omega, ← openRefusal_word hq]
      exact serveChannel_open_refused hbus code hq (by omega) hw hb
    · obtain ⟨j, rfl⟩ : ∃ j, k = openReads n s + j + 1 := ⟨k - openReads n s - 1, by omega⟩
      rw [show openReads n s + j + 1 - openReads n s - 1 = j by omega, ← opened_word, ← effectiveProgram_eq]
      exact serveChannel_open_accepted hbus code hq (by omega) hw hb

end Sys2Proof.Machine

/-! Proofs about a CLOSE of a running channel served at a visit: its record ended, its profile saved, its holding
released, its answer, and the bus error at each of its accesses (R36, R37, R96, R125, R155, R159, R160). -/

namespace Sys2Proof.Machine

variable {n : Fin 32} {s t : State} {o : SaveOutcome}

/-- A status write as one run of words into a channel whose write is no longer due (R159). -/
theorem statusWrite_eq : statusWrite n s = writeDesc n.val 128#32 (statusWords (s.chan n)) (s.modChan n notDue) := by
  rw [writeDesc_modChan]
  rfl

/-! ## The record ended (R96) -/

/-- The channel behind the end of its record, if it had one (R96, R99). -/
def quitChan (c : Channel) : Channel :=
  { c with walk := { c.walk with
      inflight := none, gapCount := if c.walk.inflight = none then c.walk.gapCount else 0 } }

/-- The accesses that the end of a record takes (R96). -/
def quitAccesses (c : Channel) : Nat := if c.walk.inflight = none then 0 else 2

/-- What the end of a record leaves of memory and causes (R96). -/
structure RecordEnded (n : Fin 32) (s : State) (m : Memory) (a : Attn) : Prop where
  none  : (s.chan n).walk.inflight = none → m = s.mem ∧ a = s.attn
  ended : ∀ f, (s.chan n).walk.inflight = some f →
    m = earlyMemory f (s.chan n).walk.gapCount dispClosed s.mem ∧ a = Notified n f s.attn

/-- The record in flight of a channel ended, no access of its end meeting an error: `b` is what is left of the
script. -/
theorem completeClosed_quits {b : Bus}
    (h : s.bus = [] ∧ b = [] ∨ ∃ j, s.bus = ErrorAt (quitAccesses (s.chan n) + j) ∧ b = ErrorAt j) :
    ∃ m a, RecordEnded n s m a ∧
      completeClosed n s = (true, { s.modChan n quitChan with mem := m, attn := a, bus := b }) := by
  cases hf : (s.chan n).walk.inflight with
  | none =>
    have bus : s.bus = b := by
      rcases h with ⟨hs, rfl⟩ | ⟨j, hs, rfl⟩
      · exact hs
      · rw [hs, quitAccesses, if_pos hf, Nat.zero_add]
    refine ⟨s.mem, s.attn, ⟨fun _ => ⟨rfl, rfl⟩, fun f h => ?_⟩, ?_⟩
    · rw [hf] at h
      exact absurd h.symm (Option.some_ne_none f)
    · have same : s.modChan n quitChan = s := modChan_eq_self (by rw [quitChan, if_pos hf, ← hf])
      rw [completeClosed_none hf, same, ← bus]
  | some f =>
    refine ⟨earlyMemory f (s.chan n).walk.gapCount dispClosed s.mem, Notified n f s.attn,
      ⟨fun h => ?_, fun g hg => ?_⟩, ?_⟩
    · rw [hf] at h
      exact absurd h (Option.some_ne_none f)
    · rw [hf] at hg
      obtain rfl := Option.some.inj hg
      exact ⟨rfl, rfl⟩
    · have quits : quitChan (s.chan n) = completed (s.chan n) := by
        rw [quitChan, if_neg (by rw [hf]; exact Option.some_ne_none f)]
        rfl
      have made := completeClosed_made (s := s) (b := b) hf (h.imp id ?_)
      · rw [made, modChan_congr quits]
        rfl
      · rintro ⟨j, hs, rfl⟩
        refine ⟨j, ?_, rfl⟩
        rw [hs, quitAccesses, if_neg (by rw [hf]; exact Option.some_ne_none f), Nat.add_comm]

/-! ## The save (R36, R125) -/

/-- A CLOSE saves the channel's profile (R36 step 2). -/
def ClosesSaving (c : Channel) : Prop :=
  c.saveProfile = true ∧ c.routeTag ≠ 0#32 ∧ (c.state = .tracking ∨ c.state = .held ∧ c.resume = some .tracking)

/-- What the save of a CLOSE of the channel `c`, if there is one, leaves of store and causes (R36, R125). -/
structure SavedAtClose (n : Fin 32) (c : Channel) (before : Store) (b : Attn) (o : SaveOutcome) (st : Store)
    (a : Attn) : Prop where
  saves : ClosesSaving c → (o, st) = saveProfileTo before c.routeTag c.filt ∧
    a = if o = .saved then b else attnRaise (chanSource n) .profile b
  keeps : ¬ ClosesSaving c → o = c.lastSave ∧ st = before ∧ a = b

theorem saveAtClose_saved (n : Fin 32) (s : State) : ∃ o st a due, SavedAtClose n (s.chan n) s.store s.attn o st a ∧
    saveAtClose n s =
      { s.modChan n (fun c => { c with lastSave := o, statusDue := due }) with store := st, attn := a } := by
  have decides : ClosesSaving (s.chan n) ↔
      (s.chan n).saveProfile = true ∧ (s.chan n).routeTag ≠ 0#32 ∧ tracks (s.chan n) = true := by
    rw [tracks_iff]
    exact Iff.rfl
  unfold saveAtClose
  dsimp only
  by_cases h : ClosesSaving (s.chan n)
  · obtain ⟨⟨o, st⟩, saved⟩ : ∃ r, r = saveProfileTo s.store (s.chan n).routeTag (s.chan n).filt := ⟨_, rfl⟩
    refine ⟨o, st, _, true, ⟨fun _ => ⟨saved, rfl⟩, fun h' => absurd h h'⟩, ?_⟩
    rw [if_pos (decides.1 h), requestSave_eq saved]
    cases o <;> rfl
  · refine ⟨(s.chan n).lastSave, s.store, s.attn, (s.chan n).statusDue,
      ⟨fun h' => absurd h' h, fun _ => ⟨rfl, rfl, rfl⟩⟩, ?_⟩
    rw [if_neg (mt decides.2 h), modChan_eq_self rfl]

/-! ## The channel closed (R36) -/

/-- The channel as its CLOSE leaves it (R36, log 11, log 35). -/
def closedChan (o : SaveOutcome) (c : Channel) : Channel :=
  { Faulted c with
    state := .closed, lastSave := o,
    walk := { c.walk with
      inflight := none, gapCount := if c.walk.inflight = none then c.walk.gapCount else 0 } }

/-- The part behind a CLOSE but for its status write and answer. -/
def closedPart (n : Fin 32) (o : SaveOutcome) (st : Store) (m : Memory) (a : Attn) (b : Bus) (s : State) : State :=
  { s.modChan n (closedChan o) with
    mem := m, attn := a, bus := b, store := st, pool := s.pool ++ (s.chan n).segs.reverse }

theorem closedPart_chan {st : Store} {m : Memory} {a : Attn} {b : Bus} :
    (closedPart n o st m a b s).chan n = closedChan o (s.chan n) := modChan_chan_self ..

/-- A channel closed: its holding goes to the pool, and what a running channel has is gone (R36). -/
theorem closeChan_eq (n : Fin 32) (s : State) : closeChan n s =
    { s.modChan n (fun c => leaveRunning .closed { c with segs := [], poolHist := [] }) with
      pool := s.pool ++ (s.chan n).segs.reverse } := by
  have released : releaseAll n s = { s.modChan n (fun c => { c with segs := [], poolHist := [] }) with
      pool := s.pool ++ (s.chan n).segs.reverse } := by
    unfold releaseAll shrink
    rw [modChan_congr (g := fun c => { c with segs := [], poolHist := [] }) (by simp [keepSegs])]
    rfl
  unfold closeChan
  rw [released, modChan_with_pool, modChan_modChan]
  rfl

/-- A CLOSE of a running channel up to its status write, no access before it meeting an error (R36). -/
theorem serveClose_closes {b : Bus} (hr : running (s.chan n) = true)
    (h : s.bus = [] ∧ b = [] ∨ ∃ j, s.bus = ErrorAt (quitAccesses (s.chan n) + j) ∧ b = ErrorAt j) :
    ∃ o st m a a', RecordEnded n s m a ∧ SavedAtClose n (s.chan n) s.store a o st a' ∧
      serveClose n s = answerAfter (chanDesc n) (chanSource n) respClosed
        (writeDesc n.val 128#32 (statusWords (closedChan o (s.chan n))) (closedPart n o st m a' b s)) := by
  obtain ⟨m, a, ended, quits⟩ := completeClosed_quits h
  obtain ⟨o, st, a', due, saved, saves⟩ :=
    saveAtClose_saved n { s.modChan n quitChan with mem := m, attn := a, bus := b }
  have chan : State.chan { s.modChan n quitChan with mem := m, attn := a, bus := b } n = quitChan (s.chan n) :=
    (chan_of_chans (s := s.modChan n quitChan) rfl n).trans (modChan_chan_self ..)
  rw [chan] at saved
  refine ⟨o, st, m, a, a', ended, ⟨saved.saves, saved.keeps⟩, ?_⟩
  have closes : (closeChan n (saveAtClose n { s.modChan n quitChan with mem := m, attn := a, bus := b })).modChan n
      notDue = closedPart n o st m a' b s := by
    have form : closedPart n o st m a' b s = { (((s.modChan n quitChan).modChan n
          (fun c => { c with lastSave := o, statusDue := due })).modChan n
          (fun c => leaveRunning .closed { c with segs := [], poolHist := [] })).modChan n notDue with
        mem := m, attn := a', bus := b, store := st
        pool := s.pool ++ (State.chan ((s.modChan n quitChan).modChan n
          (fun c => { c with lastSave := o, statusDue := due })) n).segs.reverse } := by
      rw [modChan_modChan, modChan_modChan, modChan_modChan, modChan_chan_self, modChan_chan_self]
      rfl
    rw [saves, closeChan_eq, form]
    rfl
  have words := congrArg (fun u => statusWords (u.chan n)) closes
  dsimp only at words
  rw [modChan_chan_self, closedPart_chan] at words
  unfold serveClose
  unfold running at hr
  split
  · next hs => rw [hs] at hr; exact absurd hr Bool.false_ne_true
  · next hs => rw [hs] at hr; exact absurd hr Bool.false_ne_true
  all_goals
    rw [quits]
    dsimp only
    rw [statusWrite_eq, closes, ← words]
    rfl

end Sys2Proof.Machine

/-! Proofs about a CLOSE of a running channel served at a visit: what it leaves, and its table faults (R36, R37, R96,
R155, R160). -/

namespace Sys2Proof.Machine

variable {n : Fin 32} {s t v : State} {o : SaveOutcome} {st : Store} {m : Memory} {a b : Attn}

theorem RecordEnded.wf (h : RecordEnded n s m a) (hw : MemLegal s) : m.wf := by
  cases hf : (s.chan n).walk.inflight with
  | none => rw [(h.none hf).1]; exact hw
  | some f => rw [(h.ended f hf).1]; exact earlyMemory_wf hw

/-- The record behind its end: CLOSED and the gap count, and no other byte of memory changed (R96). -/
theorem RecordEnded.told (h : RecordEnded n s m a) (hw : MemLegal s) (hg : (s.chan n).walk.gapCount ≤ 65535)
    {f : InFlight} (hf : (s.chan n).walk.inflight = some f) : memWord m f.addr = 5#32 ∧
    (memWord m (gapWordAt f)).toNat = (s.chan n).walk.gapCount ∧
    ∀ x, Outside f.addr 4 x → Outside (gapWordAt f) 4 x → memRead m x = memRead s.mem x := by
  rw [(h.ended f hf).1]
  exact ⟨earlyMemory_code hw, earlyMemory_gap hw hg, earlyMemory_frame hw⟩

/-- The accesses to a descriptor leave every byte outside it as it was. -/
theorem descriptor_frame {d : Word} {m m' : Memory} (h : ∀ x, Outside d 8 x → Outside (d + 128#32) 24 x →
    memRead m' x = memRead m x) (x : Nat) (hx : Outside d 256 x) : memRead m' x = memRead m x :=
  h x (fun k hk => hx k (by omega)) (outside_part hx (o := 128) (by omega))

/-! ## No access meeting an error -/

/-- What stands behind a CLOSE of a running channel (R36, R155). -/
theorem close_answered (hbus : s.bus = []) (hw : MemLegal s) (hb : s.tableBase ≠ 0#24)
    (hr : running (s.chan n) = true) (code : requestCode n s = 2) (ht : t = serveChannel s n) :
    ∃ o st m a b, RecordEnded n s m a ∧ SavedAtClose n (s.chan n) s.store a o st b ∧
      t = { closedPart n o st m b [] s with mem := t.mem, attn := attnRaise (chanSource n) .requestDone b } ∧
      memWord t.mem (s.desc n.val) = 0#32 ∧ memWord t.mem (s.desc n.val + 4#32) = 2#32 ∧
      (∀ i < 6, memWord t.mem (s.desc n.val + 128#32 + BitVec.ofNat 32 (4 * i)) =
        (statusWords (closedChan o (s.chan n))).getD i 0#32) ∧
      ∀ x, Outside (s.desc n.val) 8 x → Outside (s.desc n.val + 128#32) 24 x → memRead t.mem x = memRead m x := by
  obtain ⟨o, st, m, a, b, ended, saved, form⟩ := serveClose_closes hr (.inl ⟨hbus, rfl⟩)
  rw [← (serveChannel_by_code (readWord_nil (s.desc n.val) hbus)).2.2.1 code, ← ht] at form
  obtain ⟨left, request, response, words, frame⟩ := statusAnswered (d := chanDesc n) (s := closedPart n o st m b [] s)
    rfl (ended.wf hw) hb (by rw [statusWords_length]; omega) form
  exact ⟨o, st, m, a, b, ended, saved, left, request, response, words, frame⟩

/-! ## An error in the end of the record (R37, R96, R103) -/

/-- The part behind a CLOSE whose record could not be ended, but for its status write and answer (R37; log 17). -/
def missedPart (n : Fin 32) (v : State) : State :=
  ((faultEffects n v).modChan n (leaveRunning .closed)).modChan n notDue

theorem missedPart_chan : (missedPart n v).chan n = { Faulted (v.chan n) with state := .closed } := by
  rw [missedPart, modChan_chan_self, modChan_chan_self, faultEffects_chan]
  rfl

theorem missedPart_form : missedPart n v = { v with
    chans := (missedPart n v).chans, pool := v.pool ++ (v.chan n).segs.reverse
    attn := attnRaise (chanSource n) .fault v.attn } := rfl

theorem missedPart_answered (hv : v = { s with bus := [], mem := v.mem, chans := v.chans })
    (hs : (v.chan n).segs = (s.chan n).segs)
    (ht : t = { missedPart n v with
      mem := t.mem, attn := attnRaise (chanSource n) .requestDone (missedPart n v).attn }) :
    t = { s with
      bus := [], mem := t.mem, chans := t.chans, pool := s.pool ++ (s.chan n).segs.reverse
      attn := attnRaise (chanSource n) .requestDone (attnRaise (chanSource n) .fault s.attn) } := by
  have chans := congrArg State.chans ht
  dsimp only at chans
  rw [missedPart_form, hs] at ht
  rw [chans]
  generalize (missedPart n v).chans = cs at *
  generalize t.mem = m at *
  rw [ht, hv]

theorem missedPart_others (k : Fin 32) (h : k ≠ n) : (missedPart n v).chan k = v.chan k := by
  rw [missedPart, modChan_chan_ne _ _ _ _ h, modChan_chan_ne _ _ _ _ h]
  exact faultEffects_lineOp.op.others k h

theorem serveClose_missed (hr : running (s.chan n) = true) (h : completeClosed n s = (false, v)) :
    serveClose n s = answerAfter (chanDesc n) (chanSource n) respClosed
      (writeDesc n.val 128#32 (statusWords ((missedPart n v).chan n)) (missedPart n v)) := by
  have words : statusWords ((missedPart n v).chan n) =
      statusWords (((faultEffects n v).modChan n (leaveRunning .closed)).chan n) := by
    rw [missedPart, modChan_chan_self]
    rfl
  unfold serveClose
  unfold running at hr
  split
  · next hs => rw [hs] at hr; exact absurd hr Bool.false_ne_true
  · next hs => rw [hs] at hr; exact absurd hr Bool.false_ne_true
  all_goals
    rw [h]
    dsimp only
    rw [statusWrite_eq, words]
    rfl

/-- The record's end missed at the gap word or at its code: what it leaves (R96, R103). -/
theorem completeClosed_error {f : InFlight} {k : Nat} (hf : (s.chan n).walk.inflight = some f) (hk : k = 0 ∨ k = 1)
    (hbus : s.bus = ErrorAt k) (hw : MemLegal s) : ∃ v, completeClosed n s = (false, v) ∧
      v = { s with bus := [], mem := v.mem, chans := v.chans } ∧ MemLegal v ∧
      v.chan n = { s.chan n with walk := { (s.chan n).walk with
        gapCount := if k = 0 then (s.chan n).walk.gapCount else 0 } } ∧
      (∀ j, j ≠ n → v.chan j = s.chan j) ∧
      ∀ x, (k = 1 → Outside (gapWordAt f) 4 x) → memRead v.mem x = memRead s.mem x := by
  rcases hk with rfl | rfl
  · exact ⟨_, completeClosed_missed hf (writeEarlyCode_gap_error hbus), rfl, hw, rfl, fun _ _ => rfl, fun _ _ => rfl⟩
  · exact ⟨_, completeClosed_missed hf (writeEarlyCode_code_error hbus), rfl, gapWritten_legal hw,
      modChan_chan_self .., fun j hj => modChan_chan_ne _ _ _ _ hj, fun x hx => gapMemory_frame hw x (hx rfl)⟩

/-- Settles O43: the serving up to its status write, with the record ended (`serveClose_closes`) or missed
(`serveClose_missed`), then that write and the answer, made or faulted. -/
theorem closeEndsRecordAndSaves : Obligations.CloseEndsRecordAndSaves := by
  refine ⟨?_, ?_, ?_⟩
  · rintro n s t _ saves hbus hw hb rfl hr hg hcode hsaves hapart ht
    obtain ⟨o, st, m, a, b, ended, saved, form, request, response, words, frame⟩ :=
      close_answered hbus hw hb hr (congrArg BitVec.toNat hcode) ht
    have others := (serveChannel_visitOp (s := s) (n := n)).op.others
    rw [← ht] at others
    have store := congrArg State.store form
    have chan : t.chan n = closedChan o (s.chan n) := by
      rw [form]
      exact closedPart_chan
    rw [chan]
    obtain ⟨saving, keeping⟩ := saved
    have saving' := fun h => saving (hsaves.1 h)
    have keeping' := fun h => keeping (mt hsaves.2 h)
    refine ⟨o, a, b, fun h => ?_, fun h => ?_, fun h => (ended.none h).2, fun f hf => (ended.ended f hf).2,
      fun h => (saving' h).2, ?_, ?_, ?_, others, ?_, rfl, request, response, words, fun h => ?_, ?_⟩
    · exact store ▸ (saving' h).1
    · obtain ⟨outcome, stands, causes⟩ := keeping' h
      exact ⟨outcome, store.trans stands, causes⟩
    · rw [form]
    · rw [form]
      rfl
    · rw [form]
      rfl
    · rw [form]
      rfl
    · rw [← (ended.none h).1]
      exact frame
    · rintro f _ hf rfl
      obtain ⟨code, gap, others'⟩ := ended.told hw hg hf
      have clear := hapart f hf
      refine ⟨?_, ?_, fun x hd hst hfirst hgap => (frame x hd hst).trans (others' x hfirst hgap)⟩
      · rw [memWord_of_frame (apart_first clear) (descriptor_frame frame), code]
      · exact (congrArg BitVec.toNat (memWord_of_frame (apart_gapWord clear) (descriptor_frame frame))).trans gap
  · rintro n s t _ f k hw hb rfl hr hf hcode hk hbus ht
    rw [(serveChannel_by_code (readWord_errorAt_succ (s.desc n.val) hbus)).2.2.1 (congrArg BitVec.toNat hcode)] at ht
    obtain ⟨v, missed, vform, vw, vchan, vothers, vmem⟩ :=
      completeClosed_error (s := { s with bus := ErrorAt k }) hf hk rfl hw
    rw [serveClose_missed (s := { s with bus := ErrorAt k }) hr missed] at ht
    have vbase : v.tableBase = s.tableBase := by rw [vform]
    have vdesc : v.desc n.val = s.desc n.val := by rw [State.desc, vbase]; rfl
    obtain ⟨form, request, response, words, frame⟩ := statusAnswered (d := chanDesc n) (s := missedPart n v)
      (show v.bus = [] by rw [vform]) vw (vbase ▸ hb) (by rw [statusWords_length]; omega) ht
    have chan : t.chan n = (missedPart n v).chan n := by rw [form]; rfl
    rw [missedPart_chan, vchan] at chan
    have others : ∀ j, j ≠ n → t.chan j = s.chan j := fun j hj => by
      rw [form]
      exact (missedPart_others j hj).trans (vothers j hj)
    have desc : t.desc n.val = s.desc n.val := by rw [form]; exact vdesc
    have base : (missedPart n v).desc n.val = s.desc n.val := vdesc
    rw [show (chanDesc n).val = n.val from rfl, base] at request response words frame
    refine ⟨?_, others, chan, ?_, request, response, fun x hd hst hgap => (frame x hd hst).trans (vmem x hgap)⟩
    · have segs : (v.chan n).segs = (s.chan n).segs := by rw [vchan]; rfl
      exact missedPart_answered vform segs form
    · intro i hi
      rw [desc, show t.chan n = (missedPart n v).chan n by rw [form]; rfl]
      exact words i hi
  · rintro n s t _ saves k done hw hb rfl hr hg hcode hsaves rfl hlt hle hbus ht
    obtain ⟨j, rfl⟩ : ∃ j, k = quitAccesses (s.chan n) + j + 1 := ⟨k - quitAccesses (s.chan n) - 1, by
      unfold quitAccesses; omega⟩
    rw [(serveChannel_by_code (readWord_errorAt_succ (s.desc n.val) hbus)).2.2.1 (congrArg BitVec.toNat hcode)] at ht
    obtain ⟨o, st, m, a, b, ended, saved, form⟩ := serveClose_closes
      (s := { s with bus := ErrorAt (quitAccesses (s.chan n) + j) }) hr (.inr ⟨j, rfl, rfl⟩)
    rw [← ht] at form
    obtain ⟨saving, keeping⟩ := saved
    have saving' := fun h => saving (hsaves.1 h)
    have keeping' := fun h => keeping (mt hsaves.2 h)
    have left := closedPart_chan (n := n) (o := o) (s := s) (st := st) (m := m) (a := b) (b := [])
    refine ⟨o, a, closedPart n o st m b [] s, fun h => (saving' h).1, keeping', fun h => ?_, fun h => (saving' h).2,
      fun f hf => ?_, rfl, fun i hi => modChan_chan_ne _ _ _ _ hi, left, ?_⟩
    · obtain ⟨mem, causes⟩ := ended.none h
      exact ⟨causes, mem⟩
    · obtain ⟨code, gap, frame⟩ := ended.told hw hg hf
      exact ⟨(ended.ended f hf).2, code, gap, frame⟩
    · have faulted := statusAnswer_faulted (d := chanDesc n) (src := chanSource n) (r := respClosed) (j := j)
        (ws := statusWords (closedChan o (s.chan n))) (s := closedPart n o st m b (ErrorAt j) s) rfl
        (by rw [statusWords_length]; omega) (by rw [statusWords_length]; unfold quitAccesses at hle; omega)
        (ended.wf hw) hb
      have count : quitAccesses (s.chan n) + j + 1 - (if (s.chan n).walk.inflight = none then 0 else 2) - 1 = j := by
        unfold quitAccesses
        omega
      rw [left, form, count]
      exact faulted

end Sys2Proof.Machine

/-! Proofs about the history pool's grants and releases (R76 to R79) and about the far-delay search: its start,
its sweep, its end and the placement of its window (R57 to R70). -/

namespace Sys2Proof.Machine

variable {n : Fin 32} {s : State}

/-! ## Grants, releases and a holding brought to its target (R59, R67, R76 to R79) -/

/-- The list of segments brought to a target: its newest stay, and what is wanted beyond them comes from the head
of the free list. -/
def broughtTo (want : Nat) (held free : List Nat) : List Nat :=
  held.take want ++ free.take (want - held.length)

theorem broughtTo_length (want : Nat) (held free : List Nat) : (broughtTo want held free).length =
    if want ≤ held.length then want else min want (held.length + free.length) := by
  simp only [broughtTo, List.length_append, List.length_take]
  split <;> omega

/-- The newest segments of a holding stand when it is brought to a target. -/
theorem broughtTo_newest (want : Nat) (held free : List Nat) {m : Nat}
    (hm : m = min (broughtTo want held free).length held.length) :
    (broughtTo want held free).take m = held.take m := by
  rw [broughtTo_length] at hm
  have le : m ≤ min want held.length := by split at hm <;> omega
  rw [broughtTo, List.take_append_of_le_length (by rw [List.length_take]; exact le), List.take_take,
    min_eq_left (by omega)]

/-- A holding brought to a target changes the channel's list and its pool history alone. -/
theorem bringHolding_chan (n : Fin 32) (want : Nat) (s : State) : ∃ p, (bringHolding n want s).chan n =
    { s.chan n with segs := broughtTo want (s.chan n).segs s.pool, poolHist := p } := by
  unfold broughtTo
  dsimp only [bringHolding]
  split_ifs with more less
  · refine ⟨(s.chan n).poolHist.take (32 * want), ?_⟩
    rw [shrink_chan_self, Nat.sub_eq_zero_of_le (Nat.le_of_lt more), List.take_zero, List.append_nil]
    rfl
  · refine ⟨(addSegs (s.pool.take (want - (s.chan n).segs.length)) (s.chan n)).poolHist, ?_⟩
    rw [grant_chan_self, List.take_of_length_le (Nat.le_of_lt less)]
    rfl
  · have same : (s.chan n).segs.length = want := by omega
    refine ⟨(s.chan n).poolHist, ?_⟩
    rw [same, Nat.sub_self, List.take_zero, List.append_nil, ← same, List.take_length]

/-- A grant in the words of R78: what is taken from the free list, and where it goes. -/
theorem grant_takes_head (n : Fin 32) (g : Nat) (s : State) : ∃ got, got = s.pool.take g ∧
    got.length = min g s.pool.length ∧ s.pool = got ++ (grant n g s).pool ∧
    ((grant n g s).chan n).segs = (s.chan n).segs ++ got ∧
    ((grant n g s).chan n).poolHist =
      (s.chan n).poolHist ++ List.replicate (32 * min g s.pool.length) 0#16 := by
  refine ⟨_, rfl, List.length_take, (List.take_append_drop g s.pool).symm, ?_, ?_⟩
  · rw [grant_chan_self, addSegs]
  · rw [grant_chan_self, addSegs, List.length_take]

/-- A release in the words of R79: what goes to the free list's tail, and the history that stays. -/
theorem shrink_frees_oldest (n : Fin 32) (keep : Nat) (s : State) : ∃ gone,
    (s.chan n).segs = ((shrink n keep s).chan n).segs ++ gone ∧
    ((shrink n keep s).chan n).segs.length = min keep (s.chan n).segs.length ∧
    (shrink n keep s).pool = s.pool ++ gone.reverse ∧
    ∀ i < 32 * keep, ((shrink n keep s).chan n).poolHist.getD i 0#16 =
      (s.chan n).poolHist.getD i 0#16 := by
  rw [shrink_chan_self]
  refine ⟨_, (List.take_append_drop keep (s.chan n).segs).symm, List.length_take, rfl, fun i hi => ?_⟩
  simp only [keepSegs, List.getD_eq_getElem?_getD, List.getElem?_take_of_lt hi]

/-- Settles O37: `segs` as a smallest holding, then a grant, a release and a holding brought to its target. -/
theorem grantsAndReleases : Obligations.GrantsAndReleases := by
  refine ⟨segsFor_le_iff, fun h hh => ?_, grant_takes_head, shrink_frees_oldest, fun n want s => ⟨?_, ?_⟩⟩
  · unfold segsFor
    omega
  · obtain ⟨p, held⟩ := bringHolding_chan n want s
    rw [held]
    exact broughtTo_length ..
  · exact (StillOp.bringHolding (n := n) (s := s) want).op.others

/-! ## The start of a search (R58 to R60, R70) -/

/-- The segments a search start brings the channel to (R59). -/
def searchHolding (n : Fin 32) (s : State) : List Nat :=
  broughtTo (searchTarget (s.chan n)) (s.chan n).segs s.pool

/-- The top of the range that a search start fixes (R60). -/
def searchTop (n : Fin 32) (s : State) : Nat := effectiveDmax (s.chan n) (searchHolding n s).length

/-- The state after the request of a search start: the far canceller off, the holding brought to its target, and a
shortfall told (R58, R59). -/
def searchGranted (n : Fin 32) (s : State) : State :=
  raiseIf ((searchHolding n s).length < searchTarget (s.chan n)) (chanSource n) .poolShort
    (bringHolding n (searchTarget (s.chan n))
      (s.modChan n fun c => { c with filt := farOff c.filt, statusDue := true }))

theorem searchGranted_chan (n : Fin 32) (s : State) : ∃ p, (searchGranted n s).chan n = { s.chan n with
    filt := farOff (s.chan n).filt, statusDue := true, segs := searchHolding n s, poolHist := p } := by
  obtain ⟨p, held⟩ := bringHolding_chan n (searchTarget (s.chan n))
    (s.modChan n fun c => { c with filt := farOff c.filt, statusDue := true })
  refine ⟨p, ?_⟩
  rw [searchGranted, raiseIf_chan, held, modChan_chan_self]
  rfl

theorem searchGranted_attn (n : Fin 32) (s : State) : (searchGranted n s).attn =
    if (searchHolding n s).length < searchTarget (s.chan n) then attnRaise (chanSource n) .poolShort s.attn
    else s.attn := by
  simp only [searchGranted, raiseIf_attn, bringHolding_attn, modChan_attn, decide_eq_true_eq]

/-- A search start: its request, then the sweep's start, or the end at once over an empty range (R60, R70). -/
theorem startSearch_eq (n : Fin 32) (s : State) : startSearch n s =
    if (s.chan n).dmin ≤ searchTop n s then
      (searchGranted n s).modChan n fun c => { c with search := startedSearch c (searchTop n s) }
    else
      raise (chanSource n) .farResult
        ((releaseAll n (searchGranted n s)).modChan n fun c => { c with search := emptySearch c (searchTop n s) }) := by
  obtain ⟨p, held⟩ := bringHolding_chan n (searchTarget (s.chan n))
    (s.modChan n fun c => { c with filt := farOff c.filt, statusDue := true })
  rw [modChan_chan_self, modChan_pool] at held
  have target : searchTarget ((s.modChan n fun c =>
      { c with filt := farOff c.filt, statusDue := true }).chan n) = searchTarget (s.chan n) := by
    rw [modChan_chan_self]
    rfl
  unfold startSearch searchGranted
  dsimp only
  rw [target, held]
  rfl

/-- A search start with lags to evaluate (R58 to R60). -/
theorem startSearch_sweeps (h : (s.chan n).dmin ≤ searchTop n s) :
    (∃ p, (startSearch n s).chan n = { s.chan n with
      filt := farOff (s.chan n).filt, statusDue := true, segs := searchHolding n s, poolHist := p,
      search := startedSearch (s.chan n) (searchTop n s) }) ∧
    (startSearch n s).attn = (searchGranted n s).attn := by
  obtain ⟨p, granted⟩ := searchGranted_chan n s
  rw [startSearch_eq, if_pos h]
  refine ⟨⟨p, ?_⟩, rfl⟩
  rw [modChan_chan_self, granted]
  rfl

/-- A search start over an empty range: the search ends at once with nothing held (R60, R70). -/
theorem startSearch_empty (h : searchTop n s < (s.chan n).dmin) :
    (startSearch n s).chan n = { s.chan n with
      filt := farOff (s.chan n).filt, statusDue := true, segs := [], poolHist := [],
      search := emptySearch (s.chan n) (searchTop n s) } ∧
    (startSearch n s).attn = attnRaise (chanSource n) .farResult (searchGranted n s).attn := by
  obtain ⟨p, granted⟩ := searchGranted_chan n s
  rw [startSearch_eq, if_neg (Nat.not_le.2 h)]
  refine ⟨?_, rfl⟩
  rw [raise_chan, modChan_chan_self, releaseAll_chan_self, granted]
  rfl

/-- The range's top from a positive lag upward is the plain `min(Dmax, 32k - 55)` of R60. -/
theorem effectiveDmax_eq (c : Channel) (k : Nat) :
    (effectiveDmax c k : Int) = max 0 (min (c.dmax : Int) (32 * k - 55)) := by
  unfold effectiveDmax
  omega

/-- Settles O34: what a start leaves alone, then the start over a range of lags and over none. -/
theorem searchStartFixesRange : Obligations.SearchStartFixesRange := by
  rintro n s t _ _ target k top rfl hmin htarget hk htop rfl rfl
  have wanted : searchTarget (s.chan n) = target := htarget.symm
  have length : (searchHolding n s).length = k := by rw [searchHolding, broughtTo_length, wanted, hk]
  have range : (searchTop n s : Int) = max 0 top := by rw [searchTop, effectiveDmax_eq, length, htop]
  have attn := searchGranted_attn n s
  rw [wanted, length] at attn
  obtain ⟨l, p, q, form⟩ := startSearch_chan n s
  refine ⟨by rw [form]; rfl, by rw [form], by rw [form], by rw [form], startSearch_stillOp.op.others,
    startSearch_mem .., startSearch_store .., fun some_lag => ?_, fun no_lag => ?_⟩
  · obtain ⟨⟨p, started⟩, raised⟩ := startSearch_sweeps (n := n) (s := s) (by omega)
    have newest := broughtTo_newest (searchTarget (s.chan n)) (s.chan n).segs s.pool rfl
    rw [started, raised, attn]
    refine ⟨rfl, ?_, ?_, rfl, rfl, rfl, rfl, rfl, rfl, length, ?_, rfl⟩
    · show (searchTop n s : Int) = top
      omega
    · show ((sweepLength (s.chan n).dmin (searchTop n s) : Nat) : Int) = _
      unfold sweepLength
      omega
    · rw [← length]
      exact newest
  · obtain ⟨ended, raised⟩ := startSearch_empty (n := n) (s := s) (by omega)
    rw [ended, raised, attn]
    exact ⟨rfl, rfl, rfl, rfl, rfl⟩

/-! ## The sweep (R60 to R64) -/

/-- Membership of a lag in a window, and where the window lies (R61). -/
theorem mem_windowLags {dmin top j l : Nat} : l ∈ windowLags dmin top j ↔
    dmin + 16 * j ≤ l ∧ l < dmin + 16 * j + 16 ∧ l ≤ top := by
  simp only [windowLags, List.mem_filter, List.mem_map, List.mem_range, decide_eq_true_eq]
  constructor
  · rintro ⟨⟨i, hi, rfl⟩, le⟩
    omega
  · rintro ⟨lo, hi, le⟩
    exact ⟨⟨l - (dmin + 16 * j), by omega, by omega⟩, le⟩

theorem windowLags_ascending (dmin top j : Nat) : (windowLags dmin top j).Pairwise (· < ·) := by
  refine (List.Pairwise.map _ (fun a b h => ?_) List.pairwise_lt_range).filter _
  exact Nat.add_lt_add_left h _

theorem windowLags_length_le (dmin top j : Nat) : (windowLags dmin top j).length ≤ 16 := by
  refine (List.length_filter_le ..).trans ?_
  rw [List.length_map, List.length_range]

/-- The windows of the sweep cover the range (R60, R61). -/
theorem range_iff_exists_window {dmin top : Nat} (h : dmin ≤ top) (l : Nat) :
    (dmin ≤ l ∧ l ≤ top) ↔ ∃ j < sweepLength dmin top, l ∈ windowLags dmin top j := by
  simp only [mem_windowLags, sweepLength]
  constructor
  · rintro ⟨lo, hi⟩
    exact ⟨(l - dmin) / 16, by omega, by omega, by omega, hi⟩
  · rintro ⟨j, -, lo, -, hi⟩
    exact ⟨by omega, hi⟩

/-- The score is the magnitude of the correlation (R62). -/
theorem lagScore_eq (u pool : List Sample) (l : Nat) : lagScore u pool l =
    (∑ n ∈ Finset.range 40, (u.getD n 0#16).toInt * (pool.getD (39 - n + l) 0#16).toInt).natAbs := by
  rw [lagScore, sumTo_eq_sum]
  rfl

/-- A lag evaluated: the residuals of its block, the pool history there, and the lag. -/
abbrev Evaluation := List Sample × List Sample × Nat

/-- The score of an evaluation (R62). -/
def Evaluation.score (e : Evaluation) : Nat := lagScore e.1 e.2.1 e.2.2

/-- The search after an evaluation (R62). -/
def evaluate (q : Search) (e : Evaluation) : Search := evalLag e.1 e.2.1 q e.2.2

/-- An evaluation that takes the best lag's place: the first, or one of a strictly greater score (R62). -/
theorem evaluate_replaces {q : Search} {e : Evaluation} (h : q.lagsEval = 0 ∨ q.bestScore < e.score) :
    (evaluate q e).bestLag = e.2.2 ∧ (evaluate q e).bestScore = e.score := by
  have better : (q.lagsEval == 0 || decide (q.bestScore < lagScore e.1 e.2.1 e.2.2)) = true := by
    rw [Bool.or_eq_true, beq_iff_eq, decide_eq_true_eq]
    exact h
  exact ⟨if_pos better, if_pos better⟩

/-- An evaluation that leaves the best lag in its place (R62). -/
theorem evaluate_keeps {q : Search} {e : Evaluation} (later : q.lagsEval ≠ 0) (h : e.score ≤ q.bestScore) :
    (evaluate q e).bestLag = q.bestLag ∧ (evaluate q e).bestScore = q.bestScore := by
  have worse : ¬ (q.lagsEval == 0 || decide (q.bestScore < lagScore e.1 e.2.1 e.2.2)) = true := by
    rw [Bool.or_eq_true, beq_iff_eq, decide_eq_true_eq]
    exact not_or.2 ⟨later, Nat.not_lt.2 h⟩
  exact ⟨if_neg worse, if_neg worse⟩

/-- A search stands at the first of the evaluations of the greatest score. -/
def AtFirstBest (es : List Evaluation) (r : Search) : Prop :=
  ∃ (i : Nat) (e : Evaluation), es[i]? = some e ∧ r.bestLag = e.2.2 ∧ r.bestScore = e.score ∧
    ∀ (j : Nat) (e' : Evaluation), es[j]? = some e' → e'.score ≤ r.bestScore ∧ (j < i → e'.score < r.bestScore)

/-- An evaluation of a list with one more: of the list, or the one at its end. -/
theorem evaluation_of_concat {es : List Evaluation} {e e' : Evaluation} {j : Nat} (h : (es ++ [e])[j]? = some e') :
    es[j]? = some e' ∨ j = es.length ∧ e' = e := by
  rcases Nat.lt_or_ge j es.length with lt | ge
  · rw [List.getElem?_append_left lt] at h
    exact .inl h
  · obtain ⟨hj, -⟩ := List.getElem?_eq_some_iff.1 h
    obtain rfl : j = es.length := by
      rw [List.length_append, List.length_singleton] at hj
      omega
    rw [List.getElem?_concat_length] at h
    exact .inr ⟨rfl, (Option.some.inj h).symm⟩

/-- An evaluation of a score above all before it is the first best. -/
theorem AtFirstBest.replaced {es : List Evaluation} {q : Search} {e : Evaluation}
    (h : q.lagsEval = 0 ∨ q.bestScore < e.score) (below : ∀ e' ∈ es, e'.score < e.score) :
    AtFirstBest (es ++ [e]) (evaluate q e) := by
  obtain ⟨lag, score⟩ := evaluate_replaces h
  refine ⟨es.length, e, List.getElem?_concat_length, lag, score, fun j e' hj => ?_⟩
  rw [score]
  rcases evaluation_of_concat hj with old | ⟨rfl, rfl⟩
  · have lt := below e' (List.mem_of_getElem? old)
    exact ⟨lt.le, fun _ => lt⟩
  · exact ⟨le_rfl, fun lt => absurd lt (lt_irrefl _)⟩

/-- An evaluation of a score not above the best leaves the first best where it is. -/
theorem AtFirstBest.kept {es : List Evaluation} {q : Search} {e : Evaluation} (h : AtFirstBest es q)
    (later : q.lagsEval ≠ 0) (le : e.score ≤ q.bestScore) : AtFirstBest (es ++ [e]) (evaluate q e) := by
  obtain ⟨i, b, at_i, lag, score, best⟩ := h
  obtain ⟨lag', score'⟩ := evaluate_keeps later le
  have hi : i < es.length := (List.getElem?_eq_some_iff.1 at_i).1
  refine ⟨i, b, by rw [List.getElem?_append_left hi, at_i], lag'.trans lag, score'.trans score, fun j e' hj => ?_⟩
  rw [score']
  rcases evaluation_of_concat hj with old | ⟨rfl, rfl⟩
  · exact best j e' old
  · exact ⟨le, fun lt => absurd lt (by omega)⟩

/-- One more lag evaluated keeps the rule (R62). -/
theorem AtFirstBest.evaluate {es : List Evaluation} {q : Search} (h : AtFirstBest es q) (later : q.lagsEval ≠ 0)
    (e : Evaluation) : AtFirstBest (es ++ [e]) (evaluate q e) := by
  rcases Nat.lt_or_ge q.bestScore e.score with better | worse
  · obtain ⟨_, _, _, _, _, best⟩ := h
    refine .replaced (.inr better) fun e' he' => ?_
    obtain ⟨j, hj⟩ := List.mem_iff_getElem?.1 he'
    exact (best j e' hj).1.trans_lt better
  · exact h.kept later worse

/-- What the evaluations of a search come to: the count, the sum, and the first best of them (R62, R64). -/
theorem foldl_evaluate {q : Search} (count : q.lagsEval = 0) (sum : q.scoreSum = 0) (es : List Evaluation) :
    (es.foldl evaluate q).lagsEval = es.length ∧
    (es.foldl evaluate q).scoreSum = (es.map Evaluation.score).sum ∧
    (es.foldl evaluate q).nextBlock = q.nextBlock ∧ (es ≠ [] → AtFirstBest es (es.foldl evaluate q)) := by
  induction es using List.reverseRecOn with
  | nil => exact ⟨count, sum, rfl, fun h => absurd rfl h⟩
  | append_singleton es e ih =>
    obtain ⟨counted, summed, block, best⟩ := ih
    rw [List.foldl_concat]
    refine ⟨?_, ?_, block, fun _ => ?_⟩
    · rw [List.length_append, ← counted]
      rfl
    · rw [List.map_append, List.sum_append, ← summed]
      rfl
    · by_cases first : es = []
      · subst first
        exact .replaced (.inl count) fun _ h => absurd h List.not_mem_nil
      · exact (best first).evaluate (by rwa [counted, ne_eq, List.length_eq_zero_iff]) e

/-- Settles O35: the close by its own test, the windows by their bounds, the score as a sum, and the evaluations by
`foldl_evaluate`. -/
theorem sweepFindsFirstBestLag : Obligations.SweepFindsFirstBestLag := by
  refine ⟨fun u c => ⟨fun training sweeping => if_pos ⟨training, sweeping⟩, fun h => if_neg h⟩,
    fun dmin top h => ⟨range_iff_exists_window h, fun i j l hi hj => ?_,
      fun j => ⟨windowLags_ascending .., windowLags_length_le ..⟩⟩, lagScore_eq, ?_⟩
  · rw [mem_windowLags] at hi hj
    omega
  · rintro es q _ count sum some_lag rfl
    obtain ⟨counted, summed, block, best⟩ := foldl_evaluate count sum es
    exact ⟨counted, summed, block, best some_lag⟩

/-! ## The end of a search (R66 to R70) -/

/-- The two conditions of R66. -/
theorem accepted_iff (ratio : Nat) (q : Search) : accepted ratio q = true ↔
    q.bestScore ≠ 0 ∧ ratio * q.scoreSum ≤ q.bestScore * q.lagsEval := by
  rw [accepted, Bool.and_eq_true, bne_iff_ne, decide_eq_true_eq]

theorem sweepComplete_iff (q : Search) : sweepComplete q = true ↔ q.sweepLen ≤ q.nextBlock := decide_eq_true_iff

/-- The taps of a narrowed window are the greatest multiple of 8 that the window's length and the holding have room
for (R68). -/
theorem narrowedTaps_greatest {lf h d : Nat} (room : d + 8 + 39 ≤ 32 * h) (hl : 8 ≤ lf) :
    8 ≤ narrowedTaps lf h d ∧ narrowedTaps lf h d % 8 = 0 ∧ narrowedTaps lf h d ≤ lf ∧
    d + narrowedTaps lf h d + 39 ≤ 32 * h ∧
    ∀ m, m % 8 = 0 → m ≤ lf → d + m + 39 ≤ 32 * h → m ≤ narrowedTaps lf h d := by
  unfold narrowedTaps
  refine ⟨by omega, by omega, by omega, by omega, fun m h8 hm hr => by omega⟩

theorem narrowedTaps_lt {lf h d : Nat} (no_room : 32 * h < d + 8 + 39) : narrowedTaps lf h d < 8 := by
  unfold narrowedTaps
  omega

/-- The far canceller off and nothing held (R68, R69). -/
def farDropped (n : Fin 32) (s : State) : State :=
  (releaseAll n s).modChan n fun c => { c with filt := farOff c.filt }

theorem farDropped_chan (n : Fin 32) (s : State) : (farDropped n s).chan n =
    { s.chan n with filt := farOff (s.chan n).filt, segs := [], poolHist := [] } := by
  rw [farDropped, modChan_chan_self, releaseAll_chan_self]

/-- The delay at which an accepted best lag places the window (R67). -/
def windowDelay (c : Channel) : Nat := placedDelay c.dmin c.search.bestLag

/-- The segments that the whole window takes (R67). -/
def windowTarget (c : Channel) : Nat := segsFor (windowDelay c + c.filt.lf - 1)

/-- The segments a placement brings the channel to (R67). -/
def windowHolding (n : Fin 32) (s : State) : List Nat :=
  broughtTo (windowTarget (s.chan n)) (s.chan n).segs s.pool

/-- The taps that the holding has room for when it falls short (R68). -/
def windowTaps (n : Fin 32) (s : State) : Nat :=
  narrowedTaps (s.chan n).filt.lf (windowHolding n s).length (windowDelay (s.chan n))

/-- A placement: the holding brought to its target, then the whole window, a narrowed one, or none (R67, R68). -/
theorem placeWindow_eq (n : Fin 32) (s : State) : ∃ b p,
    b.chan n = { s.chan n with segs := windowHolding n s, poolHist := p } ∧ b.attn = s.attn ∧
    placeWindow n s =
      if windowTarget (s.chan n) ≤ (windowHolding n s).length then
        b.modChan n fun c => { c with filt := farOn (windowDelay (s.chan n)) c.filt.lf c.filt }
      else if 8 ≤ windowTaps n s then
        (raise (chanSource n) .poolShort b).modChan n fun c =>
          { c with filt := farOn (windowDelay (s.chan n)) (windowTaps n s) c.filt }
      else farDropped n (raise (chanSource n) .poolShort b) := by
  obtain ⟨p, held⟩ := bringHolding_chan n (windowTarget (s.chan n)) s
  refine ⟨bringHolding n (windowTarget (s.chan n)) s, p, held, bringHolding_attn .., ?_⟩
  have length := congrArg (fun c : Channel => c.segs.length) held
  unfold placeWindow
  dsimp only at length ⊢
  rw [← windowDelay, ← windowTarget, length]
  rfl

/-- The window placed whole (R67). -/
theorem placeWindow_whole (h : windowTarget (s.chan n) ≤ (windowHolding n s).length) :
    (∃ p, (placeWindow n s).chan n = { s.chan n with
      segs := windowHolding n s, poolHist := p,
      filt := farOn (windowDelay (s.chan n)) (s.chan n).filt.lf (s.chan n).filt }) ∧
    (placeWindow n s).attn = s.attn := by
  obtain ⟨b, p, held, attn, placed⟩ := placeWindow_eq n s
  rw [placed, if_pos h]
  exact ⟨⟨p, by rw [modChan_chan_self, held]⟩, attn⟩

/-- The window narrowed to what the holding has room for (R68). -/
theorem placeWindow_narrowed (short : (windowHolding n s).length < windowTarget (s.chan n))
    (h : 8 ≤ windowTaps n s) :
    (∃ p, (placeWindow n s).chan n = { s.chan n with
      segs := windowHolding n s, poolHist := p,
      filt := farOn (windowDelay (s.chan n)) (windowTaps n s) (s.chan n).filt }) ∧
    (placeWindow n s).attn = attnRaise (chanSource n) .poolShort s.attn := by
  obtain ⟨b, p, held, attn, placed⟩ := placeWindow_eq n s
  rw [placed, if_neg (Nat.not_le.2 short), if_pos h]
  exact ⟨⟨p, by rw [modChan_chan_self, raise_chan, held]⟩, by rw [modChan_attn, raise_attn, attn]⟩

/-- No window placed, for want of room (R68). -/
theorem placeWindow_none (short : (windowHolding n s).length < windowTarget (s.chan n))
    (h : windowTaps n s < 8) :
    (placeWindow n s).chan n = { s.chan n with filt := farOff (s.chan n).filt, segs := [], poolHist := [] } ∧
    (placeWindow n s).attn = attnRaise (chanSource n) .poolShort s.attn := by
  obtain ⟨b, p, held, attn, placed⟩ := placeWindow_eq n s
  rw [placed, if_neg (Nat.not_le.2 short), if_neg (Nat.not_le.2 h)]
  refine ⟨by rw [farDropped_chan, raise_chan, held], ?_⟩
  show attnRaise _ _ b.attn = _
  rw [attn]

/-- The state of an ended search's window: placed where the best lag is accepted, else dropped (R66, R67, R69). -/
def windowSettled (n : Fin 32) (s : State) : State :=
  if accepted (s.chan n).ratio (s.chan n).search = true then placeWindow n s else farDropped n s

/-- The channel and the attention unit at a search's end (R66, R70). -/
theorem endSearch_effects (n : Fin 32) (s : State) :
    (endSearch n s).chan n = { (windowSettled n s).chan n with
      statusDue := true
      search := { ((windowSettled n s).chan n).search with
        sweeping := false
        lastResult := endResult (sweepComplete (s.chan n).search) (accepted (s.chan n).ratio (s.chan n).search)
        lastBestLag := (s.chan n).search.bestLag } } ∧
    (endSearch n s).attn = attnRaise (chanSource n) .farResult (windowSettled n s).attn := by
  refine ⟨?_, rfl⟩
  unfold endSearch
  dsimp only
  rw [raise_chan, modChan_chan_self]
  rfl

/-- The result by completion and acceptance (R66). -/
theorem endSearch_result {acc : Prop} (hacc : acc ↔ accepted (s.chan n).ratio (s.chan n).search = true) :
    (acc → (s.chan n).search.sweepLen ≤ (s.chan n).search.nextBlock →
      ((endSearch n s).chan n).search.lastResult = .found) ∧
    (acc → (s.chan n).search.nextBlock < (s.chan n).search.sweepLen →
      ((endSearch n s).chan n).search.lastResult = .cutShort) ∧
    (¬ acc → (s.chan n).search.sweepLen ≤ (s.chan n).search.nextBlock →
      ((endSearch n s).chan n).search.lastResult = .rejected) ∧
    (¬ acc → (s.chan n).search.nextBlock < (s.chan n).search.sweepLen →
      ((endSearch n s).chan n).search.lastResult = .cutRejected) := by
  have complete {q : Search} (h : q.sweepLen ≤ q.nextBlock) : sweepComplete q = true := (sweepComplete_iff q).2 h
  have cut {q : Search} (h : q.nextBlock < q.sweepLen) : sweepComplete q = false :=
    Bool.eq_false_iff.2 fun e => absurd ((sweepComplete_iff q).1 e) (Nat.not_le.2 h)
  rw [hacc, (endSearch_effects n s).1, Bool.not_eq_true]
  refine ⟨fun ha hq => ?_, fun ha hq => ?_, fun ha hq => ?_, fun ha hq => ?_⟩
  · rw [ha, complete hq]; rfl
  · rw [ha, cut hq]; rfl
  · rw [ha, complete hq]; rfl
  · rw [ha, cut hq]; rfl

/-- Settles O36: the result by `endSearch_result`, then the window not accepted, whole, narrowed and without room. -/
theorem searchEndPlacesWindow : Obligations.SearchEndPlacesWindow := by
  rintro n s t _ _ acc delay p k rfl hacc hdelay hp hk hmin hlf rfl rfl
  rw [← accepted_iff] at hacc
  obtain ⟨settled, raised⟩ := endSearch_effects n s
  obtain ⟨found, cutShort, rejected, cutRejected⟩ := endSearch_result hacc
  have delayed : windowDelay (s.chan n) = delay := hdelay.symm
  have target : windowTarget (s.chan n) = p := by rw [windowTarget, delayed, hp]; rfl
  have length : (windowHolding n s).length = k := by rw [windowHolding, broughtTo_length, target, hk]
  have taps : windowTaps n s = narrowedTaps (s.chan n).filt.lf k delay := by rw [windowTaps, length, delayed]
  have placed (h : acc) : windowSettled n s = placeWindow n s := if_pos (hacc.1 h)
  refine ⟨by rw [settled], by rw [settled], found, cutShort, rejected, cutRejected, fun not_acc => ?_,
    fun ha whole => ?_, fun ha short => ?_, endSearch_stillOp.op.others⟩
  · rw [settled, raised, windowSettled, if_neg (mt hacc.2 not_acc), farDropped_chan]
    exact ⟨rfl, rfl, rfl, rfl⟩
  · obtain ⟨⟨_, window⟩, attn⟩ := placeWindow_whole (n := n) (s := s) (by rw [target, length, whole])
    have reach : delay + (s.chan n).filt.lf - 1 + 40 ≤ 32 * p := (segsFor_le_iff _ p).1 hp.ge
    rw [settled, raised, placed ha, window, attn]
    exact ⟨delayed, rfl, length.trans whole, by omega, rfl⟩
  · have short' : (windowHolding n s).length < windowTarget (s.chan n) := by rwa [length, target]
    rw [settled, raised, placed ha]
    rcases Nat.lt_or_ge (32 * k) (delay + 8 + 39) with no_room | room
    · obtain ⟨window, attn⟩ := placeWindow_none short' (taps.trans_lt (narrowedTaps_lt no_room))
      rw [window, attn]
      exact ⟨rfl, fun room => absurd room (Nat.not_le.2 no_room), fun _ => ⟨rfl, rfl, rfl⟩⟩
    · obtain ⟨some_taps, by_eight, within, fits, greatest⟩ := narrowedTaps_greatest room hlf
      obtain ⟨⟨_, window⟩, attn⟩ := placeWindow_narrowed short' (some_taps.trans_eq taps.symm)
      rw [window, attn, taps]
      exact ⟨rfl, fun _ => ⟨delayed, some_taps, by_eight, within, fits, greatest, length⟩,
        fun no_room => absurd no_room (Nat.not_lt.2 room)⟩

end Sys2Proof.Machine

/-! Proofs about a maintenance visit: what it leaves of an empty bus script, the order in which it serves, and what
its store step looks for and takes (R88, R89, R136, R140 to R142, R152, R160). -/

namespace Sys2Proof.Machine

variable {s t : State} {n : Fin 32}

/-! ## Descriptor 32's status area under an empty script (R151, R158) -/

/-- A half-word read where a half-word was written. -/
theorem memSetHalf_low (a : Word) (v : BitVec 16) {m : Memory} (h : m.wf) :
    (memWord (memSetHalf m a v) a).extractLsb' 0 16 = v := by
  have first := memWrite_wf (b := v.extractLsb' 0 8) a.isLt h
  have apart : a.toNat ≠ (a + 1#32).toNat := by
    have ne := word_add_ne a (i := 0) (j := 1) (by omega) (by omega) (by omega)
    rwa [BitVec.add_zero] at ne
  have low : memRead (memSetHalf m a v) a.toNat = v.extractLsb' 0 8 := by
    rw [memSetHalf, memWriteBytes, memWriteBytes, memWriteBytes, memRead_memWrite _ first, if_neg apart,
      memRead_memWrite _ h, if_pos rfl]
  have high : memRead (memSetHalf m a v) (a + 1#32).toNat = v.extractLsb' 8 8 := by
    rw [memSetHalf, memWriteBytes, memWriteBytes, memWriteBytes, memRead_memWrite _ first, if_pos rfl]
  refine BitVec.eq_of_toNat_eq ?_
  have bound := v.isLt
  rw [memWord, low, high]
  simp only [wordOfBytes, append_toNat, BitVec.extractLsb'_toNat, Nat.shiftRight_eq_div_pow]
  omega

/-- Memory behind a status write of descriptor 32: nothing while the table base is 0 (R152, R158). -/
def maintArea (s : State) : Memory :=
  if s.tableBase = 0#24 then s.mem
  else memSetHalf (memSetWord s.mem (s.desc 32 + 128#32) (maintWord s.maint)) (s.desc 32 + 132#32)
    (BitVec.ofNat 16 s.maint.imageLen)

/-- A status write of descriptor 32 under an empty script. -/
theorem maintStatus_idle (h : s.bus = []) : maintStatus s = (true, { s with mem := maintArea s }) := by
  unfold maintStatus maintArea
  dsimp only
  rw [writeDesc_idle _ _ _ h, maintWord_eq, descMemory]
  dsimp only
  by_cases hb : s.tableBase = 0#24
  · rw [if_pos hb, if_pos hb, if_pos hb]
  · rw [if_neg hb, if_neg hb, if_neg hb]
    simp only [writeHalf, busSlot, h]
    rfl

theorem maintArea_shown (hw : MemLegal s) (hb : s.tableBase ≠ 0#24) : MaintShown { s with mem := maintArea s } := by
  have word := memSetWord_wf (s.desc 32 + 128#32) (maintWord s.maint) hw
  have kept : memWord (maintArea s) (s.desc 32 + 128#32) = maintWord s.maint := by
    rw [maintArea, if_neg hb]
    refine (memWord_congr fun k hk => memRead_memWriteBytes_ne _ _ word _ ?_).trans (memWord_memSetWord _ _ hw)
    exact apart_offsets (s.desc 32) (a := 128) (la := 4) (b := 132) (lb := 2) (by omega) (by omega) (.inl (by omega)) k hk
  refine ⟨kept, ?_⟩
  show (memWord (maintArea s) (s.desc 32 + 132#32)).extractLsb' 0 16 = _
  rw [maintArea, if_neg hb]
  exact memSetHalf_low _ _ word

theorem maintArea_frame (hw : MemLegal s) (x : Nat) (hx : Outside (s.desc 32 + 128#32) 6 x) :
    memRead (maintArea s) x = memRead s.mem x := by
  have half : Outside (s.desc 32 + 132#32) 2 x := by
    have part := outside_part hx (o := 4) (l := 2) (by omega)
    rwa [BitVec.add_assoc] at part
  have kept := memRead_memWriteBytes_ne [(BitVec.ofNat 16 s.maint.imageLen).extractLsb' 0 8,
    (BitVec.ofNat 16 s.maint.imageLen).extractLsb' 8 8] (s.desc 32 + 132#32)
    (memSetWord_wf (s.desc 32 + 128#32) (maintWord s.maint) hw) x half
  unfold maintArea
  split
  · rfl
  · exact kept.trans (memRead_memSetWord_ne _ _ hw x fun k hk => hx k (by omega))

/-! ## An empty script stays empty (log 1) -/

theorem maintStatus_bus (h : s.bus = []) : (maintStatus s).2.bus = [] := by
  rw [maintStatus_idle h]
  exact h

theorem chainFault_bus (h : s.bus = []) : (chainFault s).bus = [] := maintStatus_bus h

theorem completeStore_bus {a : Word} {notify : Bool} {r : StoreResult} {k : Nat} (h : s.bus = []) :
    (completeStore a notify r k s).bus = [] := by
  unfold completeStore
  dsimp only
  split
  · next results => exact chainFault_bus ((EventOp.of_writeWords results).idle h)
  · next results =>
    have told := (EventOp.of_writeWords results).idle h
    split
    · next done => exact chainFault_bus ((EventOp.of_writeWord done).idle told)
    · next done =>
      have marked := (EventOp.of_writeWord done).idle told
      split
      · next link =>
        rw [raiseIf_bus]
        exact chainFault_bus ((EventOp.of_readWord link).idle marked)
      · next link =>
        have read := (EventOp.of_readWord link).idle marked
        split
        · exact maintStatus_bus (by rw [raiseIf_bus]; exact read)
        · exact maintStatus_bus (by rw [raiseIf_bus]; exact read)
        · rw [raiseIf_bus]
          exact chainFault_bus read

theorem importVisit_bus {f : InFlightStore} {i : Fin 48} (h : s.bus = []) : (importVisit f i s).bus = [] := by
  unfold importVisit
  dsimp only
  rw [readWords_nil _ _ h]
  dsimp only
  split
  · exact maintStatus_bus h
  · exact completeStore_bus h

theorem exportVisit_bus {f : InFlightStore} {i : Fin 48} (h : s.bus = []) : (exportVisit f i s).bus = [] := by
  unfold exportVisit
  dsimp only
  rw [writeWords_nil _ _ h]
  dsimp only
  split
  · exact maintStatus_bus h
  · exact completeStore_bus h

theorem startImport_bus {a buffer tag : Word} {notify : Bool} (h : s.bus = []) :
    (startImport a buffer tag notify s).bus = [] := by
  unfold startImport
  rw [readWords_nil _ _ h]
  dsimp only
  split
  · exact completeStore_bus h
  · split
    · exact completeStore_bus h
    · exact importVisit_bus h

theorem startExport_bus {a buffer tag : Word} {notify : Bool} (h : s.bus = []) :
    (startExport a buffer tag notify s).bus = [] := by
  unfold startExport
  dsimp only
  split
  · exact completeStore_bus h
  · split
    · exact completeStore_bus h
    · exact exportVisit_bus h

theorem performDirective_bus {a tag buffer : Word} {code : Nat} {notify : Bool} (h : s.bus = []) :
    (performDirective a code notify tag buffer s).bus = [] := by
  unfold performDirective
  split
  · exact completeStore_bus h
  · split
    · exact completeStore_bus h
    · exact completeStore_bus h
    · exact completeStore_bus h
    · rw [performList, writeWords_nil _ _ h]
      exact completeStore_bus h
    · exact startImport_bus h
    · exact startExport_bus h

/-! ## What the store step looks for and takes (R141, R142) -/

/-- The part with its chain WAITING. -/
def storeWaiting (s : State) : State := { s with maint := { s.maint with chain := .waiting } }

/-- The part with its chain WALKING. -/
def storeWalking (s : State) : State := { s with maint := { s.maint with chain := .walking } }

/-- The part with its chain's cursor at the record `b`. -/
def storeMoved (b : Word) (s : State) : State :=
  { s with maint := { s.maint with cursor := b, mode := .atRecord } }

/-- The state in which the directive of a store record at `a` is performed: the record TAKEN, the chain WALKING. -/
def storeTaken (a : Word) (s : State) : State := { storeWalking s with mem := memSetWord s.mem a dispTaken }

theorem waitStore_eq (s : State) : waitStore s =
    if s.maint.chain = .waiting then s else (maintStatus (storeWaiting s)).2 := rfl

/-- A POSTED store record taken under an empty script (R142). -/
theorem takeStore_idle (a : Word) (h : s.bus = []) (hw : MemLegal s) : takeStore a s =
    performDirective a (field (memWord s.mem (a + 8#32)) 0 8) (flag (memWord s.mem (a + 8#32)) 8)
      (memWord s.mem (a + 12#32)) (memWord s.mem (a + 16#32)) (storeTaken a s) := by
  have kept : ∀ p, 4 ≤ p → p ≤ 16 → memWord (storeTaken a s).mem (a + BitVec.ofNat 32 p) =
      memWord s.mem (a + BitVec.ofNat 32 p) := fun p h4 hp => memWord_memSetWord_first a _ hw (by omega) h4
  have words : memWords 3 (a + 8#32) (storeTaken a s).mem =
      [memWord s.mem (a + 8#32), memWord s.mem (a + 12#32), memWord s.mem (a + 16#32)] := by
    rw [← kept 8 (by omega) (by omega), ← kept 12 (by omega) (by omega), ← kept 16 (by omega) (by omega)]
    simp only [memWords, BitVec.add_assoc]
    rfl
  have mark : writeWord a dispTaken (storeWalking s) = (true, storeTaken a s) := writeWord_nil a dispTaken h
  have read : readWords 3 (a + 8#32) (storeTaken a s) = (some _, storeTaken a s) := readWords_nil 3 (a + 8#32) h
  rw [words] at read
  unfold takeStore
  rw [← storeWalking]
  dsimp only
  rw [mark]
  dsimp only
  rw [read]
  rfl

/-- No POSTED record: the chain waits (R141). -/
theorem waitStore_waits (h : s.bus = []) (hw : MemLegal s) (hb : s.tableBase ≠ 0#24) : StoreWaits s (waitStore s) := by
  rw [waitStore_eq]
  by_cases hc : s.maint.chain = .waiting
  · rw [if_pos hc]
    refine ⟨?_, fun _ => rfl, fun h => absurd hc h, fun _ _ => rfl⟩
    rw [← hc]
  · rw [if_neg hc, maintStatus_idle (s := storeWaiting s) h]
    exact ⟨rfl, fun h => absurd h hc, fun _ => maintArea_shown (s := storeWaiting s) hw hb,
      maintArea_frame (s := storeWaiting s) hw⟩

/-- A look at a store record under an empty script (R141). -/
theorem lookAtStore_idle (h : s.bus = []) : lookAtStore s =
    if memWord s.mem s.maint.cursor = 1#32 then takeStore s.maint.cursor s else waitStore s := by
  rw [lookAtStore, readWord_nil _ h]
  rfl

theorem linkStep_moves {link : Word} (h0 : link ≠ 0#32) (h : link.toNat % 4 = 0) : linkStep link = .moveTo link := by
  rw [linkStep, if_neg h0, if_pos ((aligned_iff link).2 h)]

theorem findStore_atRecord (hm : s.maint.mode = .atRecord) : findStore s = lookAtStore s := by
  rw [findStore, hm]

/-- A watched store record whose link leads nowhere yet (R88, R141). -/
theorem findStore_waits (h : s.bus = []) (hm : s.maint.mode = .watching)
    (h0 : memWord s.mem (s.maint.cursor + 4#32) = 0#32) : findStore s = waitStore s := by
  have step : linkStep (memWord s.mem (s.maint.cursor + 4#32)) = .watch := if_pos h0
  simp only [findStore, hm, readWord_nil _ h, step]

/-- A watched store record whose link leads on: the record there is looked at in the same step (R88, R141). -/
theorem findStore_moves {link : Word} (h : s.bus = []) (hm : s.maint.mode = .watching)
    (hl : link = memWord s.mem (s.maint.cursor + 4#32)) (h0 : link ≠ 0#32) (ha : link.toNat % 4 = 0) :
    findStore s = lookAtStore (storeMoved link s) := by
  simp only [findStore, hm, readWord_nil _ h, ← hl, linkStep_moves h0 ha]
  rfl

/-- The chain is open and not faulted (R141). -/
def Works (s : State) : Prop := s.maint.chain = .walking ∨ s.maint.chain = .waiting

theorem storeStep_works (h : Works s) : storeStep s = workStore s := by
  rcases h with h | h <;> rw [storeStep, h]

theorem storeStep_rests (h : s.maint.chain = .idle ∨ s.maint.chain = .faulted) : storeStep s = s := by
  rcases h with h | h <;> rw [storeStep, h]

theorem workStore_finds (h : s.maint.inflight = none) : workStore s = findStore s := by
  rw [workStore, h]

/-- A transfer in flight goes on (R141). -/
theorem workStore_transfers {f : InFlightStore} {i : Fin 48} (hf : s.maint.inflight = some f)
    (hi : s.maint.target = some i) : (f.kind = .importImage → workStore s = importVisit f i s) ∧
      (f.kind = .exportImage → workStore s = exportVisit f i s) := by
  simp only [workStore, transferVisit, hf, hi]
  exact ⟨fun h => by rw [h], fun h => by rw [h]⟩

theorem takeStore_bus {a : Word} (h : s.bus = []) : (takeStore a s).bus = [] := by
  unfold takeStore
  dsimp only
  split
  · next mark => exact chainFault_bus ((EventOp.of_writeWord mark).idle h)
  · next mark =>
    have marked := (EventOp.of_writeWord mark).idle h
    split
    · next words => exact chainFault_bus ((EventOp.of_readWords words).idle marked)
    · next words => exact performDirective_bus ((EventOp.of_readWords words).idle marked)

theorem waitStore_bus (h : s.bus = []) : (waitStore s).bus = [] := by
  rw [waitStore_eq]
  split
  · exact h
  · exact maintStatus_bus h

theorem lookAtStore_bus (h : s.bus = []) : (lookAtStore s).bus = [] := by
  rw [lookAtStore_idle h]
  split
  · exact takeStore_bus h
  · exact waitStore_bus h

theorem findStore_bus (h : s.bus = []) : (findStore s).bus = [] := by
  unfold findStore
  split
  · exact lookAtStore_bus h
  · split
    · next link => exact chainFault_bus ((EventOp.of_readWord link).idle h)
    · next link =>
      have read := (EventOp.of_readWord link).idle h
      split
      · exact waitStore_bus read
      · exact lookAtStore_bus read
      · exact chainFault_bus read

theorem workStore_bus (h : s.bus = []) : (workStore s).bus = [] := by
  unfold workStore
  split
  · unfold transferVisit
    split
    · exact h
    · split
      · exact importVisit_bus h
      · exact exportVisit_bus h
  · exact findStore_bus h

theorem storeStep_bus (h : s.bus = []) : (storeStep s).bus = [] := by
  unfold storeStep
  split
  · exact h
  · exact h
  · exact workStore_bus h
  · exact workStore_bus h

/-! ## Descriptors served under an empty script -/

theorem answer_bus {d : Fin 33} {src : Fin 34} {r : Response} (h : s.bus = []) : (answer d src r s).bus = [] := by
  rw [answer_idle _ _ _ h]
  exact h

theorem answerAfter_bus {d : Fin 33} {src : Fin 34} {r : Response} {w : Bool × State} (h : w.2.bus = []) :
    (answerAfter d src r w).bus = [] := by
  unfold answerAfter
  split
  · exact answer_bus h
  · exact h

theorem statusWrite_bus (h : s.bus = []) : (statusWrite n s).2.bus = [] := statusWrite_eventOp.idle h

theorem serveOpen_bus (h : s.bus = []) : (serveOpen n s).bus = [] := by
  obtain ⟨r, phases, read⟩ := readOpen_idle (n := n) h
  unfold serveOpen
  rw [read]
  dsimp only
  split
  · exact answer_bus h
  · have accepted : (acceptOpen n r phases s).bus = [] := ((acceptOpen_blind n r phases).bus s).trans h
    refine answerAfter_bus ?_
    rw [openStatus_eq]
    exact (writeDesc_eventOp ..).idle accepted

theorem completeClosed_bus (h : s.bus = []) : (completeClosed n s).2.bus = [] := by
  obtain ⟨m, a, -, quits⟩ := completeClosed_quits (n := n) (.inl ⟨h, rfl⟩)
  rw [quits]

theorem saveAtClose_bus (n : Fin 32) (s : State) : (saveAtClose n s).bus = s.bus := by
  obtain ⟨o, st, a, due, -, form⟩ := saveAtClose_saved n s
  rw [form]
  rfl

theorem serveClose_bus (h : s.bus = []) : (serveClose n s).bus = [] := by
  have ended := completeClosed_bus (n := n) h
  unfold serveClose
  split
  · exact answer_bus h
  · exact answerAfter_bus (statusWrite_bus h)
  all_goals
    split
    · next w hc =>
      rw [hc] at ended
      exact answerAfter_bus (statusWrite_bus ((saveAtClose_bus n w).trans ended))
    · next w hc =>
      rw [hc] at ended
      exact answerAfter_bus (statusWrite_bus ended)

theorem serveChannel_bus (h : s.bus = []) : (serveChannel s n).bus = [] := by
  unfold serveChannel
  rw [readWord_nil _ h]
  dsimp only
  split
  · exact h
  · exact serveOpen_bus h
  · exact serveClose_bus h
  · exact answer_bus h

theorem maintOpen_bus (h : s.bus = []) : (maintOpen s).bus = [] := by
  unfold maintOpen
  rw [readWord_nil _ h]
  dsimp only
  rw [readWord_nil _ h]
  dsimp only
  split
  · exact answer_bus h
  · split
    · exact answer_bus h
    · exact answerAfter_bus (maintStatus_bus h)

theorem abandonRecord_bus {f : InFlightStore} (h : s.bus = []) : (abandonRecord f s).2.bus = [] := by
  unfold abandonRecord
  split
  · next results => exact (EventOp.of_writeWords results).idle h
  · next results => exact (writeWord_eventOp _ _).idle ((EventOp.of_writeWords results).idle h)

theorem abandonInFlight_bus (h : s.bus = []) : (abandonInFlight s).bus = [] := by
  unfold abandonInFlight
  split
  · exact h
  · next f _ =>
    have ended := abandonRecord_bus (f := f) h
    split
    · next hr =>
      rw [hr] at ended
      exact ended
    · next hr =>
      rw [hr] at ended
      exact ended

theorem maintClose_bus (h : s.bus = []) : (maintClose s).bus = [] := by
  unfold maintClose
  split
  · exact answer_bus h
  · exact answerAfter_bus (maintStatus_bus (abandonInFlight_bus h))

theorem serveMaint_bus (h : s.bus = []) : (serveMaint s).bus = [] := by
  unfold serveMaint
  rw [readWord_nil _ h]
  dsimp only
  split
  · exact h
  · exact maintOpen_bus h
  · exact maintClose_bus h
  · exact answer_bus h

theorem serveChannels_bus (l : List (Fin 32)) (h : s.bus = []) : (l.foldl serveChannel s).bus = [] := by
  induction l generalizing s with
  | nil => exact h
  | cons n l ih => exact ih (serveChannel_bus h)

theorem visit_bus (h : s.bus = []) : (visit s).bus = [] := by
  unfold visit
  refine storeStep_bus ?_
  split
  · exact h
  · exact serveMaint_bus (serveChannels_bus _ h)

/-! ## Visits -/

theorem visit_noTable (h : s.tableBase = 0#24) : visit s = storeStep s := by
  rw [visit, if_pos h]

theorem visit_serves (h : s.tableBase ≠ 0#24) :
    visit s = storeStep (serveMaint ((List.finRange 32).foldl serveChannel s)) := by
  rw [visit, if_neg h]
  rfl

/-- A line channel without a request is left as it is (R155). -/
theorem serveChannel_none (h : s.bus = []) (hr : NoRequest s) : serveChannel s n = s :=
  (serveChannel_by_code (readWord_nil _ h)).1 (congrArg BitVec.toNat (hr (chanDesc n)))

theorem serveChannels_none (l : List (Fin 32)) (h : s.bus = []) (hr : NoRequest s) : l.foldl serveChannel s = s := by
  induction l with
  | nil => rfl
  | cons n l ih => rw [List.foldl_cons, serveChannel_none h hr, ih]

theorem serveMaint_none (h : s.bus = []) (hr : NoRequest s) : serveMaint s = s := by
  have code : field (memWord s.mem (s.desc 32)) 0 8 = 0 := congrArg BitVec.toNat (hr 32)
  unfold serveMaint
  rw [readWord_nil _ h]
  dsimp only
  rw [code]
  rfl

/-- With no request a visit is its store step (R136). -/
theorem visit_noRequest (h : s.bus = []) (hr : NoRequest s) : visit s = storeStep s := by
  by_cases hb : s.tableBase = 0#24
  · exact visit_noTable hb
  · rw [visit_serves hb, serveChannels_none _ h hr, serveMaint_none h hr]

/-- MAINTENANCE_VISIT on an enabled part (R136). -/
theorem exec_visit (bus : Bus) (on : s.enabled = true) :
    exec (.maintenanceVisit bus) s = .next (onBus bus visit s) :=
  congrArg Host.Outcome.next (onBus_congr (if_pos on))

/-- MAINTENANCE_VISIT under an empty script (R136, log 6). -/
theorem exec_visit_idle (h : s.bus = []) :
    exec (.maintenanceVisit []) s = .next (if s.enabled = true then visit s else s) := by
  refine congrArg Host.Outcome.next (onBus_idle (f := fun s => if s.enabled = true then visit s else s) h ?_)
  show (if s.enabled = true then visit s else s).bus = []
  split
  · exact visit_bus h
  · exact h

/-- Settles O45: the order by `visit_serves` and `visit_noRequest`, the store step by its branches. -/
theorem visitServesInOrder : Obligations.VisitServesInOrder := by
  refine ⟨fun s h => ⟨_, exec_visit_idle h, fun off => ?_, fun on hb => ?_, fun on hb => ?_, fun on hr => ?_,
    fun on hr rests => ?_⟩, fun bus s on hb => ⟨_, rfl, ?_⟩, ?_⟩
  · rw [if_neg (by rw [off]; exact Bool.false_ne_true)]
  · rw [if_pos on, visit_noTable hb]
  · rw [if_pos on, visit_serves hb]
  · rw [if_pos on, visit_noRequest h hr]
  · rw [if_pos on, visit_noRequest h hr, storeStep_rests rests]
  · have serves := visit_serves (s := { s with bus := bus }) hb
    rw [exec_visit bus on, ← serves]
    rfl
  · rintro s _ _ _ _ h hw hb works rfl rfl rfl rfl
    rw [storeStep_works works]
    refine ⟨fun f i => workStore_transfers, fun hf hm => ⟨fun h0 => ?_, fun h0 hl => ?_⟩,
      fun hf hm => ⟨fun hp => ?_, fun hp => ⟨storeTaken s.maint.cursor s, rfl, ?_, ?_, ?_⟩⟩⟩
    · rw [workStore_finds hf, findStore_waits h hm h0]
      exact waitStore_waits h hw hb
    · have moved : Works (storeMoved (memWord s.mem (s.maint.cursor + 4#32)) s) := works
      rw [workStore_finds hf, findStore_moves h hm rfl h0 hl]
      exact ((storeStep_works moved).trans (workStore_finds hf)).symm
    all_goals
      have look : workStore s = lookAtStore s := (workStore_finds hf).trans (findStore_atRecord hm)
    · rw [look, lookAtStore_idle h, if_neg hp]
      exact waitStore_waits h hw hb
    · exact memWord_memSetWord _ _ hw
    · exact memRead_memSetWord_ne _ _ hw
    · rw [look, lookAtStore_idle h, if_pos hp]
      exact takeStore_idle _ h hw

end Sys2Proof.Machine

/-! Proofs about host writes between the part's accesses, access by access: what each access of a script meets, and
that a part which has yet to make its first access does the same behind that access's host writes (R88 to R90, R100,
R101, R171, R172; log 1). -/

namespace Sys2Proof.Machine

variable {n : Fin 32} {s u : State} {slot : BusSlot} {rest : Bus}

/-! ## Host writes, byte by byte -/

/-- A byte behind a write depends on that byte alone. -/
theorem memRead_memWriteBytes_congr (bs : List Byte) (a : Word) {m m' : Memory} (h : m.wf) (h' : m'.wf) {x : Nat}
    (e : memRead m x = memRead m' x) : memRead (memWriteBytes bs a m) x = memRead (memWriteBytes bs a m') x := by
  induction bs generalizing a m m' with
  | nil => exact e
  | cons b bs ih =>
    refine ih _ (memWrite_wf a.isLt h) (memWrite_wf a.isLt h') ?_
    rw [memRead_memWrite x h, memRead_memWrite x h', e]

theorem memRead_applyHost_congr (ws : List HostWrite) {m m' : Memory} (h : m.wf) (h' : m'.wf) {x : Nat}
    (e : memRead m x = memRead m' x) : memRead (applyHost ws m) x = memRead (applyHost ws m') x := by
  induction ws generalizing m m' with
  | nil => exact e
  | cons w ws ih =>
    exact ih (memWriteBytes_wf _ _ h) (memWriteBytes_wf _ _ h') (memRead_memWriteBytes_congr w.bytes w.addr h h' e)

/-- A byte behind the host's writes depends on that byte alone. -/
theorem memRead_hostMemory_congr (bus : Bus) {m m' : Memory} (h : m.wf) (h' : m'.wf) {x : Nat}
    (e : memRead m x = memRead m' x) : memRead (hostMemory bus m) x = memRead (hostMemory bus m') x := by
  induction bus generalizing m m' with
  | nil => exact e
  | cons slot bus ih =>
    exact ih (applyHost_wf _ h) (applyHost_wf _ h') (memRead_applyHost_congr slot.host h h' e)

/-! ## One access and its slot -/

/-- The state behind the host writes of the slot of an access (log 1). -/
def behindSlot (slot : BusSlot) (rest : Bus) (s : State) : State :=
  { s with bus := rest, mem := hostMemory [slot] s.mem }

/-- An access of any slot: its host writes, then the access or its error (R100, R103). -/
theorem access_slot (h : s.bus = slot :: rest) (a v : Word) (w : BitVec 16) :
    readWord a s = (if slot.err then none else some (memWord (behindSlot slot rest s).mem a), behindSlot slot rest s) ∧
    writeWord a v s = (!slot.err, if slot.err then behindSlot slot rest s
      else { behindSlot slot rest s with mem := memSetWord (behindSlot slot rest s).mem a v }) ∧
    writeHalf a w s = (!slot.err, if slot.err then behindSlot slot rest s
      else { behindSlot slot rest s with mem := memSetHalf (behindSlot slot rest s).mem a w }) := by
  simp only [readWord, writeWord, writeHalf, busSlot_cons h]
  cases slot.err <;> exact ⟨rfl, rfl, rfl⟩

theorem readWord_slot (h : s.bus = slot :: rest) (he : slot.err = false) (a : Word) :
    readWord a s = (some (memWord (hostMemory [slot] s.mem) a), behindSlot slot rest s) := by
  obtain ⟨read, -, -⟩ := access_slot h a 0#32 0#16
  rw [read, he]
  rfl

theorem writeWord_slot (h : s.bus = slot :: rest) (he : slot.err = false) (a v : Word) : writeWord a v s =
    (true, { s with bus := rest, mem := memSetWord (hostMemory [slot] s.mem) a v }) := by
  obtain ⟨-, write, -⟩ := access_slot h a v 0#16
  rw [write, he]
  rfl

theorem readWord_still (h : s.bus = ⟨[], false⟩ :: rest) (a : Word) :
    readWord a s = (some (memWord s.mem a), { s with bus := rest }) := readWord_slot h rfl a

theorem writeWord_still (h : s.bus = ⟨[], false⟩ :: rest) (a v : Word) :
    writeWord a v s = (true, { s with bus := rest, mem := memSetWord s.mem a v }) := writeWord_slot h rfl a v

/-! ## A script with the host's writes in one slot -/

/-- A script whose access number `k`, counted from 0, has the one slot with host writes. -/
def SlotAt (k : Nat) (slot : BusSlot) : Bus := List.replicate k ⟨[], false⟩ ++ [slot]

/-- Words read, the host's writes coming at word `k` of them. -/
theorem readWords_slotAt (he : slot.err = false) (j : Nat) (a : Word) {k : Nat} (h : s.bus = SlotAt k slot)
    (hk : k < j) : readWords j a s =
      (some ((List.range j).map fun i => memWord (if i < k then s.mem else hostMemory [slot] s.mem)
        (a + BitVec.ofNat 32 (4 * i))), behindSlot slot [] s) := by
  induction j generalizing a k s with
  | zero => omega
  | succ j ih =>
    have next : ∀ i, a + 4#32 + BitVec.ofNat 32 (4 * i) = a + BitVec.ofNat 32 (4 * (i + 1)) := fun i => by
      rw [add_ofNat_ofNat, Nat.mul_succ, Nat.add_comm]
    rw [List.range_succ_eq_map, List.map_cons, List.map_map, Nat.mul_zero, BitVec.add_zero, readWords]
    cases k with
    | zero =>
      have words := readWords_nil (s := behindSlot slot [] s) j (a + 4#32) rfl
      rw [memWords_eq_map] at words
      rw [readWord_slot (rest := []) h he]
      dsimp only
      rw [words]
      simp only [next]
      rfl
    | succ k =>
      rw [readWord_still (rest := SlotAt k slot) h]
      dsimp only
      rw [ih (s := { s with bus := SlotAt k slot }) _ rfl (by omega)]
      simp only [next, Function.comp_def, Nat.succ_eq_add_one, Nat.add_lt_add_iff_right]
      rfl

/-- Words read before the host's writes. -/
theorem readWords_before_slot (j : Nat) (a : Word) {k : Nat} (h : s.bus = SlotAt (j + k) slot) :
    readWords j a s = (some (memWords j a s.mem), { s with bus := SlotAt k slot }) := by
  induction j generalizing a s with
  | zero =>
    rw [Nat.zero_add] at h
    rw [← h]
    rfl
  | succ j ih =>
    rw [Nat.succ_add] at h
    rw [readWords, readWord_still (rest := SlotAt (j + k) slot) h]
    dsimp only
    rw [ih (s := { s with bus := SlotAt (j + k) slot }) _ rfl]
    rfl

/-- Words written before the host's writes. -/
theorem writeWords_before_slot (ws : List Word) (a : Word) {k : Nat} (h : s.bus = SlotAt (ws.length + k) slot) :
    writeWords ws a s = (true, { s with mem := memSetWords ws a s.mem, bus := SlotAt k slot }) := by
  induction ws generalizing a s with
  | nil =>
    rw [List.length_nil, Nat.zero_add] at h
    rw [← h]
    rfl
  | cons w ws ih =>
    rw [List.length_cons, Nat.succ_add] at h
    rw [writeWords, writeWord_still (rest := SlotAt (ws.length + k) slot) h]
    dsimp only
    rw [ih (s := { s with bus := SlotAt (ws.length + k) slot, mem := memSetWord s.mem a w }) _ rfl]
    rfl

/-- Memory behind words written with the host's writes at word `k` of them. -/
def writtenAround (slot : BusSlot) (k : Nat) (ws : List Word) (a : Word) (m : Memory) : Memory :=
  memSetWords (ws.drop k) (a + BitVec.ofNat 32 (4 * k)) (hostMemory [slot] (memSetWords (ws.take k) a m))

theorem writeWords_slotAt (he : slot.err = false) (ws : List Word) (a : Word) {k : Nat} (h : s.bus = SlotAt k slot)
    (hk : k < ws.length) :
    writeWords ws a s = (true, { s with mem := writtenAround slot k ws a s.mem, bus := [] }) := by
  have early : (ws.take k).length = k := List.length_take_of_le (Nat.le_of_lt hk)
  obtain ⟨w, late, split⟩ : ∃ w late, ws.drop k = w :: late :=
    ⟨ws[k], ws.drop (k + 1), List.drop_eq_getElem_cons hk⟩
  have first := writeWords_before_slot (slot := slot) (k := 0) (ws.take k) a (s := s) (by rw [early, Nat.add_zero, h])
  conv_lhs => rw [← List.take_append_drop k ws, writeWords_append, first, if_pos rfl, early, split, writeWords]
  rw [writeWord_slot rfl he]
  dsimp only
  rw [writeWords_nil _ _ rfl, writtenAround, split]
  rfl

/-! ## The first access to come -/

/-- The first access of a script: whether it meets an error, and the memory and the script behind its host
writes. -/
def firstAccess (m : Memory) : Bus → Bool × Memory × Bus
  | [] => (false, m, [])
  | slot :: rest => (slot.err, applyHost slot.host m, rest)

theorem busSlot_eq (s : State) : busSlot s =
    ((firstAccess s.mem s.bus).1, s.onMemory (firstAccess s.mem s.bus).2.1 (firstAccess s.mem s.bus).2.2) := by
  unfold busSlot
  split
  · next h => rw [h, firstAccess, State.onMemory, ← h]
  · next h => rw [h]; rfl

/-- The states differ in memory and script alone, and the first access to come meets the same in both. -/
structure SameFirst (s u : State) : Prop where
  form  : u = s.onMemory u.mem u.bus
  first : firstAccess u.mem u.bus = firstAccess s.mem s.bus

namespace SameFirst

theorem chan (h : SameFirst s u) (k : Fin 32) : u.chan k = s.chan k := by
  rw [h.form]
  rfl

theorem desc (h : SameFirst s u) (k : Nat) : u.desc k = s.desc k := by
  rw [h.form]
  rfl

theorem tableBase (h : SameFirst s u) : u.tableBase = s.tableBase := by
  rw [h.form]
  rfl

theorem busSlot (h : SameFirst s u) : busSlot u = busSlot s := by
  rw [busSlot_eq u, busSlot_eq s, h.first, h.form]
  rfl

theorem readWord (h : SameFirst s u) (a : Word) : readWord a u = readWord a s := by
  unfold Machine.readWord
  rw [h.busSlot]

theorem writeWord (h : SameFirst s u) (a v : Word) : writeWord a v u = writeWord a v s := by
  unfold Machine.writeWord
  rw [h.busSlot]

theorem readWords (h : SameFirst s u) (k : Nat) (a : Word) : readWords (k + 1) a u = readWords (k + 1) a s := by
  unfold Machine.readWords
  rw [h.readWord]

theorem writeWords (h : SameFirst s u) (w : Word) (ws : List Word) (a : Word) :
    writeWords (w :: ws) a u = writeWords (w :: ws) a s := by
  unfold Machine.writeWords
  rw [h.writeWord]

/-- Work that makes no access leaves the first access to come. -/
theorem blind (h : SameFirst s u) {f : State → State} (hf : Blind f) : SameFirst (f s) (f u) := by
  have moved : f u = (f s).onMemory u.mem u.bus := (congrArg f h.form).trans (hf u.mem u.bus s)
  refine ⟨?_, ?_⟩
  · rw [hf.mem, hf.bus]
    exact moved
  · rw [hf.mem, hf.bus, hf.mem, hf.bus]
    exact h.first

/-- The host writes of the first access brought forward. -/
theorem brought (h : s.bus = slot :: rest) :
    SameFirst s { s with bus := ⟨[], slot.err⟩ :: rest, mem := hostMemory [slot] s.mem } :=
  ⟨rfl, by rw [h]; rfl⟩

/-- A script of one slot without host writes and error is as none. -/
theorem used (h : s.bus = [⟨[], false⟩]) : SameFirst s { s with bus := [] } := ⟨rfl, by rw [h]; rfl⟩

/-! ### Takes and descriptors -/

theorem lookAtRecord (h : SameFirst s u) : lookAtRecord n u = lookAtRecord n s := by
  unfold Machine.lookAtRecord
  rw [h.chan]
  dsimp only
  rw [h.readWord]

theorem followLink (h : SameFirst s u) (a : Word) : followLink n a u = followLink n a s := by
  unfold Machine.followLink
  rw [h.readWord]

theorem take (h : SameFirst s u) : take n u = take n s := by
  unfold Machine.take
  rw [h.chan, h.followLink, h.lookAtRecord]

theorem serveChannel (h : SameFirst s u) : serveChannel u n = serveChannel s n := by
  unfold Machine.serveChannel
  rw [h.desc, h.readWord]

theorem serveMaint (h : SameFirst s u) : serveMaint u = serveMaint s := by
  unfold Machine.serveMaint
  rw [h.desc, h.readWord]

/-! ### The close of a block -/

theorem completeDone (h : SameFirst s u) (f : InFlight) (z w : List Sample) (m : Metrics) :
    completeDone n f z w m u = completeDone n f z w m s := by
  obtain ⟨x, xs, words⟩ : ∃ x xs, resultWords f z w m = x :: xs := by
    refine List.exists_cons_of_ne_nil fun none => ?_
    have len := congrArg List.length none
    rw [resultWords, List.length_append, metrics_words_length] at len
    simp at len
  unfold Machine.completeDone
  rw [words, h.writeWords]

/-- A status event makes its first access, or none. -/
theorem statusEvent (h : SameFirst s u) (before : Channel) :
    statusEvent n before u = statusEvent n before s ∨
      SameFirst (statusEvent n before s) (statusEvent n before u) := by
  unfold Machine.statusEvent
  rw [h.chan]
  split
  · by_cases hb : s.tableBase = 0#24
    · have none : ∀ v : State, v.tableBase = 0#24 → (statusWrite n v).2 = v.modChan n notDue := fun v hv => by
        rw [statusWrite, writeDesc, if_pos hv]
        rfl
      rw [none s hb, none u (h.tableBase.trans hb)]
      exact .inr (h.blind fun m b s => modChan_onMemory ..)
    · left
      have words : Machine.writeWords (statusWords (s.chan n)) (s.desc n.val + 128#32) u =
        Machine.writeWords (statusWords (s.chan n)) (s.desc n.val + 128#32) s := h.writeWords ..
      rw [statusWrite, statusWrite, writeDesc, writeDesc, if_neg hb, if_neg (by rw [h.tableBase]; exact hb), h.chan,
        h.desc, words]
  · exact .inr h

end SameFirst

/-! ## A channel runs on behind its guard and its program (R41, R55) -/

theorem nextPhase_runs (h : (s.chan n).state = .training) : running ((nextPhase n s).chan n) = true := by
  dsimp only [nextPhase]
  split
  · exact (enterPhase_stillOp _).same.running.trans (running_of_training h)
  · rw [raise_chan, modChan_chan_self]
    rfl

theorem advanceProgram_runs (er eu : Nat) (h : (s.chan n).state = .training) :
    running ((advanceProgram n er eu s).chan n) = true := by
  dsimp only [advanceProgram]
  generalize hv : s.modChan n (fun c =>
    { c with blockCount := c.blockCount + 1, earlyRun := nextEarlyRun c er eu }) = v
  have still : (v.chan n).state = .training := by rw [← hv, modChan_chan_self]; exact h
  split_ifs
  · exact nextPhase_runs (endSearch_stillOp.same.state.trans still)
  · exact nextPhase_runs still
  · exact running_of_training still

theorem divergenceRestart_runs (h : running (s.chan n) = true) : running ((divergenceRestart n s).chan n) = true := by
  have entered := (untrain_stillOp.trans (enterPhase_stillOp (n := n) (s := untrain n s) 0)).same.running
  unfold divergenceRestart
  rw [raise_chan, backToTraining_sameHolding.runs, modChan_chan_self]
  exact entered.trans h

theorem guardAndProgram_runs (er eu : Nat) (h : running (s.chan n) = true) :
    running ((guardAndProgram n er eu s).chan n) = true := by
  dsimp only [guardAndProgram]
  split
  · next training =>
    refine iteInduction (motive := fun t : State => running (t.chan n) = true) (fun _ => divergenceRestart_runs h)
      fun _ => ?_
    exact advanceProgram_runs er eu (by rw [modChan_chan_self]; exact training)
  · refine iteInduction (motive := fun t : State => running (t.chan n) = true) (fun _ => divergenceRestart_runs h)
      fun _ => ?_
    rw [modChan_chan_self]
    exact h
  all_goals exact h

theorem advanced_runs (m : Measured) (eps : Option (List Sample)) (h : running (s.chan n) = true) :
    running ((advanced n m eps s).chan n) = true := by
  refine guardAndProgram_runs _ _ ?_
  rw [modChan_chan_self, searchAtClose]
  split <;> exact h

/-! ## A boundary (R9, R10) -/

/-- Two courses of the same work on channel `n` are one, or they have yet to make their first access and the
channel runs on. -/
def MeetOrWait (n : Fin 32) (t v : State) : Prop := v = t ∨ SameFirst t v ∧ running (t.chan n) = true

namespace SameFirst

theorem finishClose (h : SameFirst s u) (hr : running (s.chan n) = true) (before : Channel) (m : Measured)
    (o : RefOutcome) (eps : Option (List Sample)) :
    MeetOrWait n (finishClose n before m o eps s) (finishClose n before m o eps u) := by
  have late := (h.blind (advanced_blind n m eps)).statusEvent (n := n) before
  have runs : running ((Machine.statusEvent n before (advanced n m eps s)).chan n) = true :=
    (statusEvent_stillOp before).same.running.trans (advanced_runs m eps hr)
  cases hf : before.walk.inflight with
  | none =>
    rw [finishClose_none hf, finishClose_none hf]
    exact late.imp id fun wait => ⟨wait, runs⟩
  | some f =>
    rw [finishClose_some hf, finishClose_some hf]
    rcases late with meet | wait
    · rw [meet]
      exact .inl rfl
    · rw [wait.chan, wait.completeDone]
      exact .inl rfl

theorem closeBlock (h : SameFirst s u) (hr : running (s.chan n) = true) :
    MeetOrWait n (closeBlock n s) (closeBlock n u) := by
  have told : SameFirst (raiseIf ((s.chan n).hist.stuckRun == 199 && (measure (s.chan n)).stuckRun == 200)
      (chanSource n) .stuck s) (raiseIf ((s.chan n).hist.stuckRun == 199 &&
      (measure (s.chan n)).stuckRun == 200) (chanSource n) .stuck u) := h.blind fun m b s => raiseIf_onMemory ..
  unfold Machine.closeBlock
  rw [h.chan]
  dsimp only
  generalize hs' : raiseIf _ (chanSource n) .stuck s = s' at told ⊢
  generalize raiseIf _ (chanSource n) .stuck u = u' at told ⊢
  have runs : running (s'.chan n) = true := by rw [← hs', raiseIf_chan]; exact hr
  split
  · exact told.finishClose runs ..
  · split
    · rw [told.readWords]
      exact .inl rfl
    · exact told.finishClose runs ..

/-- A running channel's boundary behind the host writes of its first access (R100, R111). -/
theorem boundary (h : SameFirst s u) (hr : running (s.chan n) = true) : boundary n u = boundary n s := by
  have hr' : running (u.chan n) = true := by rw [h.chan]; exact hr
  cases hb : (s.chan n).line.inBlock with
  | false =>
    have hb' : (u.chan n).line.inBlock = false := by rw [h.chan]; exact hb
    rw [boundary_noBlock hr hb, boundary_noBlock hr' hb', h.take]
  | true =>
    have hb' : (u.chan n).line.inBlock = true := by rw [h.chan]; exact hb
    rw [boundary_block hr hb, boundary_block hr' hb']
    rcases h.closeBlock hr with meet | ⟨wait, runs⟩
    · rw [meet]
    · have closed := wait.blind (f := State.modChan n blockClosed) fun m b s => modChan_onMemory ..
      rw [wait.chan, if_pos runs, if_pos runs, closed.take]

end SameFirst

end Sys2Proof.Machine

/-! Proofs about host writes at each access of a take, of a completion, of an OPEN's words and of an answer (R88 to
R92, R94, R96, R100, R101, R155, R157, R171, R172). -/

namespace Sys2Proof.Machine

variable {n : Fin 32} {s t u : State} {slot : BusSlot} {rest : Bus}

/-! ## Links and takes (R88 to R90, R92) -/

/-- A link word read, zero or a multiple of 4: the cursor moves by it. -/
theorem followLink_read {a link : Word} (read : readWord (a + 4#32) s = (some link, t)) (h : link.toNat % 4 = 0) :
    followLink n a s = (true, t.modChan n (walkedFrom a link)) := by
  unfold followLink linkStep
  rw [read]
  dsimp only
  by_cases h0 : link = 0#32
  · subst h0
    rfl
  · rw [if_neg h0, if_pos ((aligned_iff link).2 h)]
    exact congrArg (Prod.mk true) (modChan_congr (by rw [walkedFrom, if_neg h0, if_neg h0]))

/-- A disposition read that is not POSTED costs the boundary, whatever the host writes behind it (R89, R90). -/
theorem take_unposted {w : Word} (hm : (s.chan n).walk.mode = .atRecord)
    (read : readWord (s.chan n).walk.cursor s = (some w, t)) (h : w ≠ 1#32) : StarvedBoundary n t (take n s) := by
  have look : take n s = starveAndBegin n t := by
    have unposted : (decide (w ≠ dispPosted) || heldByOther t n (s.chan n).walk.cursor) = true := by
      rw [Bool.or_eq_true, decide_eq_true_eq]
      exact .inl h
    rw [take_atRecord hm, lookAtRecord]
    dsimp only
    rw [read]
    exact if_pos unposted
  rw [look]
  exact starveAndBegin_starved

/-- A watched link read as 0 costs the boundary, whatever the host links behind it (R88, R90). -/
theorem take_unlinked (hm : (s.chan n).walk.mode = .watching)
    (read : readWord ((s.chan n).walk.cursor + 4#32) s = (some 0#32, t)) (ht : t.chan n = s.chan n) :
    StarvedBoundary n t (take n s) := by
  have walks := followLink_read (n := n) read (by rfl)
  have same : walkedFrom (s.chan n).walk.cursor 0#32 (t.chan n) = t.chan n := by
    rw [walkedFrom, if_pos rfl, if_pos rfl, ht, ← hm]
  rw [modChan_eq_self same] at walks
  have look : take n s = starveAndBegin n t := by simp only [take, hm, walks, ht]
  rw [look]
  exact starveAndBegin_starved

/-- A watched link read that leads on: the take is that of the next record (R88, R89). -/
theorem take_linked {link : Word} (hm : (s.chan n).walk.mode = .watching)
    (read : readWord ((s.chan n).walk.cursor + 4#32) s = (some link, t)) (h0 : link ≠ 0#32)
    (h : link.toNat % 4 = 0) : take n s = take n (t.modChan n fun c =>
      { c with walk := { c.walk with cursor := link, mode := .atRecord } }) := by
  have walks := followLink_read (n := n) read h
  rw [modChan_congr (g := fun c => { c with walk := { c.walk with cursor := link, mode := .atRecord } })
    (by rw [walkedFrom, if_neg h0, if_neg h0])] at walks
  have atRecord : ((t.modChan n fun c =>
      { c with walk := { c.walk with cursor := link, mode := .atRecord } }).chan n).walk.mode = .atRecord := by
    rw [modChan_chan_self]
  rw [take_atRecord atRecord]
  simp only [take, hm, walks, atRecord]

/-- A record taken by a write and twenty reads, without a directive and with no status write due (R92). -/
theorem takeRecord_undirected {a : Word} {k : Control} {ws : List Word} (mark : writeWord a dispTaken s = (true, t))
    (samples : readWords 20 (a + 16#32) t = (some ws, u)) (h0 : k.dirCode = 0)
    (hd : (u.chan n).statusDue = false) :
    takeRecord n a k s = u.modChan n (beginBlock ∘ loadTaken a k (unpackSamples ws)) := by
  generalize hv : u.modChan n (beginBlock ∘ loadTaken a k (unpackSamples ws)) = v
  have chan : v.chan n = beginBlock (loadTaken a k (unpackSamples ws) (u.chan n)) := by
    rw [← hv]
    exact modChan_chan_self ..
  have none := directed_none (v := v) h0 (by rw [chan]; rfl)
  have made : takeRecord n a k s = statusEvent n (v.chan n) (directed n k v) := by
    unfold takeRecord
    rw [mark]
    dsimp only
    rw [samples]
    dsimp only
    rw [modChan_modChan, hv]
    rfl
  rw [made, none]
  exact statusEvent_none (by rw [chan]; exact hd) rfl

/-- A look at a POSTED record of no other channel whose control word, as it is read, fits its length (R89, R91). -/
theorem lookAtRecord_fits {ctl : Word} (posted : readWord (s.chan n).walk.cursor s = (some 1#32, t))
    (free : heldByOther t n (s.chan n).walk.cursor = false)
    (control : readWord ((s.chan n).walk.cursor + 8#32) t = (some ctl, u)) (hf : Fits ctl) :
    lookAtRecord n s = takeRecord n (s.chan n).walk.cursor (decodeControl ctl) u := by
  unfold lookAtRecord
  dsimp only
  rw [posted]
  dsimp only
  rw [free, control]
  exact if_pos ((fits_iff ctl).1 hf)

/-- Memory behind a take, the host's writes coming at access `k` behind its disposition read: TAKEN is access 1, and
replaces what they wrote (R171). -/
def takenMemory (slot : BusSlot) (k : Nat) (a : Word) (m : Memory) : Memory :=
  if k ≤ 1 then memSetWord (hostMemory [slot] m) a dispTaken else hostMemory [slot] (memSetWord m a dispTaken)

/-- The words of the transmit samples as a take reads them, the host's writes at access `k` behind its disposition
read. -/
def takenWords (slot : BusSlot) (k : Nat) (a : Word) (m : Memory) : List Word :=
  (List.range 20).map fun i =>
    memWord (if i + 2 < k then m else hostMemory [slot] m) (a + 16#32 + BitVec.ofNat 32 (4 * i))

/-- A sample word is read as if the record had not been marked. -/
theorem memWord_sample_marked (a : Word) (v : Word) {m : Memory} (h : m.wf) {i : Nat} (hi : i < 20) :
    memWord (memSetWord m a v) (a + 16#32 + BitVec.ofNat 32 (4 * i)) =
      memWord m (a + 16#32 + BitVec.ofNat 32 (4 * i)) := by
  rw [show (16#32 : Word) = BitVec.ofNat 32 16 from rfl, add_ofNat_ofNat]
  exact memWord_memSetWord_first a v h (by omega) (by omega)

theorem memWord_sample_host (slot : BusSlot) (a : Word) (v : Word) {m : Memory} (h : m.wf) {i : Nat} (hi : i < 20) :
    memWord (hostMemory [slot] (memSetWord m a v)) (a + 16#32 + BitVec.ofNat 32 (4 * i)) =
      memWord (hostMemory [slot] m) (a + 16#32 + BitVec.ofNat 32 (4 * i)) := by
  refine memWord_congr fun k hk => memRead_hostMemory_congr _ (memSetWord_wf _ _ h) h ?_
  refine memRead_memSetWord_ne _ _ h _ ?_
  have apart := apart_offsets a (a := 16 + 4 * i) (la := 4) (b := 0) (lb := 4) (by omega) (by omega) (.inr (by omega))
  rw [BitVec.add_zero] at apart
  rw [show (16#32 : Word) = BitVec.ofNat 32 16 from rfl, add_ofNat_ofNat a 16]
  exact apart k hk

/-- The accesses of a take behind its disposition read: control word, TAKEN, twenty sample words (R92). -/
theorem take_accesses {k : Nat} (hw : MemLegal s) (he : slot.err = false) (hk : k ≤ 21)
    (h : s.bus = SlotAt k slot) (a : Word) : ∃ t u,
    readWord (a + 8#32) s =
      (some (memWord (if k = 0 then hostMemory [slot] s.mem else s.mem) (a + 8#32)), t) ∧
    writeWord a dispTaken t = (true, u) ∧ readWords 20 (a + 16#32) u =
      (some (takenWords slot k a s.mem), { s with bus := [], mem := takenMemory slot k a s.mem }) := by
  have host := hostMemory_wf [slot] hw
  have early : k ≤ 1 → takenWords slot k a s.mem =
      memWords 20 (a + 16#32) (memSetWord (hostMemory [slot] s.mem) a dispTaken) := fun h1 => by
    rw [memWords_marked _ _ host, memWords_eq_map, takenWords]
    simp only [show ∀ i, ¬ i + 2 < k from fun i => by omega, if_false]
  match k with
  | 0 =>
    refine ⟨_, _, readWord_slot (rest := []) h he _, writeWord_nil _ _ rfl, ?_⟩
    rw [early (by omega)]
    exact readWords_nil (s := { s with bus := [], mem := memSetWord (hostMemory [slot] s.mem) a dispTaken }) _ _ rfl
  | 1 =>
    refine ⟨_, _, readWord_still (rest := SlotAt 0 slot) h _, writeWord_slot (rest := []) rfl he _ _, ?_⟩
    rw [early (by omega)]
    exact readWords_nil (s := { s with bus := [], mem := memSetWord (hostMemory [slot] s.mem) a dispTaken }) _ _ rfl
  | k + 2 =>
    refine ⟨_, _, readWord_still (rest := SlotAt (k + 1) slot) h _,
      writeWord_still (rest := SlotAt k slot) rfl _ _, ?_⟩
    rw [readWords_slotAt he 20 _ rfl (by omega), takenMemory, if_neg (by omega), takenWords]
    refine congrArg₂ Prod.mk (congrArg some (List.map_congr_left fun i hi => ?_)) rfl
    have hi := List.mem_range.1 hi
    simp only [Nat.add_lt_add_iff_right]
    split
    · exact memWord_sample_marked a _ hw hi
    · exact memWord_sample_host slot a _ hw hi

/-! ## Completions (R94, R96, R171) -/

section
variable {f : InFlight} {z w : List Sample} {m : Metrics}

/-- A completion by what its accesses leave: results, DONE, and a link that is no misaligned one (R94). -/
theorem completeDone_of_accesses {b b' b'' : Bus} {m₁ m₂ m₃ : Memory} {link : Word}
    (results : writeWords (resultWords f z w m) (resultsAt f) s = (true, { s with mem := m₁, bus := b }))
    (done : ∀ u : State, u.mem = m₁ → u.bus = b →
      writeWord f.addr dispDone u = (true, { u with mem := m₂, bus := b' }))
    (read : ∀ u : State, u.mem = m₂ → u.bus = b' →
      readWord (f.addr + 4#32) u = (some link, { u with mem := m₃, bus := b'' }))
    (hl : link.toNat % 4 = 0) : completeDone n f z w m s =
      { s.modChan n (walkedFrom f.addr link ∘ completed) with
        mem := m₃, bus := b'', attn := Notified n f s.attn } := by
  unfold completeDone
  rw [resultsAt_eq, results]
  dsimp only
  rw [done _ rfl rfl]
  dsimp only
  rw [followLink_read (read _ rfl rfl) hl]
  dsimp only
  rw [notifyDone_eq]
  show { ((s.modChan n gapTold).modChan n clearInflight).modChan n (walkedFrom f.addr link) with
    mem := m₃, bus := b'', attn := Notified n f s.attn } = _
  rw [modChan_modChan, modChan_modChan]
  rfl

end

section
variable {f : InFlight} {ws : List Word} {m : Memory} {k : Nat}

/-- Words written around the host's writes: those written behind them read back, and beside the run stand the
host's writes alone. -/
theorem writtenAround_memory {a : Word} (h : m.wf) (hk : k ≤ ws.length) (hl : 4 * ws.length ≤ 2 ^ 32) :
    (writtenAround slot k ws a m).wf ∧
    (∀ i, k ≤ i → i < ws.length →
      memWord (writtenAround slot k ws a m) (a + BitVec.ofNat 32 (4 * i)) = ws.getD i 0#32) ∧
    ∀ x, Outside a (4 * ws.length) x → memRead (writtenAround slot k ws a m) x = memRead (hostMemory [slot] m) x := by
  have early := memSetWords_wf (ws.take k) a h
  have host := hostMemory_wf [slot] early
  have late : (ws.drop k).length = ws.length - k := List.length_drop
  refine ⟨memSetWords_wf _ _ host, fun i hi hlt => ?_, fun x hx => ?_⟩
  · obtain ⟨j, rfl⟩ : ∃ j, i = k + j := ⟨i - k, by omega⟩
    have word := memWord_memSetWords (ws.drop k) (a + BitVec.ofNat 32 (4 * k)) host (by omega) j (by omega)
    rw [add_ofNat_ofNat, ← Nat.mul_add] at word
    rw [writtenAround, word]
    simp only [List.getD_eq_getElem?_getD, List.getElem?_drop]
  · obtain ⟨-, frame⟩ := memSetWords_take (a := a) h hk (by omega)
    have behind : Outside (a + BitVec.ofNat 32 (4 * k)) (4 * (ws.drop k).length) x := outside_part hx (by omega)
    rw [writtenAround, memRead_memSetWords_ne _ _ host x behind]
    exact memRead_hostMemory_congr _ early h (frame x fun b hb => hx b (by omega))

/-- Memory behind a completion with DONE, the host's writes coming at its access `k`: a result, DONE, the link
read, or none of them (R94, R171). -/
def completedMemory (slot : BusSlot) (k : Nat) (f : InFlight) (ws : List Word) (m : Memory) : Memory :=
  if k ≤ ws.length then memSetWord (writtenAround slot k ws (resultsAt f) m) f.addr dispDone
  else if k = ws.length + 1 then hostMemory [slot] (doneMemory f ws m) else doneMemory f ws m

/-- The disposition behind a completion is DONE, or what the host's writes behind DONE make of it. -/
theorem completedMemory_first (h : m.wf) (hl : ws.length ≤ 48) : memWord (completedMemory slot k f ws m) f.addr =
    if k = ws.length + 1 then memWord (hostMemory [slot] (memSetWord m f.addr dispDone)) f.addr else dispDone := by
  unfold completedMemory
  by_cases early : k ≤ ws.length
  · obtain ⟨wf, -, -⟩ := writtenAround_memory (slot := slot) (a := resultsAt f) h early (by omega)
    rw [if_pos early, if_neg (by omega)]
    exact memWord_memSetWord _ _ wf
  rw [if_neg early]
  by_cases link : k = ws.length + 1
  · rw [if_pos link, if_pos link]
    refine memWord_congr fun b hb => memRead_hostMemory_congr _ (doneMemory_wf h) (memSetWord_wf _ _ h) ?_
    refine memRead_memWriteBytes_congr _ _ (memSetWords_wf _ _ h) h (memRead_memSetWords_ne _ _ h _ ?_)
    have bounds := outputAt_bounds f
    have apart := apart_offsets f.addr (a := 0) (la := 4) (b := outputAt f) (lb := 4 * ws.length) (by omega) (by omega)
      (.inl (by omega))
    rw [BitVec.add_zero] at apart
    exact apart b hb
  · rw [if_neg link, if_neg link]
    exact doneMemory_done h

/-- A result written behind the host's writes reads back. -/
theorem completedMemory_result (h : m.wf) (hl : ws.length ≤ 48) (i : Nat) (hi : i < ws.length)
    (hk : k ≤ i ∨ k = ws.length + 2) :
    memWord (completedMemory slot k f ws m) (resultsAt f + BitVec.ofNat 32 (4 * i)) = ws.getD i 0#32 := by
  unfold completedMemory
  rcases hk with hk | hk
  · obtain ⟨wf, words, -⟩ := writtenAround_memory (slot := slot) (a := resultsAt f) h (show k ≤ ws.length by omega)
      (by omega)
    have bounds := outputAt_bounds f
    have kept := memWord_memSetWord_first f.addr dispDone wf (p := outputAt f + 4 * i) (by omega) (by omega)
    rw [← add_ofNat_ofNat] at kept
    rw [if_pos (by omega)]
    exact kept.trans (words i hk hi)
  · rw [if_neg (by omega), if_neg (by omega)]
    exact doneMemory_result h hl i hi

/-- Beside the disposition and the results stand the host's writes alone. -/
theorem completedMemory_frame (h : m.wf) (hl : ws.length ≤ 48) (x : Nat) (ha : Outside f.addr 4 x)
    (hx : Outside (resultsAt f) (4 * ws.length) x) : memRead (completedMemory slot k f ws m) x =
      memRead (if k ≤ ws.length + 1 then hostMemory [slot] m else m) x := by
  unfold completedMemory
  by_cases early : k ≤ ws.length
  · obtain ⟨wf, -, frame⟩ := writtenAround_memory (slot := slot) (a := resultsAt f) h early (by omega)
    rw [if_pos early, if_pos (by omega), memRead_memSetWord_ne _ _ wf x ha]
    exact frame x hx
  rw [if_neg early]
  by_cases link : k = ws.length + 1
  · rw [if_pos link, if_pos (by omega)]
    exact memRead_hostMemory_congr _ (doneMemory_wf h) h (doneMemory_frame h x ha hx)
  · rw [if_neg link, if_neg (by omega)]
    exact doneMemory_frame h x ha hx

/-- The link word behind a completion. -/
theorem completedMemory_link (h : m.wf) (hl : ws.length ≤ 48) :
    memWord (completedMemory slot k f ws m) (f.addr + 4#32) = memWord
      (if k ≤ ws.length + 1 then hostMemory [slot] m else m) (f.addr + 4#32) := by
  have bounds := outputAt_bounds f
  have results := apart_offsets f.addr (a := 4) (la := 4) (b := outputAt f) (lb := 4 * ws.length) (by omega) (by omega)
    (.inl (by omega))
  have first := apart_offsets f.addr (a := 4) (la := 4) (b := 0) (lb := 4) (by omega) (by omega) (.inr (by omega))
  rw [BitVec.add_zero] at first
  exact memWord_congr fun b hb => completedMemory_frame h hl _ (first b hb) (results b hb)

end

section
variable {f : InFlight} {z w : List Sample} {m : Metrics} {ws : List Word} {k : Nat} {link : Word}

/-- A completion with the host's writes at its access `k`, its link, as it is read, no misaligned one (R94, R171). -/
theorem completeDone_slotAt (hw : MemLegal s) (he : slot.err = false) (h : s.bus = SlotAt k slot)
    (hws : ws = resultWords f z w m) (hlen : ws.length ≤ 48) (hk : k ≤ ws.length + 2)
    (hlink : link = memWord (if k ≤ ws.length + 1 then hostMemory [slot] s.mem else s.mem) (f.addr + 4#32))
    (hl : link.toNat % 4 = 0) : completeDone n f z w m s =
      { s.modChan n (walkedFrom f.addr link ∘ completed) with
        mem := completedMemory slot k f ws s.mem
        bus := if k ≤ ws.length + 1 then [] else [slot]
        attn := Notified n f s.attn } := by
  rw [← completedMemory_link hw hlen] at hlink
  subst hws
  rcases Nat.lt_or_ge (resultWords f z w m).length k with late | early
  · obtain rfl | rfl : k = (resultWords f z w m).length + 1 ∨ k = (resultWords f z w m).length + 2 := by omega
    · rw [if_pos (by omega)]
      refine completeDone_of_accesses (b := SlotAt 1 slot) (b' := SlotAt 0 slot)
        (m₂ := doneMemory f (resultWords f z w m) s.mem) (writeWords_before_slot _ _ h) (fun u hm hb => ?_)
        (fun u hm hb => ?_) hl
      · rw [writeWord_still (rest := SlotAt 0 slot) hb, hm]
        rfl
      · rw [readWord_slot (rest := []) hb he, hlink, completedMemory, if_neg (by omega), if_pos rfl, behindSlot, hm]
    · rw [if_neg (by omega)]
      refine completeDone_of_accesses (b := SlotAt 2 slot) (b' := SlotAt 1 slot)
        (m₂ := doneMemory f (resultWords f z w m) s.mem) (writeWords_before_slot _ _ h) (fun u hm hb => ?_)
        (fun u hm hb => ?_) hl
      · rw [writeWord_still (rest := SlotAt 1 slot) hb, hm]
        rfl
      · rw [readWord_still (rest := SlotAt 0 slot) hb, hlink, completedMemory, if_neg (by omega), if_neg (by omega),
          hm, ← hm]
        rfl
  · have read : ∀ u : State, u.mem = completedMemory slot k f (resultWords f z w m) s.mem → u.bus = [] →
        readWord (f.addr + 4#32) u = (some link,
          { u with mem := completedMemory slot k f (resultWords f z w m) s.mem, bus := [] }) := fun u hm hb => by
      rw [readWord_nil _ hb, hlink, ← hm, ← hb]
    rw [if_pos (by omega)]
    rcases Nat.lt_or_eq_of_le early with inside | rfl
    · refine completeDone_of_accesses (writeWords_slotAt he _ _ h inside) (fun u hm hb => ?_) read hl
      rw [writeWord_nil _ _ hb, completedMemory, if_pos early, hm, ← hb]
    · refine completeDone_of_accesses (b := SlotAt 0 slot) (writeWords_before_slot _ _ h) (fun u hm hb => ?_) read hl
      rw [writeWord_slot (rest := []) hb he, completedMemory, if_pos (Nat.le_refl _), hm, writtenAround,
        List.drop_length, List.take_length]
      rfl

end

/-- An early completion's code stands, whatever the host writes at its two accesses (R96, R171). -/
theorem writeEarlyCode_slotAt {f : InFlight} {code : Word} {k : Nat} (hw : MemLegal s) (he : slot.err = false)
    (h : s.bus = SlotAt k slot) (hk : k ≤ 1) :
    ∃ t, writeEarlyCode n f code s = (true, t) ∧ memWord t.mem f.addr = code := by
  have host := hostMemory_wf [slot] hw
  unfold writeEarlyCode
  obtain rfl | rfl : k = 0 ∨ k = 1 := by omega
  · rw [writeWord_slot (rest := []) h he]
    dsimp only
    rw [writeWord_nil _ _ rfl]
    exact ⟨_, rfl, memWord_memSetWord _ _ (memSetWord_wf _ _ host)⟩
  · rw [writeWord_still (rest := SlotAt 0 slot) h]
    dsimp only
    rw [writeWord_slot (rest := []) rfl he]
    exact ⟨_, rfl, memWord_memSetWord _ _ (hostMemory_wf [slot] (memSetWord_wf _ _ hw))⟩

/-! ## The words of an OPEN and the writes of an answer (R155, R157, R172) -/

/-- The words of an OPEN, each read by its own access (R157). -/
theorem readOpen_slotAt {i reads : Nat} {w : Nat → Word} {r : OpenReq} (h : s.bus = SlotAt i slot)
    (he : slot.err = false) (hw : ∀ j, w j = memWord (if j < i then s.mem else hostMemory [slot] s.mem)
      (s.desc n.val + 8#32 + BitVec.ofNat 32 (4 * j)))
    (hr : r = decodeOpen ((List.range 9).map w))
    (hreads : reads = 9 + (if 1 ≤ r.progLen ∧ r.progLen ≤ 8 then 2 * r.progLen else 0)) (hi : i < reads) :
    readOpen n s = (some (r, decodePhases ((List.range (reads - 9)).map fun j => w (9 + j))), behindSlot slot [] s) := by
  have entry : ∀ j, s.desc n.val + 44#32 + BitVec.ofNat 32 (4 * j) =
      s.desc n.val + 8#32 + BitVec.ofNat 32 (4 * (9 + j)) := fun j => by
    rw [add_ofNat_ofNat (s.desc n.val) 44, add_ofNat_ofNat (s.desc n.val) 8]
    congr 2
    omega
  have accesses : ∃ t, readWords 9 (s.desc n.val + 8#32) s = (some ((List.range 9).map w), t) ∧
      (reads = 9 → t = behindSlot slot [] s) ∧ (9 < reads → readWords (reads - 9) (s.desc n.val + 44#32) t =
        (some ((List.range (reads - 9)).map fun j => w (9 + j)), behindSlot slot [] s)) ∧
      t.desc n.val = s.desc n.val := by
    rcases Nat.lt_or_ge i 9 with first | second
    · refine ⟨behindSlot slot [] s, ?_, fun _ => rfl, fun _ => ?_, rfl⟩
      · rw [readWords_slotAt he 9 _ h first]
        exact congrArg₂ Prod.mk (congrArg some (List.map_congr_left fun j _ => (hw j).symm)) rfl
      · rw [readWords_nil _ _ rfl, memWords_eq_map]
        simp only [hw, entry, show ∀ j, ¬ 9 + j < i from fun j => by omega, if_false]
        rfl
    · obtain ⟨k, rfl⟩ : ∃ k, i = 9 + k := ⟨i - 9, by omega⟩
      refine ⟨{ s with bus := SlotAt k slot }, ?_, fun h9 => by omega, fun _ => ?_, rfl⟩
      · rw [readWords_before_slot 9 _ h, memWords_eq_map]
        refine congrArg₂ Prod.mk (congrArg some (List.map_congr_left fun j hj => ?_)) rfl
        rw [hw, if_pos (by have := List.mem_range.1 hj; omega)]
      · rw [readWords_slotAt (s := { s with bus := SlotAt k slot }) he _ _ rfl (by omega)]
        simp only [hw, entry, Nat.add_lt_add_iff_left]
        rfl
  obtain ⟨t, config, last, program, desc⟩ := accesses
  unfold readOpen
  rw [config]
  dsimp only
  rw [← hr, desc]
  by_cases hl : 1 ≤ r.progLen ∧ r.progLen ≤ 8
  · rw [if_pos hl] at hreads
    have count : 2 * r.progLen = reads - 9 := by omega
    rw [if_neg (by rw [openLength_out]; exact not_not.2 hl), count, program (by omega)]
  · rw [if_neg hl] at hreads
    rw [if_pos ((openLength_out _).2 hl), last (by omega), show reads - 9 = 0 by omega]
    rfl

/-- One word written into a descriptor, whose slot brings no error. -/
theorem writeDesc_slot (hb : s.tableBase ≠ 0#24) (h : s.bus = slot :: rest) (he : slot.err = false) (d : Nat)
    (o v : Word) : writeDesc d o [v] s =
      (true, { s with bus := rest, mem := memSetWord (hostMemory [slot] s.mem) (s.desc d + o) v }) := by
  rw [writeDesc, if_neg hb, writeWords, writeWord_slot h he]
  rfl

/-- An answer whose two writes have a slot each (R155, R172): a request that the host writes before NONE is lost. -/
theorem answer_slots {y z : BusSlot} (hb : s.tableBase ≠ 0#24) (h : s.bus = [y, z]) (hy : y.err = false)
    (hz : z.err = false) (d : Fin 33) (src : Fin 34) (r : Response) : answer d src r s = { s with
      bus := []
      mem := memSetWord (hostMemory [z] (memSetWord (hostMemory [y] s.mem) (s.desc d.val + 4#32) r.word))
        (s.desc d.val) 0#32
      attn := attnRaise src .requestDone s.attn } := by
  have none := writeDesc_slot (s := { s with
    bus := [z], mem := memSetWord (hostMemory [y] s.mem) (s.desc d.val + 4#32) r.word }) hb rfl hz d.val 0#32 0#32
  rw [desc_zero] at none
  unfold answer
  rw [writeDesc_slot hb h hy]
  dsimp only
  rw [none]
  rfl

/-- The word of a refusal of a CLOSE or of an unknown code (R156). -/
theorem refusalOf_word {code : Nat} (h : 2 ≤ code) (hlt : code < 256) :
    (refusalOf code).word = if code = 2 then 4#32 else BitVec.ofNat 32 (9 + 256 * code) := by
  split
  · next h2 =>
    rw [h2]
    rfl
  · exact refusalOf_word_bad (by omega) hlt

/-- A request refused at once, the request read and the two writes of its answer having a slot each: the request that
is read is answered (R155, R172). -/
theorem serveChannel_refused_slots {x y z : BusSlot} {m : Memory} {code : Nat} (hb : s.tableBase ≠ 0#24)
    (h : s.bus = [x, y, z]) (hx : x.err = false) (hy : y.err = false) (hz : z.err = false)
    (hm : m = hostMemory [x] s.mem)
    (hcode : code = ((memWord m (s.desc n.val)).extractLsb' 0 8).toNat)
    (hc : 3 ≤ code ∨ code = 2 ∧ (s.chan n).state = .closed) :
    serveChannel s n = { s with
      bus := []
      mem := memSetWord (hostMemory [z] (memSetWord (hostMemory [y] m) (s.desc n.val + 4#32)
        (if code = 2 then 4#32 else BitVec.ofNat 32 (9 + 256 * code)))) (s.desc n.val) 0#32
      attn := attnRaise (chanSource n) .requestDone s.attn } := by
  subst hm
  have brought := SameFirst.brought h
  rw [hx] at brought
  generalize hu : ({ s with bus := [⟨[], false⟩, y, z], mem := hostMemory [x] s.mem } : State) = u at brought
  have bus : u.bus = ⟨[], false⟩ :: [y, z] := by rw [← hu]
  have request : requestCode n u = code := by rw [hcode, ← hu]; rfl
  have refused := serveChannel_refused (n := n) (readWord_still bus (u.desc n.val)) rfl
    (by rw [request, brought.chan]; exact hc.symm)
  have answered := answer_slots (s := { u with bus := [y, z] }) (by rw [← hu]; exact hb) rfl hy hz (chanDesc n)
    (chanSource n) (refusalOf code)
  rw [← brought.serveChannel, refused, request, answered, refusalOf_word (by omega) (request ▸ requestCode_lt), ← hu]
  rfl

/-- Settles O21: a slot's access by `access_slot`, the first slot by `SameFirst`, the later ones by what each access
of a take, a completion, an OPEN and an answer meets. -/
theorem hostWritesMeetAccesses : Obligations.HostWritesMeetAccesses := by
  refine ⟨?_, ?_, ?_, ?_, ?_, ?_, ?_, ?_⟩
  · rintro a v s _ slot rest h rfl
    obtain ⟨read, write, -⟩ := access_slot h a v 0#16
    refine ⟨read, write, fun w => ?_⟩
    obtain ⟨-, -, half⟩ := access_slot h a v w
    exact half
  · intro n s slot rest h
    have brought := SameFirst.brought h
    refine ⟨_, rfl, brought.take.symm, fun hr => (brought.boundary hr).symm, brought.serveChannel.symm,
      brought.serveMaint.symm, ?_⟩
    rintro rfl he
    have used := SameFirst.used (s := { s with bus := [⟨[], slot.err⟩], mem := hostMemory [slot] s.mem })
      (by rw [he])
    exact ⟨_, rfl, used.take.symm, fun hr => (used.boundary hr).symm, used.serveChannel.symm, used.serveMaint.symm⟩
  · rintro n s _ _ _ rest h rfl rfl rfl
    exact ⟨fun hm hp => take_unposted hm (readWord_still h _) hp,
      fun hm h0 => take_unlinked hm (by rw [readWord_still h, h0]) rfl,
      fun hm h0 hl => take_linked hm (readWord_still h _) h0 hl⟩
  · rintro n s _ ctl slot k hw h he hk hd hm rfl hp free hctl hf hdir
    obtain ⟨t, u, control, mark, samples⟩ :=
      take_accesses (s := { s with bus := SlotAt k slot }) hw he hk rfl (s.chan n).walk.cursor
    rw [← apply_ite (fun m => memWord m ((s.chan n).walk.cursor + 8#32))] at hctl
    have posted := readWord_still (rest := SlotAt k slot) h (s.chan n).walk.cursor
    rw [hp] at posted
    rw [← hctl] at control
    rw [take_atRecord hm, lookAtRecord_fits posted (heldByOther_eq_false free) control hf,
      takeRecord_undirected mark samples (congrArg BitVec.toNat hdir) hd, ← countUp_eq]
    rfl
  · rintro n f z u m s _ slot k _ _ link _ hw hz hu h he rfl hout rfl rfl hk hlink hl
    obtain rfl := hout.trans (output_address f)
    have hws : packSamples z ++ (if f.residWanted then packSamples u else []) ++ m.words = resultWords f z u m := rfl
    rw [hws] at hk hlink ⊢
    have short : (resultWords f z u m).length ≤ 48 := by
      rw [resultWords_length hz hu, residCount]
      split <;> omega
    rw [completeDone_slotAt hw he h rfl short hk hlink hl]
    refine ⟨rfl, fun j hj => ?_, ?_, completedMemory_first hw short, completedMemory_result hw short,
      completedMemory_frame hw short⟩
    · exact modChan_chan_ne s n j _ hj
    · exact modChan_chan_self s n _
  · intro n f code s slot k hw hk h he
    exact writeEarlyCode_slotAt hw he h hk
  · intro n s slot i reads w r h he hw hr hreads hi
    exact readOpen_slotAt h he hw hr hreads hi
  · rintro n s x y z _ _ _ _ hb h hx hy hz rfl rfl hc rfl rfl
    exact ⟨serveChannel_refused_slots hb h hx hy hz rfl rfl hc, fun hw => memWord_memSetWord _ _
      (hostMemory_wf [z] (memSetWord_wf _ _ (hostMemory_wf [y] (hostMemory_wf [x] hw))))⟩

end Sys2Proof.Machine

/-! Proofs about the owner of a timeslot, and the samples received in it (R31, R106, R112, R113). -/

namespace Sys2Proof.Machine

variable {n : Fin 32} {s : State}

/-! ## The owner of a timeslot (R31, R112, R113) -/

/-- The channel found for a timeslot owns it (R112, R113). -/
theorem slotChannel_owns {k : Nat} (h : slotChannel s k = some n) : OwnsSlot (s.chan n) k := by
  have owner := List.find?_some h
  simpa [OwnsSlot, and_assoc] using owner

theorem slotChannel_eq_none {k : Nat} (h : ∀ n, ¬ OwnsSlot (s.chan n) k) : slotChannel s k = none :=
  Option.eq_none_iff_forall_not_mem.2 fun n owner => h n (slotChannel_owns owner)

/-- No two running channels share a timeslot, so the channel that owns it is the one found (R31). -/
theorem slotChannel_eq_some {k : Nat} (law : SlotLegal s) (h : OwnsSlot (s.chan n) k) :
    slotChannel s k = some n := by
  obtain ⟨-, -, apart⟩ := law
  cases found : slotChannel s k with
  | none =>
    obtain ⟨runs, block, slot⟩ := h
    have none_owns := List.find?_eq_none.1 found n (mem_allChans n)
    simp [runs, block, slot] at none_owns
  | some m =>
    have owner := slotChannel_owns found
    by_contra other
    have ne : m ≠ n := fun e => other (congrArg some e)
    exact apart m n ne owner.1 h.1 (owner.2.2.trans h.2.2.symm)

/-! ## Samples received (R113) -/

/-- The position at a timeslot's sixteenth bit (R106). -/
def sampledAt (slot : Nat) (s : State) : State :=
  { s with port := { s.port with framePos := slotEnd s.port.activeFmt slot } }

/-- In a frame, below the slot count, the sample is the owner's, and discarded without one (R113). -/
theorem deliverSample_frame {slot : Nat} {x : Sample} (frame : s.port.frameOut ≠ none)
    (inside : slot < s.port.activeFmt.slots.toNat) : deliverSample slot x s =
      (slotChannel s slot).elim (sampledAt slot s) fun n => (sampledAt slot s).modChan n (captureSample x) := by
  obtain ⟨out, shown⟩ := Option.ne_none_iff_exists'.1 frame
  have owner : slotChannel (sampledAt slot s) slot = slotChannel s slot := rfl
  rw [← owner]
  unfold deliverSample sampledAt
  simp only [shown, if_neg (Nat.not_le.2 inside)]
  split
  · next found => rw [found]; rfl
  · next found => rw [found]; rfl

theorem deliverSample_outside {slot : Nat} {x : Sample}
    (h : s.port.frameOut = none ∨ s.port.activeFmt.slots.toNat ≤ slot) : deliverSample slot x s = s := by
  unfold deliverSample
  split
  · rfl
  · next out shown => exact if_pos (h.resolve_left (by simp [shown]))

theorem captureSample_room {x : Sample} {c : Channel} (h : c.line.capture.length < 40) :
    captureSample x c = { c with line := { c.line with capture := c.line.capture ++ [x] } } := by
  rw [captureSample, List.take_of_length_le (by simpa using h)]

/-- Settles O14: the sample's bits by `receivedSample_getElem`, its place by `deliverSample_frame`, its owner by
`slotChannel_eq_some`. -/
theorem samplesReachTheirOwner : Obligations.SamplesReachTheirOwner := by
  intro slot lrx s law
  refine ⟨deliverSample slot.toNat (receivedSample lrx) s, receivedSample lrx, rfl, fun i => ?_,
    deliverSample_outside, fun frame inside => ?_⟩
  · have bit := receivedSample_getElem lrx ⟨15 - i.val, by omega⟩
    rw [BitVec.getLsbD_eq_getElem (by omega), bit]
    simp only [Fin.getElem_fin, show 15 - (15 - i.val) = i.val by omega]
  · rw [deliverSample_frame frame inside]
    cases found : slotChannel s slot.toNat with
    | none =>
      refine ⟨rfl, fun n => ⟨fun _ => rfl, fun owner _ => ?_⟩⟩
      simp [slotChannel_eq_some law owner] at found
    | some m =>
      refine ⟨rfl, fun n => ⟨fun stranger => ?_, fun owner room => ?_⟩⟩
      · exact modChan_chan_ne _ m n _ fun e => stranger (e ▸ slotChannel_owns found)
      · obtain rfl : n = m := Option.some.inj ((slotChannel_eq_some law owner).symm.trans found)
        rw [← captureSample_room room]
        exact modChan_chan_self _ n _

end Sys2Proof.Machine

/-! Proofs about syncs and frames: the hunt below the lock, missed and misplaced syncs, and the frame arrival
(R106, R108, R110 to R112). -/

namespace Sys2Proof.Machine

variable {n : Fin 32} {s : State}

/-! ## Syncs that exchange nothing (R106, R108, R110) -/

/-- A work that makes no access and changes the port alone: every host write of the script reaches memory at the
event's end (log 1). -/
theorem onBus_port {f : State → State} {bus : Bus} {p : Port} (h : s.bus = [])
    (work : f { s with bus := bus } = { s with port := p, bus := bus }) :
    onBus bus f s = { s with mem := hostMemory bus s.mem, port := p } := by
  have used : ({ s with mem := hostMemory bus s.mem, port := p, bus := [] } : State) =
      { s with mem := hostMemory bus s.mem, port := p } := by rw [← h]
  rw [← used]
  unfold onBus
  rw [work]
  rfl

/-- The sync run behind a sync in HUNT (R108). -/
def huntRun (clocks : Nat) (p : Port) : Nat :=
  if p.syncRun = 0 then 1
  else if clocks = p.activeFmt.slots.toNat * 16 + 4 then p.syncRun + 1
  else 1

theorem huntRun_below {clocks : Nat} {p : Port}
    (h : p.syncRun < 7 ∨ clocks ≠ p.activeFmt.slots.toNat * 16 + 4) : huntRun clocks p < 8 := by
  unfold huntRun
  split_ifs <;> omega

/-- A sync in HUNT that is not the eighth spaced one moves the run and the position alone (R108). -/
theorem lsyncSampled_below {clocks : Nat} {l : LSync} (hunt : s.port.state = .hunt)
    (active : ToActive s.port.activeFmt l) (below : huntRun clocks s.port < 8) : lsyncSampled clocks l s =
      { s with port := { s.port with framePos := 0, syncRun := huntRun clocks s.port } } := by
  have seen : syncSeen clocks s = huntSync clocks s := by simp only [syncSeen, hunt]
  rw [lsyncSampled_sync clocks active, seen]
  exact if_neg (Nat.not_le.2 below)

/-- A sync of a LOCKED port away from its place moves the position alone (R110). -/
theorem lsyncSampled_misplaced {clocks : Nat} {l : LSync} (locked : s.port.state = .locked)
    (active : ToActive s.port.activeFmt l) (misplaced : clocks ≠ s.port.activeFmt.slots.toNat * 16 + 4) :
    lsyncSampled clocks l s = { s with port := { s.port with framePos := clocks } } := by
  rw [lsyncSampled_sync clocks active]
  simp only [syncSeen, locked]
  exact if_neg misplaced

/-- Where no sync is seen nothing happens: LSYNC does not change to its active level, or the port is OFF and
does not sample it (R106). -/
theorem lsyncSampled_unseen {l : LSync} (clocks : Nat)
    (h : ¬ ToActive s.port.activeFmt l ∨ s.port.state = .off) : lsyncSampled clocks l s = s := by
  by_cases active : ToActive s.port.activeFmt l
  · rw [lsyncSampled_sync clocks active]
    simp only [syncSeen, h.resolve_left (not_not_intro active)]
  · exact lsyncSampled_other clocks active

/-- Settles O11: a sync below the lock by `lsyncSampled_below`, a misplaced one by `lsyncSampled_misplaced`, a
change that is no sync by `lsyncSampled_unseen`, and a frame length without a sync by the port state. -/
theorem huntSyncsAndMissedFrames : Obligations.HuntSyncsAndMissedFrames := by
  refine ⟨fun clocks l bus s hb hunt active below => ?_, fun s => ⟨frameMissed s, rfl, rfl, ?_, ?_, ?_⟩,
    fun clocks l s hb locked active misplaced => ?_, fun clocks l bus s hb unseen => ?_⟩
  · exact congrArg _ (onBus_port hb
      (lsyncSampled_below (s := { s with bus := bus }) hunt active (huntRun_below below)))
  · intro off
    simp only [frameMissed, off]
  · intro hunt
    simp only [frameMissed, hunt, frameLength]
  · intro locked
    simp only [frameMissed, locked]
  · exact congrArg _ (onBus_port (bus := []) hb
      (lsyncSampled_misplaced (s := { s with bus := [] }) locked active misplaced))
  · have idle : ∀ (b : Bus) (k : Nat), onBus b (lsyncSampled k l) s = { s with mem := hostMemory b s.mem } :=
      fun b k => onBus_port (p := s.port) hb (lsyncSampled_unseen (s := { s with bus := b }) k unseen)
    exact ⟨congrArg _ (idle bus clocks), congrArg _ (idle bus _), congrArg _ (idle [] clocks)⟩

/-! ## Frames (R110 to R112) -/

/-- The part with the sync of a frame accepted (R110). -/
def syncAccepted (s : State) : State :=
  { s with port := { s.port with
      framePos := 0, stallArmed := true, frameCount := nextFrameCount s.port.frameCount } }

/-- The part behind the boundary that frame count `f` has, if it has one (R111). -/
def served (f : Nat) (s : State) : State := if h : f < 32 then boundary ⟨f, h⟩ s else s

theorem acceptFrame_eq (s : State) :
    acceptFrame s = sendFrame (served (nextFrameCount s.port.frameCount) (syncAccepted s)) := rfl

theorem served_allOp (f : Nat) : AllOp s (served f s) := by
  unfold served
  split
  · exact boundary_boundaryOp.allOp
  · exact .refl

theorem served_eventOp (f : Nat) : EventOp s (served f s) := by
  unfold served
  split
  · exact boundary_eventOp
  · exact .refl

/-- A frame reaches the channel that its count names, and no other (R111). -/
theorem served_others {f : Nat} (h : n.val ≠ f) : (served f s).chan n = s.chan n := by
  unfold served
  split
  · exact boundary_boundaryOp.op.others n fun e => h (congrArg Fin.val e)
  · rfl

/-- A frame without a boundary comes at a count that has not wrapped, so that is one more than the last (R110). -/
theorem served_syncAccepted (s : State) : served (nextFrameCount s.port.frameCount) (syncAccepted s) =
    (if h : nextFrameCount s.port.frameCount < 32 then
      boundary ⟨nextFrameCount s.port.frameCount, h⟩ (syncAccepted s)
    else { s with port := { s.port with
      framePos := 0, stallArmed := true, frameCount := s.port.frameCount + 1 } }) := by
  unfold served
  split
  · rfl
  · next late =>
    have counts : nextFrameCount s.port.frameCount = s.port.frameCount + 1 :=
      if_pos (by unfold nextFrameCount at late; split_ifs at late <;> omega)
    rw [syncAccepted, counts]

/-- A sync seen in its place by a LOCKED port is a frame arrival (R110). -/
theorem exec_frameArrival {l : LSync} (bus : Bus) (locked : s.port.state = .locked)
    (active : ToActive s.port.activeFmt l) :
    exec (.frameArrival ⟨l, bus⟩) s = .next (onBus bus acceptFrame s) := by
  refine congrArg Host.Outcome.next (onBus_congr ?_)
  rw [lsyncSampled_sync (s := { s with bus := bus }) _ active]
  simp only [syncSeen, locked, if_true]

/-! ## The send (R106, R111, R112) -/

theorem advancePlay_idle {c : Channel} (h : c.line.inBlock = false) : advancePlay c = c := if_neg (by simp [h])

theorem advancePlay_block {c : Channel} (h : c.line.inBlock = true) : advancePlay c =
    { c with line := { c.line with playPos := (c.line.playPos + 1) % 40 } } := if_pos h

theorem slotSample_owned {k : Nat} (law : SlotLegal s) (h : OwnsSlot (s.chan n) k) :
    slotSample s k = (s.chan n).line.play.getD (s.chan n).line.playPos 0#16 := by
  rw [slotSample, slotChannel_eq_some law h]

theorem slotSample_unowned {k : Nat} (h : ∀ n, ¬ OwnsSlot (s.chan n) k) : slotSample s k = 0#16 := by
  rw [slotSample, slotChannel_eq_none h]

/-- The samples of a frame, by timeslot (R112). -/
def frameSamples (s : State) : List Sample := (List.range s.port.activeFmt.slots.toNat).map (slotSample s)

theorem sendFrame_frameOut (s : State) : (sendFrame s).port.frameOut = some (frameSamples s) := rfl

theorem frameSamples_length (s : State) : (frameSamples s).length = s.port.activeFmt.slots.toNat := by
  simp [frameSamples]

theorem frameSamples_getElem {k : Nat} (h : k < s.port.activeFmt.slots.toNat) :
    (frameSamples s)[k]? = some (slotSample s k) := by
  simp [frameSamples, h]

section
variable {p : Port} {out : List Sample} (frame : p.frameOut = some out)
include frame

/-- LTX in a timeslot: the slot's sample, most significant bit first (R106). -/
theorem ltxLevel_slot {k i : Nat} {x : Sample} (hi : i < 16) (sample : out[k]? = some x) :
    ltxLevel p (p.activeFmt.offset.toNat + 16 * k + i) = x.getLsbD (15 - i) := by
  have clock : p.activeFmt.offset.toNat + 16 * k + i - p.activeFmt.offset.toNat = 16 * k + i := by omega
  have slot : (16 * k + i) / 16 = k := by omega
  have bit : (16 * k + i) % 16 = i := by omega
  simp only [ltxLevel, frame, clock, slot, bit, sample]
  exact if_neg (by omega)

/-- LTX before timeslot 0 (log 34) and in the tail (R106). -/
theorem ltxLevel_low {k : Nat} (h : k < p.activeFmt.offset.toNat ∨
    p.activeFmt.offset.toNat + 16 * out.length ≤ k) : ltxLevel p k = false := by
  simp only [ltxLevel, frame]
  split_ifs with early
  · rfl
  · have past : out[(k - p.activeFmt.offset.toNat) / 16]? = none := List.getElem?_eq_none (by omega)
    rw [past]

end

/-- The port behind a frame arrival (R110). -/
theorem acceptFrame_port (s : State) : (acceptFrame s).port = { s.port with
    framePos := 0, stallArmed := true, frameCount := nextFrameCount s.port.frameCount,
    frameOut := (acceptFrame s).port.frameOut } := by
  have port : (served (nextFrameCount s.port.frameCount) (syncAccepted s)).port = (syncAccepted s).port :=
    (served_allOp _).port
  rw [acceptFrame_eq]
  calc (sendFrame (served (nextFrameCount s.port.frameCount) (syncAccepted s))).port
    _ = { (served (nextFrameCount s.port.frameCount) (syncAccepted s)).port with
          frameOut := (sendFrame (served (nextFrameCount s.port.frameCount) (syncAccepted s))).port.frameOut } := rfl
    _ = _ := by rw [port]; rfl

/-- A channel that has no boundary in a frame keeps its context but for the send's move (R111, R112; log 21). -/
theorem acceptFrame_chan (h : n.val ≠ nextFrameCount s.port.frameCount) :
    (acceptFrame s).chan n = advancePlay (s.chan n) := by
  rw [acceptFrame_eq, sendFrame_chan, served_others h]
  rfl

/-- Settles O13: the arrival is `served` behind `syncAccepted`, then the send, timeslot by timeslot. -/
theorem frameArrivalServesAndSends : Obligations.FrameArrivalServesAndSends := by
  refine ⟨fun l bus s locked active => ?_, fun l s hb locked active => ?_⟩
  · have op := served_allOp (s := syncAccepted { s with bus := bus }) (nextFrameCount s.port.frameCount)
    have port := acceptFrame_port { s with bus := bus }
    obtain ⟨work, -, -, chan⟩ := onBus_fields bus acceptFrame s
    rw [← work] at port
    refine ⟨_, exec_frameArrival bus locked active, port, op.enabled, op.tableBase, op.maint, fun n hn => ?_⟩
    rw [port] at hn
    rw [chan, acceptFrame_chan (s := { s with bus := bus }) hn]
    exact ⟨advancePlay_idle, advancePlay_block⟩
  · have form := exec_frameArrival [] locked active
    have still : (served (nextFrameCount s.port.frameCount) (syncAccepted s)).bus = [] := (served_eventOp _).idle hb
    rw [onBus_idle hb still, acceptFrame_eq] at form
    refine ⟨_, _, form, served_syncAccepted s, ?_, fun n => ?_, fun law => ⟨_, sendFrame_frameOut _,
      frameSamples_length _, fun k hk => ⟨fun n owner => ?_, fun nobody => ?_, fun i x => ?_⟩⟩, fun k low => ?_⟩
    · rw [← still]
      rfl
    · rw [sendFrame_chan]
      exact ⟨advancePlay_idle, advancePlay_block⟩
    · rw [frameSamples_getElem hk, slotSample_owned law owner]
    · rw [frameSamples_getElem hk, slotSample_unowned nobody]
    · exact ltxLevel_slot (sendFrame_frameOut _)
    · refine ltxLevel_low (sendFrame_frameOut _) ?_
      rw [frameSamples_length]
      exact low

end Sys2Proof.Machine

/-! Proofs about the registers: what each write of the window changes, and which commands reach ENABLE, TABLE_BASE
and the pending format (R107, R117, R152, R161 to R163). -/

namespace Sys2Proof.Machine

variable {s t : State}

/-! ## TABLE_BASE and LINE_FORMAT (R107, R152, R161, R162) -/

/-- The address that 24 bits of a write make is the word with its low 8 bits 0 (R152). -/
theorem tableAddr_extract (v : Word) : tableAddr (v.extractLsb' 8 24) = v &&& 0xFFFFFF00#32 := by
  apply BitVec.eq_of_getLsbD_eq
  intro i hi
  simp only [tableAddr, BitVec.getLsbD_append, BitVec.getLsbD_and, BitVec.getLsbD_extractLsb']
  have mask : (0xFFFFFF00#32).getLsbD i = decide (8 ≤ i) := by
    have all : ∀ j : Fin 32, (0xFFFFFF00#32).getLsbD j.val = decide (8 ≤ j.val) := by decide
    exact all ⟨i, hi⟩
  rw [mask]
  by_cases low : i < 8
  · simp [low, Nat.not_le.2 low]
  · simp [low, Nat.not_lt.1 low, show i - 8 < 24 by omega]

theorem decodeFormat_slots (v : Word) : (decodeFormat v).slots.toNat =
    if (v.extractLsb' 0 8).toNat ≤ 28 then 24 else 32 := by
  show (if (v.extractLsb' 0 8).toNat ≤ 28 then SlotCount.n24 else .n32).toNat = _
  split <;> rfl

theorem slotCount_lt (c : SlotCount) : c.toNat < 256 := by cases c <;> decide

/-- LINE_FORMAT's fields as a number (R161). -/
theorem formatWord_toNat (f : Format) : (formatWord f).toNat =
    f.slots.toNat + 256 * bitNat f.polarity + 4096 * f.offset.toNat := by
  have slots := slotCount_lt f.slots
  have polarity := bitNat_le f.polarity
  have offset := f.offset.isLt
  exact Nat.mod_eq_of_lt (by omega)

/-- A read of LINE_FORMAT shows the three fields of the pending format (R107, R161). -/
theorem formatWord_fields (f : Format) : (formatWord f).extractLsb' 0 8 = BitVec.ofNat 8 f.slots.toNat ∧
    (formatWord f).getLsbD 8 = f.polarity ∧ (formatWord f).extractLsb' 12 2 = f.offset := by
  have word := formatWord_toNat f
  have slots := slotCount_lt f.slots
  have polarity := bitNat_le f.polarity
  have offset := f.offset.isLt
  refine ⟨extract_eq ?_, bit_of_toNat ?_, extract_eq ?_⟩
  · rw [BitVec.toNat_ofNat]
    omega
  · omega
  · omega

theorem tableBaseWrite_disabled (v : Word) (h : s.enabled = false) :
    tableBaseWrite v s = { s with tableBase := v.extractLsb' 8 24 } := if_neg (by simp [h])

theorem tableBaseWrite_enabled (v : Word) (h : s.enabled = true) : tableBaseWrite v s = s := if_pos h

theorem tableBaseWrite_alone (v : Word) (s : State) :
    tableBaseWrite v s = { s with tableBase := (tableBaseWrite v s).tableBase } := by
  unfold tableBaseWrite
  split <;> rfl

/-! ## PART_CONTROL (R163) -/

/-- The part with the attention fields of a PART_CONTROL write taken (R163, R169). -/
def fieldsTaken (v : Word) (s : State) : State := takeControlFields (v.getLsbD 4) (v.extractLsb' 8 3) s

/-- What a write of PART_CONTROL with these action bits does: the attention fields of `v` taken, then the action
(R163). -/
def controlWritten (enable reset restart : Bool) (v : Word) (s : State) : State :=
  controlAction enable reset restart (fieldsTaken v s)

/-- The word that a row writes has the attention fields of its operand: it forces action bits alone. -/
theorem partControlWrite_eq {w v : Word} (mode : flag w 4 = v.getLsbD 4)
    (threshold : w.extractLsb' 8 3 = v.extractLsb' 8 3) :
    partControlWrite w = controlWritten (flag w 0) (flag w 1) (flag w 2) v := by
  funext s
  rw [partControlWrite, mode, threshold]
  rfl

theorem and_seven (x : BitVec 3) : x &&& 7#3 = x := BitVec.and_allOnes

theorem partControlWrite_enable (v : Word) :
    partControlWrite (enableWord v) = controlWritten true false (v.getLsbD 2) v := by
  rw [partControlWrite_eq (v := v)]
  · simp [flag, enableWord]
  · simp [flag, enableWord]
  · simp [enableWord, BitVec.extractLsb'_or, BitVec.extractLsb'_and, and_seven]

theorem partControlWrite_disable (v : Word) :
    partControlWrite (disableWord v) = controlWritten false (v.getLsbD 1) (v.getLsbD 2) v := by
  rw [partControlWrite_eq (v := v)]
  · simp [flag, disableWord]
  · simp [flag, disableWord]
  · simp [disableWord, BitVec.extractLsb'_and, and_seven]

theorem partControlWrite_restart (v : Word) :
    partControlWrite (lineRestartWord v) = controlWritten true false true v := by
  rw [partControlWrite_eq (v := v)]
  · simp [flag, lineRestartWord]
  · simp [flag, lineRestartWord]
  · simp [lineRestartWord, BitVec.extractLsb'_or, BitVec.extractLsb'_and, and_seven]

section
variable (v : Word)

theorem exec_enable : exec (.enable v) s = .next (onBus [] (controlWritten true false (v.getLsbD 2) v) s) := by
  rw [← partControlWrite_enable]
  rfl

theorem exec_disable :
    exec (.disable v) s = .next (onBus [] (controlWritten false (v.getLsbD 1) (v.getLsbD 2) v) s) := by
  rw [← partControlWrite_disable]
  rfl

theorem exec_lineRestart_written (bus : Bus) :
    exec (.lineRestart v bus) s = .next (onBus bus (controlWritten true false true v) s) := by
  rw [← partControlWrite_restart]
  rfl

end

section
variable {reset restart : Bool} {v : Word}

/-- ENABLE 1 on a disabled part: the format latched and the port in HUNT, whatever LINE_RESTART says (R117). -/
theorem controlWritten_enables (off : s.enabled = false) :
    controlWritten true false restart v s = enablePart (fieldsTaken v s) :=
  if_neg (ne_true_of_eq_false off)

/-- ENABLE 1 on an enabled part takes no action of its own (R163). -/
theorem controlWritten_still_on (on : s.enabled = true) :
    controlWritten true false false v s = fieldsTaken v s := if_pos on

/-- ENABLE 0 on an enabled part is the soft reset, whatever SOFT_RESET says (R117, R163). -/
theorem controlWritten_disables (on : s.enabled = true) :
    controlWritten false reset restart v s = softResetWrite v s := by
  cases reset with
  | true => rfl
  | false => exact if_pos on

/-- ENABLE 0 on a disabled part takes no action of its own (R163). -/
theorem controlWritten_still_off (off : s.enabled = false) :
    controlWritten false false restart v s = fieldsTaken v s := if_neg (ne_true_of_eq_false off)

end

/-- Under an empty script a work that leaves it empty counts by its result. -/
theorem onBus_idle_eq {f : State → State} (h : s.bus = []) (work : f s = t) (idle : t.bus = []) :
    onBus [] f s = t := by
  rw [onBus_idle h (work ▸ idle), work]

/-- Settles O7: the two configuration registers by their fields, then PART_CONTROL by `controlWritten`, one lemma for
each of its actions. -/
theorem configurationAndEnableWrites : Obligations.ConfigurationAndEnableWrites := by
  refine ⟨fun v s => ⟨⟨tableBaseWrite v s, rfl, tableBaseWrite_alone v s, tableBaseWrite_enabled v, fun off => ?_,
    fun _ => rfl⟩, lineFormatWrite v s, rfl, rfl, decodeFormat_slots v, rfl, rfl, ?_⟩, fun v s hb => ?_⟩
  · rw [tableBaseWrite_disabled v off]
    exact tableAddr_extract v
  · obtain ⟨slots, polarity, offset⟩ := formatWord_fields (decodeFormat v)
    refine ⟨?_, polarity, offset⟩
    rw [decodeFormat_slots] at slots
    refine Eq.trans slots ?_
    split <;> rfl
  · refine ⟨fieldsTaken v s, rfl, rfl, fun off => ?_, fun on keep => ?_, fun on restart => ?_, fun on => ?_,
      fun off keep => ?_⟩
    · have enabled : ∀ restart, onBus [] (controlWritten true false restart v) s = enablePart (fieldsTaken v s) :=
        fun _ => onBus_idle_eq hb (controlWritten_enables off) hb
      rw [exec_lineRestart_written, exec_enable, enabled, enabled]
      exact ⟨rfl, rfl⟩
    · rw [exec_enable, keep, onBus_idle_eq hb (controlWritten_still_on on) hb]
    · exact ⟨_, exec_lineRestart_written v [], by rw [exec_enable, restart]⟩
    · refine ⟨_, exec_softReset v s, ?_, (onBus_fields [] (softResetWrite v) s).2.1⟩
      rw [exec_disable]
      exact congrArg _ (onBus_congr (controlWritten_disables (s := { s with bus := [] }) on))
    · rw [exec_disable, keep, onBus_idle_eq hb (controlWritten_still_off off) hb]
      exact ⟨rfl, off⟩

/-! ## Which commands reach the registers (R161 to R163) -/

/-- ENABLE, TABLE_BASE and the pending format are as they were. -/
structure ConfigKept (s t : State) : Prop where
  enabled    : t.enabled = s.enabled
  tableBase  : t.tableBase = s.tableBase
  pendingFmt : t.port.pendingFmt = s.port.pendingFmt

namespace ConfigKept

theorem refl : ConfigKept s s := ⟨rfl, rfl, rfl⟩

theorem trans {u : State} (h : ConfigKept s t) (g : ConfigKept t u) : ConfigKept s u :=
  ⟨g.enabled.trans h.enabled, g.tableBase.trans h.tableBase, g.pendingFmt.trans h.pendingFmt⟩

theorem of_allOp (h : AllOp s t) : ConfigKept s t := ⟨h.enabled, h.tableBase, congrArg Port.pendingFmt h.port⟩

theorem of_maintOp (h : MaintOp s t) : ConfigKept s t :=
  ⟨h.enabled, h.tableBase, congrArg Port.pendingFmt h.port⟩

/-- A command's work under its bus script. -/
theorem onBus {f : State → State} (bus : Bus) (hf : ∀ s, ConfigKept s (f s)) : ConfigKept s (onBus bus f s) :=
  have work := hf { s with bus := bus }
  ⟨work.enabled, work.tableBase, work.pendingFmt⟩

theorem serveFrame (f : Nat) : ConfigKept s (serveFrame f s) := by
  obtain ⟨u, op, form, -⟩ := serveFrame_spec (s := s) f
  rw [form]
  exact (of_allOp op).trans ⟨rfl, rfl, rfl⟩

theorem lock : ConfigKept s (lock s) := by
  have turns := lockSteps_allOp (s := { s with port := { s.port with
    state := .locked, frameCount := 0, framePos := 0, stallArmed := true } })
  unfold Machine.lock
  dsimp only
  generalize allChans.foldl lockStep _ = u at turns ⊢
  have raised : ConfigKept s (raise partSource .lineLocked u) :=
    ⟨turns.enabled, turns.tableBase, (congrArg Port.pendingFmt turns.port :)⟩
  exact raised.trans (serveFrame 0)

theorem acceptFrame : ConfigKept s (acceptFrame s) := by
  have boundary := served_allOp (s := syncAccepted s) (nextFrameCount s.port.frameCount)
  exact ⟨boundary.enabled, boundary.tableBase, (congrArg Port.pendingFmt boundary.port :)⟩

theorem syncSeen (clocks : Nat) : ConfigKept s (syncSeen clocks s) := by
  unfold Machine.syncSeen
  split
  · exact refl
  · unfold huntSync
    have counted : ∀ run, ConfigKept s { s with port := { s.port with syncRun := run, framePos := 0 } } :=
      fun _ => ⟨rfl, rfl, rfl⟩
    exact iteInduction (fun _ => (counted _).trans lock) fun _ => counted _
  · split
    · exact acceptFrame
    · exact ⟨rfl, rfl, rfl⟩

theorem lsyncSampled (clocks : Nat) (l : LSync) : ConfigKept s (lsyncSampled clocks l s) :=
  iteInduction (fun _ => syncSeen clocks) fun _ => refl

theorem frameMissed : ConfigKept s (frameMissed s) := by
  unfold Machine.frameMissed
  split
  · exact refl
  · exact ⟨rfl, rfl, rfl⟩
  · exact ⟨rfl, rfl, rfl⟩

theorem deliverSample (slot : Nat) (x : Sample) : ConfigKept s (deliverSample slot x s) := by
  by_cases outside : s.port.frameOut = none ∨ s.port.activeFmt.slots.toNat ≤ slot
  · rw [deliverSample_outside outside]
    exact refl
  · obtain ⟨frame, inside⟩ := not_or.1 outside
    rw [deliverSample_frame frame (Nat.not_le.1 inside)]
    cases slotChannel s slot with
    | none => exact ⟨rfl, rfl, rfl⟩
    | some n => exact ⟨rfl, rfl, rfl⟩

theorem lineLost (slots : Option Nat) : ConfigKept s (lineLost slots s) := by
  have turns := loseLines_allOp (s := { s with port := toHunt s.port }) slots
  unfold Machine.lineLost
  generalize allChans.foldl (loseLine slots) _ = u at turns ⊢
  exact ⟨turns.enabled, turns.tableBase, (congrArg Port.pendingFmt turns.port :)⟩

theorem restartLine : ConfigKept s (restartLine s) := by
  by_cases off : s.port.state = .off
  · have idle : Machine.restartLine s = s := by simp only [Machine.restartLine, off]
    rw [idle]
    exact refl
  · rw [restartLine_eq off]
    have lost := lineLost (s := { s with port := latchFormat s.port }) (some s.port.pendingFmt.slots.toNat)
    exact ⟨lost.enabled, lost.tableBase, lost.pendingFmt⟩

theorem visit : ConfigKept s (visit s) := by
  have served : ∀ l : List (Fin 32), ConfigKept s (l.foldl serveChannel s) := fun l => by
    induction l using List.reverseRecOn with
    | nil => exact refl
    | append_singleton l n ih =>
      rw [List.foldl_concat]
      have op := (serveChannel_visitOp (n := n) (s := l.foldl serveChannel s)).op
      exact ih.trans ⟨op.enabled, op.tableBase, congrArg Port.pendingFmt op.port⟩
  unfold Machine.visit
  refine trans (iteInduction (fun _ => refl) fun _ => ?_) (of_maintOp storeStep_storeOp.op)
  exact (served allChans).trans (of_maintOp serveMaint_storeOp.op)

end ConfigKept

/-- What a write at `offset`, or a command that writes no register, leaves of ENABLE, TABLE_BASE and the pending
format: all but its own register (R161). -/
structure ConfigWrite (offset : Option Word) (s t : State) : Prop where
  enabled    : offset ≠ some 0x04#32 → t.enabled = s.enabled
  tableBase  : offset ≠ some 0x00#32 → t.tableBase = s.tableBase
  pendingFmt : offset ≠ some 0x08#32 → t.port.pendingFmt = s.port.pendingFmt

theorem ConfigKept.write {offset : Option Word} (h : ConfigKept s t) : ConfigWrite offset s t :=
  ⟨fun _ => h.enabled, fun _ => h.tableBase, fun _ => h.pendingFmt⟩

/-- Under a bus script, as without one. -/
theorem ConfigWrite.onBus {f : State → State} {offset : Option Word} (bus : Bus)
    (hf : ∀ s, ConfigWrite offset s (f s)) : ConfigWrite offset s (onBus bus f s) :=
  have work := hf { s with bus := bus }
  ⟨work.enabled, work.tableBase, work.pendingFmt⟩

/-- A write of PART_CONTROL reaches neither TABLE_BASE nor the pending format, a soft reset included (R163, R164). -/
theorem partControlWrite_config (v : Word) (s : State) : (partControlWrite v s).tableBase = s.tableBase ∧
    (partControlWrite v s).port.pendingFmt = s.port.pendingFmt := by
  have reset : ∀ u : State, (softResetPart u).tableBase = u.tableBase ∧
      (softResetPart u).port.pendingFmt = u.port.pendingFmt := fun u => by
    obtain ⟨-, base, port, -⟩ := softReset_fields (s := u)
    exact ⟨base, (congrArg Port.pendingFmt port :)⟩
  unfold partControlWrite controlAction
  split_ifs
  · exact reset _
  · exact reset _
  · have restart := ConfigKept.restartLine (s := takeControlFields (flag v 4) (v.extractLsb' 8 3) s)
    exact ⟨restart.tableBase, restart.pendingFmt⟩
  · exact ⟨rfl, rfl⟩
  · exact ⟨rfl, rfl⟩
  · exact ⟨rfl, rfl⟩

/-- A write at an offset of the window reaches its own register alone (R161). -/
theorem registerWrite_config (offset v : Word) (s : State) :
    ConfigWrite (some offset) s (registerWrite offset v s) := by
  unfold registerWrite
  split_ifs with base control format completion
  · rw [tableBaseWrite_alone]
    exact ⟨fun _ => rfl, fun other => absurd (congrArg some base) other, fun _ => rfl⟩
  · obtain ⟨base, format⟩ := partControlWrite_config v s
    exact ⟨fun other => absurd (congrArg some control) other, fun _ => base, fun _ => format⟩
  · exact ⟨fun _ => rfl, fun _ => rfl, fun other => absurd (congrArg some format) other⟩
  · exact ConfigKept.write ⟨rfl, rfl, rfl⟩
  · exact ConfigKept.refl.write

/-- The offset of the window that a command writes, if it is a write of one (R161). -/
def writesAt : Instr → Option Word
  | .tableBaseWrite _ => some 0x00#32
  | .enable _ | .disable _ | .softReset _ | .lineRestart _ _ => some 0x04#32
  | .lineFormatWrite _ => some 0x08#32
  | .sourceCompletion _ => some 0x10#32
  | .ignoredRegisterWrite offset _ => some offset
  | _ => none

/-- Of the three, a command other than a hardware reset changes the one it writes alone. -/
theorem exec_configWrite {c : Instr} (h : c ≠ .hardwareReset) (e : exec c s = .next t) :
    ConfigWrite (writesAt c) s t := by
  cases c <;> obtain rfl := Host.Outcome.next.inj e
  case hardwareReset => exact absurd rfl h
  case tableBaseWrite v => exact registerWrite_config 0x00#32 v s
  case lineFormatWrite v => exact registerWrite_config 0x08#32 v s
  case enable v => exact .onBus _ (registerWrite_config 0x04#32 _)
  case disable v => exact .onBus _ (registerWrite_config 0x04#32 _)
  case softReset v => exact .onBus _ (registerWrite_config 0x04#32 _)
  case lineRestart v bus => exact .onBus bus (registerWrite_config 0x04#32 _)
  case setAttnThreshold t => exact ConfigKept.write ⟨rfl, rfl, rfl⟩
  case setAttnMode p t => exact ConfigKept.write ⟨rfl, rfl, rfl⟩
  case claim => exact ConfigKept.write ⟨rfl, rfl, rfl⟩
  case peek => exact ConfigKept.write ⟨rfl, rfl, rfl⟩
  case sourceCompletion v => exact registerWrite_config 0x10#32 v s
  case ignoredRegisterWrite offset v => exact .onBus _ (registerWrite_config offset v)
  case syncInHunt sync bus => exact (ConfigKept.onBus bus fun _ => .lsyncSampled _ _).write
  case huntFrameMissed => exact ConfigKept.frameMissed.write
  case frameArrival arrival => exact (ConfigKept.onBus arrival.bus fun _ => .lsyncSampled _ _).write
  case syncIgnored sync => exact (ConfigKept.onBus [] fun _ => .lsyncSampled _ _).write
  case missingFrame => exact ConfigKept.frameMissed.write
  case sampleDelivery slot lrx => exact (ConfigKept.deliverSample _ _).write
  case stall bus => exact (ConfigKept.onBus bus fun _ => iteInduction (fun _ => .lineLost none) fun _ => .refl).write
  case maintenanceVisit bus => exact (ConfigKept.onBus bus fun _ => iteInduction (fun _ => .visit) fun _ => .refl).write
  case attnPulseEnd => exact ConfigKept.write ⟨rfl, rfl, rfl⟩

theorem writesAt_tableBase {c : Instr} (h : writesAt c = some 0x00#32) :
    (∃ v, c = .tableBaseWrite v) ∨ ∃ v, c = .ignoredRegisterWrite 0x00#32 v := by
  cases c <;> simp_all [writesAt]

theorem writesAt_lineFormat {c : Instr} (h : writesAt c = some 0x08#32) :
    (∃ v, c = .lineFormatWrite v) ∨ ∃ v, c = .ignoredRegisterWrite 0x08#32 v := by
  cases c <;> simp_all [writesAt]

theorem writesAt_partControl {c : Instr} (h : writesAt c = some 0x04#32) :
    (∃ v, c = .enable v) ∨ (∃ v, c = .disable v) ∨ (∃ v, c = .softReset v) ∨ (∃ v bus, c = .lineRestart v bus) ∨
      ∃ v, c = .ignoredRegisterWrite 0x04#32 v := by
  cases c <;> simp_all [writesAt]

/-- A write at an offset that takes none is ignored (R161). -/
theorem registerWrite_ignored {offset : Word} (v : Word) (h0 : offset ≠ 0x00#32) (h4 : offset ≠ 0x04#32)
    (h8 : offset ≠ 0x08#32) (h10 : offset ≠ 0x10#32) : registerWrite offset v s = s := by
  rw [registerWrite, if_neg h0, if_neg h4, if_neg h8, if_neg h10]

/-- Settles O3: each command by the register it writes (`exec_configWrite`). -/
theorem configurationChangesOnlyByWrites : Obligations.ConfigurationChangesOnlyByWrites := by
  refine ⟨fun c s t e => ⟨fun base reset offset => ?_, fun format reset offset => ?_,
    fun enable disable soft restart reset offset => ?_⟩, fun offset v s hb h0 h4 h8 h10 => ?_⟩
  · refine (exec_configWrite reset e).tableBase fun at_base => ?_
    rcases writesAt_tableBase at_base with ⟨v, rfl⟩ | ⟨v, rfl⟩
    · exact base v rfl
    · exact offset v rfl
  · refine (exec_configWrite reset e).pendingFmt fun at_format => ?_
    rcases writesAt_lineFormat at_format with ⟨v, rfl⟩ | ⟨v, rfl⟩
    · exact format v rfl
    · exact offset v rfl
  · refine (exec_configWrite reset e).enabled fun at_control => ?_
    rcases writesAt_partControl at_control with ⟨v, rfl⟩ | ⟨v, rfl⟩ | ⟨v, rfl⟩ | ⟨v, bus, rfl⟩ | ⟨v, rfl⟩
    · exact enable v rfl
    · exact disable v rfl
    · exact soft v rfl
    · exact restart v bus rfl
    · exact offset v rfl
  · exact congrArg _ (onBus_idle_eq hb (registerWrite_ignored v h0 h4 h8 h10) hb)

end Sys2Proof.Machine

/-! Proofs about the laws that every step keeps of the profile store and of the store chain (R120, R121, R138, R141,
R142, R152). -/

namespace Sys2Proof.Machine

variable {s t u : State} {n : Fin 32}

/-! ## Events that leave the store chain alone -/

/-- The maintenance unit is as it was and the store keeps its laws; a part that was enabled is enabled still, with
its channel table where it was. -/
structure StoreStill (s t : State) : Prop where
  maint : t.maint = s.maint
  store : ∀ T, StoreKept s.store T → StoreKept t.store T
  on    : s.enabled = true → t.enabled = true ∧ t.tableBase = s.tableBase

namespace StoreStill

theorem refl : StoreStill s s := ⟨rfl, fun _ => id, fun on => ⟨on, rfl⟩⟩

theorem trans (h : StoreStill s t) (g : StoreStill t u) : StoreStill s u where
  maint := g.maint.trans h.maint
  store T := g.store T ∘ h.store T
  on run := by
    obtain ⟨on, base⟩ := h.on run
    obtain ⟨on', base'⟩ := g.on on
    exact ⟨on', base'.trans base⟩

/-- An event that does not reach the store, the maintenance unit, ENABLE and TABLE_BASE. -/
theorem of_eq (maint : t.maint = s.maint) (store : t.store = s.store) (enabled : t.enabled = s.enabled)
    (base : t.tableBase = s.tableBase) : StoreStill s t :=
  ⟨maint, fun _ h => store ▸ h, fun on => ⟨enabled.trans on, base⟩⟩

theorem of_allOp (h : AllOp s t) : StoreStill s t :=
  ⟨h.maint, h.store, fun on => ⟨h.enabled.trans on, h.tableBase⟩⟩

theorem of_chanOp (h : ChanOp n s t) : StoreStill s t :=
  ⟨h.maint, h.store, fun on => ⟨h.enabled.trans on, h.tableBase⟩⟩

/-- A command's work under its bus script. -/
theorem onBus {f : State → State} (bus : Bus) (hf : ∀ s, StoreStill s (f s)) : StoreStill s (onBus bus f s) :=
  have work := hf { s with bus := bus }
  ⟨work.maint, work.store, work.on⟩

theorem serveFrame (f : Nat) : StoreStill s (serveFrame f s) := by
  obtain ⟨u, op, form, -⟩ := serveFrame_spec (s := s) f
  rw [form]
  exact (of_allOp op).trans (of_eq rfl rfl rfl rfl)

theorem lock : StoreStill s (lock s) := by
  have turns := of_allOp (lockSteps_allOp (s := { s with port := { s.port with
    state := .locked, frameCount := 0, framePos := 0, stallArmed := true } }))
  unfold Machine.lock
  dsimp only
  generalize allChans.foldl lockStep _ = u at turns ⊢
  have raised : StoreStill s (raise partSource .lineLocked u) := ⟨turns.maint, turns.store, turns.on⟩
  exact raised.trans (serveFrame 0)

theorem syncSeen (clocks : Nat) : StoreStill s (syncSeen clocks s) := by
  have moved : ∀ p : Port, StoreStill s { s with port := p } := fun _ => of_eq rfl rfl rfl rfl
  unfold Machine.syncSeen
  split
  · exact refl
  · unfold huntSync
    exact iteInduction (fun _ => (moved _).trans lock) fun _ => moved _
  · split
    · exact (moved _).trans (serveFrame _)
    · exact moved _

theorem lsyncSampled (clocks : Nat) (l : LSync) : StoreStill s (lsyncSampled clocks l s) :=
  iteInduction (fun _ => syncSeen clocks) fun _ => refl

theorem frameMissed : StoreStill s (frameMissed s) := by
  unfold Machine.frameMissed
  split
  · exact refl
  · exact of_eq rfl rfl rfl rfl
  · exact of_eq rfl rfl rfl rfl

theorem deliverSample (slot : Nat) (x : Sample) : StoreStill s (deliverSample slot x s) := by
  unfold Machine.deliverSample
  split
  · exact refl
  · refine iteInduction (fun _ => refl) fun _ => ?_
    dsimp only
    split <;> exact of_eq rfl rfl rfl rfl

theorem lineLost (slots : Option Nat) : StoreStill s (lineLost slots s) := by
  have turns := of_allOp (loseLines_allOp (s := { s with port := toHunt s.port }) slots)
  unfold Machine.lineLost
  generalize allChans.foldl (loseLine slots) _ = u at turns ⊢
  exact ⟨turns.maint, turns.store, turns.on⟩

theorem restartLine : StoreStill s (restartLine s) := by
  have latched : StoreStill s { s with port := latchFormat s.port } := of_eq rfl rfl rfl rfl
  unfold Machine.restartLine
  dsimp only
  split
  · exact refl
  · exact latched.trans (lineLost _)
  · exact latched.trans (lineLost _)

/-- TABLE_BASE takes a write of a disabled part alone (R162). -/
theorem tableBaseWrite (v : Word) : StoreStill s (tableBaseWrite v s) :=
  iteInduction (fun _ => refl) fun off => ⟨rfl, fun _ => id, fun on => absurd on off⟩

theorem serveChannels (l : List (Fin 32)) : StoreStill s (l.foldl serveChannel s) := by
  induction l using List.reverseRecOn with
  | nil => exact refl
  | append_singleton l n ih =>
    rw [List.foldl_concat]
    exact ih.trans (of_chanOp serveChannel_visitOp.op)

theorem legal (h : StoreStill s t) (legal : StoreLegal s) : StoreLegal t := by
  unfold StoreLegal
  rw [h.maint]
  exact h.store _ legal

theorem chainLegal (h : StoreStill s t) (legal : ChainLegal s) : ChainLegal t := by
  obtain ⟨works, walks⟩ := legal
  unfold ChainLegal
  rw [h.maint]
  refine ⟨fun open_ => ?_, walks⟩
  obtain ⟨on, base⟩ := works open_
  obtain ⟨on', base'⟩ := h.on on
  exact ⟨on', base' ▸ base⟩

end StoreStill

/-! ## Laws of the store -/

/-- A law that the events of the lines keep, and that the two resets and a visit keep. -/
structure StoreLaw (law : State → Prop) : Prop where
  still     {s t : State} : law s → StoreStill s t → law t
  hardReset {s : State} : law (hardwareResetPart s)
  softReset {s : State} : law s → law (softResetPart s)
  visit     {s : State} : s.enabled = true → law s → law (visit s)

namespace StoreLaw

variable {law : State → Prop}

/-- A command's work under its bus script. -/
theorem onBus (L : StoreLaw law) {f : State → State} (bus : Bus) (hf : ∀ s, law s → law (f s))
    (h : law s) : law (onBus bus f s) :=
  have scripted : law { s with bus := bus } := L.still h (.of_eq rfl rfl rfl rfl)
  L.still (hf _ scripted) (.of_eq rfl rfl rfl rfl)

/-- A write of PART_CONTROL (R163). -/
theorem partControlWrite (L : StoreLaw law) (v : Word) (h : law s) : law (partControlWrite v s) := by
  unfold Machine.partControlWrite
  have taken : law (takeControlFields (flag v 4) (v.extractLsb' 8 3) s) := L.still h (.of_eq rfl rfl rfl rfl)
  generalize takeControlFields (flag v 4) (v.extractLsb' 8 3) s = w at taken ⊢
  unfold controlAction
  split_ifs with reset on off restart enable
  · exact L.softReset taken
  · exact L.softReset taken
  · exact L.still taken .restartLine
  · exact taken
  · exact L.still taken ⟨rfl, fun _ => id, fun run => absurd run on⟩
  · exact taken

/-- A write at an offset of the window (R161). -/
theorem registerWrite (L : StoreLaw law) (offset v : Word) (h : law s) : law (registerWrite offset v s) := by
  unfold Machine.registerWrite
  split_ifs
  · exact L.still h (.tableBaseWrite v)
  · exact L.partControlWrite v h
  · exact L.still h (.of_eq rfl rfl rfl rfl)
  · exact L.still h (.of_eq rfl rfl rfl rfl)
  · exact h

/-- Every command keeps a law of the store. -/
theorem exec (L : StoreLaw law) (c : Instr) (h : law s) (e : exec c s = .next t) : law t := by
  have aside : ∀ {v : State}, v.maint = s.maint → v.store = s.store → v.enabled = s.enabled →
      v.tableBase = s.tableBase → law v := fun m st en b => L.still h (.of_eq m st en b)
  cases c <;> obtain rfl := Host.Outcome.next.inj e
  case hardwareReset => exact L.hardReset
  case tableBaseWrite v => exact L.registerWrite 0x00#32 v h
  case lineFormatWrite v => exact L.registerWrite 0x08#32 v h
  case enable v => exact L.onBus _ (fun _ => L.partControlWrite _) h
  case disable v => exact L.onBus _ (fun _ => L.partControlWrite _) h
  case softReset v => exact L.onBus _ (fun _ => L.partControlWrite _) h
  case lineRestart v bus => exact L.onBus bus (fun _ => L.partControlWrite _) h
  case setAttnThreshold t => exact aside rfl rfl rfl rfl
  case setAttnMode p t => exact aside rfl rfl rfl rfl
  case claim => exact aside rfl rfl rfl rfl
  case peek => exact aside rfl rfl rfl rfl
  case sourceCompletion v => exact L.registerWrite 0x10#32 v h
  case ignoredRegisterWrite offset v => exact L.onBus _ (fun _ => L.registerWrite offset v) h
  case syncInHunt sync bus => exact L.still h (.onBus bus fun _ => .lsyncSampled _ _)
  case huntFrameMissed => exact L.still h .frameMissed
  case frameArrival arrival => exact L.still h (.onBus arrival.bus fun _ => .lsyncSampled _ _)
  case syncIgnored sync => exact L.still h (.onBus [] fun _ => .lsyncSampled _ _)
  case missingFrame => exact L.still h .frameMissed
  case sampleDelivery slot lrx => exact L.still h (.deliverSample _ _)
  case stall bus => exact L.still h (.onBus bus fun _ => iteInduction (fun _ => .lineLost none) fun _ => .refl)
  case maintenanceVisit bus =>
    exact L.onBus bus (fun _ h => iteInduction (fun on => L.visit on h) fun _ => h) h
  case attnPulseEnd => exact aside rfl rfl rfl rfl

/-- Every step keeps a law of the store: the queue is no concern of it. -/
theorem keptByStep (L : StoreLaw law) : KeptByStep law := by
  intro s t h e
  unfold step at e
  split at e
  · obtain rfl := Host.Outcome.next.inj e
    exact h
  · next c rest _ =>
    have queued : law { s with pending := rest } := L.still h (.of_eq rfl rfl rfl rfl)
    exact L.exec c queued e

end StoreLaw

/-! ## The store's laws (R120, R121) -/

theorem storeLegal_storeLaw : StoreLaw StoreLegal where
  still h g := g.legal h
  hardReset {_} := by
    have legal := reset_storeLegal
    unfold hardwareResetPart
    generalize State.reset = r at legal ⊢
    exact legal
  softReset {s} h := by
    obtain ⟨-, -, -, store, maint, -⟩ := softReset_fields (s := s)
    unfold StoreLegal
    rw [store, maint]
    exact softResetStore_kept h (isTarget_clear _ _)
  visit {s} _ h := by
    unfold visit
    refine storeStep_storeOp.store (iteInduction (fun _ => h) fun _ => ?_)
    exact serveMaint_storeOp.store ((StoreStill.serveChannels allChans).legal h)

/-! ## The store chain's laws (R138, R141, R142) -/

/-- A directive is in flight only in WALKING (R141, R142). -/
def Walks (m : Maint) : Prop := m.inflight.isSome = true → m.chain = .walking

theorem walks_of_none {m : Maint} (h : m.inflight = none) : Walks m := fun flies => by
  rw [h] at flies
  exact absurd flies Bool.false_ne_true

theorem MaintMem.walks (h : MaintMem s t) (w : Walks s.maint) : Walks t.maint := h.maint ▸ w

/-- A chain fault leaves the unit emptied and FAULTED, whatever its status write met (R150). -/
theorem chainFault_maint (s : State) : (chainFault s).maint = { clearTransfer s.maint with chain := .faulted } :=
  maintStatus_maintMem.maint

theorem chainFault_walks : Walks (chainFault s).maint := walks_of_none (by rw [chainFault_maint]; rfl)

theorem raiseIf_walks {b : Bool} {i : Fin 34} {c : Cause} (h : Walks s.maint) : Walks (raiseIf b i c s).maint := by
  rwa [raiseIf_maint]

/-- Behind a completion nothing is in flight, whatever its accesses met (R142, R150). -/
theorem completeStore_walks {a : Word} {notify : Bool} {r : StoreResult} {count : Nat} :
    Walks (completeStore a notify r count s).maint := by
  unfold completeStore
  dsimp only
  split
  · exact chainFault_walks
  · split
    · exact chainFault_walks
    · split
      · exact raiseIf_walks chainFault_walks
      · next read =>
        have cleared := congrArg Maint.inflight (MaintMem.of_readWord read).maint
        split
        · exact maintStatus_maintMem.walks (raiseIf_walks (walks_of_none cleared))
        · exact maintStatus_maintMem.walks (raiseIf_walks (walks_of_none cleared))
        · exact raiseIf_walks chainFault_walks

theorem importVisit_walks {f : InFlightStore} {i : Fin 48} (h : Walks s.maint) : Walks (importVisit f i s).maint := by
  unfold importVisit
  dsimp only
  split
  · exact chainFault_walks
  · next read =>
    have same := (MaintMem.of_readWords read).walks h
    split
    · exact maintStatus_maintMem.walks same
    · exact completeStore_walks

theorem exportVisit_walks {f : InFlightStore} {i : Fin 48} (h : Walks s.maint) : Walks (exportVisit f i s).maint := by
  unfold exportVisit
  dsimp only
  split
  · exact chainFault_walks
  · next written =>
    have same := (MaintMem.of_writeWords written).walks h
    split
    · exact maintStatus_maintMem.walks same
    · exact completeStore_walks

/-- A directive performed in WALKING: it ends, or stays in flight in WALKING (R142). -/
theorem performDirective_walks {a tag buffer : Word} {code : Nat} {notify : Bool} (h : s.maint.chain = .walking) :
    Walks (performDirective a code notify tag buffer s).maint := by
  unfold performDirective
  split
  · exact completeStore_walks
  · split
    · exact completeStore_walks
    · exact completeStore_walks
    · exact completeStore_walks
    · unfold performList
      split
      · exact chainFault_walks
      · exact completeStore_walks
    · unfold startImport
      split
      · exact chainFault_walks
      · next read =>
        have walking := (congrArg Maint.chain (MaintMem.of_readWords read).maint).trans h
        dsimp only
        split
        · exact completeStore_walks
        · split
          · exact completeStore_walks
          · exact importVisit_walks fun _ => walking
    · unfold startExport
      dsimp only
      split
      · exact completeStore_walks
      · split
        · exact completeStore_walks
        · exact exportVisit_walks fun _ => h

theorem waitStore_walks (h : s.maint.inflight = none) : Walks (waitStore s).maint := by
  rw [waitStore_eq]
  split
  · exact walks_of_none h
  · exact maintStatus_maintMem.walks (walks_of_none h)

theorem takeStore_walks {a : Word} : Walks (takeStore a s).maint := by
  unfold takeStore
  dsimp only
  split
  · exact chainFault_walks
  · next mark =>
    have walking := congrArg Maint.chain (MaintMem.of_writeWord mark).maint
    split
    · exact chainFault_walks
    · next read =>
      exact performDirective_walks ((congrArg Maint.chain (MaintMem.of_readWords read).maint).trans walking)

theorem lookAtStore_walks (h : s.maint.inflight = none) : Walks (lookAtStore s).maint := by
  unfold lookAtStore
  split
  · exact chainFault_walks
  · next read =>
    have idle := (congrArg Maint.inflight (MaintMem.of_readWord read).maint).trans h
    split
    · exact takeStore_walks
    · exact waitStore_walks idle

theorem findStore_walks (h : s.maint.inflight = none) : Walks (findStore s).maint := by
  unfold findStore
  split
  · exact lookAtStore_walks h
  · split
    · exact chainFault_walks
    · next read =>
      have idle := (congrArg Maint.inflight (MaintMem.of_readWord read).maint).trans h
      split
      · exact waitStore_walks idle
      · exact lookAtStore_walks idle
      · exact chainFault_walks

theorem storeStep_walks (h : Walks s.maint) : Walks (storeStep s).maint := by
  have work : Walks (workStore s).maint := by
    unfold workStore
    split
    · unfold transferVisit
      split
      · exact h
      · split
        · exact importVisit_walks h
        · exact exportVisit_walks h
    · next idle => exact findStore_walks idle
  unfold storeStep
  split
  · exact h
  · exact h
  · exact work
  · exact work

/-- A request of descriptor 32: an OPEN leaves the chain WALKING, a CLOSE leaves nothing in flight (R138, R139). -/
theorem serveMaint_walks (h : Walks s.maint) : Walks (serveMaint s).maint := by
  unfold serveMaint
  split
  · next read => exact ((MaintMem.of_readWord read).trans (.raise _ _)).walks h
  · next read =>
    have same := (MaintMem.of_readWord read).walks h
    split
    · exact same
    · unfold maintOpen
      split
      · next first => exact ((MaintMem.of_readWord first).trans (.raise _ _)).walks same
      · next first =>
        split
        · next word => exact (((MaintMem.of_readWord first).trans (.of_readWord word)).trans (.raise _ _)).walks same
        · next word =>
          have kept := ((MaintMem.of_readWord first).trans (.of_readWord word)).walks same
          split_ifs
          · exact (answer_maintMem _ _ _).walks kept
          · exact (answer_maintMem _ _ _).walks kept
          · exact (maintStatus_maintMem.trans (answerAfter_maintMem _ _ _ _)).walks fun _ => rfl
    · unfold maintClose
      split
      · exact (answer_maintMem _ _ _).walks same
      · exact (maintStatus_maintMem.trans (answerAfter_maintMem _ _ _ _)).walks (walks_of_none rfl)
    · exact (answer_maintMem _ _ _).walks same

/-- One store step keeps the chain's laws: of an IDLE chain it does nothing (R138, R141, R152). -/
theorem storeStep_chainLegal (h : ChainLegal s) : ChainLegal (storeStep s) := by
  obtain ⟨opened, walks⟩ := h
  refine ⟨fun open_ => ?_, storeStep_walks walks⟩
  rw [storeStep_storeOp.op.enabled, storeStep_storeOp.op.tableBase]
  refine opened fun idle => open_ ?_
  rw [storeStep_rests (.inl idle)]
  exact idle

theorem chainLegal_storeLaw : StoreLaw ChainLegal where
  still h g := g.chainLegal h
  hardReset := ⟨fun open_ => absurd rfl open_, walks_of_none rfl⟩
  softReset {s} _ := by
    obtain ⟨-, -, -, -, maint, -⟩ := softReset_fields (s := s)
    unfold ChainLegal
    rw [maint]
    exact ⟨fun open_ => absurd rfl open_, walks_of_none rfl⟩
  visit {s} on h := by
    unfold visit
    refine storeStep_chainLegal (iteInduction (fun _ => h) fun base => ?_)
    have still := StoreStill.serveChannels (s := s) allChans
    generalize allChans.foldl serveChannel s = w at still ⊢
    obtain ⟨on', base'⟩ := still.on on
    refine ⟨fun _ => ?_, serveMaint_walks (still.chainLegal h).2⟩
    rw [serveMaint_storeOp.op.enabled, serveMaint_storeOp.op.tableBase, base']
    exact ⟨on', base⟩

/-- Settles O60: both laws by the events that `StoreLaw` names. -/
theorem storeLawKept : Obligations.StoreLawKept :=
  ⟨storeLegal_storeLaw.keptByStep, chainLegal_storeLaw.keptByStep⟩

end Sys2Proof.Machine

/-! Proofs about what the profile store's tables select: the entry of a tag, the entry that a save or an import claim
takes, and what a lookup answers (R120 to R124, R129). -/

namespace Sys2Proof.Machine

variable {st : Store} {T : Fin 48 → Prop} {i : Fin 48} {tag : Word}

/-! ## The store's searches -/

/-- In a store that keeps its laws the entry found is the one that carries the tag (R120). -/
theorem findTag_carries (hk : StoreKept st T) (h : Carries st tag i) : findTag st tag = some i := by
  cases found : findTag st tag with
  | none => exact absurd h.2 (findTag_none found i h.1)
  | some j =>
    obtain ⟨used, same⟩ := findTag_some found
    by_contra other
    exact hk.1 j i (fun e => other (congrArg some e)) used h.1 (same.trans h.2.symm)

theorem findTag_nowhere (h : ∀ j, ¬ Carries st tag j) : findTag st tag = none := by
  cases found : findTag st tag with
  | none => rfl
  | some j => exact absurd (findTag_some found) (h j)

/-- The lowest FREE entry is the one found (R123). -/
theorem findFree_lowest (free : (entryAt st i).state = .free) (low : ∀ j < i, (entryAt st j).state ≠ .free) :
    findFree st = some i := by
  refine List.find?_eq_some_iff_getElem.2 ⟨by simp [free], i, by simp, by simp, fun j hj => ?_⟩
  have used := low ⟨j, by omega⟩ hj
  simpa using used

theorem findFree_full (h : ∀ j, (entryAt st j).state ≠ .free) : findFree st = none :=
  List.find?_eq_none.2 fun j _ => by simpa using h j

/-- A search from the end of a list without repetitions finds what stands last. -/
theorem find?_reverse_last {α : Type} [DecidableEq α] {l : List α} {p : α → Bool} {a : α} (once : l.Nodup) (ha : a ∈ l)
    (pa : p a = true) (last : ∀ b ∈ l, p b = true → l.idxOf b ≤ l.idxOf a) : l.reverse.find? p = some a := by
  cases found : l.reverse.find? p with
  | none => exact absurd pa (List.find?_eq_none.1 found a (List.mem_reverse.2 ha))
  | some b =>
    obtain ⟨pb, after, before, split, none_⟩ := List.find?_eq_some_iff_append.1 found
    have form : l = before.reverse ++ b :: after.reverse := by
      rw [← l.reverse_reverse, split]
      simp
    have fresh : b ∉ before.reverse := fun h =>
      (List.disjoint_of_nodup_append (form ▸ once)) h (List.mem_cons_self ..)
    have place : l.idxOf b = before.reverse.length := by
      rw [form, List.idxOf_append_of_notMem fresh, List.idxOf_cons_self, Nat.add_zero]
    rw [form, List.mem_append, List.mem_cons, List.mem_reverse (as := after)] at ha
    rcases ha with early | same | late
    · have bound := last b (form ▸ by simp) pb
      rw [place, form, List.idxOf_append_of_mem early] at bound
      exact absurd (List.idxOf_lt_length_of_mem early) (Nat.not_lt.2 bound)
    · rw [same]
    · exact absurd pa (by simpa using none_ a late)

/-- The VALID unpinned entry nearest the least recent end is the victim (R121, R123). -/
theorem findVictim_last (hk : StoreKept st T) (free : (entryAt st i).pinned = false)
    (valid : (entryAt st i).state = .valid)
    (last : ∀ j, (entryAt st j).pinned = false → (entryAt st j).state = .valid →
      st.recency.idxOf j ≤ st.recency.idxOf i) : findVictim st = some i := by
  obtain ⟨-, -, once, listed⟩ := hk
  refine find?_reverse_last once ((listed i).2 (by rw [valid]; decide)) (by simp [free, valid]) fun j _ hj => ?_
  simp only [Bool.and_eq_true, beq_iff_eq, Bool.not_eq_true'] at hj
  exact last j hj.2 hj.1

theorem findVictim_none (h : ∀ j, (entryAt st j).state = .valid → (entryAt st j).pinned = true) :
    findVictim st = none :=
  List.find?_eq_none.2 fun j _ => by simpa using h j

/-! ## The rows of a save and of an import claim (R123, R129) -/

theorem selectTarget_pinned (hk : StoreKept st T) (h : Carries st tag i) (pinned : (entryAt st i).pinned = true) :
    selectTarget st tag = .error .pinned := by
  simp only [selectTarget, findTag_carries hk h, pinned, if_true]

theorem selectTarget_busy (hk : StoreKept st T) (h : Carries st tag i) (pinned : (entryAt st i).pinned = false)
    (moving : (entryAt st i).state ≠ .valid) : selectTarget st tag = .error .busy := by
  simp only [selectTarget, findTag_carries hk h, pinned, moving, if_false, Bool.false_eq_true]

theorem selectTarget_full (h : ∀ j, ¬ Carries st tag j) (used : ∀ j, (entryAt st j).state ≠ .free)
    (pinned : ∀ j, (entryAt st j).state = .valid → (entryAt st j).pinned = true) :
    selectTarget st tag = .error .storeFull := by
  simp only [selectTarget, findTag_nowhere h, findFree_full used, findVictim_none pinned]

/-- The tag's own entry, else the lowest FREE one, else the victim (R123, R129). -/
theorem selectTarget_claimable (hk : StoreKept st T) (h : Claimable st tag i) : selectTarget st tag = .ok i := by
  rcases h with ⟨own, pinned, valid⟩ | ⟨no, free, low⟩ | ⟨no, used, pinned, valid, last⟩
  · simp only [selectTarget, findTag_carries hk own, pinned, valid, if_true, if_false, Bool.false_eq_true]
  · simp only [selectTarget, findTag_nowhere no, findFree_lowest free low]
  · simp only [selectTarget, findTag_nowhere no, findFree_full used, findVictim_last hk pinned valid last]

/-! ## Lookups and saves (R122 to R124) -/

theorem lookup_carried (hk : StoreKept st T) (h : Carries st tag i) (ln lf le : Nat) : lookup st tag ln lf le =
    if (entryAt st i).state = .importing then (.busy, none)
    else if (entryAt st i).ln = ln ∧ (entryAt st i).lf = lf ∧ (entryAt st i).le = le then (.hit, some i)
    else (.mismatch, none) := by
  simp only [lookup, findTag_carries hk h]

theorem saveProfileTo_refused {o : SaveOutcome} {f : Filters} (h : selectTarget st tag = .error o) :
    saveProfileTo st tag f = (o, st) := by
  simp only [saveProfileTo, h]

/-- A save that finds its entry: it becomes the most recent, no other entry changes (R123, R124). -/
theorem saveProfileTo_saved (f : Filters) (h : selectTarget st tag = .ok i) : ∃ u,
    saveProfileTo st tag f = (.saved, u) ∧ u.recency = i :: st.recency.filter (· != i) ∧
      (∀ j, j ≠ i → entryAt u j = entryAt st j) ∧ entryAt u i = savedEntry tag f := by
  refine ⟨touch i (setEntry i (savedEntry tag f) st), by simp only [saveProfileTo, h], rfl, fun j hj => ?_, ?_⟩
  · rw [touch_entry, entryAt_setEntry, if_neg hj]
  · rw [touch_entry, entryAt_setEntry, if_pos rfl]

/-- Settles O44: the lookup by `lookup_carried`, a save by the row of `selectTarget` that applies. -/
theorem lookupsAndSavesSelect : Obligations.LookupsAndSavesSelect := by
  intro st target tag ln lf le f carries hk hc
  obtain rfl : carries = Carries st tag := funext fun i => propext (hc i)
  refine ⟨fun no => ?_, fun i own => ⟨fun importing => ?_, fun still => ⟨fun same => ?_, fun differs => ?_⟩,
    fun pinned => ?_, fun pinned moving => ?_⟩, fun i claimable => ?_, fun no used pinned => ?_⟩
  · simp only [lookup, findTag_nowhere no]
  · rw [lookup_carried hk own, if_pos importing]
  · rw [lookup_carried hk own, if_neg still, if_pos same]
  · rw [lookup_carried hk own, if_neg still, if_neg differs]
  · exact saveProfileTo_refused (selectTarget_pinned hk own pinned)
  · exact saveProfileTo_refused (selectTarget_busy hk own pinned moving)
  · exact saveProfileTo_saved f (selectTarget_claimable hk claimable)
  · exact saveProfileTo_refused (selectTarget_full no used pinned)

end Sys2Proof.Machine

/-! Proofs about store records completed under an empty bus script, and a visit that takes PIN, UNPIN or DROP
(R126, R127, R140 to R143, R158). -/

namespace Sys2Proof.Machine

variable {s t v : State} {a : Word} {notify : Bool} {r : StoreResult} {count : Nat}

/-! ## Parts of runs that lie apart -/

theorem Apart.part {b : Word} {la lb : Nat} (h : Apart a la b lb) {o l : Nat} (ho : o + l ≤ la) :
    Apart (a + BitVec.ofNat 32 o) l b lb := fun k hk => by
  rw [add_ofNat_ofNat]
  exact h (o + k) (by omega)

theorem Apart.symm {b : Word} {la lb : Nat} (h : Apart a la b lb) : Apart b lb a la :=
  fun k hk j hj e => h j hj k hk e.symm

/-- The first word of a run that lies apart. -/
theorem Apart.first {b : Word} {la lb : Nat} (h : Apart a la b lb) (hl : 4 ≤ la) : Apart a 4 b lb :=
  fun k hk => h k (by omega)

/-! ## A store record completed (R142) -/

theorem storeResult_code_eq_zero (r : StoreResult) : r.code = 0 ↔ r = .ok := by
  cases r <;> simp [StoreResult.code]

/-- STORE_DONE by NOTIFY or a result other than OK (R142). -/
theorem raiseIf_storeDone (u : State) : raiseIf (notify || r != .ok) maintSource .storeDone u = { u with
    attn := if notify = true ∨ r ≠ .ok then attnRaise maintSource .storeDone u.attn else u.attn } := by
  by_cases hn : notify = true ∨ r ≠ .ok
  · rw [if_pos hn, raiseIf, if_pos (by simpa using hn)]
    rfl
  · rw [if_neg hn, raiseIf, if_neg (by simpa using hn)]

/-- The end of a completion: the cursor by the link, STORE_DONE, the status write (R88, R142). -/
def storeLinked (a : Word) (notify : Bool) (r : StoreResult) (u : State) : LinkStep → State
  | .watch => (maintStatus (raiseIf (notify || r != .ok) maintSource .storeDone
      { u with maint := { u.maint with cursor := a, mode := .watching } })).2
  | .moveTo b => (maintStatus (raiseIf (notify || r != .ok) maintSource .storeDone
      { u with maint := { u.maint with cursor := b, mode := .atRecord } })).2
  | .misaligned => raiseIf (notify || r != .ok) maintSource .storeDone (chainFault u)

/-- The record DONE with its result, nothing in flight, its link not yet read (R142). -/
def storeMarked (a : Word) (r : StoreResult) (count : Nat) (s : State) : State :=
  { s with mem := storeDoneMemory a r count s.mem, maint := Emptied s.maint }

/-- A completion by its accesses, when each is made (R142). -/
theorem completeStore_of_accesses {x y z : State} {link : Word}
    (results : writeWords [BitVec.ofNat 32 r.code, BitVec.ofNat 32 count] (a + 20#32) s = (true, x))
    (done : writeWord a dispDone x = (true, y))
    (read : readWord (a + 4#32) { y with maint := clearTransfer y.maint } = (some link, z)) :
    completeStore a notify r count s = storeLinked a notify r z (linkStep link) := by
  simp only [completeStore, results, done, read]
  cases linkStep link <;> rfl

/-- A completion under an empty script, up to the link that it reads (R142). -/
theorem completeStore_link (h : s.bus = []) (hw : MemLegal s) : completeStore a notify r count s =
    storeLinked a notify r (storeMarked a r count s) (linkStep (memWord s.mem (a + 4#32))) := by
  obtain ⟨-, -, -, -, link, -⟩ := storeDoneMemory_words (a := a) (r := r) (count := count) hw
  rw [← link]
  exact completeStore_of_accesses (writeWords_nil _ _ h) (writeWord_nil _ _ h)
    (readWord_nil (s := storeMarked a r count s) (a + 4#32) h)

/-- A completion whose link is a multiple of 4: the record done, then the status write (R88, R142). -/
theorem completeStore_idle (h : s.bus = []) (hw : MemLegal s) (hl : (memWord s.mem (a + 4#32)).toNat % 4 = 0) :
    completeStore a notify r count s = (maintStatus (storeDone a notify r count s)).2 := by
  rw [completeStore_link h hw]
  unfold storeDone linkStep
  by_cases h0 : memWord s.mem (a + 4#32) = 0#32
  · simp only [h0, if_true, storeLinked, raiseIf_storeDone, storeMarked, ← h]
  · simp only [h0, if_false, if_pos ((aligned_iff _).2 hl), storeLinked, raiseIf_storeDone, storeMarked, ← h]

/-- A word of the record that the status area lies apart from stands behind the status write. -/
theorem memWord_maintArea_apart {b : Word} (hw : MemLegal s) (hb : Apart b 4 (s.desc 32 + 128#32) 6) :
    memWord (maintArea s) b = memWord s.mem b :=
  memWord_congr fun k hk => maintArea_frame hw _ (hb k hk)

/-- A store record answered: its result, its count and DONE, the unit, the cause, and nothing else (R142, R158). -/
theorem completeStore_answered (h : s.bus = []) (hw : MemLegal s) (hb : s.tableBase ≠ 0#24)
    (hl : (memWord s.mem (a + 4#32)).toNat % 4 = 0) (apart : Apart a 28 (s.desc 32 + 128#32) 6) :
    StoreAnswered a notify r.code count s (completeStore a notify r count s) ∧
      (completeStore a notify r count s).store = s.store := by
  rw [completeStore_idle h hw hl]
  obtain ⟨legal, done, code, number, -, frame⟩ := storeDoneMemory_words (a := a) (r := r) (count := count) hw
  have legal : MemLegal (storeDone a notify r count s) := legal
  rw [maintStatus_idle (s := storeDone a notify r count s) rfl]
  refine ⟨⟨⟨?_, ?_, ?_, maintArea_shown legal hb, rfl, ?_, rfl, rfl, rfl⟩, fun x ha hr hx => ?_⟩, rfl⟩
  · exact (memWord_maintArea_apart legal (apart.first (by omega))).trans done
  · exact (memWord_maintArea_apart legal (apart.part (o := 20) (l := 4) (by omega))).trans code
  · exact (memWord_maintArea_apart legal (apart.part (o := 24) (l := 4) (by omega))).trans number
  · exact if_congr (or_congr_right (not_congr (storeResult_code_eq_zero r).symm)) rfl rfl
  · exact (maintArea_frame legal x hx).trans (frame x ha hr)

/-- A record completed from a state that differs in memory, unit and store alone, its link standing. -/
theorem StoreCompleted.since {result : Nat} (h : StoreCompleted a notify result count v t)
    (link : memWord v.mem (a + 4#32) = memWord s.mem (a + 4#32)) (maint : Emptied v.maint = Emptied s.maint)
    (attn : v.attn = s.attn) (chans : v.chans = s.chans) (pool : v.pool = s.pool) (port : v.port = s.port) :
    StoreCompleted a notify result count s t := by
  unfold StoreCompleted at h ⊢
  rwa [link, maint, attn, chans, pool, port] at h

/-- The same where memory is as it was. -/
theorem StoreAnswered.since {result : Nat} (h : StoreAnswered a notify result count v t) (mem : v.mem = s.mem)
    (base : v.tableBase = s.tableBase) (maint : Emptied v.maint = Emptied s.maint) (attn : v.attn = s.attn)
    (chans : v.chans = s.chans) (pool : v.pool = s.pool) (port : v.port = s.port) :
    StoreAnswered a notify result count s t := by
  obtain ⟨completed, frame⟩ := h
  refine ⟨completed.since (mem ▸ rfl) maint attn chans pool port, ?_⟩
  unfold State.desc at frame ⊢
  rwa [mem, base] at frame

/-- The same behind the mark of TAKEN, which the completion overwrites (R142). -/
theorem StoreAnswered.since_taken {result : Nat} {st : Store} (hw : MemLegal s)
    (h : StoreAnswered a notify result count { storeTaken a s with store := st } t) :
    StoreAnswered a notify result count (storeWalking s) t := by
  obtain ⟨completed, frame⟩ := h
  refine ⟨completed.since (memWord_memSetWord_first a _ hw (p := 4) (by omega) (by omega)) rfl rfl rfl rfl rfl,
    fun x ha hr hx => ?_⟩
  exact (frame x ha hr hx).trans (memRead_memSetWord_ne a _ hw x ha)

/-- A completion behind a run of words that lies apart from the record and the status area: the record answered, the
words standing, and no other byte changed (R142, R144, R148). -/
theorem answered_behind {ws : List Word} {b : Word} {st : Store} {m : Maint} (h : s.bus = []) (hw : MemLegal s)
    (hb : s.tableBase ≠ 0#24) (hl : (memWord s.mem (a + 4#32)).toNat % 4 = 0)
    (apart : Apart a 28 (s.desc 32 + 128#32) 6) (short : 4 * ws.length ≤ 2 ^ 32)
    (apart_record : Apart b (4 * ws.length) a 28) (apart_status : Apart b (4 * ws.length) (s.desc 32 + 128#32) 6)
    (hm : Emptied m = Emptied s.maint)
    (ht : t = completeStore a notify r count { s with mem := memSetWords ws b s.mem, store := st, maint := m }) :
    StoreCompleted a notify r.code count s t ∧ t.store = st ∧
    (∀ x, Outside b (4 * ws.length) x → Outside a 4 x → Outside (a + 20#32) 8 x →
      Outside (s.desc 32 + 128#32) 6 x → memRead t.mem x = memRead s.mem x) ∧
    ∀ j < ws.length, memWord t.mem (b + BitVec.ofNat 32 (4 * j)) = ws.getD j 0#32 := by
  have legal : MemLegal { s with mem := memSetWords ws b s.mem, store := st, maint := m } := memSetWords_wf _ _ hw
  have link : memWord (memSetWords ws b s.mem) (a + 4#32) = memWord s.mem (a + 4#32) :=
    memWord_memSetWords_apart _ _ _ hw (apart_record.symm.part (o := 4) (l := 4) (by omega))
  obtain ⟨⟨completed, frame⟩, store⟩ := completeStore_answered (a := a) (notify := notify) (r := r) (count := count)
    (s := { s with mem := memSetWords ws b s.mem, store := st, maint := m }) h legal hb (link.symm ▸ hl) apart
  rw [← ht] at completed frame store
  refine ⟨completed.since link hm rfl rfl rfl rfl, store, fun x hx ha hr hs => ?_, fun j hj => ?_⟩
  · exact (frame x ha hr hs).trans (memRead_memSetWords_ne _ _ hw x hx)
  · refine (memWord_congr fun k hk => ?_).trans (memWord_memSetWords _ _ hw short j hj)
    rw [add_ofNat_ofNat]
    have out := apart_record (4 * j + k) (by omega)
    exact frame _ (fun b hb => out b (by omega)) (outside_part out (o := 20) (l := 8) (by omega))
      (apart_status (4 * j + k) (by omega))

/-! ## PIN, UNPIN and DROP (R126, R127) -/

/-- What PIN (1), UNPIN (2) and DROP (3) do with the store. -/
def entryDirective (code : Nat) (tag : Word) (st : Store) : StoreResult × Store :=
  if code = 3 then dropEntry st tag else pinEntry st tag (decide (code = 1))

theorem performDirective_entry {code : Nat} {tag buffer : Word} (h : code = 1 ∨ code = 2 ∨ code = 3) :
    performDirective a code notify tag buffer s = completeStore a notify (entryDirective code tag s.store).1 0
      { s with store := (entryDirective code tag s.store).2 } := by
  rcases h with rfl | rfl | rfl <;> rfl

section
variable {st : Store} {T : Fin 48 → Prop} {i : Fin 48} {tag : Word} {code : Nat}

theorem entryDirective_nowhere (h : ∀ j, ¬ Carries st tag j) : entryDirective code tag st = (.notFound, st) := by
  simp only [entryDirective, dropEntry, pinEntry, findTag_nowhere h, ite_self]

/-- PIN and UNPIN set the pinned flag of the tag's entry alone (R126). -/
theorem entryDirective_pin (hk : StoreKept st T) (h : Carries st tag i) (still : (entryAt st i).state ≠ .importing)
    (hc : code ≠ 3) : entryDirective code tag st =
      (.ok, setEntry i { entryAt st i with pinned := decide (code = 1) } st) := by
  simp only [entryDirective, pinEntry, findTag_carries hk h, if_neg hc, if_neg still]

theorem entryDirective_drop_pinned (hk : StoreKept st T) (h : Carries st tag i)
    (pinned : (entryAt st i).pinned = true) : entryDirective 3 tag st = (.pinned, st) := by
  simp only [entryDirective, dropEntry, findTag_carries hk h, pinned, if_true]

/-- DROP frees the tag's entry (R127). -/
theorem entryDirective_drop (hk : StoreKept st T) (h : Carries st tag i) (pinned : (entryAt st i).pinned = false)
    (valid : (entryAt st i).state = .valid) : entryDirective 3 tag st = (.ok, freeEntry i st) := by
  simp only [entryDirective, dropEntry, findTag_carries hk h, pinned, valid, if_true, if_false, Bool.false_eq_true]

theorem freeEntry_entry (i j : Fin 48) (st : Store) : entryAt (freeEntry i st) j =
    if j = i then { entryAt st i with state := .free, tag := 0#32 } else entryAt st j := entryAt_setEntry i j _ st

/-- With nothing in flight an entry in use is VALID (R120). -/
theorem carries_valid (hk : StoreKept st fun _ => False) (h : Carries st tag i) : (entryAt st i).state = .valid := by
  have rests := (hk.2.1 i).not.2 id
  cases hs : (entryAt st i).state with
  | free => exact absurd hs h.1
  | valid => rfl
  | importing => exact absurd (by rw [inTransfer, hs]; rfl) rests
  | exporting => exact absurd (by rw [inTransfer, hs]; rfl) rests

end

/-- A visit that takes the POSTED record at the cursor performs its directive (R136, R141, R142). -/
theorem exec_visit_takes (h : s.bus = []) (hw : MemLegal s) (on : s.enabled = true) (none_ : NoRequest s)
    (works : Works s) (idle : s.maint.inflight = none) (mode : s.maint.mode = .atRecord) (cursor : s.maint.cursor = a)
    (posted : memWord s.mem a = 1#32) : exec (.maintenanceVisit []) s = .next
      (performDirective a (field (memWord s.mem (a + 8#32)) 0 8) (flag (memWord s.mem (a + 8#32)) 8)
        (memWord s.mem (a + 12#32)) (memWord s.mem (a + 16#32)) (storeTaken a s)) := by
  subst cursor
  rw [exec_visit_idle h, if_pos on, visit_noRequest h none_, storeStep_works works, workStore_finds idle,
    findStore_atRecord mode, lookAtStore_idle h, if_pos posted, takeStore_idle _ h hw]

/-- Settles O46: the visit by `exec_visit_takes`, the record by `completeStore_answered`, the store by the rows of
`entryDirective`. -/
theorem visitPerformsPinOrDrop : Obligations.VisitPerformsPinOrDrop := by
  intro s a word tag link code i h hw on hb none_ legal works idle mode cursor posted apart hword htag hlink aligned
    hcode codes
  have kept : StoreKept s.store fun _ => False := storeLegal_idle legal idle
  have takes := exec_visit_takes h hw on none_ works idle mode cursor posted
  rw [← hword, ← htag, show field word 0 8 = code from hcode.symm, performDirective_entry codes] at takes
  have taken : MemLegal (storeTaken a s) := memSetWord_wf _ _ hw
  have links : memWord (storeTaken a s).mem (a + 4#32) = link :=
    (memWord_memSetWord_first a _ hw (p := 4) (by omega) (by omega)).trans hlink.symm
  have answered := completeStore_answered (a := a) (notify := flag word 8) (r := (entryDirective code tag s.store).1)
    (count := 0) (s := { storeTaken a s with store := (entryDirective code tag s.store).2 }) h taken hb
    (links ▸ aligned) apart
  refine ⟨_, (entryDirective code tag s.store).1.code, takes, answered.1.since_taken hw, ?_⟩
  rw [show (storeTaken a s).store = s.store from rfl, answered.2]
  refine ⟨fun no => ?_, fun own => ⟨fun pins => ?_, fun drops pinned => ?_, fun drops unpinned => ?_⟩⟩
  · rw [entryDirective_nowhere no]
    exact ⟨rfl, rfl⟩
  · have still : (entryAt s.store i).state ≠ .importing := by rw [carries_valid kept own]; decide
    rw [entryDirective_pin kept own still pins]
    refine ⟨rfl, rfl, fun j hj => ?_, ?_⟩
    · rw [entryAt_setEntry, if_neg hj]
    · rw [entryAt_setEntry, if_pos rfl]
  · subst drops
    rw [entryDirective_drop_pinned kept own pinned]
    exact ⟨rfl, rfl⟩
  · subst drops
    rw [entryDirective_drop kept own unpinned (carries_valid kept own)]
    refine ⟨rfl, ?_, ?_, fun j hj => ?_, rfl⟩
    · rw [freeEntry_entry, if_pos rfl]
    · rw [freeEntry_entry, if_pos rfl]
    · rw [freeEntry_entry, if_neg hj]

end Sys2Proof.Machine

/-! Proofs about LIST and the checks of a directive (R128, R142, R144). -/

namespace Sys2Proof.Machine

variable {s t : State} {a : Word} {notify : Bool}

/-! ## Places in a filtered enumeration -/

/-- An element that passes stands, among those that pass, behind the lower ones that pass. -/
theorem filter_finRange_place {n : Nat} {p : Fin n → Bool} {i : Fin n} (h : p i = true) :
    ((List.finRange n).filter p)[(Finset.univ.filter fun j => j < i ∧ p j = true).card]? = some i := by
  have bound : i.val < (List.finRange n).length := by simp
  have split : List.finRange n = (List.finRange n).take i ++ i :: (List.finRange n).drop (i + 1) := by
    conv_lhs => rw [← List.take_append_drop i (List.finRange n), List.drop_eq_getElem_cons bound]
    simp
  have below : (((List.finRange n).take i).filter p).length =
      (Finset.univ.filter fun j => j < i ∧ p j = true).card := by
    have once := ((List.nodup_finRange n).sublist (List.take_sublist i.val _)).filter p
    rw [← List.toFinset_card_of_nodup once]
    congr 1
    ext j
    simp only [List.mem_toFinset, List.mem_filter, Finset.mem_filter, Finset.mem_univ, true_and,
      List.mem_take_iff_getElem, List.getElem_finRange]
    refine and_congr_left fun _ => ⟨?_, fun lt => ⟨j.val, ?_, rfl⟩⟩
    · rintro ⟨k, hk, rfl⟩
      exact Fin.lt_def.2 (by simpa using (lt_min_iff.1 hk).1)
    · exact lt_min_iff.2 ⟨lt, by simp⟩
  rw [split, List.filter_append, List.filter_cons_of_pos h, List.getElem?_append_right below.le, below, Nat.sub_self,
    List.getElem?_cons_zero]

/-- The words of an entry in a run of two words an entry. -/
theorem flatMap_pair_getD {α : Type} (f g : α → Word) (l : List α) {k : Nat} {x : α} (h : l[k]? = some x) :
    (l.flatMap fun y => [f y, g y]).getD (2 * k) 0#32 = f x ∧
      (l.flatMap fun y => [f y, g y]).getD (2 * k + 1) 0#32 = g x := by
  induction l generalizing k with
  | nil => simp at h
  | cons y l ih =>
    cases k with
    | zero =>
      obtain rfl : y = x := by simpa using h
      exact ⟨rfl, rfl⟩
    | succ k => exact ih (by simpa using h)

/-! ## The words of a LIST (R144) -/

theorem listing_length (st : Store) : (listing st).length = 2 * entriesInUse st := by
  have pair : ∀ l : List (Fin 48), (l.flatMap fun i => listWords (entryAt st i) (rankOf st i)).length =
      2 * l.length := fun l => by
    induction l with
    | nil => rfl
    | cons i l ih =>
      rw [List.flatMap_cons, List.length_append, ih, List.length_cons, show (listWords _ _).length = 2 from rfl]
      omega
  exact pair _

/-- The second word of an entry's description (R144). -/
def listFields (e : Entry) (rank : Nat) : Word :=
  pack4 (e.state.code + 128 * bitNat e.pinned) rank (e.ln / 8 + 16 * (e.le / 8)) (e.lf / 8)

/-- Where an entry in use stands in the list (R128, R144). -/
theorem listing_words (st : Store) (i : Fin 48) (used : (entryAt st i).state ≠ .free) {p : Nat}
    (hp : p = (Finset.univ.filter fun j : Fin 48 => j < i ∧ (entryAt st j).state ≠ .free).card) :
    (listing st).getD (2 * p) 0#32 = (entryAt st i).tag ∧
      (listing st).getD (2 * p + 1) 0#32 = listFields (entryAt st i) (st.recency.idxOf i) := by
  have place := filter_finRange_place (p := fun j : Fin 48 => (entryAt st j).state != .free) (i := i) (by simpa using used)
  simp only [bne_iff_ne, ← hp] at place
  exact flatMap_pair_getD (fun j => (entryAt st j).tag) (fun j => listFields (entryAt st j) (rankOf st j)) _ place

/-- The fields of a description, in the lengths of R119 (R144). -/
theorem listFields_fields (e : Entry) {rank : Nat} (hr : rank < 256) (hn : e.ln ≤ 64) (hf : e.lf ≤ 128)
    (he : e.le ≤ 64) :
    (listFields e rank).extractLsb' 0 2 = BitVec.ofNat 2 e.state.code ∧ (listFields e rank).extractLsb' 2 5 = 0#5 ∧
    (listFields e rank).getLsbD 7 = e.pinned ∧ ((listFields e rank).extractLsb' 8 8).toNat = rank ∧
    ((listFields e rank).extractLsb' 16 4).toNat = e.ln / 8 ∧
    ((listFields e rank).extractLsb' 20 4).toNat = e.le / 8 ∧
    ((listFields e rank).extractLsb' 24 8).toNat = e.lf / 8 := by
  have pinned := bitNat_le e.pinned
  have state : e.state.code < 4 := by cases e.state <;> decide
  have value : (listFields e rank).toNat = e.state.code + 128 * bitNat e.pinned + 256 * rank +
      65536 * (e.ln / 8 + 16 * (e.le / 8)) + 16777216 * (e.lf / 8) := by
    rw [listFields, pack4_toNat]
    omega
  simp only [extract_toNat, value]
  refine ⟨extract_eq ?_, extract_eq ?_, bit_of_toNat ?_, by omega, by omega, by omega, by omega⟩
  · rw [value, BitVec.toNat_ofNat]
    omega
  · rw [value, show (0#5).toNat = 0 from rfl]
    omega
  · rw [value]
    omega

/-! ## Directives answered at their check, and LIST (R142, R144) -/

theorem badDirective_iff (code : Nat) (buffer : Word) : badDirective code buffer = true ↔
    code = 0 ∨ 6 < code ∨ (4 ≤ code ∧ (buffer = 0#32 ∨ buffer.toNat % 4 ≠ 0)) := by
  simp only [badDirective, Bool.or_eq_true, Bool.and_eq_true, beq_iff_eq, decide_eq_true_eq, Bool.not_eq_true',
    Bool.eq_false_iff, ne_eq, aligned_iff, or_assoc]

/-- A directive with a buffer that is a non-zero multiple of 4 passes the check (R142). -/
theorem badDirective_passes {code : Nat} {buffer : Word} (h0 : buffer ≠ 0#32) (ha : buffer.toNat % 4 = 0)
    (hc : 1 ≤ code ∧ code ≤ 6) : badDirective code buffer = false := by
  rw [Bool.eq_false_iff, ne_eq, badDirective_iff]
  rintro (h | h | ⟨-, h | h⟩)
  · omega
  · omega
  · exact h0 h
  · exact h ha

theorem performDirective_bad {tag buffer : Word} {code : Nat} (h : badDirective code buffer = true) :
    performDirective a code notify tag buffer s = completeStore a notify .badDirective 0 s := by
  unfold performDirective
  rw [if_pos h]

/-- Memory behind the words of a LIST. -/
def listMemory (buffer : Word) (s : State) : Memory := memSetWords (listing s.store) buffer s.mem

theorem performDirective_performList {tag buffer : Word} (h0 : buffer ≠ 0#32) (ha : buffer.toNat % 4 = 0) :
    performDirective a 4 notify tag buffer s = performList a buffer notify s := by
  unfold performDirective
  rw [badDirective_passes h0 ha (by omega), if_neg Bool.false_ne_true]
  rfl

theorem performDirective_list {tag buffer : Word} (h : s.bus = []) (h0 : buffer ≠ 0#32) (ha : buffer.toNat % 4 = 0) :
    performDirective a 4 notify tag buffer s =
      completeStore a notify .ok (entriesInUse s.store) { s with mem := listMemory buffer s } := by
  rw [performDirective_performList h0 ha, performList, writeWords_nil _ _ h]
  rfl

/-- A LIST answered: the record, and every word of the list behind it (R142, R144). -/
theorem list_answered {buffer : Word} {d : Nat} (h : s.bus = []) (hw : MemLegal s) (hb : s.tableBase ≠ 0#24)
    (hl : (memWord s.mem (a + 4#32)).toNat % 4 = 0) (apart : Apart a 28 (s.desc 32 + 128#32) 6)
    (hd : d = entriesInUse s.store) (apart_record : Apart buffer (8 * d) a 28)
    (apart_status : Apart buffer (8 * d) (s.desc 32 + 128#32) 6)
    (ht : t = completeStore a notify .ok d { s with mem := listMemory buffer s }) :
    StoreCompleted a notify 0 d s t ∧ t.store = s.store ∧
    (∀ x, Outside buffer (8 * d) x → Outside a 4 x → Outside (a + 20#32) 8 x →
      Outside (s.desc 32 + 128#32) 6 x → memRead t.mem x = memRead s.mem x) ∧
    ∀ j < 2 * d, memWord t.mem (buffer + BitVec.ofNat 32 (4 * j)) = (listing s.store).getD j 0#32 := by
  have length : (listing s.store).length = 2 * d := by rw [listing_length, hd]
  have bytes : 8 * d = 4 * (listing s.store).length := by omega
  have few : d ≤ 48 := hd ▸ (List.length_filter_le ..).trans (by simp)
  rw [bytes] at apart_record apart_status ⊢
  rw [← length]
  exact answered_behind h hw hb hl apart (by omega) apart_record apart_status rfl ht

/-- An entry in use stands in the list before its end. -/
theorem place_lt_used {st : Store} {i : Fin 48} (used : (entryAt st i).state ≠ .free) :
    (Finset.univ.filter fun j : Fin 48 => j < i ∧ (entryAt st j).state ≠ .free).card < entriesInUse st := by
  rw [entriesInUse_card]
  refine Finset.card_lt_card (Finset.ssubset_iff_of_subset ?_ |>.2 ⟨i, by simpa using used, by simp⟩)
  exact Finset.monotone_filter_right _ fun j _ h => h.2

/-- Settles O51: the check by `badDirective_iff`, LIST by `list_answered` and the place of each entry
(`listing_words`). -/
theorem listDescribesStore : Obligations.ListDescribesStore := by
  rintro s t a tag buffer code d notify h hw hb hl apart ht hd
  refine ⟨fun bad => ?_, ?_⟩
  · rw [ht, performDirective_bad ((badDirective_iff code buffer).2 bad)]
    exact completeStore_answered h hw hb hl apart
  rintro rfl h0 ha short apart_record apart_status
  rw [← entriesInUse_card] at hd
  rw [performDirective_list h h0 ha, ← hd] at ht
  obtain ⟨completed, store, frame, shown⟩ := list_answered h hw hb hl apart hd apart_record apart_status ht
  refine ⟨completed, store, frame, ?_⟩
  rintro i e p w he used hn hf hle hp hword
  subst he
  have place : p < d := hd ▸ hp ▸ place_lt_used used
  obtain ⟨tag_word, fields⟩ := listing_words s.store i used hp
  have first : buffer + BitVec.ofNat 32 (8 * p) = buffer + BitVec.ofNat 32 (4 * (2 * p)) := by rw [← Nat.mul_assoc]
  have second : buffer + BitVec.ofNat 32 (8 * p) + 4#32 = buffer + BitVec.ofNat 32 (4 * (2 * p + 1)) := by
    rw [add_ofNat_ofNat, Nat.mul_succ, ← Nat.mul_assoc]
  have rank : s.store.recency.idxOf i < 256 := by
    have := List.idxOf_le_length (a := i) (l := s.store.recency)
    omega
  obtain ⟨state, clear, rest⟩ := listFields_fields (entryAt s.store i) rank hn hf hle
  rw [second, shown _ (by omega), fields] at hword
  rw [hword, first, shown _ (by omega)]
  refine ⟨tag_word, state.trans ?_, clear, rest⟩
  cases (entryAt s.store i).state <;> rfl

end Sys2Proof.Machine

/-! Proofs about IMPORT and EXPORT, their starts and their ends (R129 to R131, R142, R145 to R149). -/

namespace Sys2Proof.Machine

variable {s t : State} {a tag buffer : Word} {notify : Bool} {f : InFlightStore} {i : Fin 48}

/-- The visit that reaches the end of an image (R145, R147). -/
theorem visitLimit_last {pos len : Nat} (h : len ≤ (pos / 64 + 1) * 64) : visitLimit pos len = len := min_eq_left h

theorem setEntryState_entry (i j : Fin 48) (x : EntryState) (st : Store) : entryAt (setEntryState i x st) j =
    if j = i then { entryAt st i with state := x } else entryAt st j := entryAt_setEntry i j _ st

/-! ## EXPORT (R131, R148) -/

theorem performDirective_export (h0 : buffer ≠ 0#32) (ha : buffer.toNat % 4 = 0) :
    performDirective a 6 notify tag buffer s = startExport a buffer tag notify s := by
  unfold performDirective
  rw [badDirective_passes h0 ha (by omega), if_neg Bool.false_ne_true]
  rfl

theorem startExport_nowhere (h : ∀ j, ¬ Carries s.store tag j) :
    startExport a buffer tag notify s = completeStore a notify .notFound 0 s := by
  simp only [startExport, findTag_nowhere h]

theorem startExport_busy {T : Fin 48 → Prop} (hk : StoreKept s.store T) (h : Carries s.store tag i)
    (moving : (entryAt s.store i).state ≠ .valid) :
    startExport a buffer tag notify s = completeStore a notify .busy 0 s := by
  simp only [startExport, findTag_carries hk h, moving, ne_eq, not_false_eq_true, if_true]

/-- The directive in flight of an EXPORT (R137). -/
def exportInFlight (a buffer tag : Word) (notify : Bool) (e : Entry) : InFlightStore :=
  { addr := a, kind := .exportImage, tag := tag, buffer := buffer, notify := notify, pinned := e.pinned }

/-- The part as an EXPORT starts: its entry EXPORTING, the transfer at position 0 (R131, R148). -/
def exportStarted (a buffer tag : Word) (notify : Bool) (i : Fin 48) (s : State) : State :=
  { s with store := setEntryState i .exporting s.store
           maint := { s.maint with
             inflight := some (exportInFlight a buffer tag notify (entryAt s.store i)), position := 0
             imageLen := imageLength (entryAt s.store i), target := some i, crc := 0xFFFF#16 } }

theorem startExport_starts {T : Fin 48 → Prop} (hk : StoreKept s.store T) (h : Carries s.store tag i)
    (valid : (entryAt s.store i).state = .valid) : startExport a buffer tag notify s =
      exportVisit (exportInFlight a buffer tag notify (entryAt s.store i)) i
        (exportStarted a buffer tag notify i s) := by
  simp only [startExport, findTag_carries hk h, valid, ne_eq, not_true_eq_false, if_false]
  rfl

theorem imageBody_length (e : Entry) (h : e.coefs.length = e.ln + e.lf + e.le) :
    (imageBody e).length = 4 + (e.ln + e.lf + e.le) := by
  simp only [imageBody, List.length_append, List.length_cons, List.length_nil, List.length_map, h]

/-- The words that the last visit of an EXPORT writes: the rest of the image, then the CRC word (R148, R149). -/
def lastExportWords (e : Entry) (pos : Nat) (crc : BitVec 16) : List Word :=
  (imageBody e).drop pos ++ [0#16 ++ crcWords crc ((imageBody e).drop pos)]

/-- The last visit of an EXPORT (R148). -/
theorem exportVisit_last {e : Entry} {pos len : Nat} (h : s.bus = []) (he : e = entryAt s.store i)
    (hp : pos = s.maint.position) (hlen : len = s.maint.imageLen) (image : len = 4 + (e.ln + e.lf + e.le) + 1)
    (coefs : e.coefs.length = e.ln + e.lf + e.le) (last : len ≤ (pos / 64 + 1) * 64) : ∃ m,
    Emptied m = Emptied s.maint ∧ exportVisit f i s = completeStore f.addr f.notify .ok len { s with
      mem := memSetWords (lastExportWords e pos s.maint.crc) (f.buffer + BitVec.ofNat 32 (4 * pos)) s.mem
      store := setEntryState i .valid s.store, maint := m } := by
  have whole : ((imageBody e).take (len - 1)).take len = imageBody e := by
    have length := imageBody_length e coefs
    rw [List.take_take, List.take_of_length_le (by omega)]
  unfold exportVisit
  dsimp only
  rw [← he, ← hp, ← hlen, visitLimit_last last, if_neg (Nat.lt_irrefl len), whole, writeWords_nil _ _ h]
  dsimp only
  rw [if_neg (Nat.lt_irrefl len)]
  refine ⟨_, ?_, rfl⟩
  rfl

/-- Settles O53: the start by the entry that carries the tag, the end by `answered_behind` and the words of the last
visit. -/
theorem exportStartsAndEnds : Obligations.ExportStartsAndEnds := by
  refine ⟨?_, ?_⟩
  · rintro s t a tag buffer notify target h hw hb hk hl apart h0 ha rfl
    rw [performDirective_export h0 ha]
    refine ⟨fun no => ?_, fun i own moving => ?_, fun i own valid => ?_⟩
    · rw [startExport_nowhere no]
      exact completeStore_answered h hw hb hl apart
    · rw [startExport_busy hk own (by rw [moving]; decide)]
      exact completeStore_answered h hw hb hl apart
    · refine ⟨_, _, startExport_starts hk own valid, rfl, rfl, rfl, rfl, rfl, rfl, rfl, ?_, fun j hj => ?_, rfl⟩
      · exact (setEntryState_entry ..).trans (if_pos rfl)
      · exact (setEntryState_entry ..).trans (if_neg hj)
  · intro f i s t e pos len at_ h hw hb hl he hp hlen image coefs short inside last hat apart apart_record apart_status ht
    obtain ⟨m, hm, form⟩ := exportVisit_last (f := f) h he hp hlen image coefs last
    have body := imageBody_length e coefs
    have length : (lastExportWords e pos s.maint.crc).length = len - pos := by
      rw [lastExportWords, List.length_append, List.length_drop, body, List.length_singleton]
      omega
    rw [← hat] at form
    rw [← length] at apart_record apart_status ⊢
    obtain ⟨completed, store, frame, words⟩ := answered_behind h hw hb hl apart (by omega) apart_record apart_status hm
      (ht.trans form)
    have place : ∀ j, pos ≤ j → f.buffer + BitVec.ofNat 32 (4 * j) = at_ + BitVec.ofNat 32 (4 * (j - pos)) := by
      intro j hj
      rw [hat, add_ofNat_ofNat, ← Nat.mul_add, Nat.add_sub_cancel' hj]
    refine ⟨completed, ?_, fun j hj => ?_, ?_, fun j hj hend => ?_, ?_, frame⟩
    · rw [store, setEntryState_entry, if_pos rfl, ← he]
    · rw [store, setEntryState_entry, if_neg hj]
    · rw [store]
      rfl
    · rw [place j hj, words _ (by omega), lastExportWords, List.getD_append _ _ _ _ (by rw [List.length_drop]; omega)]
      simp only [List.getD_eq_getElem?_getD, List.getElem?_drop, Nat.add_sub_cancel' hj]
    · rw [place _ (by omega), words _ (by omega), lastExportWords,
        List.getD_append_right _ _ _ _ (by rw [List.length_drop]; omega),
        show len - 1 - pos - ((imageBody e).drop pos).length = 0 by rw [List.length_drop]; omega]
      rfl

/-! ## IMPORT (R129, R130, R146, R147) -/

theorem performDirective_import (h0 : buffer ≠ 0#32) (ha : buffer.toNat % 4 = 0) :
    performDirective a 5 notify tag buffer s = startImport a buffer tag notify s := by
  unfold performDirective
  rw [badDirective_passes h0 ha (by omega), if_neg Bool.false_ne_true]
  rfl

/-- The header words of an image at `buffer` (R145). -/
def headerWords (buffer : Word) (m : Memory) : List Word :=
  [memWord m buffer, memWord m (buffer + 4#32), memWord m (buffer + 8#32), memWord m (buffer + 12#32)]

theorem memWords_header (buffer : Word) (m : Memory) : memWords 4 buffer m = headerWords buffer m := by
  simp only [memWords, headerWords, BitVec.add_assoc]
  rfl

/-- The header that an IMPORT reads (R146). -/
def headerRead (buffer : Word) (s : State) : Header := decodeHeader (headerWords buffer s.mem)

/-- The checks of a header, listed (R146). -/
theorem headerOk_iff (h : Header) : headerOk h = true ↔ h.format = 1 ∧ h.ln ∈ [8, 16, 24, 32, 40, 48, 56, 64] ∧
    h.le ∈ [8, 16, 24, 32, 40, 48, 56, 64] ∧
    h.lf ∈ [0, 8, 16, 24, 32, 40, 48, 56, 64, 72, 80, 88, 96, 104, 112, 120, 128] ∧
    h.count = 4 + h.ln + h.lf + h.le + 1 ∧ (h.delay = 0 ∨ 64 ≤ h.delay ∧ h.delay ≤ 4992) ∧ h.cursor < h.le ∧
    h.tag ≠ 0#32 := by
  simp only [headerOk, Bool.and_eq_true, Bool.or_eq_true, beq_iff_eq, bne_iff_ne, decide_eq_true_eq, lengthsOk_iff]
  tauto

theorem startImport_bad (h : s.bus = []) (bad : headerOk (headerRead buffer s) = false) :
    startImport a buffer tag notify s = completeStore a notify .formatError 4 s := by
  unfold startImport
  rw [readWords_nil _ _ h, memWords_header]
  dsimp only
  rw [← headerRead, bad]
  rfl

theorem startImport_refused {o : SaveOutcome} (h : s.bus = []) (good : headerOk (headerRead buffer s) = true)
    (refused : selectTarget s.store (headerRead buffer s).tag = .error o) :
    startImport a buffer tag notify s = completeStore a notify (claimResult o) 4 s := by
  unfold startImport
  rw [readWords_nil _ _ h, memWords_header]
  dsimp only
  rw [← headerRead, good, refused]
  rfl

/-- The directive in flight of an IMPORT (R137; log 29). -/
def importInFlight (a buffer tag : Word) (notify : Bool) (h : Header) : InFlightStore :=
  { addr := a, kind := .importImage, tag := tag, buffer := buffer, notify := notify, pinned := h.pinned }

/-- The part as an IMPORT starts: its target claimed, the transfer behind its header (R129, R146). -/
def importStarted (a buffer tag : Word) (notify : Bool) (i : Fin 48) (s : State) : State :=
  { s with store := claimTarget i (headerRead buffer s) s.store
           maint := { s.maint with
             inflight := some (importInFlight a buffer tag notify (headerRead buffer s)), position := 4
             imageLen := (headerRead buffer s).count, target := some i
             crc := crcWords 0xFFFF#16 (headerWords buffer s.mem) } }

theorem startImport_starts (h : s.bus = []) (good : headerOk (headerRead buffer s) = true)
    (claims : selectTarget s.store (headerRead buffer s).tag = .ok i) : startImport a buffer tag notify s =
      importVisit (importInFlight a buffer tag notify (headerRead buffer s)) i
        (importStarted a buffer tag notify i s) := by
  unfold startImport
  rw [readWords_nil _ _ h, memWords_header]
  dsimp only
  rw [← headerRead, good, claims]
  rfl

section
variable {st : Store} {T : Fin 48 → Prop} {h : Header}

theorem claimTarget_entry (i j : Fin 48) (h : Header) (st : Store) : entryAt (claimTarget i h st) j =
    if j = i then claimedEntry h else entryAt st j := by
  unfold claimTarget
  dsimp only
  split <;> exact entryAt_setEntry i j _ st

/-- The order behind a claim: an entry that was FREE enters at the least recent end (R121, R129). -/
theorem claimTarget_recency (hk : StoreKept st T) : (claimTarget i h st).recency =
    if (entryAt st i).state = .free then st.recency ++ [i] else st.recency := by
  unfold claimTarget
  dsimp only
  by_cases free : (entryAt st i).state = .free
  · have absent : withoutEntry i st.recency = st.recency := List.filter_eq_self.2 fun j hj => by
      refine bne_iff_ne.2 fun e => (hk.2.2.2 j).1 hj ?_
      rw [e, free]
    rw [if_pos (beq_iff_eq.2 free), if_pos free, setEntry_recency, absent]
  · rw [if_neg (mt beq_iff_eq.1 free), if_neg free, setEntry_recency]

end

/-- The coefficient words that the last visit of an IMPORT reads, and the CRC word behind them (R145, R147). -/
theorem last_words {b : Word} {pos len : Nat} (m : Memory) (inside : pos < len) :
    (memWords (len - pos) (b + BitVec.ofNat 32 (4 * pos)) m).take (len - 1 - pos) =
      (List.range (len - 1 - pos)).map (fun j => memWord m (b + BitVec.ofNat 32 (4 * (pos + j)))) ∧
    (memWords (len - pos) (b + BitVec.ofNat 32 (4 * pos)) m).getD (len - 1 - pos) 0#32 =
      memWord m (b + BitVec.ofNat 32 (4 * (len - 1))) := by
  have place : ∀ j, b + BitVec.ofNat 32 (4 * pos) + BitVec.ofNat 32 (4 * j) = b + BitVec.ofNat 32 (4 * (pos + j)) :=
    fun j => by rw [add_ofNat_ofNat, ← Nat.mul_add]
  simp only [memWords_eq_map, place]
  refine ⟨?_, ?_⟩
  · rw [← List.map_take, List.take_range, min_eq_left (by omega)]
  · rw [getD_map_range _ _ (by omega), Nat.add_sub_cancel' (by omega)]

/-- The last visit of an IMPORT: its coefficients join, and it ends by its CRC (R130, R147). -/
theorem importVisit_last {pos len : Nat} {ws : List Word} {last : Word} (h : s.bus = []) (hp : pos = s.maint.position)
    (hlen : len = s.maint.imageLen) (inside : pos < len) (ends : len ≤ (pos / 64 + 1) * 64)
    (hws : ws = (List.range (len - 1 - pos)).map (fun j => memWord s.mem (f.buffer + BitVec.ofNat 32 (4 * (pos + j)))))
    (hlast : last = memWord s.mem (f.buffer + BitVec.ofNat 32 (4 * (len - 1)))) {good : Bool}
    (hgood : good = (last.extractLsb' 0 16 == crcWords s.maint.crc ws)) : ∃ m, Emptied m = Emptied s.maint ∧
    importVisit f i s = completeStore f.addr f.notify (if good then .ok else .crcError) len { s with
      store := finishImport i good f.pinned (fillEntry i ws s.store), maint := m } := by
  obtain ⟨coefs, crc⟩ := last_words (b := f.buffer) s.mem inside
  rw [← hws] at coefs
  rw [← hlast] at crc
  unfold importVisit
  dsimp only
  rw [← hp, ← hlen, visitLimit_last ends, readWords_nil _ _ h]
  dsimp only
  rw [if_neg (Nat.lt_irrefl len), coefs, crc, ← hgood]
  refine ⟨_, ?_, rfl⟩
  rfl

/-- The entry and the order behind an IMPORT whose CRC matched (R121, R130). -/
theorem finishImport_matched (i : Fin 48) (pinned : Bool) (ws : List Word) (st : Store) :
    entryAt (finishImport i true pinned (fillEntry i ws st)) i = { entryAt st i with
      state := .valid, pinned := pinned, coefs := (entryAt st i).coefs ++ ws.map (BitVec.setWidth 24) } ∧
    (finishImport i true pinned (fillEntry i ws st)).recency = i :: st.recency.filter (· != i) := by
  have filled : entryAt (fillEntry i ws st) i = { entryAt st i with
      coefs := (entryAt st i).coefs ++ ws.map (BitVec.setWidth 24) } := (entryAt_setEntry ..).trans (if_pos rfl)
  refine ⟨?_, rfl⟩
  rw [finishImport, if_pos rfl, touch_entry, entryAt_setEntry, if_pos rfl, filled]

theorem finishImport_others (i : Fin 48) (good pinned : Bool) (ws : List Word) (st : Store) (j : Fin 48) (hj : j ≠ i) :
    entryAt (finishImport i good pinned (fillEntry i ws st)) j = entryAt st j := by
  have filled : entryAt (fillEntry i ws st) j = entryAt st j := (entryAt_setEntry ..).trans (if_neg hj)
  rw [← filled, finishImport]
  split
  · rw [touch_entry, entryAt_setEntry, if_neg hj]
  · rw [freeEntry_entry, if_neg hj]

/-- Settles O52: the start by the header's checks and the claim's rows, the end by `importVisit_last`. -/
theorem importStartsAndEnds : Obligations.ImportStartsAndEnds := by
  refine ⟨?_, ?_⟩
  · rintro s t a tag buffer w0 w1 w2 w3 notify target ln lf le count cur dly good h hw hb hk hl apart h0 ha rfl rfl rfl
      rfl rfl rfl rfl rfl rfl rfl hgood rfl
    have checks : good ↔ headerOk (headerRead buffer s) = true := by
      rw [hgood, headerOk_iff, ← BitVec.toNat_inj]
      rfl
    rw [performDirective_import h0 ha, checks]
    have refuse : ∀ o, headerOk (headerRead buffer s) = true →
        selectTarget s.store (memWord s.mem (buffer + 4#32)) = .error o →
        StoreAnswered a notify (claimResult o).code 4 s (startImport a buffer tag notify s) ∧
          (startImport a buffer tag notify s).store = s.store := fun o ok refused => by
      rw [startImport_refused h ok refused]
      exact completeStore_answered h hw hb hl apart
    refine ⟨fun bad => ?_, fun ok i own pinned => refuse .pinned ok (selectTarget_pinned hk own pinned),
      fun ok i own pinned moving => refuse .busy ok (selectTarget_busy hk own pinned moving),
      fun ok no used pinned => refuse .storeFull ok (selectTarget_full no used pinned), fun ok i claims => ?_⟩
    · rw [startImport_bad h (by simpa using bad)]
      exact completeStore_answered h hw hb hl apart
    · refine ⟨_, _, startImport_starts h ok (selectTarget_claimable hk claims), rfl, rfl, rfl, ?_, fun j hj => ?_,
        claimTarget_recency hk⟩
      · exact (claimTarget_entry ..).trans (if_pos rfl)
      · exact (claimTarget_entry ..).trans (if_neg hj)
  · intro f i s t pos len ws last h hw hb hl apart hp hlen inside ends hws hlast ht
    obtain ⟨m, hm, form⟩ := importVisit_last (f := f) (i := i) h hp hlen inside ends hws hlast rfl
    generalize matched : (last.extractLsb' 0 16 == crcWords s.maint.crc ws) = good at form
    obtain ⟨answered, store⟩ := completeStore_answered (a := f.addr) (notify := f.notify)
      (r := if good then .ok else .crcError) (count := len)
      (s := { s with store := finishImport i good f.pinned (fillEntry i ws s.store), maint := m }) h hw hb hl apart
    rw [← form, ← ht] at answered store
    replace answered := answered.since (s := s) rfl rfl hm rfl rfl rfl rfl
    rw [store]
    refine ⟨finishImport_others i good f.pinned ws s.store, fun same => ?_, fun differs => ?_⟩
    · obtain rfl : good = true := matched ▸ beq_iff_eq.2 same
      exact ⟨answered, finishImport_matched i f.pinned ws s.store⟩
    · obtain rfl : good = false := matched ▸ beq_eq_false_iff_ne.2 differs
      have freed := (freeEntry_entry i i (fillEntry i ws s.store)).trans (if_pos rfl)
      rw [finishImport, if_neg Bool.false_ne_true, freed]
      exact ⟨answered, rfl, rfl, rfl⟩

end Sys2Proof.Machine

/-! Proofs about the faults of the store chain: every access of a store step that meets a bus error, and every misaligned
link (R132, R142, R144, R146 to R148, R150). -/

namespace Sys2Proof.Machine

variable {s t v : State} {a b : Word} {notify : Bool} {r : StoreResult} {count k : Nat} {f : InFlightStore} {i : Fin 48}

/-! ## A chain fault behind the script (R150) -/

/-- The part behind a chain fault but for its status write (R150). -/
def chainEnded (s : State) : State := raise maintSource .storeFault { s with
  store := abandonTarget s.maint.target s.store
  maint := { clearTransfer s.maint with chain := .faulted } }

theorem chainFault_faulted (h : s.bus = []) (hw : MemLegal s) (hb : s.tableBase ≠ 0#24) :
    ChainFaulted s (chainFault s) := by
  have status : chainFault s = { chainEnded s with mem := maintArea (chainEnded s) } :=
    congrArg Prod.snd (maintStatus_idle (s := chainEnded s) h)
  rw [status]
  exact ⟨rfl, maintArea_shown (s := chainEnded s) hw hb, storeStep_rests (.inr rfl),
    maintArea_frame (s := chainEnded s) hw⟩

/-- A run of words that meets the error at its word `k`: the words before it are written and no other byte. -/
theorem writeWords_broken {ws : List Word} (h : s.bus = ErrorAt k) (hw : MemLegal s) (hk : k < ws.length)
    (short : 4 * k ≤ 2 ^ 32) : ∃ v, v = { s with bus := [], mem := v.mem } ∧ writeWords ws b s = (false, v) ∧
      MemLegal v ∧ (∀ j < k, memWord v.mem (b + BitVec.ofNat 32 (4 * j)) = ws.getD j 0#32) ∧
      ∀ x, Outside b (4 * k) x → memRead v.mem x = memRead s.mem x := by
  have length : (ws.take k).length = k := List.length_take_of_le hk.le
  refine ⟨_, rfl, writeWords_errorAt_reached _ _ h hk, memSetWords_wf _ _ hw, fun j hj => ?_, fun x hx => ?_⟩
  · refine (memWord_memSetWords _ _ hw (by rwa [length]) j (by rwa [length])).trans ?_
    simp only [List.getD_eq_getElem?_getD, List.getElem?_take_of_lt hj]
  · exact memRead_memSetWords_ne _ _ hw x (by rwa [length])

/-! ## The store step that looks for a record (R141, R142) -/

theorem storeStep_finds (works : Works s) (idle : s.maint.inflight = none) : storeStep s = findStore s :=
  (storeStep_works works).trans (workStore_finds idle)

theorem linkStep_misaligned {link : Word} (h : link.toNat % 4 ≠ 0) : linkStep link = .misaligned := by
  have h0 : link ≠ 0#32 := fun e => h (by rw [e]; rfl)
  rw [linkStep, if_neg h0, if_neg (mt (aligned_iff link).1 h)]

/-- The first access of a store step without a transfer (R141). -/
theorem findStore_errorAt_zero (h : s.bus = ErrorAt 0) : findStore s = chainFault { s with bus := [] } := by
  cases mode : s.maint.mode with
  | atRecord => rw [findStore_atRecord mode, lookAtStore, readWord_errorAt_zero _ h]
  | watching => simp only [findStore, mode, readWord_errorAt_zero _ h]

/-- A watched link that is no multiple of 4 (R150). -/
theorem findStore_misaligned (h : s.bus = []) (mode : s.maint.mode = .watching)
    (odd : (memWord s.mem (s.maint.cursor + 4#32)).toNat % 4 ≠ 0) : findStore s = chainFault s := by
  simp only [findStore, mode, readWord_nil _ h, linkStep_misaligned odd]

/-- A watched link that leads on, read before the error: the rest of the step is that of a chain at the record there. -/
theorem findStore_moves_errorAt {link : Word} (h : s.bus = ErrorAt (k + 1)) (mode : s.maint.mode = .watching)
    (hl : link = memWord s.mem (s.maint.cursor + 4#32)) (h0 : link ≠ 0#32) (ha : link.toNat % 4 = 0) :
    findStore s = lookAtStore (storeMoved link { s with bus := ErrorAt k }) := by
  simp only [findStore, mode, readWord_errorAt_succ _ h, ← hl, linkStep_moves h0 ha]
  rfl

theorem findStore_takes (h : s.bus = ErrorAt (k + 1)) (mode : s.maint.mode = .atRecord)
    (posted : memWord s.mem s.maint.cursor = 1#32) :
    findStore s = takeStore s.maint.cursor { s with bus := ErrorAt k } := by
  rw [findStore_atRecord mode, lookAtStore, readWord_errorAt_succ _ h]
  exact if_pos posted

/-- A store record's take by its accesses, when a directive word meets the error (R150). -/
theorem takeStore_of_accesses {x y : State} (mark : writeWord a dispTaken (storeWalking s) = (true, x))
    (read : readWords 3 (a + 8#32) x = (none, y)) : takeStore a s = chainFault y := by
  unfold storeWalking at mark
  simp only [takeStore, mark, read]

/-- The TAKEN write meets the error (R150). -/
theorem takeStore_errorAt_zero (h : s.bus = ErrorAt 0) :
    takeStore a s = chainFault (storeWalking { s with bus := [] }) := by
  have mark := writeWord_errorAt_zero (s := storeWalking s) a dispTaken h
  unfold storeWalking at mark ⊢
  simp only [takeStore, mark]

/-- A directive word meets the error, behind the TAKEN write (R150). -/
theorem takeStore_errorAt_word (h : s.bus = ErrorAt (k + 1)) (hk : k < 3) :
    takeStore a s = chainFault (storeTaken a { s with bus := [] }) :=
  takeStore_of_accesses (writeWord_errorAt_succ (s := storeWalking s) a dispTaken h)
    (readWords_errorAt_reached 3 (a + 8#32) rfl hk)

/-- The faults of a store step that looks for a record (R141, R142, R150). -/
theorem storeStep_faults {link : Word} (hw : MemLegal s) (hb : s.tableBase ≠ 0#24) (works : Works s)
    (idle : s.maint.inflight = none) (ha : a = s.maint.cursor) (hl : link = memWord s.mem (a + 4#32))
    (ht : t = storeStep s) :
    (s.bus = [] → s.maint.mode = .watching → link.toNat % 4 ≠ 0 → ChainFaulted s t) ∧
    (s.bus = ErrorAt k →
      (k = 0 → ChainFaulted { s with bus := [] } t) ∧
      (s.maint.mode = .watching → 0 < k → link ≠ 0#32 → link.toNat % 4 = 0 →
        t = storeStep { s with bus := ErrorAt (k - 1),
                               maint := { s.maint with cursor := link, mode := .atRecord } }) ∧
      (s.maint.mode = .atRecord → memWord s.mem a = 1#32 →
        (k = 1 → ChainFaulted { s with bus := [] } t) ∧
        (2 ≤ k → k < 5 → ∃ v, v = { s with bus := [], mem := v.mem } ∧ memWord v.mem a = 2#32 ∧
          (∀ x, Outside a 4 x → memRead v.mem x = memRead s.mem x) ∧ ChainFaulted v t))) := by
  subst a
  rw [storeStep_finds works idle] at ht
  subst t
  refine ⟨fun h mode odd => ?_, fun h => ⟨?_, fun mode pos h0 aligned => ?_, fun mode posted => ⟨?_, fun lo hi => ?_⟩⟩⟩
  · rw [findStore_misaligned h mode (hl ▸ odd)]
    exact chainFault_faulted h hw hb
  · rintro rfl
    rw [findStore_errorAt_zero h]
    exact chainFault_faulted (s := { s with bus := [] }) rfl hw hb
  · obtain ⟨k, rfl⟩ : ∃ j, k = j + 1 := ⟨k - 1, by omega⟩
    have moved := storeStep_finds (s := storeMoved link { s with bus := ErrorAt k }) works idle
    rw [findStore_atRecord rfl] at moved
    exact (findStore_moves_errorAt h mode hl h0 aligned).trans moved.symm
  · rintro rfl
    rw [findStore_takes h mode posted, takeStore_errorAt_zero rfl]
    exact chainFault_faulted (s := storeWalking { s with bus := [] }) rfl hw hb
  · obtain ⟨k, rfl⟩ : ∃ j, k = j + 2 := ⟨k - 2, by omega⟩
    rw [findStore_takes h mode posted, takeStore_errorAt_word rfl (by omega)]
    exact ⟨{ s with bus := [], mem := memSetWord s.mem s.maint.cursor dispTaken }, rfl, memWord_memSetWord _ _ hw,
      memRead_memSetWord_ne _ _ hw,
      chainFault_faulted (s := storeTaken s.maint.cursor { s with bus := [] }) rfl (memSetWord_wf _ _ hw) hb⟩

/-! ## LIST and IMPORT at their takes (R144, R146) -/

theorem entriesInUse_le (st : Store) : entriesInUse st ≤ 48 := by
  have length := List.length_filter_le (fun i => (entryAt st i).state != .free) (List.finRange 48)
  rwa [List.length_finRange] at length

theorem performList_broken {buffer : Word} (writes : writeWords (listing s.store) buffer s = (false, v)) :
    performList a buffer notify s = chainFault v := by
  simp only [performList, writes]

theorem startImport_broken {buffer tag : Word} (h : s.bus = ErrorAt k) (hk : k < 4) :
    startImport a buffer tag notify s = chainFault { s with bus := [] } := by
  simp only [startImport, readWords_errorAt_reached 4 buffer h hk]

/-! ## A transfer's visit (R147, R148) -/

theorem importVisit_broken (h : s.bus = ErrorAt k)
    (hk : k < visitLimit s.maint.position s.maint.imageLen - s.maint.position) :
    importVisit f i s = chainFault { s with bus := [] } := by
  simp only [importVisit, readWords_errorAt_reached _ _ h hk]

/-- The words that a visit of an EXPORT writes: image words up to the visit's limit, the CRC word behind the last
(R148, R149). -/
def exportWords (e : Entry) (pos len : Nat) (crc : BitVec 16) : List Word :=
  let body := (((imageBody e).take (len - 1)).take (visitLimit pos len)).drop pos
  if visitLimit pos len < len then body else body ++ [0#16 ++ crcWords crc body]

theorem exportVisit_broken (writes : writeWords
      (exportWords (entryAt s.store i) s.maint.position s.maint.imageLen s.maint.crc)
      (f.buffer + BitVec.ofNat 32 (4 * s.maint.position)) s = (false, v)) : exportVisit f i s = chainFault v := by
  simp only [exportWords] at writes
  simp only [exportVisit, writes]

/-- A visit writes as many words as it moves its position, and those below the CRC word are the image's (R145). -/
theorem exportWords_words {e : Entry} {pos len : Nat} (crc : BitVec 16) (image : len = 4 + (e.ln + e.lf + e.le) + 1)
    (coefs : e.coefs.length = e.ln + e.lf + e.le) (inside : pos < len) :
    (exportWords e pos len crc).length = visitLimit pos len - pos ∧ ∀ j < visitLimit pos len - pos, pos + j < len - 1 →
      (exportWords e pos len crc).getD j 0#32 = (imageBody e).getD (pos + j) 0#32 := by
  have length := imageBody_length e coefs
  have limit : pos < visitLimit pos len ∧ visitLimit pos len ≤ len := by unfold visitLimit; omega
  unfold exportWords
  rw [List.take_of_length_le (l := imageBody e) (by omega)]
  generalize visitLimit pos len = stop at limit ⊢
  have body : (((imageBody e).take stop).drop pos).length = min stop (len - 1) - pos := by
    rw [List.length_drop, List.length_take, length]
    omega
  have word : ∀ j < stop - pos, pos + j < len - 1 →
      (((imageBody e).take stop).drop pos).getD j 0#32 = (imageBody e).getD (pos + j) 0#32 := fun j hj _ => by
    simp only [List.getD_eq_getElem?_getD, List.getElem?_drop, List.getElem?_take_of_lt (show pos + j < stop by omega)]
  dsimp only
  split
  · exact ⟨by omega, word⟩
  · refine ⟨?_, fun j hj hend => ?_⟩
    · rw [List.length_append, body, List.length_singleton]
      omega
    · rw [List.getD_append _ _ _ _ (by omega)]
      exact word j hj hend

/-! ## A completion (R142) -/

theorem completeStore_unwritten (results : writeWords [BitVec.ofNat 32 r.code, BitVec.ofNat 32 count] (a + 20#32) s =
      (false, v)) : completeStore a notify r count s = chainFault v := by
  simp only [completeStore, results]

theorem completeStore_unmarked {x : State}
    (results : writeWords [BitVec.ofNat 32 r.code, BitVec.ofNat 32 count] (a + 20#32) s = (true, x))
    (done : writeWord a dispDone x = (false, v)) : completeStore a notify r count s = chainFault v := by
  simp only [completeStore, results, done]

/-- The link of a record DONE meets the error: STORE_DONE is raised behind the fault (R142, R150). -/
theorem completeStore_unlinked {x y : State}
    (results : writeWords [BitVec.ofNat 32 r.code, BitVec.ofNat 32 count] (a + 20#32) s = (true, x))
    (done : writeWord a dispDone x = (true, y))
    (read : readWord (a + 4#32) { y with maint := clearTransfer y.maint } = (none, v)) :
    completeStore a notify r count s = storeLinked a notify r v .misaligned := by
  simp only [completeStore, results, done, read]
  rfl

/-- A record's result, count and disposition, written in this order, the error at the write `k` (R142, R150). -/
theorem record_broken {c n d : Word} (h : s.bus = ErrorAt k) (hw : MemLegal s) (hk : k < 3) :
    ∃ v, v = { s with bus := [], mem := v.mem } ∧ MemLegal v ∧
      (0 < k → memWord v.mem (a + 20#32) = c) ∧ (k = 2 → memWord v.mem (a + 24#32) = n) ∧
      (∀ x, Outside (a + 20#32) (4 * k) x → memRead v.mem x = memRead s.mem x) ∧
      (writeWords [c, n] (a + 20#32) s = (false, v) ∨
        ∃ x, writeWords [c, n] (a + 20#32) s = (true, x) ∧ writeWord a d x = (false, v)) := by
  have first : ∀ m : Memory, memWord m (a + 20#32 + BitVec.ofNat 32 (4 * 0)) = memWord m (a + 20#32) := fun m => by
    rw [Nat.mul_zero, BitVec.add_zero]
  by_cases written : k < 2
  · obtain ⟨v, form, writes, legal, words, frame⟩ := writeWords_broken (b := a + 20#32) (ws := [c, n]) h hw written
      (by omega)
    exact ⟨v, form, legal, fun pos => (first _).symm.trans (words 0 pos), fun two => absurd two (by omega), frame,
      .inl writes⟩
  · obtain rfl : k = 2 := by omega
    have words := memWord_memSetWords [c, n] (a + 20#32) hw (by simp)
    refine ⟨{ s with bus := [], mem := memSetWords [c, n] (a + 20#32) s.mem }, rfl, memSetWords_wf _ _ hw,
      fun _ => (first _).symm.trans (words 0 (by simp)), fun _ => ?_, memRead_memSetWords_ne [c, n] _ hw,
      .inr ⟨_, writeWords_errorAt_before _ _ h (show 2 ≤ 2 by omega), writeWord_errorAt_zero _ _ rfl⟩⟩
    have number := words 1 (by simp)
    rwa [add_ofNat_ofNat] at number

/-- The result, the count or DONE meets the error (R150). -/
theorem completeStore_broken (h : s.bus = ErrorAt k) (hw : MemLegal s) (hb : s.tableBase ≠ 0#24) (hk : k < 3) :
    ∃ v, v = { s with bus := [], mem := v.mem } ∧
      (0 < k → memWord v.mem (a + 20#32) = BitVec.ofNat 32 r.code) ∧
      (k = 2 → memWord v.mem (a + 24#32) = BitVec.ofNat 32 count) ∧
      (∀ x, Outside (a + 20#32) (4 * k) x → memRead v.mem x = memRead s.mem x) ∧
      ChainFaulted v (completeStore a notify r count s) := by
  obtain ⟨v, form, legal, code, number, frame, broken⟩ := record_broken (a := a) (c := BitVec.ofNat 32 r.code)
    (n := BitVec.ofNat 32 count) (d := dispDone) h hw hk
  have bus : v.bus = [] := by rw [form]
  have base : v.tableBase = s.tableBase := by rw [form]
  have faults : completeStore a notify r count s = chainFault v := by
    rcases broken with results | ⟨x, results, done⟩
    · exact completeStore_unwritten results
    · exact completeStore_unmarked results done
  rw [faults]
  exact ⟨v, form, code, number, frame, chainFault_faulted bus legal (base ▸ hb)⟩

/-- The link of a record DONE, unread or no multiple of 4 (R150). -/
theorem completeStore_lost (hw : MemLegal s)
    (lost : s.bus = ErrorAt 3 ∨ (s.bus = [] ∧ (memWord s.mem (a + 4#32)).toNat % 4 ≠ 0)) :
    completeStore a notify r count s = storeLinked a notify r { storeMarked a r count s with bus := [] } .misaligned := by
  rcases lost with h | ⟨h, odd⟩
  · exact completeStore_unlinked (writeWords_errorAt_before _ _ h (show 2 ≤ 3 by omega))
      (writeWord_errorAt_succ _ _ rfl) (readWord_errorAt_zero _ rfl)
  · rw [completeStore_link h hw, linkStep_misaligned odd, show { storeMarked a r count s with bus := [] } =
      storeMarked a r count s by rw [← h]; rfl]

/-! ## The target of a transfer that is ended (R132) -/

theorem abandonTarget_some (i : Fin 48) (st : Store) :
    (∀ j, j ≠ i → entryAt (abandonTarget (some i) st) j = entryAt st j) ∧
    ((entryAt st i).state = .importing →
      entryAt (abandonTarget (some i) st) i = { entryAt st i with state := .free, tag := 0#32 } ∧
      (abandonTarget (some i) st).recency = st.recency.filter (· != i)) ∧
    ((entryAt st i).state = .exporting →
      entryAt (abandonTarget (some i) st) i = { entryAt st i with state := .valid } ∧
      (abandonTarget (some i) st).recency = st.recency) := by
  have own : entryAt (abandonEntry i st) i = abandoned (entryAt st i) :=
    (abandonEntry_entry i i st).trans (if_pos rfl)
  refine ⟨fun j hj => (abandonEntry_entry i j st).trans (if_neg hj), fun importing => ⟨?_, ?_⟩,
    fun exporting => ⟨?_, ?_⟩⟩
  · exact own.trans (abandoned_importing importing)
  · simp only [abandonTarget, abandonEntry, importing]
    rfl
  · exact own.trans (abandoned_exporting exporting)
  · simp only [abandonTarget, abandonEntry, exporting]
    rfl

/-- Settles O49: each access of a store step in the form of a chain fault, the fault by `chainFault_faulted`. -/
theorem storeChainFaults : Obligations.StoreChainFaults := by
  refine ⟨?_, ?_, ?_, ?_, ?_⟩
  · intro s t k a link hw hb works idle ha hl ht
    exact storeStep_faults hw hb works idle ha hl ht
  · intro s k a tag buffer notify hw hb h h0 aligned
    refine ⟨fun hk => ?_, fun hk => ?_⟩
    · have short : 4 * k ≤ 2 ^ 32 := by
        have := entriesInUse_le s.store
        rw [listing_length] at hk
        omega
      obtain ⟨v, form, writes, legal, words, frame⟩ := writeWords_broken (b := buffer) h hw hk short
      have bus : v.bus = [] := by rw [form]
      have base : v.tableBase = s.tableBase := by rw [form]
      refine ⟨v, form, words, frame, ?_⟩
      rw [performDirective_performList h0 aligned, performList_broken writes]
      exact chainFault_faulted bus legal (base ▸ hb)
    · rw [performDirective_import h0 aligned, startImport_broken h hk]
      exact chainFault_faulted (s := { s with bus := [] }) rfl hw hb
  · rintro s f i _ k _ _ _ hw hb h rfl rfl rfl rfl inside short hk
    refine ⟨?_, fun image coefs => ?_⟩
    · rw [importVisit_broken h hk]
      exact chainFault_faulted (s := { s with bus := [] }) rfl hw hb
    · obtain ⟨length, image_words⟩ := exportWords_words s.maint.crc image coefs inside
      obtain ⟨v, form, writes, legal, words, frame⟩ := writeWords_broken
        (b := f.buffer + BitVec.ofNat 32 (4 * s.maint.position)) h hw (length ▸ hk) (by omega)
      have bus : v.bus = [] := by rw [form]
      have base : v.tableBase = s.tableBase := by rw [form]
      refine ⟨v, form, fun j hj hend => ?_, frame, ?_⟩
      · rw [Nat.mul_add, ← add_ofNat_ofNat, words j hj]
        exact image_words j (hj.trans hk) hend
      · rw [exportVisit_broken writes]
        exact chainFault_faulted bus legal (base ▸ hb)
  · rintro s _ k a notify r count hw hb rfl
    refine ⟨fun hk h => completeStore_broken h hw hb hk, fun lost => ?_⟩
    obtain ⟨legal, done, code, number, -, frame⟩ := storeDoneMemory_words (a := a) (r := r) (count := count) hw
    rw [completeStore_lost hw lost]
    exact ⟨{ storeMarked a r count s with bus := [] }, chainFault { storeMarked a r count s with bus := [] }, rfl, done,
      code, number, frame, chainFault_faulted (s := { storeMarked a r count s with bus := [] }) rfl legal hb,
      raiseIf_storeDone _⟩
  · rintro st _ i rfl
    obtain ⟨others, importing, exporting⟩ := abandonTarget_some i st
    exact ⟨others, importing, exporting, rfl⟩

end Sys2Proof.Machine

/-! Proofs about OPEN and CLOSE of descriptor 32, and the bus error at each of their accesses (R138, R139, R155, R156,
R158, R160). -/

namespace Sys2Proof.Machine

variable {s t v x y : State} {r : Response} {j k code : Nat} {first word : Word} {f : InFlightStore}

/-! ## Answers of descriptor 32 (R155, R158) -/

/-- The part answers a request of descriptor 32 that leaves `u`, and nothing else (R155). -/
def MaintAnswered (response : Word) (u t : State) : Prop :=
  t = { u with mem := t.mem, attn := attnRaise maintSource .requestDone u.attn } ∧
    memWord t.mem (u.desc 32) = 0#32 ∧ memWord t.mem (u.desc 32 + 4#32) = response ∧
    ∀ x, Outside (u.desc 32) 8 x → memRead t.mem x = memRead u.mem x

theorem answer_maintAnswered (r : Response) (h : s.bus = []) (hw : MemLegal s) (hb : s.tableBase ≠ 0#24) :
    MaintAnswered r.word s (answer maintDesc maintSource r s) := by
  rw [answer_idle _ _ _ h]
  exact ⟨rfl, answerMemory_request _ _ hw hb, answerMemory_response _ _ hw hb, memRead_answerMemory _ _ hw⟩

/-- A word of the descriptor behind its response stands behind an answer. -/
theorem memWord_answerMemory_behind (d : Nat) (r : Response) (hw : MemLegal s) {o : Nat} (h8 : 8 ≤ o)
    (ho : o + 4 ≤ 2 ^ 32) : memWord (answerMemory d r s) (s.desc d + BitVec.ofNat 32 o) =
      memWord s.mem (s.desc d + BitVec.ofNat 32 o) :=
  memWord_congr fun k hk => memRead_answerMemory d r hw _ fun i hi => by
    have apart := apart_offsets (s.desc d) (a := o) (la := 4) (b := 0) (lb := 8) ho (by omega) (.inr (by omega))
    rw [BitVec.add_zero] at apart
    exact apart k hk i hi

theorem maintShown_answered (r : Response) (hw : MemLegal s) (h : MaintShown s) :
    MaintShown { s with mem := answerMemory 32 r s } := by
  obtain ⟨unit, length⟩ := h
  refine ⟨(memWord_answerMemory_behind 32 r hw (o := 128) (by omega) (by omega)).trans unit, ?_⟩
  exact (congrArg (BitVec.extractLsb' 0 16) (memWord_answerMemory_behind 32 r hw (o := 132) (by omega) (by omega))).trans
    length

theorem maintArea_wf (hw : MemLegal s) : (maintArea s).wf := by
  have legal := (maintStatus_maintMem (s := { s with bus := [] })).op.mem hw
  rw [maintStatus_idle rfl] at legal
  exact legal

/-- The status write of descriptor 32 and the answer behind it leave `t` of the request's effects `u` (R155, R158). -/
def MaintChanged (response : Word) (u t : State) : Prop :=
  t = { u with mem := t.mem, attn := attnRaise maintSource .requestDone u.attn } ∧
    memWord t.mem (u.desc 32) = 0#32 ∧ memWord t.mem (u.desc 32 + 4#32) = response ∧ MaintShown t ∧
    ∀ x, Outside (u.desc 32) 8 x → Outside (u.desc 32 + 128#32) 6 x → memRead t.mem x = memRead u.mem x

theorem answerAfter_maintChanged (r : Response) (h : s.bus = []) (hw : MemLegal s) (hb : s.tableBase ≠ 0#24) :
    MaintChanged r.word s (answerAfter maintDesc maintSource r (maintStatus s)) := by
  have legal : MemLegal { s with mem := maintArea s } := maintArea_wf hw
  have shown := maintShown_answered r legal (maintArea_shown hw hb)
  obtain ⟨form, request, response, frame⟩ := answer_maintAnswered r (s := { s with mem := maintArea s }) h legal hb
  rw [maintStatus_idle h, answerAfter, if_pos rfl]
  refine ⟨form, request, response, ?_, fun x hx hs => (frame x hx).trans (maintArea_frame hw x hs)⟩
  rw [answer_idle (s := { s with mem := maintArea s }) _ _ _ h]
  exact shown

/-! ## The same with an error (R160) -/

/-- A status write of descriptor 32 whose error comes later. -/
theorem maintStatus_errorAt_before (h : s.bus = ErrorAt (j + 2)) (hb : s.tableBase ≠ 0#24) :
    maintStatus s = (true, { s with mem := maintArea s, bus := ErrorAt j }) := by
  have half := busSlot_errorAt_succ (s := { s with
    mem := descMemory 32 128#32 [maintWord s.maint] s, bus := ErrorAt (j + 1) }) rfl
  unfold maintStatus
  dsimp only
  rw [maintWord_eq, writeDesc_errorAt_before _ _ _ h hb (by simp)]
  dsimp only
  rw [if_neg hb, writeHalf, show j + 2 - [maintWord s.maint].length = j + 1 from rfl, half, maintArea, if_neg hb,
    descMemory, if_neg hb]
  rfl

/-- A status write of descriptor 32 that meets the error is not answered. -/
theorem maintStatus_unmade (h : s.bus = ErrorAt j) (hj : j < 2) (hb : s.tableBase ≠ 0#24) :
    (maintStatus s).1 = false := by
  unfold maintStatus
  dsimp only
  obtain rfl | rfl : j = 0 ∨ j = 1 := by omega
  · rw [writeDesc_errorAt_reached _ _ _ h hb (by simp)]
  · rw [writeDesc_errorAt_before _ _ _ h hb (by simp)]
    dsimp only
    rw [if_neg hb, writeHalf_errorAt_zero rfl]

/-- The status area is clear of the request word and of the response. -/
theorem memWord_maintArea_request (hw : MemLegal s) {o : Nat} (ho : o + 4 ≤ 128) :
    memWord (maintArea s) (s.desc 32 + BitVec.ofNat 32 o) = memWord s.mem (s.desc 32 + BitVec.ofNat 32 o) :=
  memWord_maintArea_apart hw (apart_offsets (s.desc 32) (b := 128) (by omega) (by omega) (.inl ho))

/-- The status write of descriptor 32 meets the error: no answer behind it (R160). -/
theorem maintAnswer_unshown (r : Response) (h : s.bus = ErrorAt j) (hj : j < 2) (hw : MemLegal s)
    (hb : s.tableBase ≠ 0#24) : MaintAnswerFaulted r.word j { s with bus := [] }
      (answerAfter maintDesc maintSource r (maintStatus s)) := by
  obtain ⟨shown, frame⟩ := maintMemory_shown (j := j) hb hw
  have bytes : (if j = 0 then 0 else if j = 1 then 4 else 6) = 4 * j := by
    obtain rfl | rfl : j = 0 ∨ j = 1 := by omega
    · rfl
    · rfl
  rw [answerAfter, maintStatus_unmade h hj hb, if_neg Bool.false_ne_true, maintStatus_reached h hj hb]
  refine ⟨rfl, fun pos => shown (by omega), fun late => absurd late (by omega), fun late => absurd late (by omega),
    memWord_congr fun k hk => frame _ ?_, fun x hx _ => frame x (bytes ▸ hx)⟩
  have apart := apart_offsets (s.desc 32) (a := 0) (la := 4) (b := 128) (lb := 4 * j) (by omega) (by omega)
    (.inl (by omega))
  rw [desc_zero] at apart
  exact apart k hk

/-- The status area is written, and the answer behind it meets the error at its write `j` (R158, R160). -/
theorem maintAnswer_shown (hw : MemLegal s) (hb : s.tableBase ≠ 0#24)
    (answered : AnswerFaulted 32 [] r.word j { s with mem := maintArea s } t) :
    MaintAnswerFaulted r.word (j + 2) s t := by
  obtain ⟨form, -, response, request, frame⟩ := answered
  have same : ∀ x, Outside (s.desc 32 + 4#32) 4 x → memRead t.mem x = memRead (maintArea s) x := fun x hx =>
    frame x (fun _ h0 => absurd h0 (by simp)) fun _ => hx
  have behind : ∀ o, 128 ≤ o → o ≤ 132 →
      memWord t.mem (s.desc 32 + BitVec.ofNat 32 o) = memWord (maintArea s) (s.desc 32 + BitVec.ofNat 32 o) :=
    fun o h128 ho => memWord_congr fun k hk => same _
      (apart_offsets (s.desc 32) (a := o) (la := 4) (b := 4) (lb := 4) (by omega) (by omega) (.inr (by omega)) k hk)
  obtain ⟨unit, length⟩ := maintArea_shown hw hb
  have maint : t.maint = s.maint := by rw [form]
  have desc : t.desc 32 = s.desc 32 := by rw [form]; rfl
  refine ⟨form, fun _ => (behind 128 (by omega) (by omega)).trans unit, fun _ => ⟨?_, ?_⟩,
    fun late => response (show 0 < j by omega), ?_, fun x hx hr => ?_⟩
  · rw [desc, maint]
    exact (behind 128 (by omega) (by omega)).trans unit
  · rw [desc, maint]
    exact (congrArg (BitVec.extractLsb' 0 16) (behind 132 (by omega) (by omega))).trans length
  · have kept := memWord_maintArea_request hw (o := 0) (by omega)
    rw [desc_zero] at kept
    exact request.trans kept
  · rw [if_neg (by omega), if_neg (by omega)] at hx
    refine (frame x (fun _ h0 => absurd h0 (by simp)) fun late => hr ?_).trans (maintArea_frame hw x hx)
    exact Nat.add_lt_add_right (show 0 < j from late) 2

/-- The status write of descriptor 32 and the answer behind it, the error at their write `j` (R158, R160). -/
theorem maintAnswer_faulted (r : Response) (h : s.bus = ErrorAt j) (hj : j < 4) (hw : MemLegal s)
    (hb : s.tableBase ≠ 0#24) : MaintAnswerFaulted r.word j { s with bus := [] }
      (answerAfter maintDesc maintSource r (maintStatus s)) := by
  by_cases early : j < 2
  · exact maintAnswer_unshown r h early hw hb
  · obtain ⟨i, rfl⟩ : ∃ i, j = i + 2 := ⟨j - 2, by omega⟩
    rw [maintStatus_errorAt_before h hb, answerAfter, if_pos rfl]
    exact maintAnswer_shown (s := { s with bus := [] }) hw hb
      (answer_faulted (s := { s with mem := maintArea s, bus := ErrorAt i }) maintDesc maintSource r rfl (by omega)
        (maintArea_wf hw) hb)

/-! ## Descriptor 32 by its request (R138, R139, R155) -/

/-- The code of descriptor 32's request. -/
def maintCode (s : State) : Nat := ((memWord s.mem (s.desc 32)).extractLsb' 0 8).toNat

theorem respBadRequest_word (h : 3 ≤ code) (hlt : code < 256) :
    (respBadRequest code).word = BitVec.ofNat 32 (9 + 256 * code) := by
  have bad := refusalOf_word_bad h hlt
  rwa [refusalOf, if_neg (by omega), if_neg (by omega)] at bad

/-- A request by its code, the request word read without an error (R155). -/
theorem serveMaint_by_code (request : readWord (s.desc 32) s = (some (memWord s.mem (s.desc 32)), x)) :
    (maintCode s = 0 → serveMaint s = x) ∧ (maintCode s = 1 → serveMaint s = maintOpen x) ∧
    (maintCode s = 2 → serveMaint s = maintClose x) ∧
    (3 ≤ maintCode s → serveMaint s = answer maintDesc maintSource (respBadRequest (maintCode s)) x) := by
  have code : field (memWord s.mem (s.desc 32)) 0 8 = maintCode s := rfl
  unfold serveMaint
  rw [request]
  dsimp only
  rw [code]
  generalize maintCode s = k
  refine ⟨?_, ?_, ?_, fun h3 => ?_⟩
  · rintro rfl
    rfl
  · rintro rfl
    rfl
  · rintro rfl
    rfl
  · obtain ⟨j, rfl⟩ : ∃ j, k = j + 3 := ⟨k - 3, by omega⟩
    rfl

/-- The part behind an accepted OPEN of the chain but for its status write (R138). -/
def chainOpened (first word : Word) (s : State) : State :=
  { s with attn := attnSetPriority maintSource (word.extractLsb' 8 3) s.attn
           maint := { s.maint with chain := .walking, cursor := first, mode := .atRecord } }

/-- An OPEN by the chain's state and its first record, both words read without an error (R138). -/
theorem maintOpen_by_chain (read8 : readWord (s.desc 32 + 8#32) s = (some first, x))
    (read20 : readWord (x.desc 32 + 20#32) x = (some word, y)) :
    (y.maint.chain ≠ .idle → maintOpen s = answer maintDesc maintSource respNotClosed y) ∧
    (y.maint.chain = .idle → (first = 0#32 ∨ first.toNat % 4 ≠ 0) →
      maintOpen s = answer maintDesc maintSource respAddress y) ∧
    (y.maint.chain = .idle → first ≠ 0#32 → first.toNat % 4 = 0 →
      maintOpen s = answerAfter maintDesc maintSource (respOpened .notUsed) (maintStatus (chainOpened first word y))) := by
  unfold maintOpen
  rw [read8]
  dsimp only
  rw [read20]
  refine ⟨fun busy => if_pos busy, fun idle bad => ?_, fun idle h0 aligned => ?_⟩
  · exact (if_neg (not_not.2 idle)).trans (if_pos (bad.imp_right (mt (aligned_iff first).1)))
  · exact (if_neg (not_not.2 idle)).trans (if_neg (not_or.2 ⟨h0, not_not.2 ((aligned_iff first).2 aligned)⟩))

/-- The part behind a CLOSE of the chain but for its status write, the record in flight dealt with (R139). -/
def chainClosed (s : State) : State :=
  { s with store := abandonTarget s.maint.target s.store, maint := { Emptied s.maint with chain := .idle } }

theorem maintClose_idle (idle : s.maint.chain = .idle) :
    maintClose s = answer maintDesc maintSource respNotOpen s := if_pos idle

theorem maintClose_open (busy : s.maint.chain ≠ .idle) : maintClose s =
    answerAfter maintDesc maintSource respClosed (maintStatus (chainClosed (abandonInFlight s))) := if_neg busy

/-! ## The record in flight abandoned (R139) -/

theorem abandonInFlight_none (idle : s.maint.inflight = none) : abandonInFlight s = s := by
  rw [abandonInFlight, idle]

theorem abandonInFlight_made (flight : s.maint.inflight = some f) (made : abandonRecord f s = (true, v)) :
    abandonInFlight s = raise maintSource .storeDone v := by
  simp only [abandonInFlight, flight, made]

theorem abandonInFlight_broken (flight : s.maint.inflight = some f) (broken : abandonRecord f s = (false, v)) :
    abandonInFlight s = raise maintSource .storeFault v := by
  simp only [abandonInFlight, flight, broken]

/-- Memory behind the result, the count and the disposition of a record abandoned. -/
def abandonedMemory (f : InFlightStore) (s : State) : Memory :=
  memSetWord (memSetWords [BitVec.ofNat 32 StoreResult.abandoned.code, BitVec.ofNat 32 s.maint.position]
    (f.addr + 20#32) s.mem) f.addr dispAbandoned

/-- Outside its first word the record is as one that is DONE with the same result and count. -/
theorem abandonedMemory_words (f : InFlightStore) (hw : MemLegal s) :
    (abandonedMemory f s).wf ∧ memWord (abandonedMemory f s) f.addr = 7#32 ∧
    memWord (abandonedMemory f s) (f.addr + 20#32) = 8#32 ∧
    memWord (abandonedMemory f s) (f.addr + 24#32) = BitVec.ofNat 32 s.maint.position ∧
    ∀ x, Outside f.addr 4 x → Outside (f.addr + 20#32) 8 x → memRead (abandonedMemory f s) x = memRead s.mem x := by
  obtain ⟨-, -, code, number, -, frame⟩ := storeDoneMemory_words (a := f.addr) (r := .abandoned)
    (count := s.maint.position) hw
  have told := memSetWords_wf [BitVec.ofNat 32 StoreResult.abandoned.code, BitVec.ofNat 32 s.maint.position]
    (f.addr + 20#32) hw
  have same : ∀ x, Outside f.addr 4 x → memRead (abandonedMemory f s) x =
      memRead (storeDoneMemory f.addr .abandoned s.maint.position s.mem) x := fun x hx =>
    (memRead_memSetWord_ne _ _ told x hx).trans (memRead_memSetWord_ne _ _ told x hx).symm
  have behind : ∀ o, 4 ≤ o → o ≤ 24 → memWord (abandonedMemory f s) (f.addr + BitVec.ofNat 32 o) =
      memWord (storeDoneMemory f.addr .abandoned s.maint.position s.mem) (f.addr + BitVec.ofNat 32 o) :=
    fun o h4 ho => memWord_congr fun k hk => same _ (by
      have apart := apart_offsets f.addr (a := o) (la := 4) (b := 0) (lb := 4) (by omega) (by omega) (.inr (by omega))
      rw [BitVec.add_zero] at apart
      exact apart k hk)
  exact ⟨memSetWord_wf _ _ told, memWord_memSetWord _ _ told, (behind 20 (by omega) (by omega)).trans code,
    (behind 24 (by omega) (by omega)).trans number, fun x ha hr => (same x ha).trans (frame x ha hr)⟩

theorem abandonRecord_of_writes (results : writeWords [BitVec.ofNat 32 StoreResult.abandoned.code,
    BitVec.ofNat 32 s.maint.position] (f.addr + 20#32) s = (true, x)) :
    abandonRecord f s = writeWord f.addr dispAbandoned x := by
  simp only [abandonRecord, results]

theorem abandonRecord_idle (f : InFlightStore) (h : s.bus = []) :
    abandonRecord f s = (true, { s with mem := abandonedMemory f s }) :=
  (abandonRecord_of_writes (writeWords_nil _ _ h)).trans (writeWord_nil _ _ h)

theorem abandonRecord_errorAt_before (f : InFlightStore) (h : s.bus = ErrorAt (j + 3)) :
    abandonRecord f s = (true, { s with mem := abandonedMemory f s, bus := ErrorAt j }) :=
  (abandonRecord_of_writes (writeWords_errorAt_before _ _ h (show 2 ≤ j + 3 by omega))).trans
    (writeWord_errorAt_succ _ _ rfl)

/-- An abandonment that meets the error at its write `j` (R139; log 18). -/
theorem abandonRecord_broken (f : InFlightStore) (h : s.bus = ErrorAt j) (hw : MemLegal s) (hj : j < 3) :
    ∃ v, v = { s with bus := [], mem := v.mem } ∧ MemLegal v ∧ (0 < j → memWord v.mem (f.addr + 20#32) = 8#32) ∧
      (j = 2 → memWord v.mem (f.addr + 24#32) = BitVec.ofNat 32 s.maint.position) ∧
      (∀ x, Outside (f.addr + 20#32) (4 * j) x → memRead v.mem x = memRead s.mem x) ∧
      abandonRecord f s = (false, v) := by
  obtain ⟨v, form, legal, code, number, frame, broken⟩ := record_broken (a := f.addr)
    (c := BitVec.ofNat 32 StoreResult.abandoned.code) (n := BitVec.ofNat 32 s.maint.position) (d := dispAbandoned) h hw hj
  refine ⟨v, form, legal, code, number, frame, ?_⟩
  rcases broken with results | ⟨x, results, done⟩
  · simp only [abandonRecord, results]
  · exact (abandonRecord_of_writes results).trans done

/-- A word of a record that the descriptor lies apart from stands behind the status write and the answer. -/
theorem MaintChanged.record {response a : Word} {o : Nat} (h : MaintChanged response v t)
    (apart : Apart a 28 (v.desc 32) 256) (ho : o + 4 ≤ 28) :
    memWord t.mem (a + BitVec.ofNat 32 o) = memWord v.mem (a + BitVec.ofNat 32 o) := by
  obtain ⟨-, -, -, -, frame⟩ := h
  refine memWord_congr fun k hk => ?_
  have out : Outside (v.desc 32) 256 (a + BitVec.ofNat 32 o + BitVec.ofNat 32 k).toNat := by
    rw [add_ofNat_ofNat]
    exact apart (o + k) (by omega)
  exact frame _ (fun i hi => out i (by omega)) (outside_part out (o := 128) (l := 6) (by omega))

/-! ## A CLOSE of a chain that is not IDLE (R139) -/

/-- A CLOSE whose status write and answer meet no error, whatever the abandonment met. -/
theorem maintClose_changes (busy : s.maint.chain ≠ .idle) (dealt : abandonInFlight s = v) (h : v.bus = [])
    (hw : MemLegal s) (hb : s.tableBase ≠ 0#24) : MaintChanged 2#32 (chainClosed v) (maintClose s) := by
  have kept := abandonInFlight_maintMem (s := s)
  rw [maintClose_open busy, dealt]
  rw [dealt] at kept
  exact answerAfter_maintChanged (s := chainClosed v) respClosed h (kept.op.mem hw) (kept.op.tableBase ▸ hb)

/-- A CLOSE under an empty script: its answer, and the record in flight ABANDONED (R132, R139). -/
theorem maintClose_quiet (h : s.bus = []) (hw : MemLegal s) (hb : s.tableBase ≠ 0#24) (busy : s.maint.chain ≠ .idle)
    (ht : t = maintClose s) : memWord t.mem (s.desc 32) = 0#32 ∧
    ((∀ f, s.maint.inflight = some f → Apart f.addr 28 (s.desc 32) 256) →
      t.maint = { Emptied s.maint with chain := .idle } ∧ memWord t.mem (s.desc 32 + 4#32) = 2#32 ∧
      MaintShown t ∧ t.store = abandonTarget s.maint.target s.store ∧
      (s.maint.inflight = none → t.attn = attnRaise maintSource .requestDone s.attn ∧
        ∀ x, Outside (s.desc 32) 8 x → Outside (s.desc 32 + 128#32) 6 x →
          memRead t.mem x = memRead s.mem x) ∧
      ∀ f, s.maint.inflight = some f → memWord t.mem f.addr = 7#32 ∧
        memWord t.mem (f.addr + 20#32) = 8#32 ∧
        memWord t.mem (f.addr + 24#32) = BitVec.ofNat 32 s.maint.position ∧
        t.attn = attnRaise maintSource .requestDone (attnRaise maintSource .storeDone s.attn) ∧
        ∀ x, Outside f.addr 4 x → Outside (f.addr + 20#32) 8 x → Outside (s.desc 32) 8 x →
          Outside (s.desc 32 + 128#32) 6 x → memRead t.mem x = memRead s.mem x) := by
  subst ht
  cases flight : s.maint.inflight with
  | none =>
    obtain ⟨form, request, response, shown, frame⟩ := maintClose_changes busy (abandonInFlight_none flight) h hw hb
    refine ⟨request, fun _ => ⟨?_, response, shown, ?_, fun _ => ⟨?_, frame⟩, fun f some_ => nomatch some_⟩⟩
    all_goals
      rw [form]
      rfl
  | some f =>
    have changed := maintClose_changes busy (abandonInFlight_made flight (abandonRecord_idle f h)) h hw hb
    obtain ⟨-, seven, eight, position, behind⟩ := abandonedMemory_words f hw
    have ⟨form, request, response, shown, frame⟩ := changed
    refine ⟨request, fun clear => ⟨?_, response, shown, ?_, fun none_ => (nomatch none_), ?_⟩⟩
    · rw [form]
      rfl
    · rw [form]
      rfl
    · rintro _ ⟨⟩
      have apart := clear f rfl
      have first := changed.record apart (o := 0) (by omega)
      rw [BitVec.add_zero] at first
      refine ⟨first.trans seven, (changed.record apart (o := 20) (by omega)).trans eight,
        (changed.record apart (o := 24) (by omega)).trans position, ?_, fun x ha hr hx hs => ?_⟩
      · rw [form]
        rfl
      · exact (frame x hx hs).trans (behind x ha hr)

/-- A CLOSE whose abandonment meets the error at its write `j`: STORE_FAULT, and it is completed all the same (R139;
log 18). -/
theorem maintClose_unabandoned (h : s.bus = ErrorAt j) (hj : j < 3) (hw : MemLegal s) (hb : s.tableBase ≠ 0#24)
    (busy : s.maint.chain ≠ .idle) (flight : s.maint.inflight = some f) (apart : Apart f.addr 28 (s.desc 32) 256)
    (ht : t = maintClose s) :
    t = { chainClosed { s with bus := [] } with
      mem := t.mem, attn := attnRaise maintSource .requestDone (attnRaise maintSource .storeFault s.attn) } ∧
    memWord t.mem (s.desc 32) = 0#32 ∧ memWord t.mem (s.desc 32 + 4#32) = 2#32 ∧ MaintShown t ∧
    (0 < j → memWord t.mem (f.addr + 20#32) = 8#32) ∧
    (j = 2 → memWord t.mem (f.addr + 24#32) = BitVec.ofNat 32 s.maint.position) ∧
    ∀ x, Outside (f.addr + 20#32) (4 * j) x → Outside (s.desc 32) 8 x → Outside (s.desc 32 + 128#32) 6 x →
      memRead t.mem x = memRead s.mem x := by
  subst ht
  obtain ⟨w, wform, -, code, number, behind, broken⟩ := abandonRecord_broken f h hw hj
  obtain ⟨m, rfl⟩ : ∃ m, w = { s with bus := [], mem := m } := ⟨_, wform⟩
  have changed := maintClose_changes busy (abandonInFlight_broken flight broken) rfl hw hb
  have ⟨form, request, response, shown, frame⟩ := changed
  exact ⟨form, request, response, shown, fun pos => (changed.record apart (o := 20) (by omega)).trans (code pos),
    fun two => (changed.record apart (o := 24) (by omega)).trans (number two),
    fun x hr hx hs => (frame x hx hs).trans (behind x hr)⟩

/-! ## The requests, no access meeting an error, and with one -/

/-- Requests of descriptor 32 under an empty script (R138, R139, R155, R156). -/
theorem serveMaint_quiet (h : s.bus = []) (hw : MemLegal s) (hb : s.tableBase ≠ 0#24) (hc : code = maintCode s)
    (hf : first = memWord s.mem (s.desc 32 + 8#32)) (hword : word = memWord s.mem (s.desc 32 + 20#32))
    (ht : t = serveMaint s) : (code = 0 → t = s) ∧
    (code = 1 → s.maint.chain ≠ .idle → MaintAnswered 3#32 s t) ∧
    (code = 1 → s.maint.chain = .idle → (first = 0#32 ∨ first.toNat % 4 ≠ 0) → MaintAnswered 8#32 s t) ∧
    (code = 2 → s.maint.chain = .idle → MaintAnswered 4#32 s t) ∧
    (3 ≤ code → MaintAnswered (BitVec.ofNat 32 (9 + 256 * code)) s t) ∧
    (code = 1 → s.maint.chain = .idle → first ≠ 0#32 → first.toNat % 4 = 0 →
      MaintChanged 1#32 (chainOpened first word s) t) ∧
    (code = 2 → s.maint.chain ≠ .idle → t = maintClose s) := by
  subst hc hf hword ht
  obtain ⟨nothing, opens, closes, bad⟩ := serveMaint_by_code (readWord_nil (s.desc 32) h)
  obtain ⟨notClosed, address, opened⟩ := maintOpen_by_chain (readWord_nil (s.desc 32 + 8#32) h)
    (readWord_nil (s.desc 32 + 20#32) h)
  refine ⟨nothing, fun c busy => ?_, fun c idle no => ?_, fun c idle => ?_, fun c => ?_, fun c idle h0 aligned => ?_,
    fun c _ => closes c⟩
  · rw [opens c, notClosed busy]
    exact answer_maintAnswered respNotClosed h hw hb
  · rw [opens c, address idle no]
    exact answer_maintAnswered respAddress h hw hb
  · rw [closes c, maintClose_idle idle]
    exact answer_maintAnswered respNotOpen h hw hb
  · rw [bad c, ← respBadRequest_word c (BitVec.isLt _)]
    exact answer_maintAnswered _ h hw hb
  · rw [opens c, opened idle h0 aligned]
    exact answerAfter_maintChanged (s := chainOpened _ _ s) (respOpened .notUsed) h hw hb

/-- A word of the request read at the error (R160). -/
theorem maintOpen_errorAt (h : s.bus = ErrorAt j) (hj : j < 2) : ReadFaulted s (maintOpen s) := by
  unfold maintOpen
  obtain rfl | rfl : j = 0 ∨ j = 1 := by omega
  · rw [readWord_errorAt_zero _ h]
    rfl
  · rw [readWord_errorAt_succ _ h]
    dsimp only
    rw [readWord_errorAt_zero _ rfl]
    rfl

/-- Requests of descriptor 32, the error at a read, or at a write of an answer (R139, R160; log 14, log 15). -/
theorem serveMaint_broken (h : s.bus = ErrorAt k) (hw : MemLegal s) (hb : s.tableBase ≠ 0#24) (hc : code = maintCode s)
    (hf : first = memWord s.mem (s.desc 32 + 8#32)) (hword : word = memWord s.mem (s.desc 32 + 20#32))
    (ht : t = serveMaint s) : (k = 0 → ReadFaulted s t) ∧ (code = 1 → k ≤ 2 → ReadFaulted s t) ∧
    (code = 1 → s.maint.chain ≠ .idle → 3 ≤ k → k ≤ 4 → AnswerFaulted 32 [] 3#32 (k - 3) { s with bus := [] } t) ∧
    (code = 1 → s.maint.chain = .idle → (first = 0#32 ∨ first.toNat % 4 ≠ 0) → 3 ≤ k → k ≤ 4 →
      AnswerFaulted 32 [] 8#32 (k - 3) { s with bus := [] } t) ∧
    (code = 1 → s.maint.chain = .idle → first ≠ 0#32 → first.toNat % 4 = 0 → 3 ≤ k → k ≤ 6 →
      MaintAnswerFaulted 1#32 (k - 3) (chainOpened first word { s with bus := [] }) t) ∧
    (3 ≤ code → 1 ≤ k → k ≤ 2 →
      AnswerFaulted 32 [] (BitVec.ofNat 32 (9 + 256 * code)) (k - 1) { s with bus := [] } t) ∧
    (code = 2 → s.maint.chain = .idle → 1 ≤ k → k ≤ 2 → AnswerFaulted 32 [] 4#32 (k - 1) { s with bus := [] } t) ∧
    (code = 2 → 1 ≤ k → t = maintClose { s with bus := ErrorAt (k - 1) }) := by
  subst hc hf hword ht
  have unread : k = 0 → ReadFaulted s (serveMaint s) := by
    rintro rfl
    unfold serveMaint
    rw [readWord_errorAt_zero _ h]
    rfl
  obtain rfl | ⟨j, rfl⟩ : k = 0 ∨ ∃ j, k = j + 1 := by
    cases k with
    | zero => exact .inl rfl
    | succ j => exact .inr ⟨j, rfl⟩
  · exact ⟨unread, fun _ _ => unread rfl, by omega, by omega, by omega, by omega, by omega, by omega⟩
  obtain ⟨-, opens, closes, bad⟩ := serveMaint_by_code (readWord_errorAt_succ (s.desc 32) h)
  have reads : ∀ i, j = i + 2 → _ := fun i hi => maintOpen_by_chain
    (readWord_errorAt_succ (s := { s with bus := ErrorAt j }) (s.desc 32 + 8#32) (k := i + 1) (congrArg ErrorAt hi))
    (readWord_errorAt_succ (s := { s with bus := ErrorAt (i + 1) }) (s.desc 32 + 20#32) rfl)
  refine ⟨unread, fun c hk => ?_, fun c busy lo hi => ?_, fun c idle no lo hi => ?_, fun c idle h0 aligned lo hi => ?_,
    fun c _ hi => ?_, fun c idle _ hi => ?_, fun c _ => closes c⟩
  · rw [opens c]
    exact maintOpen_errorAt (s := { s with bus := ErrorAt j }) rfl (by omega)
  · obtain ⟨i, rfl⟩ : ∃ i, j = i + 2 := ⟨j - 2, by omega⟩
    obtain ⟨notClosed, -, -⟩ := reads i rfl
    rw [opens c, notClosed busy]
    exact answer_faulted (s := { s with bus := ErrorAt i }) maintDesc _ respNotClosed rfl (by omega) hw hb
  · obtain ⟨i, rfl⟩ : ∃ i, j = i + 2 := ⟨j - 2, by omega⟩
    obtain ⟨-, address, -⟩ := reads i rfl
    rw [opens c, address idle no]
    exact answer_faulted (s := { s with bus := ErrorAt i }) maintDesc _ respAddress rfl (by omega) hw hb
  · obtain ⟨i, rfl⟩ : ∃ i, j = i + 2 := ⟨j - 2, by omega⟩
    obtain ⟨-, -, opened⟩ := reads i rfl
    rw [opens c, opened idle h0 aligned]
    exact maintAnswer_faulted (s := chainOpened _ _ { s with bus := ErrorAt i }) (respOpened .notUsed) rfl (by omega)
      hw hb
  · rw [bad c, ← respBadRequest_word c (BitVec.isLt _)]
    exact answer_faulted (s := { s with bus := ErrorAt j }) maintDesc _ _ rfl (by omega) hw hb
  · rw [closes c, maintClose_idle (s := { s with bus := ErrorAt j }) idle]
    exact answer_faulted (s := { s with bus := ErrorAt j }) maintDesc _ respNotOpen rfl (by omega) hw hb

/-- Settles O48: the requests by `serveMaint_quiet` and `serveMaint_broken`, the CLOSE by what it met at its
abandonment. -/
theorem storeChainOpensAndCloses : Obligations.StoreChainOpensAndCloses := by
  refine ⟨?_, ?_⟩
  · intro s t first word code h hw hb hc hf hword ht refused
    obtain ⟨nothing, notClosed, address, notOpen, bad, opened, closed⟩ := serveMaint_quiet h hw hb hc hf hword ht
    have op := (serveMaint_storeOp (s := s)).op
    rw [← ht] at op
    have refuses : ∀ r, MaintAnswered r s t → refused r := fun r ⟨form, _, response, frame⟩ =>
      ⟨response, by rw [form], by rw [form], by rw [form], frame⟩
    have close := fun c busy => maintClose_quiet h hw hb busy (closed c busy)
    refine ⟨op.chans, op.pool, op.port, nothing, fun request => ?_, fun c busy => refuses _ (notClosed c busy),
      fun c idle no => refuses _ (address c idle no), fun c idle => refuses _ (notOpen c idle),
      fun c => refuses _ (bad c), fun c idle h0 aligned => ?_, fun c busy => (close c busy).2⟩
    · have codes : code = 1 ∨ code = 2 ∨ 3 ≤ code := by omega
      rcases codes with c | c | c
      · by_cases idle : s.maint.chain = .idle
        · by_cases no : first = 0#32 ∨ first.toNat % 4 ≠ 0
          · exact (address c idle no).2.1
          · obtain ⟨h0, aligned⟩ := not_or.1 no
            exact (opened c idle h0 (not_not.1 aligned)).2.1
        · exact (notClosed c idle).2.1
      · by_cases idle : s.maint.chain = .idle
        · exact (notOpen c idle).2.1
        · exact (close c idle).1
      · exact (bad c).2.1
    · obtain ⟨form, -, response, shown, frame⟩ := opened c idle h0 aligned
      refine ⟨?_, ?_, response, shown, ⟨_, attnSetPriority_copied .., ?_⟩, frame⟩
      all_goals
        rw [form]
        rfl
  · rintro s _ t first word code k h hw hb rfl hc hf hword ht
    obtain ⟨unread, words, notClosed, address, opened, bad, notOpen, closed⟩ := serveMaint_broken h hw hb hc hf hword ht
    refine ⟨unread, words, notClosed, address, opened, bad, notOpen, ?_⟩
    rintro c busy _ rfl
    refine ⟨fun flight lo hi => ?_, fun f flight => ⟨fun lo hi apart => ?_, fun lo hi => ?_⟩⟩
    · rw [closed c lo, maintClose_open (s := { s with bus := ErrorAt (k - 1) }) busy,
        abandonInFlight_none (s := { s with bus := ErrorAt (k - 1) }) flight]
      exact maintAnswer_faulted (s := chainClosed { s with bus := ErrorAt (k - 1) }) respClosed rfl (by omega) hw hb
    · obtain ⟨form, request, response, shown, code, number, frame⟩ := maintClose_unabandoned
        (s := { s with bus := ErrorAt (k - 1) }) rfl (by omega) hw hb busy flight apart (closed c lo)
      exact ⟨form, request, response, shown, fun two => code (by omega), fun three => number (by omega), frame⟩
    · obtain ⟨i, rfl⟩ : ∃ i, k = i + 4 := ⟨k - 4, by omega⟩
      obtain ⟨legal, seven, eight, position, behind⟩ := abandonedMemory_words f hw
      have made := abandonInFlight_made (s := { s with bus := ErrorAt (i + 3) }) flight
        (abandonRecord_errorAt_before f rfl)
      refine ⟨raise maintSource .storeDone (chainClosed { s with bus := [], mem := abandonedMemory f s }), rfl, seven,
        eight, position, behind, ?_⟩
      have closes : t = maintClose { s with bus := ErrorAt (i + 3) } := closed c (by omega)
      rw [closes, maintClose_open (s := { s with bus := ErrorAt (i + 3) }) busy, made]
      exact maintAnswer_faulted (s := raise maintSource .storeDone (chainClosed
        { s with bus := ErrorAt i, mem := abandonedMemory f s })) respClosed rfl (by omega) legal hb

end Sys2Proof.Machine

/-! Proofs about a visit whose transfer goes on: the words it moves, its CRC, and its status write (R141, R145, R147 to
R149, R158). -/

namespace Sys2Proof.Machine

variable {s : State} {f : InFlightStore} {i : Fin 48} {e : Entry} {pos stop len : Nat}

/-! ## The state that a moved transfer leaves -/

/-- A visit that does not reach the end of an image (R145, R147). -/
theorem visitLimit_goesOn (h : (pos / 64 + 1) * 64 < len) : visitLimit pos len = (pos / 64 + 1) * 64 :=
  min_eq_right h.le

/-- The part behind a visit that moved its transfer to `stop`, but for the status write. -/
def transferMoved (m : Memory) (st : Store) (crc : BitVec 16) (stop : Nat) (s : State) : State :=
  { s with mem := m, store := st, maint := { s.maint with crc := crc, position := stop } }

/-- The same behind the status write (R158). -/
def transferShown (m : Memory) (st : Store) (crc : BitVec 16) (stop : Nat) (s : State) : State :=
  { transferMoved m st crc stop s with mem := maintArea (transferMoved m st crc stop s) }

section
variable {m : Memory} {st : Store} {crc : BitVec 16}

theorem maintStatus_transferMoved (h : s.bus = []) :
    (maintStatus (transferMoved m st crc stop s)).2 = transferShown m st crc stop s :=
  congrArg Prod.snd (maintStatus_idle (s := transferMoved m st crc stop s) h)

/-- The status write shows the unit and changes no byte outside its area (R158). -/
theorem transferShown_shown (hm : m.wf) (hb : s.tableBase ≠ 0#24) : MaintShown (transferShown m st crc stop s) ∧
    (∀ x, Outside (s.desc 32 + 128#32) 6 x → memRead (transferShown m st crc stop s).mem x = memRead m x) ∧
    ∀ b, Apart b 4 (s.desc 32 + 128#32) 6 → memWord (transferShown m st crc stop s).mem b = memWord m b :=
  ⟨maintArea_shown (s := transferMoved m st crc stop s) hm hb,
    maintArea_frame (s := transferMoved m st crc stop s) hm,
    fun _ => memWord_maintArea_apart (s := transferMoved m st crc stop s) hm⟩

end

/-- A visit of an open chain with no request is the work of its store step (R136, R141). -/
theorem exec_visit_works (h : s.bus = []) (on : s.enabled = true) (none_ : NoRequest s) (works : Works s) :
    exec (.maintenanceVisit []) s = .next (workStore s) := by
  rw [exec_visit_idle h, if_pos on, visit_noRequest h none_, storeStep_works works]

/-! ## EXPORT (R148) -/

/-- The image words from `pos` to `stop` (R145). -/
def imagePart (e : Entry) (pos stop : Nat) : List Word := ((imageBody e).take stop).drop pos

/-- The words of a part that ends inside the image, by their places in it (R145). -/
theorem imagePart_words (inside : stop ≤ (imageBody e).length) : (imagePart e pos stop).length = stop - pos ∧
    ∀ j, pos ≤ j → j < stop → (imagePart e pos stop).getD (j - pos) 0#32 = (imageBody e).getD j 0#32 := by
  refine ⟨?_, fun j lo hi => ?_⟩
  · rw [imagePart, List.length_drop, List.length_take_of_le inside]
  · simp only [imagePart, List.getD_eq_getElem?_getD, List.getElem?_drop, Nat.add_sub_cancel' lo,
      List.getElem?_take_of_lt hi]

/-- A visit of an EXPORT that goes on: the words written, then the status write (R148, R158). -/
theorem exportVisit_goesOn (h : s.bus = []) (he : e = entryAt s.store i) (hp : pos = s.maint.position)
    (hs : stop = (pos / 64 + 1) * 64) (goes : stop < s.maint.imageLen) : exportVisit f i s =
      transferShown (memSetWords (imagePart e pos stop) (f.buffer + BitVec.ofNat 32 (4 * pos)) s.mem) s.store
        (crcWords s.maint.crc (imagePart e pos stop)) stop s := by
  have limit : visitLimit pos s.maint.imageLen = stop := hs ▸ visitLimit_goesOn (hs ▸ goes)
  have part : (((imageBody e).take (s.maint.imageLen - 1)).take stop).drop pos = imagePart e pos stop := by
    rw [List.take_take, min_eq_left (by omega), imagePart]
  unfold exportVisit
  dsimp only
  rw [← he, ← hp, limit, part, if_pos goes, writeWords_nil _ _ h]
  dsimp only
  rw [if_pos goes]
  exact maintStatus_transferMoved h

/-! ## IMPORT (R147) -/

/-- The words of an IMPORT's buffer from `pos` to `stop`. -/
def bufferPart (buffer : Word) (pos stop : Nat) (m : Memory) : List Word :=
  (List.range (stop - pos)).map fun j => memWord m (buffer + BitVec.ofNat 32 (4 * (pos + j)))

theorem memWords_bufferPart (buffer : Word) (pos stop : Nat) (m : Memory) :
    memWords (stop - pos) (buffer + BitVec.ofNat 32 (4 * pos)) m = bufferPart buffer pos stop m := by
  simp only [memWords_eq_map, bufferPart, add_ofNat_ofNat, Nat.mul_add]

/-- A visit of an IMPORT that goes on: every word read is a coefficient, and joins the entry (R147, R158). -/
theorem importVisit_goesOn (h : s.bus = []) (hp : pos = s.maint.position) (hs : stop = (pos / 64 + 1) * 64)
    (goes : stop < s.maint.imageLen) : importVisit f i s =
      transferShown s.mem (fillEntry i (bufferPart f.buffer pos stop s.mem) s.store)
        (crcWords s.maint.crc (bufferPart f.buffer pos stop s.mem)) stop s := by
  have limit : visitLimit pos s.maint.imageLen = stop := hs ▸ visitLimit_goesOn (hs ▸ goes)
  have coefs : (bufferPart f.buffer pos stop s.mem).take (s.maint.imageLen - 1 - pos) =
      bufferPart f.buffer pos stop s.mem := by
    refine List.take_of_length_le ?_
    rw [bufferPart, List.length_map, List.length_range]
    omega
  unfold importVisit
  dsimp only
  rw [← hp, limit, readWords_nil _ _ h, memWords_bufferPart]
  dsimp only
  rw [if_pos goes, coefs]
  exact maintStatus_transferMoved h

theorem fillEntry_entry (i j : Fin 48) (ws : List Word) (st : Store) : entryAt (fillEntry i ws st) j =
    if j = i then { entryAt st i with coefs := (entryAt st i).coefs ++ ws.map (BitVec.setWidth 24) }
    else entryAt st j := entryAt_setEntry i j _ st

/-! ## The visit -/

/-- The words of a part exported into the buffer, each at its place in the image, and no other byte (R148). -/
theorem exported_words {m : Memory} (buffer : Word) (hw : m.wf) (inside : stop ≤ (imageBody e).length)
    (short : 4 * (stop - pos) ≤ 2 ^ 32) :
    (∀ j, pos ≤ j → j < stop →
      memWord (memSetWords (imagePart e pos stop) (buffer + BitVec.ofNat 32 (4 * pos)) m)
        (buffer + BitVec.ofNat 32 (4 * j)) = (imageBody e).getD j 0#32) ∧
    ∀ x, Outside (buffer + BitVec.ofNat 32 (4 * pos)) (4 * (stop - pos)) x →
      memRead (memSetWords (imagePart e pos stop) (buffer + BitVec.ofNat 32 (4 * pos)) m) x = memRead m x := by
  obtain ⟨length, words⟩ := imagePart_words (pos := pos) inside
  refine ⟨fun j lo hi => ?_, fun x hx => memRead_memSetWords_ne _ _ hw x (by rwa [length])⟩
  have place : buffer + BitVec.ofNat 32 (4 * j) =
      buffer + BitVec.ofNat 32 (4 * pos) + BitVec.ofNat 32 (4 * (j - pos)) := by
    rw [add_ofNat_ofNat, ← Nat.mul_add, Nat.add_sub_cancel' lo]
  rw [place, memWord_memSetWords _ _ hw (by omega) _ (by omega), words j lo hi]

/-- Settles O47: the visit by the transfer's kind (`exportVisit_goesOn`, `importVisit_goesOn`), its status write by
`transferShown_shown`. -/
theorem transferMoves64WordsAVisit : Obligations.TransferMoves64WordsAVisit := by
  intro f i s e pos stop h hw on hb none_ walking flight target he hp hs goes short
  obtain ⟨imports, exports⟩ := workStore_transfers flight target
  rw [exec_visit_works h on none_ (.inl walking)]
  cases kind : f.kind with
  | exportImage =>
    have legal := memSetWords_wf (imagePart e pos stop) (f.buffer + BitVec.ofNat 32 (4 * pos)) hw
    obtain ⟨shown, frame, kept⟩ := transferShown_shown (st := s.store)
      (crc := crcWords s.maint.crc (imagePart e pos stop)) (stop := stop) legal hb
    rw [exports kind, exportVisit_goesOn h he hp hs goes]
    refine ⟨_, rfl, rfl, shown, rfl, rfl, rfl, rfl, fun _ image coefs => ⟨rfl, rfl, ?_⟩, nofun⟩
    have inside : stop ≤ (imageBody e).length := by
      rw [imageBody_length e coefs]
      omega
    obtain ⟨words, others⟩ := exported_words (pos := pos) f.buffer hw inside (by omega)
    exact ⟨fun j lo hi apart => (kept _ apart).trans (words j lo hi), fun x hx hd => (frame x hd).trans (others x hx)⟩
  | importImage =>
    obtain ⟨shown, frame, -⟩ := transferShown_shown
      (st := fillEntry i (bufferPart f.buffer pos stop s.mem) s.store)
      (crc := crcWords s.maint.crc (bufferPart f.buffer pos stop s.mem)) (stop := stop) hw hb
    rw [imports kind, importVisit_goesOn h hp hs goes]
    refine ⟨_, rfl, rfl, shown, rfl, rfl, rfl, rfl, nofun,
      fun _ => ⟨bufferPart f.buffer pos stop s.mem, rfl, rfl, ?_, fun k hk => ?_, rfl, frame⟩⟩
    · subst e
      exact (fillEntry_entry ..).trans (if_pos rfl)
    · exact (fillEntry_entry ..).trans (if_neg hk)

end Sys2Proof.Machine

/-! Proofs about the laws that every step keeps of the attention unit and of the shared memory's form: no event of
the part takes them away (00 section 5.1; R165, R170). -/

namespace Sys2Proof.Machine

variable {s t u : State} {n : Fin 32}

/-! ## Events of the part -/

/-- Between `s` and `t` the form of the shared memory and the laws of the attention unit were kept. -/
structure UnitsKept (s t : State) : Prop where
  mem  : MemLegal s → MemLegal t
  attn : AttnLegal s.attn → AttnLegal t.attn

namespace UnitsKept

theorem refl : UnitsKept s s := ⟨id, id⟩

theorem trans (h : UnitsKept s t) (g : UnitsKept t u) : UnitsKept s u := ⟨g.mem ∘ h.mem, g.attn ∘ h.attn⟩

theorem of_allOp (h : AllOp s t) : UnitsKept s t := ⟨h.mem, h.attn⟩

theorem of_chanOp (h : ChanOp n s t) : UnitsKept s t := ⟨h.mem, h.attn⟩

theorem of_maintOp (h : MaintOp s t) : UnitsKept s t := ⟨h.mem, h.attn⟩

/-- A command's work under its bus script: what the script still holds behind the last access are host writes. -/
theorem onBus {f : State → State} (bus : Bus) (hf : ∀ s, UnitsKept s (f s)) : UnitsKept s (onBus bus f s) :=
  have work := hf { s with bus := bus }
  ⟨fun legal => applySlots_wf _ (work.mem legal), work.attn⟩

/-! ## The line -/

theorem serveFrame (f : Nat) : UnitsKept s (serveFrame f s) := by
  obtain ⟨u, op, form, -⟩ := serveFrame_spec (s := s) f
  rw [form]
  exact (of_allOp op).trans ⟨id, id⟩

theorem lock : UnitsKept s (lock s) := by
  have turns := of_allOp (lockSteps_allOp (s := { s with port := { s.port with
    state := .locked, frameCount := 0, framePos := 0, stallArmed := true } }))
  unfold Machine.lock
  dsimp only
  generalize allChans.foldl lockStep _ = u at turns ⊢
  have raised : UnitsKept s (raise partSource .lineLocked u) := ⟨turns.mem, attnRaise_legal ∘ turns.attn⟩
  exact raised.trans (serveFrame 0)

theorem acceptFrame : UnitsKept s (acceptFrame s) := by
  have boundary := served_allOp (s := syncAccepted s) (nextFrameCount s.port.frameCount)
  exact ⟨boundary.mem, boundary.attn⟩

theorem syncSeen (clocks : Nat) : UnitsKept s (syncSeen clocks s) := by
  have moved : ∀ p : Port, UnitsKept s { s with port := p } := fun _ => ⟨id, id⟩
  unfold Machine.syncSeen
  split
  · exact refl
  · unfold huntSync
    exact iteInduction (fun _ => (moved _).trans lock) fun _ => moved _
  · split
    · exact acceptFrame
    · exact moved _

theorem lsyncSampled (clocks : Nat) (l : LSync) : UnitsKept s (lsyncSampled clocks l s) :=
  iteInduction (fun _ => syncSeen clocks) fun _ => refl

theorem frameMissed : UnitsKept s (frameMissed s) := by
  unfold Machine.frameMissed
  split
  · exact refl
  · exact ⟨id, id⟩
  · exact ⟨id, id⟩

theorem deliverSample (slot : Nat) (x : Sample) : UnitsKept s (deliverSample slot x s) := by
  by_cases outside : s.port.frameOut = none ∨ s.port.activeFmt.slots.toNat ≤ slot
  · rw [deliverSample_outside outside]
    exact refl
  · obtain ⟨frame, inside⟩ := not_or.1 outside
    rw [deliverSample_frame frame (Nat.not_le.1 inside)]
    cases slotChannel s slot with
    | none => exact ⟨id, id⟩
    | some n => exact ⟨id, id⟩

theorem lineLost (slots : Option Nat) : UnitsKept s (lineLost slots s) := by
  have turns := of_allOp (loseLines_allOp (s := { s with port := toHunt s.port }) slots)
  unfold Machine.lineLost
  generalize allChans.foldl (loseLine slots) _ = u at turns ⊢
  exact ⟨turns.mem, attnRaise_legal ∘ turns.attn⟩

theorem restartLine : UnitsKept s (restartLine s) := by
  by_cases off : s.port.state = .off
  · have idle : Machine.restartLine s = s := by simp only [Machine.restartLine, off]
    rw [idle]
    exact refl
  · rw [restartLine_eq off]
    have lost := lineLost (s := { s with port := latchFormat s.port }) (some s.port.pendingFmt.slots.toNat)
    exact ⟨lost.mem, lost.attn⟩

/-! ## The maintenance visit -/

theorem visit : UnitsKept s (visit s) := by
  have served : ∀ l : List (Fin 32), UnitsKept s (l.foldl serveChannel s) := fun l => by
    induction l using List.reverseRecOn with
    | nil => exact refl
    | append_singleton l n ih =>
      rw [List.foldl_concat]
      exact ih.trans (of_chanOp serveChannel_visitOp.op)
  unfold Machine.visit
  refine trans (iteInduction (fun _ => refl) fun _ => ?_) (of_maintOp storeStep_storeOp.op)
  exact (served allChans).trans (of_maintOp serveMaint_storeOp.op)

/-! ## The resets and the register writes -/

theorem hardwareReset : UnitsKept s (hardwareResetPart s) := ⟨id, fun _ => reset_attnLegal⟩

theorem softReset : UnitsKept s (softResetPart s) := by
  obtain ⟨-, -, -, -, -, attn, -, mem, -⟩ := softReset_fields (s := s)
  exact ⟨fun legal => by rwa [MemLegal, mem], fun legal => attn ▸ attnSoftReset_legal legal⟩

theorem controlFields (pulse : Bool) (v : BitVec 3) : UnitsKept s (takeControlFields pulse v s) :=
  ⟨id, attnControl_legal⟩

/-- A write of PART_CONTROL (R163). -/
theorem partControlWrite (v : Word) : UnitsKept s (partControlWrite v s) := by
  refine (controlFields (flag v 4) (v.extractLsb' 8 3)).trans ?_
  unfold Machine.partControlWrite controlAction
  split_ifs
  · exact softReset
  · exact softReset
  · exact restartLine
  · exact refl
  · exact ⟨id, id⟩
  · exact refl

theorem tableBaseWrite (v : Word) : UnitsKept s (tableBaseWrite v s) :=
  iteInduction (fun _ => refl) fun _ => ⟨id, id⟩

theorem completeSource (v : Word) : UnitsKept s (completeSource v s) := ⟨id, attnComplete_legal⟩

/-- A write at an offset of the window (R161). -/
theorem registerWrite (offset v : Word) : UnitsKept s (registerWrite offset v s) := by
  unfold Machine.registerWrite
  split_ifs
  · exact tableBaseWrite v
  · exact partControlWrite v
  · exact ⟨id, id⟩
  · exact completeSource v
  · exact refl

/-! ## Commands and steps -/

/-- Every command keeps the form of the shared memory and the laws of the attention unit. -/
theorem exec (c : Instr) (e : exec c s = .next t) : UnitsKept s t := by
  cases c <;> obtain rfl := Host.Outcome.next.inj e
  case hardwareReset => exact hardwareReset
  case tableBaseWrite v => exact tableBaseWrite v
  case lineFormatWrite v => exact ⟨id, id⟩
  case enable v => exact onBus _ fun _ => partControlWrite _
  case disable v => exact onBus _ fun _ => partControlWrite _
  case softReset v => exact onBus _ fun _ => partControlWrite _
  case lineRestart v bus => exact onBus bus fun _ => partControlWrite _
  case setAttnThreshold v => exact controlFields _ v
  case setAttnMode pulse v => exact controlFields pulse v
  case claim => exact ⟨id, attnClaim_legal⟩
  case peek => exact ⟨id, id⟩
  case sourceCompletion v => exact completeSource v
  case ignoredRegisterWrite offset v => exact onBus _ fun _ => registerWrite offset v
  case syncInHunt sync bus => exact onBus bus fun _ => lsyncSampled _ _
  case huntFrameMissed => exact frameMissed
  case frameArrival arrival => exact onBus arrival.bus fun _ => lsyncSampled _ _
  case syncIgnored sync => exact onBus _ fun _ => lsyncSampled _ _
  case missingFrame => exact frameMissed
  case sampleDelivery slot lrx => exact deliverSample _ _
  case stall bus => exact onBus bus fun _ => iteInduction (fun _ => lineLost none) fun _ => refl
  case maintenanceVisit bus => exact onBus bus fun _ => iteInduction (fun _ => visit) fun _ => refl
  case attnPulseEnd => exact ⟨id, attnPulseEnds_legal⟩

/-- Every step keeps them: the queue is no concern of either. -/
theorem step (e : step s = .next t) : UnitsKept s t := by
  unfold Machine.step at e
  split at e
  · obtain rfl := Host.Outcome.next.inj e
    exact refl
  · next c rest _ =>
    have command := exec (s := { s with pending := rest }) c e
    exact ⟨command.mem, command.attn⟩

end UnitsKept

/-- Settles O57: each command by what it does to the attention unit (`UnitsKept.exec`). -/
theorem attentionLawKept : Obligations.AttentionLawKept := fun _ _ legal e => (UnitsKept.step e).attn legal

end Sys2Proof.Machine

/-! Proofs about the register window's attention commands and about raises: what each leaves of the sources and of
the ATTN pin (R165 to R170). -/

namespace Sys2Proof.Machine

/-! ## The pin (R170) -/

theorem waits_settlePin (old new : Attn) (i : Fin 34) : Waits (settlePin old new) i ↔ Waits new i := by
  simp only [Waits, settlePin_sources, settlePin_threshold]

theorem gains_iff (old new : Attn) : gains old new = true ↔ ∃ i, Waits new i ∧ ¬ Waits old i := by
  simp [gains, ← claimable_iff]

theorem gains_eq_false {old new : Attn} (h : ∀ i, Waits new i → Waits old i) : gains old new = false := by
  rw [← Bool.not_eq_true, gains_iff]
  exact fun ⟨i, waits, not⟩ => not (h i waits)

/-- In level mode the pin follows the claimable set. -/
theorem settlePin_pin_level {old new : Attn} (h : new.pulse = false) :
    (settlePin old new).pin = true ↔ ∃ i, Waits (settlePin old new) i := by
  rw [settlePin_level old new (by rwa [settlePin_pulse]), anyClaimable_iff]

/-- In pulse mode a gain of the claimable set asserts the pin, and nothing deasserts it. -/
theorem settlePin_pin_pulse {old new : Attn} (h : new.pulse = true) :
    (settlePin old new).pin = true ↔ old.pin = true ∨ ∃ i, Waits (settlePin old new) i ∧ ¬ Waits old i := by
  have pin : (settlePin old new).pin = (old.pin || gains old new) := by rw [settlePin, if_pos h]
  simp only [waits_settlePin, pin, Bool.or_eq_true, gains_iff]

/-- An event that changes nothing finds its own pin. -/
theorem settlePin_settled (old new : Attn) :
    settlePin (settlePin old new) (settlePin old new) = settlePin old new := by
  cases mode : new.pulse with
  | false =>
    simp only [settlePin, mode, Bool.false_eq_true, if_false]
    rfl
  | true =>
    have gained : gains (settlePin old new) (settlePin old new) = false := gains_eq_false fun _ => id
    have pulse : (settlePin old new).pulse = true := (settlePin_pulse old new).trans mode
    rw [settlePin.eq_def (settlePin old new), if_pos pulse, gained, Bool.or_false]

/-! ## One source changed -/

section
variable {a : Attn} {i : Fin 34} {f : Source → Source}

theorem waits_updateSource_ne {j : Fin 34} (h : j ≠ i) : Waits (updateSource i f a) j ↔ Waits a j := by
  simp only [Waits, updateSource_source, if_neg h, updateSource_threshold]

theorem updateSource_pin_level (h : a.pulse = false) :
    (updateSource i f a).pin = true ↔ ∃ j, Waits (updateSource i f a) j := settlePin_pin_level h

/-- Of one changed source no other can join the claimable set. -/
theorem updateSource_pin_pulse (h : a.pulse = true) :
    (updateSource i f a).pin = true ↔ a.pin = true ∨ (Waits (updateSource i f a) i ∧ ¬ Waits a i) := by
  have settled : (updateSource i f a).pin = true ↔
      a.pin = true ∨ ∃ j, Waits (updateSource i f a) j ∧ ¬ Waits a j := settlePin_pin_pulse h
  refine settled.trans (or_congr_right ⟨?_, fun joins => ⟨i, joins⟩⟩)
  rintro ⟨j, waits, not⟩
  by_cases other : j = i
  · subst other
    exact ⟨waits, not⟩
  · exact absurd ((waits_updateSource_ne other).1 waits) not

/-- A change that a second time changes nothing leaves the pin as the first did. -/
theorem updateSource_twice (h : f (f a.sources[i]) = f a.sources[i]) :
    updateSource i f (updateSource i f a) = updateSource i f a := by
  have found : f (updateSource i f a).sources[i] = (updateSource i f a).sources[i] := by
    rw [updateSource_source, if_pos rfl, h]
  conv_lhs => rw [updateSource, found]
  rw [show (updateSource i f a).sources.set i (updateSource i f a).sources[i] = (updateSource i f a).sources from
    Vector.set_getElem_self _]
  exact settlePin_settled _ _

end

/-! ## Raises (R166) -/

/-- The source with a cause in its set. -/
def Source.withCause (c : Cause) (src : Source) : Source := { src with causes := src.causes ||| causeBit c }

theorem attnRaise_zero {i : Fin 34} {a : Attn} (c : Cause) (h : a.sources[i].priority = 0#3) :
    attnRaise i c a = a := if_pos h

theorem attnRaise_joins {i : Fin 34} {a : Attn} (c : Cause) (h : a.sources[i].priority ≠ 0#3) :
    attnRaise i c a = updateSource i (Source.withCause c) a := if_neg h

theorem causes_ne_zero_of_hasCause {a : Attn} {i : Fin 34} {c : Cause} (h : HasCause a i c) :
    a.sources[i].causes ≠ 0#16 := fun empty => by
  rw [HasCause, empty, BitVec.getLsbD_zero] at h
  cases h

/-- A cause raised stays there once: the same raise again does nothing. -/
theorem attnRaise_twice {i : Fin 34} {a : Attn} (c : Cause) (h : a.sources[i].priority ≠ 0#3) :
    attnRaise i c (attnRaise i c a) = attnRaise i c a := by
  have kept : (attnRaise i c a).sources[i].priority ≠ 0#3 := by rwa [(AttnGrows.raise i c a).priority]
  rw [attnRaise_joins c kept, attnRaise_joins c h]
  exact updateSource_twice (by simp only [Source.withCause, BitVec.or_assoc, BitVec.or_self])

/-- Settles O10: by `attnRaise_joins` a raise is a change of one source, whose pin `updateSource_pin_level` and
`updateSource_pin_pulse` give. -/
theorem raiseJoinsCauseSet : Obligations.RaiseJoinsCauseSet := by
  intro i c a
  refine ⟨attnRaise_zero c, fun heard => ?_⟩
  have sources : ∀ j : Fin 34, (attnRaise i c a).sources[j] =
      if j = i then (a.sources[i]).withCause c else a.sources[j] := fun j => by
    rw [attnRaise_joins c heard, updateSource_source]
  have cause := hasCause_attnRaise c heard
  refine ⟨sources, cause, attnRaise_twice c heard, fun idle above => ?_, fun level => ?_, fun pulse => ?_⟩
  · refine ⟨causes_ne_zero_of_hasCause cause, ?_, ?_⟩
    · rw [sources, if_pos rfl, attnRaise_joins c heard, updateSource_threshold]
      exact above
    · rw [sources, if_pos rfl]
      exact idle
  · rw [attnRaise_joins c heard]
    exact updateSource_pin_level level
  · rw [attnRaise_joins c heard]
    exact updateSource_pin_pulse pulse

/-! ## Mode and threshold (R169) -/

/-- A write that does not go from level to pulse mode settles the pin. -/
theorem attnControl_settles {pulse free : Bool} {t : BitVec 3} {a : Attn} (h : pulse = true → a.pulse = true) :
    attnControl pulse t free a = settlePin a { a with pulse := pulse, threshold := t } := by
  refine if_neg fun turns => ?_
  obtain ⟨on, off⟩ := (Bool.and_eq_true_iff).1 turns
  rw [h on] at off
  cases off

/-- A write from level to pulse mode that gains no source deasserts the pin, whatever the free bit. -/
theorem attnControl_toPulse {free : Bool} {t : BitVec 3} {a : Attn} (off : a.pulse = false)
    (h : ∀ i, Waits { a with pulse := true, threshold := t } i → Waits a i) :
    (attnControl true t free a).pin = false := by
  have quiet := gains_eq_false h
  simp only [attnControl, off, quiet, Bool.not_false, Bool.and_self, if_true, Bool.false_and]

theorem attnControl_fields (pulse free : Bool) (t : BitVec 3) (a : Attn) :
    (attnControl pulse t free a).pulse = pulse ∧ (attnControl pulse t free a).threshold = t ∧
      (attnControl pulse t free a).sources = a.sources := by
  unfold attnControl
  split
  · exact ⟨rfl, rfl, rfl⟩
  · exact ⟨settlePin_pulse .., settlePin_threshold .., settlePin_sources ..⟩

/-- The claimable set after a write is that of its threshold, whatever becomes of the pin. -/
theorem waits_attnControl (pulse free : Bool) (t : BitVec 3) (a : Attn) (i : Fin 34) :
    Waits (attnControl pulse t free a) i ↔ Waits { a with pulse := pulse, threshold := t } i := by
  obtain ⟨-, threshold, sources⟩ := attnControl_fields pulse free t a
  simp only [Waits, threshold, sources]

theorem attnPulseEnds_level {a : Attn} (h : a.pulse = false) : attnPulseEnds a = a := if_neg (by simp [h])

theorem attnPulseEnds_pulse {a : Attn} (h : a.pulse = true) : attnPulseEnds a = { a with pin := false } := if_pos h

/-- Settles O8: the pin by `attnControl_settles`, but from level to pulse mode by `attnControl_toPulse`. -/
theorem thresholdAndModeWrite : Obligations.ThresholdAndModeWrite := by
  refine ⟨fun pulse t s => ?_, fun s => ⟨_, rfl, ?_⟩⟩
  · obtain ⟨mode, threshold, sources⟩ := attnControl_fields pulse (Config.freeBit s.freeNext) t s.attn
    refine ⟨takeControlFields pulse t s, rfl, rfl, mode, threshold, sources, fun level => ?_, fun on was => ?_,
      fun on off kept => ?_, takeControlFields s.attn.pulse t s, rfl, ?_, fun same => by rw [same]⟩
    · subst level
      rw [takeControlFields, attnControl_settles (by simp)]
      exact settlePin_pin_level rfl
    · rw [takeControlFields, attnControl_settles fun _ => was]
      exact settlePin_pin_pulse on
    · subst on
      exact attnControl_toPulse off fun i waits => kept i ((waits_attnControl ..).2 waits)
    · exact (attnControl_fields ..).1
  · cases mode : s.attn.pulse with
    | false =>
      rw [attnPulseEnds_level mode]
      exact ⟨rfl, nofun, fun _ => rfl⟩
    | true =>
      rw [attnPulseEnds_pulse mode]
      exact ⟨rfl, fun _ => rfl, nofun⟩

/-! ## The source that a claim selects (R167) -/

/-- The pick of a list is its first source, or the pick of the rest, which then outranks a first source that is
claimable. -/
theorem pickFrom_cons {a : Attn} {i b : Fin 34} {l : List (Fin 34)} (h : pickFrom a (i :: l) = some b) :
    b = i ∨ pickFrom a l = some b ∧ (claimable a i = true → a.sources[i].priority < a.sources[b].priority) := by
  unfold pickFrom at h
  split at h
  · split at h
    · exact .inl (Option.some.inj h).symm
    · cases h
  · next c rest =>
    split at h
    · exact .inl (Option.some.inj h).symm
    · next stays =>
      obtain rfl := Option.some.inj h
      exact .inr ⟨rest, fun claims => by simpa [claims] using stays⟩

/-- Of a rising list no source that stands before the pick is claimable with its priority. -/
theorem pickFrom_first {a : Attn} {l : List (Fin 34)} (rising : l.Pairwise (· < ·)) {b : Fin 34}
    (h : pickFrom a l = some b) (j : Fin 34) (mem : j ∈ l) (claims : claimable a j = true)
    (same : a.sources[j].priority = a.sources[b].priority) : b ≤ j := by
  induction l with
  | nil => cases mem
  | cons i l ih =>
    obtain ⟨below, rising⟩ := List.pairwise_cons.1 rising
    rcases pickFrom_cons h with rfl | ⟨rest, outranks⟩
    · rcases List.mem_cons.1 mem with rfl | later
      · exact le_refl _
      · exact le_of_lt (below j later)
    · rcases List.mem_cons.1 mem with rfl | later
      · have less := outranks claims
        rw [same] at less
        exact absurd less (BitVec.lt_irrefl _)
      · exact ih rising rest later

theorem claimPick_none {a : Attn} (h : claimPick a = none) (i : Fin 34) : ¬ Waits a i := by
  have spec := pickFrom_spec a (List.finRange 34)
  rw [show pickFrom a (List.finRange 34) = none from h] at spec
  rw [← claimable_iff, spec i (List.mem_finRange i)]
  exact Bool.false_ne_true

/-- A claim selects the claimable source of highest priority, the lowest number on a tie. -/
theorem claimPick_some {a : Attn} {i : Fin 34} (h : claimPick a = some i) : Waits a i ∧
    ∀ j, Waits a j → a.sources[j].priority < a.sources[i].priority ∨
      (a.sources[j].priority = a.sources[i].priority ∧ i ≤ j) := by
  have spec := pickFrom_spec a (List.finRange 34)
  rw [show pickFrom a (List.finRange 34) = some i from h] at spec
  obtain ⟨-, claims, greatest⟩ := spec
  refine ⟨(claimable_iff a i).1 claims, fun j waits => ?_⟩
  have claims := (claimable_iff a j).2 waits
  have mem := List.mem_finRange j
  rcases eq_or_lt_of_le (BitVec.le_def.1 (greatest j mem claims)) with same | less
  · have same := BitVec.eq_of_toNat_eq same
    exact .inr ⟨same, pickFrom_first (List.pairwise_lt_finRange 34) h j mem claims same⟩
  · exact .inl (BitVec.lt_def.2 less)

/-! ## Claims (R167) -/

/-- What a claim leaves of the source it selects. -/
def Source.claimed (src : Source) : Source := { src with causes := 0#16, inService := true }

theorem attnClaim_eq (a : Attn) :
    attnClaim a = (claimPick a).elim a fun i => updateSource i Source.claimed a := by
  unfold attnClaim
  cases claimPick a with
  | none => rfl
  | some i => rfl

/-- The word that holds a source's number and its causes (R161). -/
def claimWord (i : Fin 34) (src : Source) : Word := (0#8 ++ src.causes) ++ BitVec.ofNat 8 i.val

theorem claimValue_eq (a : Attn) : claimValue a = (claimPick a).elim 63#32 fun i => claimWord i a.sources[i] := by
  unfold claimValue
  cases claimPick a with
  | none => rfl
  | some i => rfl

theorem claimWord_fields (i : Fin 34) (src : Source) :
    ((claimWord i src).extractLsb' 0 6).toNat = i.val ∧ (claimWord i src).extractLsb' 8 16 = src.causes := by
  have number := i.isLt
  have causes := src.causes.isLt
  have word : (claimWord i src).toNat = src.causes.toNat * 256 + i.val := by
    have low : i.val % 2 ^ 8 = i.val := Nat.mod_eq_of_lt (by omega)
    simp only [claimWord, BitVec.toNat_append, BitVec.toNat_ofNat, low]
    rw [← Nat.shiftLeft_add_eq_or_of_lt (by omega)]
    simp [Nat.shiftLeft_eq]
  refine ⟨?_, extract_eq ?_⟩
  · rw [extract_toNat]
    omega
  · omega

/-- A source in service does not wait. -/
theorem not_waits_of_inService {a : Attn} {i : Fin 34} (h : a.sources[i].inService = true) : ¬ Waits a i :=
  fun ⟨_, _, idle⟩ => absurd (h.symm.trans idle) (by decide)

/-- A claimed source is in service and so gains nothing: a claim gives no pulse. -/
theorem claimed_pin_pulse {a : Attn} (i : Fin 34) (h : a.pulse = true) :
    (updateSource i Source.claimed a).pin = a.pin := by
  have served : ¬ Waits (updateSource i Source.claimed a) i :=
    not_waits_of_inService (by rw [updateSource_source, if_pos rfl]; rfl)
  rw [Bool.eq_iff_iff, updateSource_pin_pulse h]
  exact or_iff_left fun ⟨waits, _⟩ => served waits

/-! ## Completions (R168) -/

/-- What a completion leaves of a source in service. -/
def Source.completed (src : Source) : Source := { src with inService := false }

theorem attnComplete_ignored {k : Nat} {a : Attn} (h : ∀ i : Fin 34, i.val = k → a.sources[i].inService = false) :
    attnComplete k a = a := by
  unfold attnComplete
  split
  · next number => exact if_neg (by simpa using h ⟨k, number⟩ rfl)
  · rfl

theorem attnComplete_served {i : Fin 34} {a : Attn} (h : a.sources[i].inService = true) :
    attnComplete i.val a = updateSource i Source.completed a := by
  rw [attnComplete, dif_pos i.isLt]
  exact if_pos h

/-- Settles O9: the claim by the source that `claimPick` selects, the completion by the source that the word names;
both are changes of one source. -/
theorem claimAndCompletion : Obligations.ClaimAndCompletion := by
  refine ⟨fun s => ⟨_, rfl, rfl, rfl, ?_⟩, fun v s => ⟨_, rfl, rfl, fun idle => ?_, fun i number served => ?_⟩⟩
  · dsimp only
    rw [claimValue_eq, attnClaim_eq]
    cases pick : claimPick s.attn with
    | none => exact ⟨fun _ => ⟨rfl, rfl⟩, fun ⟨i, waits⟩ => absurd waits (claimPick_none pick i)⟩
    | some i =>
      obtain ⟨waits, first⟩ := claimPick_some pick
      obtain ⟨number, causes⟩ := claimWord_fields i s.attn.sources[i]
      exact ⟨fun none_ => absurd waits (none_ i), fun _ => ⟨i, waits, first, number, causes, updateSource_pulse ..,
        updateSource_threshold .., fun j => updateSource_source .., updateSource_pin_level, claimed_pin_pulse i⟩⟩
  · have ignored : attnComplete (field v 0 6) s.attn = s.attn := attnComplete_ignored idle
    simp only [completeSource, ignored]
  · have done : (completeSource v s).attn = updateSource i Source.completed s.attn := by
      rw [completeSource, field, ← number, attnComplete_served served]
    have waited : ¬ Waits s.attn i := not_waits_of_inService served
    rw [done]
    refine ⟨updateSource_pulse .., updateSource_threshold .., fun j => updateSource_source .., updateSource_pin_level,
      fun pulse => ?_⟩
    rw [updateSource_pin_pulse pulse, and_iff_left waited]

end Sys2Proof.Machine

/-! Proofs about the step itself: the command it takes from the queue (00 section 5.4), and the shared memory's form,
which every command keeps (00 section 5.1). -/

namespace Sys2Proof.Machine

/-- Settles O55: the shared memory's form is one half of `UnitsKept`, which `UnitsKept.step` gives of every step. -/
theorem memoryFormKept : Obligations.MemoryFormKept := fun _ _ legal e => (UnitsKept.step e).mem legal

/-- Settles O1: of the two branches of `step`, a queue with a front command takes the second. -/
theorem stepRunsFrontCommand : Obligations.StepRunsFrontCommand := by
  intro c rest s queued
  rw [step, queued]

end Sys2Proof.Machine
